-- ==== Sys2Proof/Word.lean ====
section
/-! DEFINITION. The words the BC-820's frames and tables are made of (spec 07, 7.2 and 7.2.1). -/

namespace Sys2Proof

/-- One byte of a frame or of a table entry body. -/
abbrev Byte := BitVec 8

/-- An equipment ID: a 16-bit identifier of a party on the network (00_scope, section 4). -/
abbrev EquipId := BitVec 16

/-- A vessel number or a cable ID: a 32-bit number (R1, R41, R60). -/
abbrev Num32 := BitVec 32

/-- A set of the five control cores, P1 to SP in bits 0 to 4 (7.2.2). -/
abbrev CoreSet := BitVec 5

end Sys2Proof
end

