-- ==== Sys2Proof/Config.lean ====
section
/-! DEFINITION. The sizes and bounds the spec fixes for every BC-820. The spec leaves no value open that a
command would have to invent, so there is no free value here (log entry 1). -/

namespace Sys2Proof.Config

/-- Frames a receive buffer holds (R122). -/
def rxDepth : Nat := 4
/-- Slots of a transmit queue (R133). -/
def txSlots : Nat := 8
/-- Free slots a forwarded frame needs (R133). -/
def forwardRoom : Nat := 3
/-- Frames a berth's HOLD QUEUE holds (R143). -/
def holdPlaces : Nat := 2
/-- Records the NOTICE QUEUE holds (R157). -/
def noticeDepth : Nat := 32
/-- Limited notices a berth may send in one night (R156). -/
def nightlyAllowance : Nat := 16
/-- Largest payload of a frame (7.2). -/
def maxPayload : Nat := 48
/-- Bytes of an entry one frame of a read series carries (R162). -/
def seriesBytes : Nat := 43
/-- Where the 16-bit counts saturate (R23, R123, R138). -/
def countMax : Nat := 65535
/-- Where the 8-bit counts saturate (R41, R153). -/
def byteMax : Nat := 255
/-- Seconds of a day (R148). -/
def daySeconds : Nat := 86400
/-- Seconds of an hour (R148). -/
def hourSeconds : Nat := 3600
/-- The night number returns to 0 from one less than this (R148). -/
def nightModulus : Nat := 65536
/-- Most steps of one ramp (R102). -/
def rampMaxSteps : Nat := 64
/-- Consecutive failed steps that abort a ramp (R103, R104). -/
def stepFailureLimit : Nat := 2
/-- Soft count that marks a core hard (R50). -/
def softFaultLimit : Nat := 3
/-- Where a bypass count stops (R70). -/
def bypassMax : Nat := 7
/-- Largest grant an adoption takes (R10). -/
def grantCap : Nat := 250
/-- The own ID after power-on (R164). -/
def powerOnId : EquipId := 0x0001#16
/-- How many grants one run of an arbiter's choice may make: a grant whose frame meets a full transmit queue ends
at once and the choice runs again (R87, R90). A berth can be granted at most four times in such a run (two STEPs in,
two STEPs out, then it is tripped), and a section has at most eight berths; DEDUCED, log entry 2. -/
def choiceBound : Nat := 64

end Sys2Proof.Config
end

