-- ==== Sys2Proof/Syntax.lean ====
section
/-! DEFINITION. The commands of the BC-820: one constructor per row of spec/opcode_table.json, in the table's order,
and the small types their operands have. A command is one of the part's steps, each whole and indivisible (file 95). -/

namespace Sys2Proof

/-- A berth: berth n of the spec is `n - 1` (R1). -/
abbrev BerthId := Fin 8

/-- A port by its PORTS entry (7.1): entry n is `n - 1`; B1 to B8 are 0 to 7, SA 8, SB 9, SUP 10. -/
abbrev Port := Fin 11

/-- A switchgear section. -/
inductive SectionId
  | A
  | B
  deriving DecidableEq, Repr

/-- A line's level (R23). -/
inductive Level
  | active
  | inactive
  deriving DecidableEq, Repr

/-- The three fault lines (chapter 2). -/
inductive FaultLine
  | estop
  | pilot
  | strain
  deriving DecidableEq, Repr

/-- The levels found at one berth's four line inputs (R23, power-on). -/
structure LineInputs where
  estop : Level
  pilot : Level
  strain : Level
  latch : Level
  deriving DecidableEq, Repr

/-- The commands. A command that takes a frame names the port whose receive buffer the FORWARDING UNIT takes it from
(R122): the frame is the head of that buffer. A command that is an expiry names the owner of the timer (R149). -/
inductive Instr
  /-- POWER_ON (R164): `found` is the level found at each line input. -/
  | powerOn (found : Vector LineInputs 8)
  /-- RESTART (R165): the RESTART request at the head of `p`'s buffer is taken. -/
  | restart (p : Port)
  /-- CLOCK_TICK (R148, R149). -/
  | clockTick
  /-- NIGHT_BOUNDARY (R152): the housekeeping of a boundary second that a tick has reached. -/
  | nightBoundary
  /-- RECEIVE_FRAME (R122): the bytes of a frame whose end has arrived on `p`. -/
  | receiveFrame (p : Port) (bytes : List Byte)
  /-- TRANSMIT_START (R133): the link of `p` is free. -/
  | transmitStart (p : Port)
  /-- NOTICE_OFFER (R158). -/
  | noticeOffer
  /-- GATE_DECISION (R135): an ORDER, or a REQUEST no other row names, is taken from `p`. -/
  | gateDecision (p : Port)
  /-- FORWARD_FRAME (R132): a REPLY, REFUSAL or NOTICE, or a frame of no known kind or code, is taken from `p`. -/
  | forwardFrame (p : Port)
  /-- SHORE_WANTED (R5). -/
  | shoreWanted (p : Port)
  /-- RELEASE_WANTED (R8). -/
  | releaseWanted (p : Port)
  /-- WITHDRAW (R6). -/
  | withdraw (p : Port)
  /-- SERVICE (R9). -/
  | service (p : Port)
  /-- OUT_OF_SERVICE (R12). -/
  | outOfService (p : Port)
  /-- ADMIT (R5). -/
  | admitBerth (p : Port)
  /-- RELEASE (R7). -/
  | release (p : Port)
  /-- ACK_TRIP (R22). -/
  | ackTrip (p : Port)
  /-- SET_CLOCK (R150). -/
  | setClock (p : Port)
  /-- TABLE_READ (R159). -/
  | tableRead (p : Port)
  /-- TABLE_WRITE (R159): a WRITE to PORTS or to a table that does not exist. -/
  | tableWrite (p : Port)
  /-- EQUIPMENT_WRITE (R126). -/
  | equipmentWrite (p : Port)
  /-- GATE_WRITE (R140). -/
  | gateWrite (p : Port)
  /-- BERTHS_WRITE (R161). -/
  | berthsWrite (p : Port)
  /-- SECTIONS_WRITE (R62). -/
  | sectionsWrite (p : Port)
  /-- PROFILES_WRITE (R61). -/
  | profilesWrite (p : Port)
  /-- CABLES_WRITE (R57). -/
  | cablesWrite (p : Port)
  /-- TIMINGS_WRITE (R163). -/
  | timingsWrite (p : Port)
  /-- LINES_WRITE (R25). -/
  | linesWrite (p : Port)
  /-- DEVICE_WRITE (R162). -/
  | deviceWrite (p : Port)
  /-- POSITION (R130). -/
  | position (p : Port)
  /-- SYNC_RESULT (R89). -/
  | syncResult (p : Port)
  /-- CORE_TEST (R46). -/
  | coreTest (p : Port)
  /-- ASSIGN_DONE (R48). -/
  | assignDone (p : Port)
  /-- SHIP_STATE (R76). -/
  | shipState (p : Port)
  /-- STEP_DONE (R89). -/
  | stepDone (p : Port)
  /-- HOLD_STATE (R115). -/
  | holdState (p : Port)
  /-- VESSEL_ID (R14). -/
  | vesselId (p : Port)
  /-- CONVERTER_STATE (R66). -/
  | converterState (p : Port)
  /-- FEEDER_STATE (R79). -/
  | feederState (p : Port)
  /-- LOCAL_CLAIM (R94). -/
  | localClaim (p : Port)
  /-- LOCAL_RELEASE (R95). -/
  | localRelease (p : Port)
  /-- ESTOP_ACTIVATION (R28). -/
  | estopActivation (b : BerthId)
  /-- PILOT_ACTIVATION (R29). -/
  | pilotActivation (b : BerthId)
  /-- STRAIN_ACTIVATION (R31). -/
  | strainActivation (b : BerthId)
  /-- FAULT_LINE_DEACTIVATION (R24). -/
  | faultLineDeactivation (b : BerthId) (l : FaultLine)
  /-- LATCH_ACTIVATION (R13). -/
  | latchActivation (b : BerthId)
  /-- LATCH_DEACTIVATION (R16). -/
  | latchDeactivation (b : BerthId)
  /-- STRAIN_GRACE_EXPIRY (R33). -/
  | strainGraceExpiry (b : BerthId)
  /-- TRIP_OPEN_TIMEOUT (R37). -/
  | tripOpenTimeout (b : BerthId)
  /-- CORE_TEST_TIMEOUT (R45). -/
  | coreTestTimeout (b : BerthId)
  /-- OPERATION_TIMEOUT (R89). -/
  | operationTimeout (b : BerthId)
  /-- STEP_SPACING_EXPIRY (R93). -/
  | stepSpacingExpiry (x : SectionId)
  /-- LOCK_TIMER_EXPIRY (R99). -/
  | lockTimerExpiry (x : SectionId)
  /-- GRANT_WAIT_EXPIRY (R103). -/
  | grantWaitExpiry (b : BerthId)
  /-- PAUSE_EXPIRY (R116). -/
  | pauseExpiry (b : BerthId)
  /-- CONVERTER_START_TIMEOUT (R106). -/
  | converterStartTimeout (b : BerthId)
  /-- CHANGEOVER_START (R106): the oldest berth granted and not yet started. -/
  | changeoverStart
  /-- HOLD_TIMEOUT (R107). -/
  | holdTimeout (b : BerthId)
  /-- DEAD_WAIT_EXPIRY (R111). -/
  | deadWaitExpiry (b : BerthId)
  /-- GENS_OFF_WAIT_EXPIRY (R110). -/
  | gensOffWaitExpiry (b : BerthId)
  /-- OVERDRAW_EXPIRY (R78). -/
  | overdrawExpiry (b : BerthId)
  /-- HOLD_QUEUE_EXPIRY (R146): the frame at `place` of the berth's hold queue, 0 the oldest. -/
  | holdQueueExpiry (b : BerthId) (place : Nat)
  deriving DecidableEq, Repr

end Sys2Proof
end

