-- ==== Sys2Proof/WellFormed.lean ====
section
/-! DEFINITION. Which commands the outside can give: the checks on operands that their types do not already make. -/

namespace Sys2Proof

/-- A received frame has at least one byte. DESIGN CHOICE, safe (log entry 34): chapter 7.1 does not say whether a start
mark followed at once by an end mark is a received frame, and the outside gives no such RECEIVE_FRAME. -/
def wellFormedFrame (bytes : List Byte) : Bool := decide (0 < bytes.length)

/-- A HOLD QUEUE has two places (R143). -/
def wellFormedPlace (place : Nat) : Bool := decide (place < Config.holdPlaces)

/-- The commands whose operands name something that exists. -/
def Instr.wellFormed : Instr → Bool
  | .receiveFrame _ bytes => wellFormedFrame bytes
  | .holdQueueExpiry _ place => wellFormedPlace place
  | .powerOn _ | .restart _ | .clockTick | .nightBoundary | .transmitStart _ | .noticeOffer
  | .gateDecision _ | .forwardFrame _ | .shoreWanted _ | .releaseWanted _ | .withdraw _ | .service _
  | .outOfService _ | .admitBerth _ | .release _ | .ackTrip _ | .setClock _ | .tableRead _ | .tableWrite _
  | .equipmentWrite _ | .gateWrite _ | .berthsWrite _ | .sectionsWrite _ | .profilesWrite _ | .cablesWrite _
  | .timingsWrite _ | .linesWrite _ | .deviceWrite _ | .position _ | .syncResult _ | .coreTest _ | .assignDone _
  | .shipState _ | .stepDone _ | .holdState _ | .vesselId _ | .converterState _ | .feederState _ | .localClaim _
  | .localRelease _ | .estopActivation _ | .pilotActivation _ | .strainActivation _ | .faultLineDeactivation _ _
  | .latchActivation _ | .latchDeactivation _ | .strainGraceExpiry _ | .tripOpenTimeout _ | .coreTestTimeout _
  | .operationTimeout _ | .stepSpacingExpiry _ | .lockTimerExpiry _ | .grantWaitExpiry _ | .pauseExpiry _
  | .converterStartTimeout _ | .changeoverStart | .holdTimeout _ | .deadWaitExpiry _ | .gensOffWaitExpiry _
  | .overdrawExpiry _ => true

end Sys2Proof
end

