-- ==== Sys2Proof/Decode.lean ====
section
/-! DEFINITION. The command a word of the opcode table spells. No row of this hardware's table has bits (every row's
"fields" is empty and none has "fixed"): the commands are events, not encoded words, so no word spells one. The
frames that cross the ports have a byte layout of their own, read in Machine/Operands.lean. -/

namespace Sys2Proof

/-- No row of the table gives bits, so no word is a command. -/
def decodeTableWord (_nbits _w : Nat) : Option Instr := none

end Sys2Proof
end

