-- ==== Sys2Proof/Machine/State.lean ====
section
/-! DEFINITION. What the BC-820 holds: the records of its twelve blocks as the spec lists them, and its state after
power-on (R164). Names follow the spec; `sec` is its "section" (a word Lean keeps for itself). -/

namespace Sys2Proof.Machine

/-! ## Names -/

/-- The twelve berth states in their fixed order (1.2). -/
inductive BerthState
  | outOfService
  | vacant
  | plugged
  | proved
  | queued
  | admitted
  | closing
  | rampIn
  | onShore
  | rampOut
  | opening
  | tripped
  deriving DecidableEq, Repr

/-- The twelve trip causes in the order of 1.7. -/
inductive TripCause
  | estop
  | pilotLost
  | strain
  | latchLost
  | cableFault
  | feederLost
  | breakerOpened
  | breakerClosed
  | breakerFail
  | converterFault
  | overdraw
  | rampFailed
  deriving DecidableEq, Repr

/-- Why a proving run fails (R55). -/
inductive FailReason
  | timeout
  | portFull
  | cableInUse
  | unserviceable
  | assignFailed
  | cableChanged
  | noSpare
  deriving DecidableEq, Repr

/-- What a berth's in-flight operation record times (R1). -/
inductive InFlightKind
  | coreTest
  | assign
  | converterStart
  | holdHandshake
  | deadWait
  | syncClose
  | deadClose
  | step
  | openOp
  | gensOffWait
  | tripOpen
  deriving DecidableEq, Repr

/-- The four arbitrated operations (R81). -/
inductive OpKind
  | syncClose
  | deadClose
  | step
  | openOp
  deriving DecidableEq, Repr

/-- Why an operation ends failed (R87, R89). -/
inductive OpFailure
  | syncFailed
  | breakerFaulted
  | timeout
  | refused
  | portFull
  deriving DecidableEq, Repr

inductive BayId
  | bay1
  | bay2
  deriving DecidableEq, Repr

/-- State of a converter bay (R65). -/
inductive BayState
  | free
  | granted
  | faulted
  deriving DecidableEq, Repr

inductive FeederState
  | live
  | lost
  | unknown
  deriving DecidableEq, Repr

/-- State of a section's arbiter (R82); `localPanel` is LOCAL. -/
inductive ArbiterState
  | partIdle
  | partBusy
  | localPanel
  deriving DecidableEq, Repr

inductive LockSource
  | close
  | block
  | demand
  deriving DecidableEq, Repr

inductive PriorityMode
  | fixed
  | rotating
  deriving DecidableEq, Repr

inductive Frequency
  | f50
  | f60
  deriving DecidableEq, Repr

inductive Method
  | live
  | dead
  deriving DecidableEq, Repr

inductive RampMode
  | single
  | block
  | demand
  deriving DecidableEq, Repr

inductive Direction
  | inward
  | outward
  deriving DecidableEq, Repr

/-- Why a ramp aborts (R117). -/
inductive AbortCause
  | stepFailures
  | holdWithdrawn
  | pauseExpired
  | holdFailed
  deriving DecidableEq, Repr

/-- What the pause-limit timer times (R101). -/
inductive PauseRole
  | grantWait
  | pause
  deriving DecidableEq, Repr

inductive OverdrawStage
  | first
  | shedSent
  deriving DecidableEq, Repr

inductive ProvingStep
  | idle
  | test1
  | retest
  | assign
  | test3
  deriving DecidableEq, Repr

/-- The five control cores (R40). -/
inductive Core
  | p1
  | p2
  | p3
  | p4
  | sp
  deriving DecidableEq, Repr

/-- The four functions a cable carries (R40). -/
inductive Func
  | pilot
  | earth
  | latch
  | ready
  deriving DecidableEq, Repr

inductive CoreResult
  | ok
  | opened
  | short
  | leak
  deriving DecidableEq, Repr

inductive Condition
  | serviceable
  | unserviceable
  deriving DecidableEq, Repr

inductive Enable
  | enabled
  | disabled
  deriving DecidableEq, Repr

inductive Sense
  | edge
  | level
  deriving DecidableEq, Repr

/-- The nine classes of the EQUIPMENT MAP (R125). -/
inductive EquipClass
  | shoreBreaker
  | earthSwitch
  | plugStation
  | shipPms
  | synchroniser
  | feederMonitor
  | localPanel
  | converter
  | supervisor
  deriving DecidableEq, Repr

/-- The kinds a GATE entry may name (R138). -/
inductive GateKind
  | order
  | request
  deriving DecidableEq, Repr

inductive GateAction
  | pass
  | hold
  | refuse
  | discard
  deriving DecidableEq, Repr

/-- REPLY and TABLE reply statuses, in their numbered order (7.2.1). -/
inductive Status
  | accepted
  | badState
  | noProfile
  | feederDown
  | lineActive
  | inUse
  | badTable
  | badIndex
  | badValue
  | notPermitted
  | busy
  deriving DecidableEq, Repr

/-- REFUSAL reasons, in their numbered order (7.2.1). -/
inductive Reason
  | noRule
  | byRule
  | guarded
  | noBerth
  | holdFull
  | holdExpired
  | berthTripped
  | congested
  | restart
  deriving DecidableEq, Repr

/-- The 24 notice kinds, in their numbered order (7.2.2). -/
inductive NoticeKind
  | tripped
  | tripCleared
  | lineEvent
  | cableSubstituted
  | cableUnserviceable
  | unknownVessel
  | admitted
  | grantGrown
  | overdraw
  | shedSent
  | sectionOver
  | feederLost
  | feederRestored
  | bayFaulted
  | lockBroken
  | changeoverDone
  | changeoverFailed
  | gensNotOff
  | releaseDone
  | releaseFailed
  | adopted
  | limitReached
  | nightSummary
  | restarted
  deriving DecidableEq, Repr

inductive Breaker
  | opened
  | closed
  | faulted
  deriving DecidableEq, Repr

inductive SyncOutcome
  | matched
  | failed
  deriving DecidableEq, Repr

inductive HoldAnswer
  | granted
  | refused
  | withdrawn
  deriving DecidableEq, Repr

inductive ConverterRun
  | running
  | stopped
  | faulted
  deriving DecidableEq, Repr

/-! ## Records -/

/-- A timer: stopped, or running with its remaining seconds; 0 left means its expiry is due (R149, log entry 4). -/
abbrev Timer := Option Nat

/-- A frame that has passed, or was built to pass, the frame checks: the header and payload of 7.2; the Length and
the Check follow from them. -/
structure Frame where
  dst : EquipId
  src : EquipId
  kind : Byte
  code : Byte
  tag : Byte
  payload : List Byte
  deriving DecidableEq, Repr

/-- A frame in a transmit queue: `arrival` is the port a forwarded frame arrived on, none for a part-originated
one (R133). -/
structure TxFrame where
  frame : Frame
  arrival : Option Port
  deriving DecidableEq, Repr

/-- A held-frame record (R142). -/
structure HeldFrame where
  frame : Frame
  arrival : Port
  srcClass : EquipClass
  dstClass : EquipClass
  stampSecond : Nat
  stampNight : Nat
  timer : Nat
  deriving DecidableEq, Repr

/-- The in-flight operation record (R1). -/
structure InFlight where
  kind : InFlightKind
  start : Nat
  timer : Nat
  deriving DecidableEq, Repr

/-- The ramp channel (R101). -/
structure Ramp where
  direction : Direction
  stepUnits : Nat
  baseCount : Nat
  currentCount : Nat
  mode : RampMode
  effMode : RampMode
  demoted : Bool
  failures : Nat
  terminal : Bool
  masked : Bool
  aborting : Bool
  abortCause : Option AbortCause
  paused : Bool
  pauseTimer : Option (PauseRole × Nat)
  shoreSeen : Option Nat
  deriving DecidableEq, Repr

/-- The admission terms (R64). -/
structure Terms where
  frequency : Frequency
  method : Method
  rampMode : RampMode
  step : Nat
  deriving DecidableEq, Repr

structure CoreTestReport where
  cable : Num32
  p1 : CoreResult
  p2 : CoreResult
  p3 : CoreResult
  p4 : CoreResult
  sp : CoreResult
  deriving DecidableEq, Repr

structure AssignDoneReport where
  func : Func
  core : Core
  ok : Bool
  deriving DecidableEq, Repr

structure ShipStateReport where
  shipLoad : Nat
  shoreLoad : Nat
  gensRunning : Bool
  busDead : Bool
  deriving DecidableEq, Repr

structure StepDoneReport where
  done : Bool
  shoreLoad : Nat
  deriving DecidableEq, Repr

/-- The berth byte is kept as reported: it need not name a berth. -/
structure ConverterReport where
  bay : BayId
  berth : Byte
  run : ConverterRun
  deriving DecidableEq, Repr

/-- The latest observed values kept with a berth (R131). -/
structure BerthObserved where
  coreTest : Option CoreTestReport
  assignDone : Option AssignDoneReport
  shipState : Option ShipStateReport
  stepDone : Option StepDoneReport
  holdState : Option HoldAnswer
  vesselId : Option Num32
  deriving DecidableEq, Repr

/-- The nightly tally (R153). -/
structure Tally where
  cable : Option Num32
  estop : Nat
  pilot : Nat
  strain : Nat
  latch : Nat
  trips : Nat
  deriving DecidableEq, Repr

/-- The last-night record (R154). -/
structure LastNight where
  night : Nat
  cable : Option Num32
  tests : Nat
  andMask : CoreSet
  orMask : CoreSet
  estop : Nat
  pilot : Nat
  strain : Nat
  latch : Nat
  trips : Nat
  deriving DecidableEq, Repr

/-- A berth's record (R1) with the admission terms and overdraw (R64, R77), the proving comparison set (R44), the
function of the ASSIGN_CORE outstanding (R48, R52), the observed values (R131) and the night's tallies (R153, R154). -/
structure Berth where
  state : BerthState
  sec : SectionId
  vessel : Option Num32
  profile : Option (Fin 24)
  cable : Option Num32
  grant : Nat
  bay : Option BayId
  tripCause : Option TripCause
  breakerFail : Bool
  adopted : Bool
  holdGranted : Bool
  inFlight : Option InFlight
  ramp : Ramp
  holdQueue : List HeldFrame
  provingStep : ProvingStep
  provingPassed : Bool
  noticeCount : Nat
  noticeLimited : Bool
  bypass : Nat
  terms : Option Terms
  overdraw : Timer
  overdrawStage : OverdrawStage
  comparison : CoreSet
  assignOrder : Option Func
  obs : BerthObserved
  tally : Tally
  lastNight : Option LastNight
  deriving DecidableEq, Repr

/-- One line's record (R23); LATCH has neither enable nor sense and never uses those two fields. -/
structure LineRec where
  enable : Enable
  sense : Sense
  level : Level
  stamp : Option (Nat × Nat)
  count : Nat
  deriving DecidableEq, Repr

/-- The four lines of a berth and the strain timer (R23). -/
structure BerthLines where
  estop : LineRec
  pilot : LineRec
  strain : LineRec
  latch : LineRec
  strainTimer : Timer
  deriving DecidableEq, Repr

/-- The five soft counts of a cable record (R41). -/
structure SoftCounts where
  p1 : Nat
  p2 : Nat
  p3 : Nat
  p4 : Nat
  sp : Nat
  deriving DecidableEq, Repr

/-- A cable record (R41). -/
structure CableRec where
  cable : Num32
  condition : Condition
  map : Option Func
  soft : SoftCounts
  hard : CoreSet
  tests : Nat
  andMask : CoreSet
  orMask : CoreSet
  lastSeen : Nat
  berth : Option BerthId
  deriving DecidableEq, Repr

/-- A vessel profile (R60). -/
structure Profile where
  vessel : Num32
  demand : Nat
  frequency : Frequency
  method : Method
  rampMode : RampMode
  step : Nat
  deriving DecidableEq, Repr

/-- A section's lock (R81, R96); `limit` is the lock limit it was taken with, which R99's notice reports. -/
structure Lock where
  holder : BerthId
  source : LockSource
  timer : Nat
  limit : Nat
  deriving DecidableEq, Repr

/-- A section's record in the ADMISSION UNIT (R62), its arbiter (R81) and its latest SYNC_RESULT (R131). -/
structure SectionRec where
  limit : Nat
  bypassLimit : Nat
  granted : Nat
  overFlag : Bool
  feeder : FeederState
  queue : List BerthId
  arbiter : ArbiterState
  op : Option (BerthId × OpKind)
  requests : Vector (Option OpKind) 8
  localPending : Bool
  lock : Option Lock
  lastGranted : Option BerthId
  spacing : Timer
  mode : PriorityMode
  syncResult : Option SyncOutcome
  deriving DecidableEq, Repr

/-- A converter bay's record (R65) and its latest CONVERTER_STATE (R131). -/
structure BayRec where
  state : BayState
  berth : Option BerthId
  report : Option ConverterReport
  deriving DecidableEq, Repr

/-- An EQUIPMENT MAP entry (R125) and the latest POSITION kept with it (R131). -/
structure EquipEntry where
  id : EquipId
  cls : EquipClass
  port : Port
  berth : Option BerthId
  sec : Option SectionId
  bay : Option BayId
  position : Option Breaker
  deriving DecidableEq, Repr

/-- The states a GATE entry names: ANY, or a set with the twelve states in bits 0 to 11 (R138, R161). -/
inductive StateSet
  | any
  | of (states : BitVec 12)
  deriving DecidableEq, Repr

/-- A GATE TABLE entry; none is ANY (R138). -/
structure GateEntry where
  valid : Bool
  srcClass : Option EquipClass
  dstClass : Option EquipClass
  kind : GateKind
  code : Option Byte
  states : StateSet
  action : GateAction
  hits : Nat
  deriving DecidableEq, Repr

/-- A port (R122, R123, R133): received frames as their bytes, frames to send, the frame whose sending started
last, the three error counts and the tag count. -/
structure PortRec where
  rx : List (List Byte)
  tx : List TxFrame
  onLink : Option TxFrame
  checkErrors : Nat
  overruns : Nat
  unmapped : Nat
  tagCount : Nat
  deriving DecidableEq, Repr

/-- A notice record (R155). -/
structure NoticeRec where
  kind : NoticeKind
  berth : Option BerthId
  sec : Option SectionId
  night : Nat
  second : Nat
  detail : List Byte
  lostAfter : Bool
  deriving DecidableEq, Repr

/-- The NIGHT CLOCK (R148); `boundaryDue`: a tick has reached the boundary second and the housekeeping has not run
yet (log entry 5). -/
structure Clock where
  time : Nat
  night : Nat
  boundaryHour : Nat
  boundaryDue : Bool
  deriving DecidableEq, Repr

/-- The TIMING TABLE (R163). -/
structure Timings where
  coreTest : Nat
  operate : Nat
  sync : Nat
  step : Nat
  stepSpacing : Nat
  hold : Nat
  pauseLimit : Nat
  deadWait : Nat
  converterStart : Nat
  gensOffWait : Nat
  strainGrace : Nat
  overdraw : Nat
  lockLimit : Nat
  holdLimit : Nat
  deriving DecidableEq, Repr

/-- The whole part. `startQueue` holds the berths granted and not yet started (R69); `passA` and `passB` say that
the event in progress has called for a service pass in the section, and are clear between commands (R69);
`pending` is the queue of commands, the oldest first. -/
structure State where
  berths : Vector Berth 8
  lines : Vector BerthLines 8
  cables : Vector (Option CableRec) 32
  profiles : Vector (Option Profile) 24
  sectionA : SectionRec
  sectionB : SectionRec
  bay1 : BayRec
  bay2 : BayRec
  bayTurn : SectionId
  startQueue : List BerthId
  passA : Bool
  passB : Bool
  ports : Vector PortRec 11
  equipment : Vector (Option EquipEntry) 64
  ownId : EquipId
  gate : Vector GateEntry 48
  clock : Clock
  notices : List NoticeRec
  timings : Timings
  retention : Nat
  pending : List Instr
  deriving DecidableEq, Repr

/-! ## Why a step can stop -/

/-- No rule of the spec stops the part, so there is no fault (log entry 1). -/
inductive Fault
  deriving DecidableEq, Repr

/-- The one refusal, which the host fixes. -/
inductive Refusal
  /-- Raised by exec's arm of a command that has no meaning yet; no arm raises it now. Safe: the model stops where
  the part goes on. -/
  | notModelled (mnemonic : String)
  deriving DecidableEq, Repr

/-! ## Power-on (R164) -/

/-- The ramp channel at power-on and RESTART (R101). -/
def Ramp.initial : Ramp where
  direction := .inward
  stepUnits := 0
  baseCount := 0
  currentCount := 0
  mode := .single
  effMode := .single
  demoted := false
  failures := 0
  terminal := false
  masked := true
  aborting := false
  abortCause := none
  paused := false
  pauseTimer := none
  shoreSeen := none

/-- No value observed (R131). -/
def BerthObserved.absent : BerthObserved := ⟨none, none, none, none, none, none⟩

/-- A cleared tally (R153). -/
def Tally.cleared : Tally := ⟨none, 0, 0, 0, 0, 0⟩

/-- A berth's record at power-on (R1). -/
def Berth.initial (x : SectionId) : Berth where
  state := .outOfService
  sec := x
  vessel := none
  profile := none
  cable := none
  grant := 0
  bay := none
  tripCause := none
  breakerFail := false
  adopted := false
  holdGranted := false
  inFlight := none
  ramp := Ramp.initial
  holdQueue := []
  provingStep := .idle
  provingPassed := false
  noticeCount := 0
  noticeLimited := false
  bypass := 0
  terms := none
  overdraw := none
  overdrawStage := .first
  comparison := 0#5
  assignOrder := none
  obs := BerthObserved.absent
  tally := Tally.cleared
  lastNight := none

/-- A line at power-on with the level found at its input (R23). -/
def LineRec.found (l : Level) : LineRec := ⟨.enabled, .edge, l, none, 0⟩

/-- A berth's lines at power-on (R23). -/
def BerthLines.found (i : LineInputs) : BerthLines :=
  ⟨.found i.estop, .found i.pilot, .found i.strain, .found i.latch, none⟩

/-- A section at power-on (R62, R81). -/
def SectionRec.initial : SectionRec where
  limit := 0
  bypassLimit := 3
  granted := 0
  overFlag := false
  feeder := .unknown
  queue := []
  arbiter := .partIdle
  op := none
  requests := Vector.replicate 8 none
  localPending := false
  lock := none
  lastGranted := none
  spacing := none
  mode := .rotating
  syncResult := none

/-- A bay at power-on (R65). -/
def BayRec.initial : BayRec := ⟨.free, none, none⟩

/-- A GATE entry at power-on (R138). -/
def GateEntry.invalid : GateEntry := ⟨false, none, none, .order, none, .any, .refuse, 0⟩

/-- A port at power-on (R164). -/
def PortRec.initial : PortRec := ⟨[], [], none, 0, 0, 0, 0⟩

/-- The TIMING TABLE's defaults (R163). -/
def Timings.defaults : Timings where
  coreTest := 5
  operate := 2
  sync := 20
  step := 15
  stepSpacing := 10
  hold := 30
  pauseLimit := 120
  deadWait := 60
  converterStart := 60
  gensOffWait := 60
  strainGrace := 60
  overdraw := 120
  lockLimit := 20
  holdLimit := 30

/-- The part right after power-on with the given levels found at its line inputs (R164). -/
def State.powerOn (found : Vector LineInputs 8) : State where
  berths := #v[.initial .A, .initial .A, .initial .A, .initial .A, .initial .B, .initial .B, .initial .B, .initial .B]
  lines := found.map BerthLines.found
  cables := Vector.replicate 32 none
  profiles := Vector.replicate 24 none
  sectionA := SectionRec.initial
  sectionB := SectionRec.initial
  bay1 := BayRec.initial
  bay2 := BayRec.initial
  bayTurn := .A
  startQueue := []
  passA := false
  passB := false
  ports := Vector.replicate 11 PortRec.initial
  equipment := Vector.replicate 64 none
  ownId := Config.powerOnId
  gate := Vector.replicate 48 GateEntry.invalid
  clock := ⟨0, 0, 12, false⟩
  notices := []
  timings := Timings.defaults
  retention := 10
  pending := []

/-- All four lines of a berth inactive. -/
def LineInputs.quiet : LineInputs := ⟨.inactive, .inactive, .inactive, .inactive⟩

/-- The part after power-on (R164). The spec gives a line the level found at its input; this state finds every line
INACTIVE. DESIGN CHOICE, log entry 10. -/
def State.reset : State := State.powerOn (Vector.replicate 8 LineInputs.quiet)

end Sys2Proof.Machine
end

