-- ==== Sys2Proof/Machine/Ops.lean ====
section
/-! DEFINITION. The named operations over State: reading and updating one record, timers and saturating counts,
lookups in the tables. Every operation takes the state last, so a rule reads as a pipeline of its steps. -/

namespace Sys2Proof.Machine

/-! ## One record at a time -/

def State.berth (s : State) (b : BerthId) : Berth := s.berths[b]
def State.line (s : State) (b : BerthId) : BerthLines := s.lines[b]
def State.port (s : State) (p : Port) : PortRec := s.ports[p]

/-- A section's record. -/
def State.sec (s : State) : SectionId → SectionRec
  | .A => s.sectionA
  | .B => s.sectionB

/-- A bay's record. -/
def State.bay (s : State) : BayId → BayRec
  | .bay1 => s.bay1
  | .bay2 => s.bay2

def updBerth (b : BerthId) (f : Berth → Berth) (s : State) : State :=
  { s with berths := s.berths.set b (f (s.berth b)) }

def updLine (b : BerthId) (f : BerthLines → BerthLines) (s : State) : State :=
  { s with lines := s.lines.set b (f (s.line b)) }

def updPort (p : Port) (f : PortRec → PortRec) (s : State) : State :=
  { s with ports := s.ports.set p (f (s.port p)) }

def updSec (x : SectionId) (f : SectionRec → SectionRec) (s : State) : State :=
  match x with
  | .A => { s with sectionA := f s.sectionA }
  | .B => { s with sectionB := f s.sectionB }

def updBay (k : BayId) (f : BayRec → BayRec) (s : State) : State :=
  match k with
  | .bay1 => { s with bay1 := f s.bay1 }
  | .bay2 => { s with bay2 := f s.bay2 }

def updRamp (b : BerthId) (f : Ramp → Ramp) : State → State :=
  updBerth b fun r => { r with ramp := f r.ramp }

/-- The section a berth is configured in (R1). -/
def State.secOf (s : State) (b : BerthId) : SectionId := (s.berth b).sec

def otherSection : SectionId → SectionId
  | .A => .B
  | .B => .A

/-- The berths in ascending order. -/
def allBerths : List BerthId := [0, 1, 2, 3, 4, 5, 6, 7]

/-- The ports in the order of the PORTS table. -/
def allPorts : List Port := [0, 1, 2, 3, 4, 5, 6, 7, 8, 9, 10]

/-- The port that serves a berth (R1). -/
def portOfBerth (b : BerthId) : Port := ⟨b.val, Nat.lt_trans b.isLt (by decide)⟩

def portSA : Port := 8
def portSB : Port := 9
def portSUP : Port := 10

/-- The port of a section (7.1). -/
def portOfSection : SectionId → Port
  | .A => portSA
  | .B => portSB

/-- Each of the berths in turn, ascending. -/
def forBerths (f : BerthId → State → State) (s : State) : State :=
  allBerths.foldl (fun t b => f b t) s

/-! ## Counts and timers -/

/-- A count that saturates at `top`. -/
def satInc (top n : Nat) : Nat := if n < top then n + 1 else top

/-- One tick of a timer (R149): a running timer loses one second; at 0 its expiry is due and it stays. -/
def Timer.tick (t : Timer) : Timer := t.map (· - 1)

/-- A timer whose expiry is due (R149). -/
def Timer.due (t : Timer) : Bool := t == some 0

/-- The remaining seconds as a read shows them: a stopped timer reads 0 (R161). -/
def Timer.shown (t : Timer) : Nat := t.getD 0

/-- A step spacing of 0 starts no timer (R93). -/
def Timer.startUnlessZero (n : Nat) : Timer := if n = 0 then none else some n

/-- The smallest whole number not less than the quotient (00, section 5). -/
def divUp (n d : Nat) : Nat := (n + d - 1) / d

/-! ## The EQUIPMENT MAP (R125) -/

def State.entries (s : State) : List EquipEntry := s.equipment.toList.filterMap id

/-- The entry that holds an equipment ID. -/
def State.entryOf (s : State) (i : EquipId) : Option EquipEntry := s.entries.find? (·.id == i)

/-- The entry of a class that carries a berth. -/
def State.berthEntry (s : State) (c : EquipClass) (b : BerthId) : Option EquipEntry :=
  s.entries.find? fun e => e.cls == c && e.berth == some b

/-- The entry of a class that carries a section. -/
def State.secEntry (s : State) (c : EquipClass) (x : SectionId) : Option EquipEntry :=
  s.entries.find? fun e => e.cls == c && e.sec == some x

/-- The CONVERTER entry of a bay. -/
def State.converterEntry (s : State) (k : BayId) : Option EquipEntry :=
  s.entries.find? fun e => e.cls == .converter && e.bay == some k

/-- The SUPERVISOR entry (R125). -/
def State.supervisor (s : State) : Option EquipEntry := s.entries.find? fun e => e.cls == .supervisor

/-- The latest POSITION of a berth's shore breaker (R131). -/
def State.position (s : State) (b : BerthId) : Option Breaker :=
  (s.berthEntry .shoreBreaker b).bind (·.position)

/-- Stores a POSITION with the entry of an ID (R131). -/
def storePosition (i : EquipId) (p : Breaker) (s : State) : State :=
  { s with equipment := s.equipment.map (Option.map fun e => if e.id == i then { e with position := some p } else e) }

/-! ## Profiles and cable records -/

/-- The profile a berth names, if its index is present and the entry is not empty. -/
def State.profileOf (s : State) (b : BerthId) : Option Profile :=
  (s.berth b).profile.bind fun n => s.profiles[n]

/-- The VESSEL PROFILE TABLE entry that holds a vessel ID (R60). -/
def State.profileIndexOf (s : State) (v : Num32) : Option (Fin 24) :=
  (List.finRange 24).find? fun n => (s.profiles[n].map (·.vessel)) == some v

/-- The slot whose record has a cable ID (R41). -/
def State.cableSlotOf (s : State) (c : Num32) : Option (Fin 32) :=
  (List.finRange 32).find? fun n => (s.cables[n].map (·.cable)) == some c

/-- The record of the cable a berth names. -/
def State.cableSlot (s : State) (b : BerthId) : Option (Fin 32) :=
  (s.berth b).cable.bind s.cableSlotOf

def updCable (n : Fin 32) (f : CableRec → CableRec) (s : State) : State :=
  { s with cables := s.cables.set n (s.cables[n].map f) }

/-- Clears the berth field of every record that names the berth (R43). -/
def unlinkCable (b : BerthId) (s : State) : State :=
  { s with cables := s.cables.map (Option.map fun r => if r.berth == some b then { r with berth := none } else r) }

/-- The admission terms a profile gives (R64). -/
def Profile.terms (p : Profile) : Terms := ⟨p.frequency, p.method, p.rampMode, p.step⟩

/-! ## Groups of berth states -/

/-- CLOSING to OPENING: CLOSING, RAMP_IN, ON_SHORE, RAMP_OUT, OPENING (00, section 5). -/
def BerthState.closingToOpening : BerthState → Bool
  | .closing | .rampIn | .onShore | .rampOut | .opening => true
  | .outOfService | .vacant | .plugged | .proved | .queued | .admitted | .tripped => false

/-- The states that hold capacity (R2). -/
def BerthState.holdsCapacity : BerthState → Bool
  | .admitted | .closing | .rampIn | .onShore | .rampOut | .opening => true
  | .outOfService | .vacant | .plugged | .proved | .queued | .tripped => false

/-- The states in which a berth may hold its section's lock (R96). -/
def BerthState.mayLock : BerthState → Bool
  | .closing | .rampIn | .rampOut => true
  | .outOfService | .vacant | .plugged | .proved | .queued | .admitted | .onShore | .opening | .tripped => false

/-! ## The in-flight record -/

/-- Ends the timed activity of a berth: the record is cleared and its timer with it. -/
def clearInFlight (b : BerthId) : State → State :=
  updBerth b fun r => { r with inFlight := none }

/-- Sets the in-flight record with the current NIGHT CLOCK second (R1). -/
def startInFlight (b : BerthId) (k : InFlightKind) (seconds : Nat) (s : State) : State :=
  updBerth b (fun r => { r with inFlight := some ⟨k, s.clock.time, seconds⟩ }) s

/-- What the berth's in-flight record times. -/
def State.flying (s : State) (b : BerthId) : Option InFlightKind := (s.berth b).inFlight.map (·.kind)

/-- The berth's in-flight record has this kind and its timer's expiry is due. -/
def State.flyingDue (s : State) (b : BerthId) (k : InFlightKind) : Bool :=
  match (s.berth b).inFlight with
  | some r => r.kind == k && r.timer == 0
  | none => false

/-! ## What a rule may set going -/

/-- What a rule sets going where it says so: an arbiter's choice (R85), a choice after which the same event still has a
release or a choice to come (`early`), and the service passes called for (R69). An event runs its passes once, at its last
release, so an early choice only calls for those of the releases it makes. Inside the end of an operation (R90) no choice
runs, since one runs at its end (R83, R98); inside a feeder loss (R79) nothing runs on its own: the passes follow its last
release (log entries 7 and 8). -/
structure Hooks where
  choice : SectionId → State → State
  early : SectionId → State → State
  passes : State → State

/-- Neither a choice nor a pass runs. -/
def Hooks.quiet : Hooks := ⟨fun _ s => s, fun _ s => s, fun s => s⟩

/-- The hooks of a part of an event that another release or choice may follow: its choices are early ones (R69). -/
def Hooks.before (h : Hooks) : Hooks := { h with choice := h.early }

/-- Calls for a service pass in a section at the end of the event (R69). -/
def callPass (x : SectionId) (s : State) : State :=
  match x with
  | .A => { s with passA := true }
  | .B => { s with passB := true }

end Sys2Proof.Machine
end

