-- ==== Sys2Proof/Machine/Operands.lean ====
section
/-! DEFINITION. Bytes: how numbers, names and sets are packed (7.2, R161), the frame with its CRC (7.2), the payload
of each code (7.2.1, 7.2.2) and the frame checks of R124. -/

namespace Sys2Proof.Machine

/-! ## Numbers, most significant byte first (7.2) -/

def byte (n : Nat) : Byte := BitVec.ofNat 8 n
def bytes2 (n : Nat) : List Byte := [byte (n / 256), byte n]
def bytes3 (n : Nat) : List Byte := [byte (n / 65536), byte (n / 256), byte n]
def bytesId (i : EquipId) : List Byte := [i.extractLsb' 8 8, i.extractLsb' 0 8]
def bytes4 (v : Num32) : List Byte :=
  [v.extractLsb' 24 8, v.extractLsb' 16 8, v.extractLsb' 8 8, v.extractLsb' 0 8]

def idOf (h l : Byte) : EquipId := h ++ l
def num2 (h l : Byte) : Nat := h.toNat * 256 + l.toNat
def num3 (h m l : Byte) : Nat := (h.toNat * 256 + m.toNat) * 256 + l.toNat
def num4 (a b c d : Byte) : Num32 := a ++ b ++ c ++ d

/-- A flag: 1 set, 2 clear (R161). -/
def flag (f : Bool) : Byte := if f then 1#8 else 2#8

/-- The flag a byte means, if it means one. -/
def flagOf (b : Byte) : Option Bool :=
  match b.toNat with
  | 1 => some true
  | 2 => some false
  | _ => none

/-- A berth's number, or 0 for none. -/
def berthByte (b : Option BerthId) : Byte :=
  match b with
  | some n => byte (n.val + 1)
  | none => 0#8

/-- The berth a byte names: 1 to 8 (R4). -/
def berthOf (b : Byte) : Option BerthId :=
  if h : 1 ≤ b.toNat ∧ b.toNat ≤ 8 then some ⟨b.toNat - 1, by omega⟩ else none

/-- A set of cores in one byte, P1 to SP in bits 0 to 4 (7.2.2). -/
def coresByte (c : CoreSet) : Byte := c.zeroExtend 8

/-! ## Names, numbered from 1 in the order of their list (7.2) -/

/-- The byte of a value in the list that defines it. -/
def codeIn {α : Type} [DecidableEq α] (names : List α) (a : α) : Byte := byte (names.idxOf a + 1)

/-- The value a byte stands for in a list; 0 and numbers past the end stand for none. -/
def nameIn {α : Type} (names : List α) (b : Byte) : Option α :=
  match b.toNat with
  | 0 => none
  | n + 1 => names[n]?

/-- An absent optional item is 0 (7.2.2). -/
def codeOrZero {α : Type} [DecidableEq α] (names : List α) (a : Option α) : Byte :=
  match a with
  | some x => codeIn names x
  | none => 0#8

def berthStates : List BerthState :=
  [.outOfService, .vacant, .plugged, .proved, .queued, .admitted, .closing, .rampIn, .onShore, .rampOut, .opening,
    .tripped]
def sectionIds : List SectionId := [.A, .B]
def bayIds : List BayId := [.bay1, .bay2]
def tripCauses : List TripCause :=
  [.estop, .pilotLost, .strain, .latchLost, .cableFault, .feederLost, .breakerOpened, .breakerClosed, .breakerFail,
    .converterFault, .overdraw, .rampFailed]
def failReasons : List FailReason :=
  [.timeout, .portFull, .cableInUse, .unserviceable, .assignFailed, .cableChanged, .noSpare]
def opKinds : List OpKind := [.syncClose, .deadClose, .step, .openOp]
/-- The kinds of an in-flight record, in the order R1's text lists them; DEDUCED, log entry 13. -/
def inFlightKinds : List InFlightKind :=
  [.coreTest, .assign, .converterStart, .holdHandshake, .deadWait, .syncClose, .deadClose, .step, .openOp,
    .gensOffWait, .tripOpen]
def bayStates : List BayState := [.free, .granted, .faulted]
def feederStates : List FeederState := [.live, .lost, .unknown]
def arbiterStates : List ArbiterState := [.partIdle, .partBusy, .localPanel]
def lockSources : List LockSource := [.close, .block, .demand]
def priorityModes : List PriorityMode := [.fixed, .rotating]
def frequencies : List Frequency := [.f50, .f60]
def methods : List Method := [.live, .dead]
def rampModes : List RampMode := [.single, .block, .demand]
def directions : List Direction := [.inward, .outward]
def abortCauses : List AbortCause := [.stepFailures, .holdWithdrawn, .pauseExpired, .holdFailed]
def pauseRoles : List PauseRole := [.grantWait, .pause]
def overdrawStages : List OverdrawStage := [.first, .shedSent]
def cores : List Core := [.p1, .p2, .p3, .p4, .sp]
def funcs : List Func := [.pilot, .earth, .latch, .ready]
def coreResults : List CoreResult := [.ok, .opened, .short, .leak]
def conditions : List Condition := [.serviceable, .unserviceable]
def enables : List Enable := [.enabled, .disabled]
def senses : List Sense := [.edge, .level]
def levels : List Level := [.active, .inactive]
def equipClasses : List EquipClass :=
  [.shoreBreaker, .earthSwitch, .plugStation, .shipPms, .synchroniser, .feederMonitor, .localPanel, .converter,
    .supervisor]
def gateActions : List GateAction := [.pass, .hold, .refuse, .discard]
def statuses : List Status :=
  [.accepted, .badState, .noProfile, .feederDown, .lineActive, .inUse, .badTable, .badIndex, .badValue, .notPermitted,
    .busy]
def reasons : List Reason :=
  [.noRule, .byRule, .guarded, .noBerth, .holdFull, .holdExpired, .berthTripped, .congested, .restart]
def noticeKinds : List NoticeKind :=
  [.tripped, .tripCleared, .lineEvent, .cableSubstituted, .cableUnserviceable, .unknownVessel, .admitted, .grantGrown,
    .overdraw, .shedSent, .sectionOver, .feederLost, .feederRestored, .bayFaulted, .lockBroken, .changeoverDone,
    .changeoverFailed, .gensNotOff, .releaseDone, .releaseFailed, .adopted, .limitReached, .nightSummary, .restarted]
def breakers : List Breaker := [.opened, .closed, .faulted]
def syncOutcomes : List SyncOutcome := [.matched, .failed]
def holdAnswers : List HoldAnswer := [.granted, .refused, .withdrawn]
def converterRuns : List ConverterRun := [.running, .stopped, .faulted]
def faultLines : List FaultLine := [.estop, .pilot, .strain]
/-- 1 yes or done or OK, 2 no or refused or failed: the two-valued names of 7.2.1 and 7.2.2. -/
def yesNo : List Bool := [true, false]

def sectionByte (x : Option SectionId) : Byte := codeOrZero sectionIds x
def bayByte (k : Option BayId) : Byte := codeOrZero bayIds k

/-! ## Kinds and codes (7.2, 7.2.1) -/

def kindOrder : Byte := 1#8
def kindReport : Byte := 2#8
def kindRequest : Byte := 3#8
def kindReply : Byte := 4#8
def kindRefusal : Byte := 5#8
def kindTable : Byte := 6#8
def kindNotice : Byte := 7#8

def codeClose : Byte := 0x01#8
def codeOpen : Byte := 0x02#8
def codeSyncClose : Byte := 0x03#8
def codeTestCores : Byte := 0x05#8
def codeAssignCore : Byte := 0x06#8
def codeConverterStart : Byte := 0x07#8
def codeConverterStop : Byte := 0x08#8
def codeEarthClose : Byte := 0x09#8
def codeEarthOpen : Byte := 0x0A#8
def codeHoldParallel : Byte := 0x21#8
def codeHoldEnd : Byte := 0x22#8
def codeTransferStep : Byte := 0x23#8
def codeDeadReady : Byte := 0x24#8
def codeShed : Byte := 0x25#8
def codeRead : Byte := 0x01#8
def codeWrite : Byte := 0x02#8

/-- The payload sizes a code's frames may have, or none where the kind has no such code (7.2.1). -/
def payloadSizes (kind code : Byte) : Option (Nat × Nat) :=
  match kind.toNat, code.toNat with
  | 1, 0x01 | 1, 0x02 | 1, 0x03 | 1, 0x06 | 1, 0x07 => some (2, 2)
  | 1, 0x05 | 1, 0x09 | 1, 0x0A => some (0, 0)
  | 1, 0x08 => some (1, 1)
  | 2, 0x61 | 2, 0x64 | 2, 0x66 | 2, 0x69 => some (3, 3)
  | 2, 0x62 | 2, 0x67 | 2, 0x6A => some (1, 1)
  | 2, 0x63 => some (9, 9)
  | 2, 0x65 => some (6, 6)
  | 2, 0x68 => some (4, 4)
  | 2, 0x6B | 2, 0x6C => some (0, 0)
  | 3, 0x21 | 3, 0x22 | 3, 0x24 => some (0, 0)
  | 3, 0x23 => some (3, 3)
  | 3, 0x25 => some (2, 2)
  | 3, 0x31 | 3, 0x32 | 3, 0x33 | 3, 0x46 => some (0, 0)
  | 3, 0x41 | 3, 0x42 | 3, 0x43 | 3, 0x44 | 3, 0x45 => some (1, 1)
  | 3, 0x47 => some (3, 3)
  | 4, 0x01 => some (2, 2)
  | 5, 0x01 => some (3, 3)
  | 6, 0x01 | 6, 0x02 => some (2, 48)
  | 7, n => if 1 ≤ n ∧ n ≤ 24 then some (9, 17) else none
  | _, _ => none

/-- The enumerated payload fields of a code: where each stands and the values it may hold (7.2.1, 7.2.2). Fields that
are numbers (a berth, a bay, an ID, a load) are not enumerated; DEDUCED, log entry 16. -/
def enumFields (kind code : Byte) : List (Nat × Nat × Nat) :=
  match kind.toNat, code.toNat with
  | 1, 0x06 => [(0, 1, 4), (1, 1, 5)]
  | 2, 0x61 => [(2, 1, 3)]
  | 2, 0x62 => [(0, 1, 2)]
  | 2, 0x63 => [(4, 1, 4), (5, 1, 4), (6, 1, 4), (7, 1, 4), (8, 1, 4)]
  | 2, 0x64 => [(0, 1, 4), (1, 1, 5), (2, 1, 2)]
  | 2, 0x65 => [(4, 1, 2), (5, 1, 2)]
  | 2, 0x66 => [(0, 1, 2)]
  | 2, 0x67 => [(0, 1, 3)]
  | 2, 0x69 => [(2, 1, 3)]
  | 2, 0x6A => [(0, 1, 2)]
  | 3, 0x23 => [(0, 1, 2)]
  | 4, 0x01 => [(0, 1, 11)]
  | 5, 0x01 => [(0, 1, 9), (1, 1, 7)]
  | 7, _ => [(1, 0, 2)]
  | _, _ => []

/-- Byte `n` of a payload; a byte past the end reads 0. -/
def at' (payload : List Byte) (n : Nat) : Byte := payload.getD n 0#8

/-- Every enumerated field holds a value of its list (R124). -/
def enumsOk (kind code : Byte) (payload : List Byte) : Bool :=
  (enumFields kind code).all fun f => f.2.1 ≤ (at' payload f.1).toNat && (at' payload f.1).toNat ≤ f.2.2

/-- The payload has a size its code allows (R124). -/
def sizeOk (kind code : Byte) (payload : List Byte) : Bool :=
  match payloadSizes kind code with
  | some (lo, hi) => lo ≤ payload.length && payload.length ≤ hi
  | none => false

/-! ## The CRC and the frame on the line (7.2) -/

/-- One bit of the CRC: generator 0x1021, most significant bit first. -/
def crcShift (c : BitVec 16) : BitVec 16 := if c.msb then (c <<< 1) ^^^ 0x1021#16 else c <<< 1

/-- One byte of the CRC. -/
def crcByte (c : BitVec 16) (b : Byte) : BitVec 16 :=
  let c := c ^^^ (b.zeroExtend 16 <<< 8)
  crcShift (crcShift (crcShift (crcShift (crcShift (crcShift (crcShift (crcShift c)))))))

/-- The 16-bit CRC: starting value 0xFFFF, no reflection, no final inversion. -/
def crc16 (bytes : List Byte) : BitVec 16 := bytes.foldl crcByte 0xFFFF#16

/-- The bytes of a frame before its Check. -/
def Frame.body (f : Frame) : List Byte :=
  bytesId f.dst ++ bytesId f.src ++ [f.kind, f.code, f.tag, byte f.payload.length] ++ f.payload

/-- The frame as its bytes on the line. -/
def Frame.encode (f : Frame) : List Byte := f.body ++ bytesId (crc16 f.body)

/-- Reads a frame from its bytes: the Length is at most 48 and is the number of payload bytes received, and the Check
matches (R124, first two conditions). -/
def parseFrame (bytes : List Byte) : Option Frame :=
  match bytes with
  | d1 :: d0 :: s1 :: s0 :: kind :: code :: tag :: len :: rest =>
    let n := rest.length - 2
    let f : Frame := ⟨idOf d1 d0, idOf s1 s0, kind, code, tag, rest.take n⟩
    if 2 ≤ rest.length ∧ len.toNat = n ∧ n ≤ Config.maxPayload ∧ rest.drop n = bytesId (crc16 f.body) then
      some f
    else
      none
  | _ => none

/-- The remaining conditions of R124 on a frame: its kind and code, and, but for a REQUEST addressed to the part's own
ID, its payload size and enumerated fields. -/
def frameOk (own : EquipId) (f : Frame) : Bool :=
  (payloadSizes f.kind f.code).isSome &&
    ((f.kind == kindRequest && f.dst == own) ||
      (sizeOk f.kind f.code f.payload && enumsOk f.kind f.code f.payload))

/-- A received frame that passes every check of R124. -/
def checkFrame (own : EquipId) (bytes : List Byte) : Option Frame :=
  (parseFrame bytes).filter (frameOk own)

/-! ## Report payloads (7.2.1, 7.2.2) -/

def positionOf (p : List Byte) : Option (EquipId × Breaker) :=
  (nameIn breakers (at' p 2)).map fun b => (idOf (at' p 0) (at' p 1), b)

def coreTestOf (p : List Byte) : Option CoreTestReport := do
  let r1 ← nameIn coreResults (at' p 4)
  let r2 ← nameIn coreResults (at' p 5)
  let r3 ← nameIn coreResults (at' p 6)
  let r4 ← nameIn coreResults (at' p 7)
  let r5 ← nameIn coreResults (at' p 8)
  pure ⟨num4 (at' p 0) (at' p 1) (at' p 2) (at' p 3), r1, r2, r3, r4, r5⟩

def assignDoneOf (p : List Byte) : Option AssignDoneReport := do
  let f ← nameIn funcs (at' p 0)
  let c ← nameIn cores (at' p 1)
  let ok ← nameIn yesNo (at' p 2)
  pure ⟨f, c, ok⟩

def shipStateOf (p : List Byte) : Option ShipStateReport := do
  let g ← nameIn yesNo (at' p 4)
  let live ← nameIn yesNo (at' p 5)
  pure ⟨num2 (at' p 0) (at' p 1), num2 (at' p 2) (at' p 3), g, !live⟩

def stepDoneOf (p : List Byte) : Option StepDoneReport :=
  (nameIn yesNo (at' p 0)).map fun d => ⟨d, num2 (at' p 1) (at' p 2)⟩

def vesselIdOf (p : List Byte) : Num32 := num4 (at' p 0) (at' p 1) (at' p 2) (at' p 3)

def converterStateOf (p : List Byte) : Option ConverterReport := do
  let k ← nameIn bayIds (at' p 0)
  let r ← nameIn converterRuns (at' p 2)
  pure ⟨k, at' p 1, r⟩

/-! The same payloads as a read shows them; absent reads as zeros (R161). -/

def positionBytes (e : EquipId) (p : Option Breaker) : List Byte :=
  match p with
  | some b => bytesId e ++ [codeIn breakers b]
  | none => [0, 0, 0]

def coreTestBytes : Option CoreTestReport → List Byte
  | some r => bytes4 r.cable ++ [codeIn coreResults r.p1, codeIn coreResults r.p2, codeIn coreResults r.p3,
      codeIn coreResults r.p4, codeIn coreResults r.sp]
  | none => List.replicate 9 0

def assignDoneBytes : Option AssignDoneReport → List Byte
  | some r => [codeIn funcs r.func, codeIn cores r.core, codeIn yesNo r.ok]
  | none => [0, 0, 0]

def shipStateBytes : Option ShipStateReport → List Byte
  | some r => bytes2 r.shipLoad ++ bytes2 r.shoreLoad ++ [codeIn yesNo r.gensRunning, codeIn yesNo (!r.busDead)]
  | none => List.replicate 6 0

def stepDoneBytes : Option StepDoneReport → List Byte
  | some r => codeIn yesNo r.done :: bytes2 r.shoreLoad
  | none => [0, 0, 0]

def vesselBytes : Option Num32 → List Byte
  | some v => bytes4 v
  | none => [0, 0, 0, 0]

def converterBytes : Option ConverterReport → List Byte
  | some r => [codeIn bayIds r.bay, r.berth, codeIn converterRuns r.run]
  | none => [0, 0, 0]

end Sys2Proof.Machine
end

