-- ==== Sys2Proof/Machine/Ports.lean ====
section
/-! DEFINITION. The PORT UNIT: receive buffers and error counts (R122, R123), transmit queues, admission and
displacement (R133, R134), refusals and forwarding (R132). -/

namespace Sys2Proof.Machine

/-! ## Receiving (R122) -/

/-- A received frame joins the tail of its port's buffer, or is lost with the overrun count raised (R122). -/
def receive (p : Port) (bytes : List Byte) : State → State :=
  updPort p fun r =>
    if r.rx.length < Config.rxDepth then { r with rx := r.rx ++ [bytes] }
    else { r with overruns := satInc Config.countMax r.overruns }

/-- The frame at the head of a buffer leaves it (R122). -/
def dropHead (p : Port) : State → State :=
  updPort p fun r => { r with rx := r.rx.tail }

/-- A frame fails the checks of R124. -/
def countCheckError (p : Port) : State → State :=
  updPort p fun r => { r with checkErrors := satInc Config.countMax r.checkErrors }

/-- A frame fails the checks of R127. -/
def countUnmapped (p : Port) : State → State :=
  updPort p fun r => { r with unmapped := satInc Config.countMax r.unmapped }

/-! ## Transmit queues (R133) -/

def State.freeSlots (s : State) (p : Port) : Nat := Config.txSlots - (s.port p).tx.length

/-- The port admits a frame: it joins the tail, and the tag count advances, as it does "at each frame the port
admits"; DEDUCED, log entry 12. -/
def enqueue (p : Port) (t : TxFrame) : State → State :=
  updPort p fun r => { r with tx := r.tx ++ [t], tagCount := (r.tagCount + 1) % 256 }

/-- A frame the part builds itself, with the tag of the port's count as it stands before the frame is admitted, so the
first tag is 0: whether a frame carries the count before or after the advance its own admission makes, the spec leaves
open (R133); DESIGN CHOICE, log entry 33. -/
def State.build (s : State) (p : Port) (dst : EquipId) (kind code : Byte) (payload : List Byte) : Frame :=
  ⟨dst, s.ownId, kind, code, byte (s.port p).tagCount, payload⟩

/-- Queues a frame of the operation class; false when no slot is free and it is not sent (R133). A destination with no
EQUIPMENT MAP entry is treated as a queue it cannot enter; DEDUCED, log entry 18. -/
def send (e : Option EquipEntry) (kind code : Byte) (payload : List Byte) (s : State) : State × Bool :=
  match e with
  | none => (s, false)
  | some e =>
    if 1 ≤ s.freeSlots e.port then (enqueue e.port ⟨s.build e.port e.id kind code payload, none⟩ s, true)
    else (s, false)

/-- Queues a frame of the reply class; with no free slot it is dropped (R133). -/
def sendReply (p : Port) (f : Frame) (s : State) : State :=
  if 1 ≤ s.freeSlots p then enqueue p ⟨f, none⟩ s else s

/-- The REFUSAL of a frame that arrived on `arrival` (R132). -/
def refuse (r : Reason) (f : Frame) (arrival : Port) (s : State) : State :=
  sendReply arrival ⟨f.src, s.ownId, kindRefusal, 0x01#8, f.tag, [codeIn reasons r, f.kind, f.code]⟩ s

/-- A forwarded frame that its queue does not take: a REFUSAL is discarded, any other frame is refused with CONGESTED
(R132). -/
def rejectForwarded (f : Frame) (arrival : Port) (s : State) : State :=
  if f.kind == kindRefusal then s else refuse .congested f arrival s

/-- Forwards a frame unchanged onto a port (R132, R133). -/
def forward (f : Frame) (arrival dest : Port) (s : State) : State :=
  if Config.forwardRoom ≤ s.freeSlots dest then enqueue dest ⟨f, some arrival⟩ s else rejectForwarded f arrival s

/-- The queue without its oldest forwarded frame, and that frame with its arrival port (R134). -/
def takeOldestForwarded : List TxFrame → Option (List TxFrame × Frame × Port)
  | [] => none
  | t :: rest =>
    match t.arrival with
    | some a => some (rest, t.frame, a)
    | none => (takeOldestForwarded rest).map fun r => (t :: r.1, r.2)

/-- Queues a trip OPEN: into a free slot, else in the place of the oldest forwarded frame, else not at all
(R133, R134). -/
def sendTripOpen (b : BerthId) (s : State) : State :=
  match s.berthEntry .shoreBreaker b with
  | none => s
  | some e =>
    let t : TxFrame := ⟨s.build e.port e.id kindOrder codeOpen (bytesId e.id), none⟩
    if 1 ≤ s.freeSlots e.port then enqueue e.port t s
    else
      match takeOldestForwarded (s.port e.port).tx with
      | none => s
      | some (rest, f, arrival) =>
        s |> updPort e.port (fun r => { r with tx := rest })
          |> enqueue e.port t
          |> rejectForwarded f arrival

/-- HOLD_END to a berth's ship; where it cannot enter its queue it is not sent (R133). -/
def sendHoldEnd (b : BerthId) (s : State) : State :=
  (send (s.berthEntry .shipPms b) kindRequest codeHoldEnd [] s).1

/-- If the hold granted flag is set, HOLD_END is sent and the flag is cleared (R7, R30, R73, R109, R114). -/
def endHold (b : BerthId) (s : State) : State :=
  if (s.berth b).holdGranted then s |> sendHoldEnd b |> updBerth b fun r => { r with holdGranted := false } else s

/-- The frame at the head of a transmit queue leaves it and is on the link (R133). -/
def startSending (p : Port) : State → State :=
  updPort p fun r =>
    match r.tx with
    | [] => r
    | t :: rest => { r with tx := rest, onLink := some t }

/-! ## The meanings of the port commands -/

/-- RECEIVE_FRAME (R122). -/
def execReceiveFrame (p : Port) (bytes : List Byte) (s : State) : Host.Outcome State Fault Refusal :=
  .next (receive p bytes s)

/-- TRANSMIT_START (R133): that the link is free is what the command says (log entry 11). -/
def execTransmitStart (p : Port) (s : State) : Host.Outcome State Fault Refusal :=
  .next (startSending p s)

end Sys2Proof.Machine
end

