-- ==== Sys2Proof/Machine/Notices.lean ====
section
/-! DEFINITION. The NOTICE QUEUE: making a notice, the nightly limit, the queue, and the offer to SUP
(R155 to R158). -/

namespace Sys2Proof.Machine

/-- Sets the lost-after flag of the newest record (R157). -/
def markNewestLost : List NoticeRec → List NoticeRec
  | [] => []
  | [n] => [{ n with lostAfter := true }]
  | n :: m :: rest => n :: markNewestLost (m :: rest)

/-- A record joins the NOTICE QUEUE, or is discarded with the newest record's flag set (R157). -/
def joinNotices (n : NoticeRec) (s : State) : State :=
  if s.notices.length < Config.noticeDepth then { s with notices := s.notices ++ [n] }
  else { s with notices := markNewestLost s.notices }

/-- A notice record with the night and second of its making (R155). -/
def State.notice (s : State) (k : NoticeKind) (b : Option BerthId) (x : Option SectionId) (detail : List Byte) :
    NoticeRec :=
  ⟨k, b, x, s.clock.night, s.clock.time, detail, false⟩

/-- The kinds the nightly limit does not judge (R156). -/
def NoticeKind.unlimited : NoticeKind → Bool
  | .tripped | .nightSummary | .limitReached => true
  | .tripCleared | .lineEvent | .cableSubstituted | .cableUnserviceable | .unknownVessel | .admitted | .grantGrown
  | .overdraw | .shedSent | .sectionOver | .feederLost | .feederRestored | .bayFaulted | .lockBroken
  | .changeoverDone | .changeoverFailed | .gensNotOff | .releaseDone | .releaseFailed | .adopted | .restarted => false

/-- A notice about a berth: it carries the berth and its section, and, but for the unlimited kinds, is judged by the
berth's nightly count (R155, R156). -/
def noticeBerth (b : BerthId) (k : NoticeKind) (detail : List Byte) (s : State) : State :=
  let n := s.notice k (some b) (some (s.secOf b)) detail
  if k.unlimited then joinNotices n s
  else if (s.berth b).noticeCount < Config.nightlyAllowance then
    s |> updBerth b (fun r => { r with noticeCount := r.noticeCount + 1 }) |> joinNotices n
  else if (s.berth b).noticeLimited then s
  else
    s |> updBerth b (fun r => { r with noticeLimited := true })
      |> joinNotices (s.notice .limitReached (some b) (some (s.secOf b)) [codeIn noticeKinds k])

/-- A notice about a section alone (R155). -/
def noticeSection (x : SectionId) (k : NoticeKind) (detail : List Byte) (s : State) : State :=
  joinNotices (s.notice k none (some x) detail) s

/-- A notice about neither a berth nor a section (R155). -/
def noticePlain (k : NoticeKind) (detail : List Byte) (s : State) : State :=
  joinNotices (s.notice k none none detail) s

/-- The payload of a NOTICE frame (7.2.2). -/
def NoticeRec.payload (n : NoticeRec) : List Byte :=
  [berthByte n.berth, sectionByte n.sec] ++ bytes2 n.night ++ bytes3 n.second ++
    [if n.lostAfter then 1#8 else 0#8, byte n.detail.length] ++ n.detail

/-- Offers the head record to the SUP transmit queue when a record waits, a SUPERVISOR entry exists and a slot is
free (R158). -/
def offerNotice (s : State) : State :=
  match s.notices, s.supervisor with
  | n :: rest, some e =>
    if 1 ≤ s.freeSlots portSUP then
      { s with notices := rest }
        |> enqueue portSUP ⟨s.build portSUP e.id kindNotice (codeIn noticeKinds n.kind) n.payload, none⟩
    else s
  | _, _ => s

/-- NOTICE_OFFER (R158). -/
def execNoticeOffer (s : State) : Host.Outcome State Fault Refusal :=
  .next (offerNotice s)

end Sys2Proof.Machine
end

