-- ==== Sys2Proof/Machine/Gate.lean ====
section
/-! DEFINITION. The GATE: the decision on an ORDER or REQUEST for another party, the HOLD QUEUE, re-evaluation and
expiry (chapter 8). -/

namespace Sys2Proof.Machine

/-- What a decision gives a frame (R135). -/
inductive Verdict
  | refuse (r : Reason)
  | pass
  | hold
  | discard
  deriving DecidableEq, Repr

/-- The closing orders, which no other party may send (R137, guard 1). -/
def closingOrder (f : Frame) : Bool :=
  f.kind == kindOrder &&
    (f.code == codeClose || f.code == codeSyncClose || f.code == codeConverterStart || f.code == codeEarthClose)

/-- The opening orders, which guard 2 lets through to a tripped berth (R137). -/
def openingOrder (f : Frame) : Bool :=
  f.kind == kindOrder && (f.code == codeOpen || f.code == codeEarthOpen)

/-- The associated berth of a frame (R136). -/
def associatedBerth (src dst : EquipEntry) : Option BerthId := dst.berth <|> src.berth

/-- A berth state's bit in a state set (R161). -/
def BerthState.bit (t : BerthState) : Nat := berthStates.idxOf t

/-- A state set holds a state, or is ANY (R138, R139). -/
def StateSet.admits (ss : StateSet) (t : Option BerthState) : Bool :=
  match ss, t with
  | .any, _ => true
  | .of m, some t => m.getLsbD t.bit
  | .of _, none => false

/-- The Kind byte of a GATE entry's kind (R161). -/
def GateKind.byte : GateKind → Byte
  | .order => kindOrder
  | .request => kindRequest

/-- An entry matches a frame with these classes, for a berth in this state (R139). -/
def GateEntry.accepts (e : GateEntry) (f : Frame) (srcC dstC : EquipClass) (t : Option BerthState) : Bool :=
  e.valid && (e.srcClass == none || e.srcClass == some srcC) && (e.dstClass == none || e.dstClass == some dstC) &&
    e.kind.byte == f.kind && (e.code == none || e.code == some f.code) && e.states.admits t

/-- The first entry that matches (R139). -/
def State.gateMatch (s : State) (f : Frame) (srcC dstC : EquipClass) (t : Option BerthState) : Option (Fin 48) :=
  (List.finRange 48).find? fun n => s.gate[n].accepts f srcC dstC t

def countHit (n : Fin 48) (s : State) : State :=
  { s with gate := s.gate.set n { s.gate[n] with hits := satInc Config.countMax s.gate[n].hits } }

/-- Guards, then the GATE TABLE (R135, R137, R139): the verdict, and the state with the settling entry's hit count
raised. -/
def gateJudge (f : Frame) (srcC dstC : EquipClass) (b : Option BerthId) (s : State) : Verdict × State :=
  let t := b.map fun b => (s.berth b).state
  if closingOrder f then (.refuse .guarded, s)
  else if t == some .tripped && !openingOrder f then (.refuse .berthTripped, s)
  else
    match s.gateMatch f srcC dstC t with
    | none => (.refuse .noRule, s)
    | some n =>
      let s' := countHit n s
      match s.gate[n].action with
      | .pass => (.pass, s')
      | .hold => (.hold, s')
      | .refuse => (.refuse .byRule, s')
      | .discard => (.discard, s')

/-- HOLD as the outcome of a first decision (R142). -/
def holdFrame (f : Frame) (arrival : Port) (srcC dstC : EquipClass) (b : Option BerthId) (s : State) : State :=
  match b with
  | none => refuse .noBerth f arrival s
  | some b =>
    if (s.berth b).state == .tripped || (s.berth b).state == .outOfService then refuse .berthTripped f arrival s
    else if Config.holdPlaces ≤ (s.berth b).holdQueue.length then refuse .holdFull f arrival s
    else
      updBerth b (fun r => { r with holdQueue :=
        r.holdQueue ++ [⟨f, arrival, srcC, dstC, s.clock.time, s.clock.night, s.timings.holdLimit⟩] }) s

/-- The first decision on a frame, carried out (R135, R141, R142). -/
def gateDecide (f : Frame) (arrival : Port) (src dst : EquipEntry) (s : State) : State :=
  match gateJudge f src.cls dst.cls (associatedBerth src dst) s with
  | (.refuse r, t) => refuse r f arrival t
  | (.pass, t) => forward f arrival dst.port t
  | (.hold, t) => holdFrame f arrival src.cls dst.cls (associatedBerth src dst) t
  | (.discard, t) => t

/-- PASS of a held frame: to its destination as the map stands now, or discarded as unmapped (R141). -/
def passHeld (h : HeldFrame) (s : State) : State :=
  match s.entryOf h.frame.dst, s.entryOf h.frame.src with
  | some d, some e =>
    if d.port = h.arrival ∨ e.port ≠ h.arrival then countUnmapped h.arrival s
    else forward h.frame h.arrival d.port s
  | _, _ => countUnmapped h.arrival s

/-- Decides one held frame again; true when it stays held (R144). -/
def reJudge (b : BerthId) (h : HeldFrame) (s : State) : Bool × State :=
  match gateJudge h.frame h.srcClass h.dstClass (some b) s with
  | (.refuse r, t) => (false, refuse r h.frame h.arrival t)
  | (.pass, t) => (false, passHeld h t)
  | (.hold, t) => (true, t)
  | (.discard, t) => (false, t)

/-- Decides held frames again from the oldest, each outcome carried out before the next; the frames held again, in
their order, and the state (R144). -/
def reJudgeAll (b : BerthId) : List HeldFrame → State → List HeldFrame × State
  | [], s => ([], s)
  | h :: rest, s =>
    let r := reJudge b h s
    let q := reJudgeAll b rest r.2
    (if r.1 then h :: q.1 else q.1, q.2)

/-- The re-evaluation of a berth's hold queue (R144). -/
def reevaluate (b : BerthId) (s : State) : State :=
  let r := reJudgeAll b (s.berth b).holdQueue s
  updBerth b (fun t => { t with holdQueue := r.1 }) r.2

/-- Refuses every held frame of a berth, oldest first, and empties the queue (R12, R20, R143). -/
def refuseHeld (reason : Reason) (b : BerthId) (s : State) : State :=
  (s.berth b).holdQueue.foldl (fun t h => refuse reason h.frame h.arrival t) s
    |> updBerth b fun r => { r with holdQueue := [] }

/-- The hold timer of the frame at a place expires (R146). -/
def expireHeld (b : BerthId) (place : Nat) (s : State) : State :=
  match (s.berth b).holdQueue[place]? with
  | none => s
  | some h =>
    if h.timer = 0 then
      s |> updBerth b (fun r => { r with holdQueue := r.holdQueue.eraseIdx place })
        |> refuse .holdExpired h.frame h.arrival
    else s

/-- HOLD_QUEUE_EXPIRY (R146). -/
def execHoldQueueExpiry (b : BerthId) (place : Nat) (s : State) : Host.Outcome State Fault Refusal :=
  .next (expireHeld b place s)

end Sys2Proof.Machine
end

