-- ==== Sys2Proof/Machine/Berths.lean ====
section
/-! DEFINITION. What every change of a berth's state does (R2, R3), and the berth's hold on its section's arbiter:
requests, the operation in flight, the lock (R83, R84, R92, R98). -/

namespace Sys2Proof.Machine

/-! ## The berth at its arbiter -/

/-- The pending request of a berth at its section's arbiter (R83). -/
def State.request (s : State) (b : BerthId) : Option OpKind := (s.sec (s.secOf b)).requests[b]

/-- The berth's operation in flight at its section's arbiter (R81). -/
def State.opOf (s : State) (b : BerthId) : Option OpKind :=
  match (s.sec (s.secOf b)).op with
  | some (c, k) => if c = b then some k else none
  | none => none

/-- The berth holds its section's lock (R96). -/
def State.holdsLock (s : State) (b : BerthId) : Bool :=
  ((s.sec (s.secOf b)).lock.map (·.holder)) == some b

/-- A section's record without a berth's pending request. -/
def SectionRec.unasked (b : BerthId) (r : SectionRec) : SectionRec := { r with requests := r.requests.set b none }

/-- Withdraws the berth's pending request; no choice runs for it (R84). A berth asks only its own section's arbiter
(R83), so at the other one there is nothing to withdraw. -/
def withdrawRequest (b : BerthId) (s : State) : State :=
  s |> updSec .A (SectionRec.unasked b) |> updSec .B (SectionRec.unasked b)

/-- Enters a request in the place of any earlier one; at PART_IDLE the choice runs at once (R83). -/
def enterRequest (h : Hooks) (b : BerthId) (k : OpKind) (s : State) : State :=
  let x := s.secOf b
  let t := updSec x (fun r => { r with requests := r.requests.set b (some k) }) s
  if (s.sec x).arbiter = .partIdle then h.choice x t else t

/-- Starts the section's step-spacing timer (R93). -/
def startSpacing (x : SectionId) (s : State) : State :=
  updSec x (fun r => { r with spacing := Timer.startUnlessZero s.timings.stepSpacing }) s

/-- The arbiter leaves PART_BUSY for PART_IDLE; the end of a STEP starts the step spacing (R90, R92). -/
def freeArbiter (x : SectionId) (k : OpKind) (s : State) : State :=
  let t := updSec x (fun r => { r with arbiter := .partIdle, op := none }) s
  if k = .step then startSpacing x t else t

/-- Abandons the berth's operation in flight without an outcome; the choice then runs (R92). -/
def abandonOp (h : Hooks) (b : BerthId) (s : State) : State :=
  match s.opOf b with
  | none => s
  | some k => s |> freeArbiter (s.secOf b) k |> clearInFlight b |> h.choice (s.secOf b)

/-- The lock becomes absent and its timer with it. -/
def dropLock (x : SectionId) : State → State :=
  updSec x fun r => { r with lock := none }

/-- Releases the lock if the berth holds it; the choice then runs (R98). -/
def releaseLock (h : Hooks) (b : BerthId) (s : State) : State :=
  if s.holdsLock b then s |> dropLock (s.secOf b) |> h.choice (s.secOf b) else s

/-! ## Changing state (R2, R3) -/

/-- The record of a berth that goes from one state to another: what leaving the old state and entering the new one
clear, whatever the event. Leaving ON_SHORE clears the adopted flag (R11) and the overdraw (R77); leaving PLUGGED
abandons proving (R56); VACANT and OUT_OF_SERVICE hold no vessel, profile or cable (R2). -/
def Berth.goTo (t : BerthState) (r : Berth) : Berth :=
  let bare := t = .vacant ∨ t = .outOfService
  { r with
    state := t
    adopted := if r.state = .onShore then false else r.adopted
    overdraw := if r.state = .onShore then none else r.overdraw
    overdrawStage := if r.state = .onShore then .first else r.overdrawStage
    provingStep := if r.state = .plugged then .idle else r.provingStep
    comparison := if r.state = .plugged then 0#5 else r.comparison
    assignOrder := if r.state = .plugged then none else r.assignOrder
    vessel := if bare then none else r.vessel
    profile := if bare then none else r.profile
    cable := if bare then none else r.cable }

/-- A section's record with a berth out of its admission queue; the entries behind close up (R68). -/
def SectionRec.without (b : BerthId) (r : SectionRec) : SectionRec :=
  { r with queue := r.queue.filter (· ≠ b) }

/-- Removes a berth from its section's admission queue, and its bypass count becomes 0 (R6, R68). A berth stands in
its own section's queue only, so at the other one there is nothing to remove. -/
def leaveQueue (b : BerthId) (s : State) : State :=
  s |> updSec .A (SectionRec.without b)
    |> updSec .B (SectionRec.without b)
    |> updBerth b fun r => { r with bypass := 0 }

/-- What leaving its state ends for a berth outside its record: a berth that leaves QUEUED leaves its admission queue
(R68), and one that leaves ADMITTED is no longer waiting to be started (R69). -/
def leaveState (b : BerthId) (s : State) : State :=
  match (s.berth b).state with
  | .queued => leaveQueue b s
  | .admitted => { s with startQueue := s.startQueue.erase b }
  | .outOfService | .vacant | .plugged | .proved | .closing | .rampIn | .onShore | .rampOut | .opening | .tripped => s

/-- The berth's record goes to a state. -/
def moveTo (b : BerthId) (t : BerthState) (s : State) : State := s |> leaveState b |> updBerth b (Berth.goTo t)

/-- A change of state (R3): the state is visible, the hold queue is re-evaluated under it, a timed activity of the old
state is abandoned, and a lock is released on leaving CLOSING, RAMP_IN and RAMP_OUT for a state outside them (R98). To
the same state it is no change. -/
def enterState (h : Hooks) (b : BerthId) (t : BerthState) (s : State) : State :=
  if (s.berth b).state = t then s
  else
    let u := s |> moveTo b t |> reevaluate b |> clearInFlight b
    if (s.berth b).state.mayLock && !t.mayLock then releaseLock h b u else u

/-- Masks the ramp channel, which stops the pause-limit timer (R101). -/
def maskRamp (b : BerthId) : State → State :=
  updRamp b fun r => { r with masked := true, pauseTimer := none }

end Sys2Proof.Machine
end

