-- ==== Sys2Proof/Machine/Admission.lean ====
section
/-! DEFINITION. The ADMISSION UNIT: the over flag, release of a grant, the service pass and its grants, re-queue,
growth and overdraw (chapter 4). -/

namespace Sys2Proof.Machine

/-! ## The over flag (R63) -/

/-- Sets the over flag when the granted sum exceeds the limit; a change to set sends SECTION_OVER (R63). -/
def raiseOver (x : SectionId) (s : State) : State :=
  if (s.sec x).limit < (s.sec x).granted ∧ (s.sec x).overFlag = false then
    s |> updSec x (fun r => { r with overFlag := true })
      |> noticeSection x .sectionOver
          ([sectionByte (some x), byte (s.sec x).limit] ++ bytes2 (s.sec x).granted)
  else s

/-- Clears the over flag when the granted sum is at or below the limit (R63). -/
def lowerOver (x : SectionId) : State → State :=
  updSec x fun r => if r.granted ≤ r.limit then { r with overFlag := false } else r

/-! ## Giving capacity back (R72) -/

/-- Step 2 of a release: CONVERTER_STOP is sent; a GRANTED bay becomes FREE, a FAULTED one stays so, and the bay drops
the berth; a freed bay calls for passes in both sections (R72, R69). -/
def releaseBay (b : BerthId) (s : State) : State :=
  match (s.berth b).bay with
  | none => s
  | some k =>
    let t := (send (s.converterEntry k) kindOrder codeConverterStop [bayByte (some k)] s).1
      |> updBay k (fun r => { r with state := if r.state = .granted then .free else r.state, berth := none })
      |> updBerth b (fun r => { r with bay := none })
    if (s.bay k).state = .granted then t |> callPass .A |> callPass .B else t

/-- Steps 1 to 4 of the release of a grant, and the call for the passes of step 5 (R72). -/
def releaseGrant (b : BerthId) (s : State) : State :=
  let x := s.secOf b
  s |> updSec x (fun r => { r with granted := r.granted - (s.berth b).grant })
    |> updBerth b (fun r => { r with grant := 0 })
    |> releaseBay b
    |> updBerth b (fun r => { r with terms := none, overdraw := none, overdrawStage := .first })
    |> lowerOver x
    |> callPass x

/-! ## The service pass (R70, R71) -/

/-- The lowest-numbered FREE bay that has a CONVERTER entry (R70, R71). -/
def State.freeBay (s : State) : Option BayId :=
  bayIds.find? fun k => (s.bay k).state == .free && (s.converterEntry k).isSome

/-- An entry of the queue fits: its demand is within the spare capacity, and a bay is free if it needs one (R70). -/
def State.fits (s : State) (x : SectionId) (b : BerthId) : Bool :=
  match s.profileOf b with
  | none => false
  | some p => (s.sec x).granted + p.demand ≤ (s.sec x).limit && (p.frequency == .f50 || s.freeBay.isSome)

/-- Step 3 of a grant: an F60 vessel takes the lowest FREE bay, and the bay turn goes to the other section (R71). -/
def takeBay (x : SectionId) (b : BerthId) (f : Frequency) (s : State) : State :=
  match f, s.freeBay with
  | .f60, some k =>
    { s with bayTurn := otherSection x }
      |> updBay k (fun r => { r with state := .granted, berth := some b })
      |> updBerth b (fun r => { r with bay := some k })
  | _, _ => s

/-- What every entry to ADMITTED does to the ramp channel (R101). -/
def Ramp.onAdmitted (r : Ramp) : Ramp :=
  { r with masked := true, pauseTimer := none, aborting := false, demoted := false, abortCause := none }

/-- A grant by a service pass (R71); entering ADMITTED takes the berth out of its queue, and it waits for the CHANGEOVER
UNIT to start it (R69, R106). -/
def grantBerth (x : SectionId) (b : BerthId) (p : Profile) (s : State) : State :=
  let t := s
    |> updBerth b (fun r => { r with grant := p.demand })
    |> updSec x (fun r => { r with granted := r.granted + p.demand })
    |> takeBay x b p.frequency
    |> updBerth b (fun r => { r with terms := some p.terms })
    |> updRamp b Ramp.onAdmitted
    |> enterState .quiet b .admitted
  { t with startQueue := t.startQueue ++ [b] }
    |> noticeBerth b .admitted ([byte p.demand, bayByte (t.berth b).bay] ++ bytes2 (t.sec x).granted)

/-- One is added to the bypass count of every entry still ahead, stopping at 7 (R70). -/
def bumpAhead (ahead : List BerthId) (s : State) : State :=
  ahead.foldl (fun t b => updBerth b (fun r => { r with bypass := min Config.bypassMax (r.bypass + 1) }) t) s

/-- The walk of a service pass over the entries not yet taken; `ahead` are those passed over and still queued, in
order (R70). -/
def walkQueue (x : SectionId) : List BerthId → List BerthId → State → State
  | [], _, s => s
  | b :: rest, ahead, s =>
    if ahead.any fun a => (s.sec x).bypassLimit ≤ (s.berth a).bypass then s
    else
      match s.fits x b, s.profileOf b with
      | true, some p => walkQueue x rest ahead (s |> grantBerth x b p |> bumpAhead ahead)
      | _, _ => walkQueue x rest (ahead ++ [b]) s

/-- A service pass in a section (R70). -/
def servicePass (x : SectionId) (s : State) : State :=
  if (s.sec x).feeder = .live ∧ (s.sec x).overFlag = false then walkQueue x (s.sec x).queue [] s else s

/-- The passes an event has called for, one in each section at most; of two, the bay turn's section first (R69). -/
def runPasses (s : State) : State :=
  let t := { s with passA := false, passB := false }
  match s.passA, s.passB with
  | false, false => t
  | true, false => servicePass .A t
  | false, true => servicePass .B t
  | true, true => t |> servicePass s.bayTurn |> servicePass (otherSection s.bayTurn)

/-! ## Joining and re-queue (R67, R73) -/

/-- A berth enters QUEUED at a place of its section's queue with bypass count 0, which calls for a pass (R68, R69). -/
def joinQueue (b : BerthId) (place : Nat) (s : State) : State :=
  s |> enterState .quiet b .queued
    |> updSec (s.secOf b) (fun r => { r with queue := r.queue.insertIdx place b })
    |> updBerth b (fun r => { r with bypass := 0 })
    |> callPass (s.secOf b)

/-- A re-queue of one berth, the one after `place` others of the same event (R73). -/
def requeue (b : BerthId) (place : Nat) (s : State) : State :=
  s |> withdrawRequest b |> clearInFlight b |> endHold b |> releaseGrant b |> joinQueue b place

/-! ## Growth and overdraw (R76, R77) -/

/-- Stops the overdraw timer and returns the stage to FIRST (R77). -/
def stopOverdraw (b : BerthId) : State → State :=
  updBerth b fun r => { r with overdraw := none, overdrawStage := .first }

/-- The grant grows to the load (R76). -/
def growGrant (b : BerthId) (load : Nat) (s : State) : State :=
  s |> updBerth b (fun r => { r with grant := load })
    |> updSec (s.secOf b) (fun r => { r with granted := r.granted + (load - (s.berth b).grant) })
    |> stopOverdraw b
    |> noticeBerth b .grantGrown [byte (s.berth b).grant, byte load]

/-- A load above the grant that cannot grow it starts the overdraw timer, unless it runs (R77). -/
def startOverdraw (b : BerthId) (load : Nat) (s : State) : State :=
  if (s.berth b).overdraw.isSome then s
  else
    s |> updBerth b (fun r => { r with overdraw := some s.timings.overdraw, overdrawStage := .first })
      |> noticeBerth b .overdraw (bytes2 load ++ [byte (s.berth b).grant])

/-- A shore load reported in ON_SHORE against the grant (R76, R77). -/
def compareLoad (b : BerthId) (load : Nat) (s : State) : State :=
  let r := s.sec (s.secOf b)
  let grant := (s.berth b).grant
  if load ≤ grant then stopOverdraw b s
  else if r.overFlag = false ∧ r.granted + (load - grant) ≤ r.limit then growGrant b load s
  else startOverdraw b load s

end Sys2Proof.Machine
end

