-- ==== Sys2Proof/Machine/Trip.lean ====
section
/-! DEFINITION. The trip path and the trip OPEN (R20, R21, R35 to R37). -/

namespace Sys2Proof.Machine

/-- A trip OPEN is sent and becomes the berth's in-flight record, whether or not its queue took it (R35). -/
def tripOpen (b : BerthId) (s : State) : State :=
  s |> sendTripOpen b |> startInFlight b .tripOpen s.timings.operate

/-- A trip from this state for this cause sends a trip OPEN (R20, step 1). -/
def tripSendsOpen (old : BerthState) (cause : TripCause) : Bool :=
  cause == .breakerClosed || (old.closingToOpening && cause != .breakerOpened)

/-- The detail of a TRIPPED notice (R155). -/
def trippedDetail (cause : TripCause) (old : BerthState) (breakerFail : Bool) (reason : Option FailReason) :
    List Byte :=
  [codeIn tripCauses cause, codeIn berthStates old, flag breakerFail, codeOrZero failReasons reason]

/-- Steps 1 and 2 of the trip path: the cause and the state, the trip OPEN, the abandoned activities, and what the
berth leaves at the arbiter (R20). The choice is an early one: the release of step 4 is still to come (R69). -/
def tripHead (h : Hooks) (b : BerthId) (cause : TripCause) (s : State) : State :=
  let old := (s.berth b).state
  let x := s.secOf b
  let t := s
    |> moveTo b .tripped
    |> updBerth b (fun r => { r with
        tripCause := some cause
        tally := { r.tally with trips := satInc Config.byteMax r.tally.trips } })
    |> clearInFlight b
  let t := if tripSendsOpen old cause then tripOpen b t else t
  let t := withdrawRequest b t
  let t := match t.opOf b with
    | some k => freeArbiter x k t
    | none => t
  let t := if t.holdsLock b then dropLock x t else t
  if (s.opOf b).isSome || s.holdsLock b then h.early x t else t

/-- Steps 3 to 7 of the trip path (R20). -/
def tripTail (h : Hooks) (b : BerthId) (old : BerthState) (cause : TripCause) (reason : Option FailReason)
    (s : State) : State :=
  let s := if old.holdsCapacity then h.passes (releaseGrant b s) else s
  s |> maskRamp b
    |> updBerth b (fun r => { r with holdGranted := false })
    |> refuseHeld .berthTripped b
    |> noticeBerth b .tripped (trippedDetail cause old (s.berth b).breakerFail reason)

/-- Entry to TRIPPED (R20); a berth already in TRIPPED does not enter it again (R21). -/
def trip (h : Hooks) (b : BerthId) (cause : TripCause) (reason : Option FailReason) (s : State) : State :=
  if (s.berth b).state = .tripped then s
  else s |> tripHead h b cause |> tripTail h b (s.berth b).state cause reason

/-- A trip OPEN in flight completes (R36). -/
def tripOpenDone (b : BerthId) : State → State := clearInFlight b

/-- A trip OPEN in flight ends failed: the BREAKER_FAIL flag is set and a TRIPPED notice is sent (R37). -/
def tripOpenFailed (b : BerthId) (s : State) : State :=
  s |> clearInFlight b
    |> updBerth b (fun r => { r with breakerFail := true })
    |> noticeBerth b .tripped
        [codeOrZero tripCauses (s.berth b).tripCause, codeIn berthStates .tripped, flag true, 0#8]

end Sys2Proof.Machine
end

