-- ==== Sys2Proof/Machine/Proving.lean ====
section
/-! DEFINITION. The PROVING UNIT: cores and functions, the proving run, the CABLE RECORD TABLE, judging and
substitution (chapter 3), and the berth's way from PLUGGED to PROVED (R14). -/

namespace Sys2Proof.Machine

/-! ## Cores and functions (R40) -/

def Func.defaultCore : Func → Core
  | .pilot => .p1
  | .earth => .p2
  | .latch => .p3
  | .ready => .p4

/-- A core's bit in a set of cores (7.2.2). -/
def Core.bit : Core → Nat
  | .p1 => 0
  | .p2 => 1
  | .p3 => 2
  | .p4 => 3
  | .sp => 4

def hasCore (c : CoreSet) (k : Core) : Bool := c.getLsbD k.bit

def ofCore (k : Core) : CoreSet := BitVec.ofNat 5 (2 ^ k.bit)

/-- The core that carries a function under a substitution map (R40). -/
def carrier (map : Option Func) (f : Func) : Core := if map = some f then .sp else f.defaultCore

/-- The judged cores: those that carry a function (R40). -/
def judged (map : Option Func) : CoreSet :=
  funcs.foldl (fun c f => c ||| ofCore (carrier map f)) 0#5

/-- The function a core carries under a map, if any (R40). -/
def carried (map : Option Func) (k : Core) : Option Func := funcs.find? fun f => carrier map f == k

/-- A report's fault set: the cores whose result is not OK (R46). -/
def CoreTestReport.faults (r : CoreTestReport) : CoreSet :=
  let one (x : CoreResult) (k : Core) : CoreSet := if x = .ok then 0#5 else ofCore k
  one r.p1 .p1 ||| one r.p2 .p2 ||| one r.p3 .p3 ||| one r.p4 .p4 ||| one r.sp .sp

/-! ## The run (R44, R45, R54, R55) -/

/-- A run fails: the run ends and the berth trips with CABLE_FAULT, the reason in the notice (R55). The berth is in
PLUGGED, so it holds nothing at the arbiter or in the ADMISSION UNIT. -/
def failRun (b : BerthId) (reason : FailReason) (s : State) : State :=
  s |> clearInFlight b
    |> updBerth b (fun r => { r with provingStep := .idle, comparison := 0#5, assignOrder := none })
    |> trip .quiet b .cableFault (some reason)

/-- Sends TEST_CORES for a step of the run (R45). -/
def sendTest (b : BerthId) (step : ProvingStep) (s : State) : State :=
  let t := updBerth b (fun r => { r with provingStep := step, assignOrder := none }) s
  match send (t.berthEntry .plugStation b) kindOrder codeTestCores [] t with
  | (u, true) => startInFlight b .coreTest u.timings.coreTest u
  | (u, false) => failRun b .portFull u

/-- Sends ASSIGN_CORE for a function and SP (R45). -/
def sendAssign (b : BerthId) (f : Func) (s : State) : State :=
  let t := updBerth b (fun r => { r with provingStep := .assign, assignOrder := some f }) s
  match send (t.berthEntry .plugStation b) kindOrder codeAssignCore [codeIn funcs f, codeIn cores .sp] t with
  | (u, true) => startInFlight b .assign u.timings.coreTest u
  | (u, false) => failRun b .portFull u

/-- A proving run starts (R44). -/
def startProving (b : BerthId) (s : State) : State :=
  s |> updBerth b (fun r => { r with provingPassed := false, cable := none, comparison := 0#5 })
    |> sendTest b .test1

/-- The berth's vessel has a profile, and the berth enters PROVED with it; or an UNKNOWN_VESSEL notice is sent; or no
vessel has been reported and nothing happens (R14, once proving has passed). -/
def seekProfile (b : BerthId) (s : State) : State :=
  match (s.berth b).vessel with
  | none => s
  | some v =>
    match s.profileIndexOf v with
    | some n => s |> updBerth b (fun r => { r with profile := some n }) |> enterState .quiet b .proved
    | none => noticeBerth b .unknownVessel (bytes4 v) s

/-- A run passes (R54). -/
def passRun (b : BerthId) (s : State) : State :=
  s |> updBerth b (fun r => { r with provingStep := .idle, comparison := 0#5, provingPassed := true })
    |> seekProfile b

/-! ## The record (R42, R43, R46) -/

/-- A record created for a cable never seen, or forgotten (R42). -/
def CableRec.fresh (c : Num32) (night : Nat) : CableRec :=
  ⟨c, .serviceable, none, ⟨0, 0, 0, 0, 0⟩, 0#5, 0, 0#5, 0#5, night, none⟩

/-- A record's age in nights (R42, R59). -/
def CableRec.age (r : CableRec) (night : Nat) : Nat :=
  (night + Config.nightModulus - r.lastSeen) % Config.nightModulus

/-- The lowest-numbered empty slot (R42). -/
def State.emptySlot (s : State) : Option (Fin 32) := (List.finRange 32).find? fun n => s.cables[n].isNone

/-- The age of the record in a slot, if it has one with no berth (R42). -/
def State.removableAge (s : State) (n : Fin 32) : Option Nat :=
  match s.cables[n] with
  | some r => if r.berth.isNone then some (r.age s.clock.night) else none
  | none => none

/-- Of the records with no berth the oldest, the lowest-numbered among equals (R42). -/
def State.oldestSlot (s : State) : Option (Fin 32) :=
  (List.finRange 32).find? fun n =>
    match s.removableAge n with
    | some a => (List.finRange 32).all fun m => (s.removableAge m).all (· ≤ a)
    | none => false

/-- The slot a TEST1 report's cable selects, its record created where there is none (R42). -/
def selectRecord (c : Num32) (s : State) : Option (Fin 32) × State :=
  match s.cableSlotOf c with
  | some n => (some n, s)
  | none =>
    match s.emptySlot <|> s.oldestSlot with
    | some n => (some n, { s with cables := s.cables.set n (some (CableRec.fresh c s.clock.night)) })
    | none => (none, s)

/-- Folds a fault set into a record (R46). -/
def CableRec.fold (faults : CoreSet) (night : Nat) (r : CableRec) : CableRec :=
  { r with
    andMask := if r.tests = 0 then faults else r.andMask &&& faults
    orMask := if r.tests = 0 then faults else r.orMask ||| faults
    tests := satInc Config.byteMax r.tests
    lastSeen := night }

/-- Folds a report into the record of a slot, and notes the tested cable in the berth's tally (R46, R153). -/
def foldReport (b : BerthId) (n : Fin 32) (t : CoreTestReport) (s : State) : State :=
  s |> updCable n (CableRec.fold t.faults s.clock.night)
    |> updBerth b (fun r => { r with tally := { r.tally with cable := (s.cables[n].map (·.cable)) } })

/-! ## Judging (R49 to R53) -/

/-- Substitution is possible for the hard-marked judged cores after a report: the function to be moved (R51). -/
def substitution (map : Option Func) (hard faults : CoreSet) : Option Func :=
  match cores.filter (fun k => hasCore (hard &&& judged map) k) with
  | [k] => if k ≠ .sp ∧ map = none ∧ hasCore hard .sp = false ∧ hasCore faults .sp = false then carried map k else none
  | _ => none

/-- The cable is withdrawn from use (R53). -/
def withdrawCable (b : BerthId) (n : Fin 32) (c : CableRec) (s : State) : State :=
  s |> updCable n (fun r => { r with condition := .unserviceable })
    |> noticeBerth b .cableUnserviceable (bytes4 c.cable ++ [coresByte (c.hard &&& judged c.map)])
    |> failRun b .noSpare

/-- The hard path, after a test that has been evaluated: its bad judged cores become the comparison set, as the set is
that of the last evaluated test (R44, R51). -/
def hardPath (b : BerthId) (n : Fin 32) (c : CableRec) (faults : CoreSet) (s : State) : State :=
  let t := updBerth b (fun r => { r with comparison := faults &&& judged c.map }) s
  match substitution c.map c.hard faults with
  | some f => sendAssign b f t
  | none => withdrawCable b n c t

/-- The first-look evaluation (R49). -/
def firstLook (b : BerthId) (n : Fin 32) (c : CableRec) (faults : CoreSet) (s : State) : State :=
  let bad := faults &&& judged c.map
  if c.hard &&& judged c.map ≠ 0#5 then hardPath b n c faults s
  else if bad = 0#5 then passRun b s
  else s |> updBerth b (fun r => { r with comparison := bad }) |> sendTest b .retest

/-- A core's soft count. -/
def SoftCounts.get (c : SoftCounts) : Core → Nat
  | .p1 => c.p1
  | .p2 => c.p2
  | .p3 => c.p3
  | .p4 => c.p4
  | .sp => c.sp

/-- One more soft fault on each core of a set (R50). -/
def SoftCounts.raise (c : SoftCounts) (soft : CoreSet) : SoftCounts :=
  let one (k : Core) : Nat := if hasCore soft k then satInc Config.byteMax (c.get k) else c.get k
  ⟨one .p1, one .p2, one .p3, one .p4, one .sp⟩

/-- The cores of a set whose soft count marks them hard (R50). -/
def SoftCounts.hard (c : SoftCounts) (among : CoreSet) : CoreSet :=
  cores.foldl (fun m k => if hasCore among k ∧ Config.softFaultLimit ≤ c.get k then m ||| ofCore k else m) 0#5

/-- The marks and counts a retest gives a record: a judged core bad twice is hard, one bad once is a soft fault, and
a soft count of 3 or more marks its core hard (R50). -/
def CableRec.judgeRetest (comparison bad : CoreSet) (r : CableRec) : CableRec :=
  let softFaults := (comparison ^^^ bad) &&& judged r.map
  let counts := r.soft.raise softFaults
  { r with
    soft := counts
    hard := r.hard ||| (comparison &&& bad &&& judged r.map) ||| counts.hard softFaults }

/-- The retest evaluation (R50). -/
def retest (b : BerthId) (n : Fin 32) (c : CableRec) (faults : CoreSet) (s : State) : State :=
  let bad := faults &&& judged c.map
  let c' := c.judgeRetest (s.berth b).comparison bad
  let t := updCable n (fun _ => c') s
  if c'.hard &&& judged c'.map ≠ 0#5 then hardPath b n c' faults t
  else if bad = 0#5 then passRun b t
  else t |> updBerth b (fun r => { r with comparison := bad }) |> sendTest b .retest

/-- A TEST1 report (R47). -/
def firstTest (b : BerthId) (t : CoreTestReport) (s : State) : State :=
  let inUse := match s.cableSlotOf t.cable with
    | some n => match s.cables[n] with
      | some r => r.berth.isSome && r.berth != some b
      | none => false
    | none => false
  if inUse then failRun b .cableInUse s
  else
    match selectRecord t.cable s with
    | (none, u) => u
    | (some n, u) =>
      let u := u
        |> unlinkCable b
        |> updCable n (fun r => { r with berth := some b })
        |> updBerth b (fun r => { r with cable := some t.cable })
        |> foldReport b n t
      match u.cables[n] with
      | none => u
      | some c =>
        if c.condition = .unserviceable then failRun b .unserviceable u
        else
          match c.map with
          | some f => sendAssign b f u
          | none => firstLook b n c t.faults u

/-- A RETEST or TEST3 report: of another cable it fails the run, else it is folded and judged (R46). -/
def laterTest (b : BerthId) (t : CoreTestReport)
    (judge : BerthId → Fin 32 → CableRec → CoreSet → State → State) (s : State) : State :=
  if (s.berth b).cable ≠ some t.cable then failRun b .cableChanged s
  else
    match s.cableSlot b with
    | none => s
    | some n =>
      let u := foldReport b n t s
      match u.cables[n] with
      | none => u
      | some c => judge b n c t.faults u

/-- A CORE_TEST observed for a berth: taken only by its run at a step that awaits it (R46). -/
def takeCoreTest (b : BerthId) (t : CoreTestReport) (s : State) : State :=
  if (s.berth b).state ≠ .plugged then s
  else
    match (s.berth b).provingStep with
    | .test1 => s |> clearInFlight b |> firstTest b t
    | .retest => s |> clearInFlight b |> laterTest b t retest
    | .test3 => s |> clearInFlight b |> laterTest b t firstLook
    | .assign | .idle => s

/-- A new substitution has been assigned: the map is set and reported, and the run goes on (R52). -/
def substitute (b : BerthId) (n : Fin 32) (f : Func) (s : State) : State :=
  s |> updCable n (fun r => { r with map := some f })
    |> noticeBerth b .cableSubstituted
        (vesselBytes (s.berth b).cable ++ [codeIn funcs f, codeIn cores f.defaultCore])
    |> updBerth b (fun r => { r with comparison := 0#5 })
    |> sendTest b .test3

/-- An ASSIGN_DONE observed for a berth: taken only at the step ASSIGN; a record with a map had it re-applied, one
without gets a new substitution (R48, R52). -/
def takeAssignDone (b : BerthId) (t : AssignDoneReport) (s : State) : State :=
  if (s.berth b).state ≠ .plugged ∨ (s.berth b).provingStep ≠ .assign then s
  else
    let u := clearInFlight b s
    if t.ok ∧ t.core = .sp ∧ (s.berth b).assignOrder = some t.func then
      match u.cableSlot b with
      | none => sendTest b .test3 u
      | some n =>
        match u.cables[n].bind (·.map) with
        | some _ => sendTest b .test3 u
        | none => substitute b n t.func u
    else failRun b .assignFailed u

end Sys2Proof.Machine
end

