-- ==== Sys2Proof/Machine/Changeover.lean ====
section
/-! DEFINITION. The CHANGEOVER UNIT: ramps, the evening LIVE and DEAD sequences, the morning release, aborts, and what
an operation's outcome does (chapter 6). The rules take the hooks of the event they run in. -/

namespace Sys2Proof.Machine

/-! ## Causes and their numbers (R109, R117, R119; log entry 14) -/

/-- The causes of a CHANGEOVER_FAILED notice (R109, R114). -/
inductive ChangeoverFailure
  | holdRefused
  | holdTimeout
  | holdWithdrawn
  | closeWait
  | deadTimeout
  | syncFailed
  | timeout
  | portFull
  | rampAborted
  deriving DecidableEq, Repr

/-- The causes of a RELEASE_FAILED notice (R119). -/
inductive ReleaseFailure
  | stepFailures
  | holdWithdrawn
  | pauseExpired
  | holdFailed
  | holdRefused
  | holdTimeout
  | portFull
  deriving DecidableEq, Repr

/-- How an operation ended (R90). -/
inductive OpOutcome
  | success
  | failed (c : OpFailure)
  deriving DecidableEq, Repr

def changeoverFailures : List ChangeoverFailure :=
  [.holdRefused, .holdTimeout, .holdWithdrawn, .closeWait, .deadTimeout, .syncFailed, .timeout, .portFull, .rampAborted]

def releaseFailures : List ReleaseFailure :=
  [.stepFailures, .holdWithdrawn, .pauseExpired, .holdFailed, .holdRefused, .holdTimeout, .portFull]

/-- The stages of a CHANGEOVER_FAILED notice (R120). -/
def failureStages : List BerthState := [.admitted, .closing, .rampIn]

def AbortCause.asRelease : AbortCause → ReleaseFailure
  | .stepFailures => .stepFailures
  | .holdWithdrawn => .holdWithdrawn
  | .pauseExpired => .pauseExpired
  | .holdFailed => .holdFailed

/-! ## Giving up before the breaker has closed (R109) -/

/-- A changeover failure returns the berth to PROVED (R109). -/
def changeoverFailure (h : Hooks) (b : BerthId) (cause : ChangeoverFailure) (s : State) : State :=
  s |> withdrawRequest b
    |> clearInFlight b
    |> endHold b
    |> releaseGrant b
    |> h.passes
    |> enterState h b .proved
    |> noticeBerth b .changeoverFailed
        [codeIn failureStages (s.berth b).state, codeIn changeoverFailures cause, 0#8]

/-! ## The start of a changeover (R106, R107, R111) -/

/-- HOLD_PARALLEL is sent and the hold handshake starts; a full queue leads elsewhere (R107, R113). -/
def startHandshake (onFull : State → State) (b : BerthId) (s : State) : State :=
  match send (s.berthEntry .shipPms b) kindRequest codeHoldParallel [] s with
  | (t, true) => startInFlight b .holdHandshake t.timings.hold t
  | (t, false) => onFull t

/-- DEAD_READY is sent and the dead wait starts (R111). -/
def startDeadWait (h : Hooks) (b : BerthId) (s : State) : State :=
  match send (s.berthEntry .shipPms b) kindRequest codeDeadReady [] s with
  | (t, true) => startInFlight b .deadWait t.timings.deadWait t
  | (t, false) => changeoverFailure h b .portFull t

/-- The stage that follows the converter start, or comes first where no bay is held (R106). -/
def startMethod (h : Hooks) (b : BerthId) (s : State) : State :=
  match (s.berth b).terms with
  | some ⟨_, .live, _, _⟩ => startHandshake (changeoverFailure h b .portFull) b s
  | some ⟨_, .dead, _, _⟩ => startDeadWait h b s
  | none => s

/-- The CHANGEOVER UNIT starts its work on a berth in ADMITTED (R106). -/
def startChangeover (h : Hooks) (b : BerthId) (s : State) : State :=
  match (s.berth b).bay with
  | none => startMethod h b s
  | some k =>
    match send (s.converterEntry k) kindOrder codeConverterStart [bayByte (some k), berthByte (some b)] s with
    | (t, true) => startInFlight b .converterStart t.timings.converterStart t
    | (t, false) => changeoverFailure h b .portFull t

/-! ## Stepping (R102 to R105) -/

/-- Keeps one STEP request before the arbiter, timed in role GRANT_WAIT (R103). -/
def requestStep (h : Hooks) (b : BerthId) (s : State) : State :=
  let r := (s.berth b).ramp
  if r.masked || r.terminal || r.paused then s
  else
    s |> updRamp b (fun r => { r with pauseTimer := some (.grantWait, s.timings.pauseLimit) })
      |> enterRequest h b .step

/-- The transfer is complete: HOLD_END, ON_SHORE and the gens-off wait (R110). -/
def completeTransfer (h : Hooks) (b : BerthId) (s : State) : State :=
  s |> sendHoldEnd b
    |> updBerth b (fun r => { r with holdGranted := false })
    |> enterState h b .onShore
    |> startInFlight b .gensOffWait s.timings.gensOffWait

/-- Terminal count (R105); it ends a pause (R116). -/
def terminalCount (h : Hooks) (b : BerthId) (s : State) : State :=
  let t := s
    |> updRamp b (fun r => { r with terminal := true, pauseTimer := none, paused := false })
    |> releaseLock h b
  match (s.berth b).ramp.direction, (s.berth b).ramp.aborting with
  | .inward, false => completeTransfer h b t
  | .outward, _ => enterRequest h b .openOp t
  | .inward, true => t

/-- The load a ramp moves (R102, step 1). -/
def Berth.rampLoad (r : Berth) : Direction → Nat
  | .inward => (r.obs.shipState.map (·.shipLoad)).getD r.grant
  | .outward => r.ramp.shoreSeen.getD r.grant

/-- The step units of a ramp (R102, step 2). -/
def rampUnits (load step : Nat) : Nat :=
  if Config.rampMaxSteps < divUp load step then divUp load Config.rampMaxSteps else step

/-- The channel a ramp starts with (R102, steps 1 to 5). -/
def Ramp.start (d : Direction) (load : Nat) (t : Terms) (r : Ramp) : Ramp :=
  let units := rampUnits load t.step
  let base := max 1 (divUp load units)
  { r with
    direction := d
    stepUnits := units
    baseCount := base
    currentCount := if load = 0 then 0 else base
    mode := t.rampMode
    effMode := if r.demoted then .single else t.rampMode
    demoted := false
    failures := 0
    masked := false
    terminal := false
    paused := false
    pauseTimer := none }

/-- A ramp start (R102); the caller has set or kept the aborting flag. -/
def startRamp (h : Hooks) (b : BerthId) (d : Direction) (s : State) : State :=
  match (s.berth b).terms with
  | none => s
  | some t =>
    let u := updRamp b (Ramp.start d ((s.berth b).rampLoad d) t) s
    if (u.berth b).ramp.currentCount = 0 then terminalCount h b u else requestStep h b u

/-! ## Abort (R117 to R119) -/

/-- What every abort does first (R117). -/
def abortCommon (h : Hooks) (b : BerthId) (s : State) : State :=
  let s := if s.opOf b = some .step then abandonOp h b s else s
  let s := if s.request b = some .step then withdrawRequest b s else s
  s |> updRamp b (fun r => { r with pauseTimer := none, paused := false })
    |> releaseLock h b
    |> maskRamp b

/-- The morning release failed: back to ON_SHORE with its channel masked, and a RELEASE_FAILED notice (R8, R119). The
channel of a release whose handshake failed is still that of the evening's LIVE ramp, unmasked at terminal count, so it
is masked here. The notice carries the counts the channel holds: those of the ramp OUT, or, where the handshake failed
and no ramp OUT was started, a point the spec leaves open, those of the ramp before it; DESIGN CHOICE, log entry 32. -/
def releaseFailed (h : Hooks) (b : BerthId) (cause : ReleaseFailure) (s : State) : State :=
  s |> endHold b
    |> maskRamp b
    |> enterState h b .onShore
    |> noticeBerth b .releaseFailed
        [codeIn releaseFailures cause, byte (s.berth b).ramp.currentCount, byte (s.berth b).ramp.baseCount]

/-- An abort or a release failure in RAMP_OUT, by the aborting flag (R119). -/
def failRampOut (h : Hooks) (b : BerthId) (cause : ReleaseFailure) (s : State) : State :=
  if (s.berth b).ramp.aborting then trip h b .rampFailed none s else releaseFailed h b cause s

/-- A second abort: the common steps, then R119 (R118). The trip it ends in releases the grant, so the choice of the
common steps is an early one (R69). -/
def abortRampOut (h : Hooks) (b : BerthId) (cause : ReleaseFailure) (s : State) : State :=
  s |> abortCommon h.before b |> failRampOut h b cause

/-- An abort in RAMP_IN undoes the evening changeover: it opens at a small shore load, else reverses the ramp
(R118). -/
def abortRampIn (h : Hooks) (b : BerthId) (cause : AbortCause) (s : State) : State :=
  let r := (s.berth b).ramp
  let t := updRamp b (fun r => { r with aborting := true, abortCause := some cause }) s
  if r.shoreSeen.getD 0 ≤ r.stepUnits then t |> endHold b |> enterRequest h b .openOp
  else
    let u := enterState h b .rampOut t
    if (s.berth b).holdGranted then startRamp h b .outward u
    else startHandshake (abortRampOut h b .holdFailed) b u

/-- A ramp abort (R117). Where a trip or another choice follows the common steps, their choice is an early one (R69). -/
def abortRamp (h : Hooks) (b : BerthId) (cause : AbortCause) (s : State) : State :=
  match (s.berth b).state with
  | .rampIn => s |> abortCommon h.before b |> abortRampIn h b cause
  | .rampOut =>
    s |> abortCommon (if (s.berth b).ramp.aborting then h.before else h) b |> failRampOut h b cause.asRelease
  | .outOfService | .vacant | .plugged | .proved | .queued | .admitted | .closing | .onShore | .opening | .tripped =>
    abortCommon h b s

/-- A failed step is counted; the second in a row aborts the ramp, else the step is asked for again (R103, R104). -/
def stepFailed (h : Hooks) (b : BerthId) (s : State) : State :=
  let t := updRamp b (fun r => { r with failures := r.failures + 1 }) s
  if Config.stepFailureLimit ≤ (t.berth b).ramp.failures then abortRamp h b .stepFailures t else requestStep h b t

/-! ## The ship's hold (R115, R116) -/

/-- A ramp runs: in RAMP_IN or RAMP_OUT, neither masked, terminal nor paused (R115). -/
def Berth.rampRuns (r : Berth) : Bool :=
  (r.state == .rampIn || r.state == .rampOut) && !r.ramp.masked && !r.ramp.terminal && !r.ramp.paused

/-- A DEMAND ramp pauses (R116). -/
def pauseRamp (h : Hooks) (b : BerthId) (s : State) : State :=
  let s := updBerth b (fun r => { r with holdGranted := false, ramp := { r.ramp with paused := true } }) s
  let s := if s.request b = some .step then withdrawRequest b s else s
  s |> updRamp b (fun r => { r with pauseTimer := none })
    |> releaseLock h b
    |> updRamp b fun r => { r with pauseTimer := some (.pause, s.timings.pauseLimit) }

/-- The ship withdraws its hold from a running ramp: by the channel's mode DEMAND pauses, SINGLE and BLOCK abort
(R115). -/
def withdrawHold (h : Hooks) (b : BerthId) (s : State) : State :=
  if (s.berth b).rampRuns then
    match (s.berth b).ramp.mode with
    | .demand => pauseRamp h b s
    | .single | .block =>
      s |> updBerth b (fun r => { r with holdGranted := false }) |> abortRamp h b .holdWithdrawn
  else s

/-- A paused ramp resumes (R116). -/
def resumeRamp (h : Hooks) (b : BerthId) (s : State) : State :=
  let t := updBerth b (fun r => { r with
    holdGranted := true, ramp := { r.ramp with paused := false, pauseTimer := none } }) s
  if t.opOf b = some .step then t else requestStep h b t

/-! ## Outcomes of operations (R104, R108, R112, R114) -/

/-- The cause of R109 that an operation's failure gives, or none where the berth trips with BREAKER_FAIL
(R108, R112). -/
def OpFailure.asChangeover : OpFailure → Option ChangeoverFailure
  | .syncFailed => some .syncFailed
  | .timeout => some .timeout
  | .portFull => some .portFull
  | .refused => some .timeout
  | .breakerFaulted => none

/-- A close ends failed (R108, R112). -/
def closeFailed (h : Hooks) (b : BerthId) (c : OpFailure) (s : State) : State :=
  match c.asChangeover with
  | some cause => changeoverFailure h b cause s
  | none => trip h b .breakerFail none s

/-- The detail of a CHANGEOVER_DONE notice (R120); a DEAD changeover has no ramp, and its count is sent as 0. -/
def doneDetail (r : Berth) (m : Method) : List Byte :=
  [codeIn methods m, byte r.grant, bayByte r.bay, if m = .live then byte r.ramp.baseCount else 0#8]

/-- The outcome of a SYNC_CLOSE (R108). -/
def syncCloseOutcome (h : Hooks) (b : BerthId) (o : OpOutcome) (s : State) : State :=
  match o with
  | .failed c => closeFailed h b c s
  | .success =>
    let t := s
      |> enterState h b .rampIn
      |> updRamp b (fun r => { r with aborting := false })
      |> startRamp h b .inward
    if (s.berth b).holdGranted then t else withdrawHold h b t

/-- The outcome of a DEAD_CLOSE (R112). -/
def deadCloseOutcome (h : Hooks) (b : BerthId) (o : OpOutcome) (s : State) : State :=
  match o with
  | .failed c => closeFailed h b c s
  | .success =>
    s |> enterState h b .onShore |> noticeBerth b .changeoverDone (doneDetail (s.berth b) .dead)

/-- The outcome of a STEP on the ramp channel; a masked channel takes none (R104). -/
def stepOutcome (h : Hooks) (b : BerthId) (o : OpOutcome) (s : State) : State :=
  if (s.berth b).ramp.masked then s
  else
    match o with
    | .failed _ => stepFailed h b s
    | .success =>
      let t := updRamp b (fun r => { r with currentCount := r.currentCount - 1, failures := 0 }) s
      if (t.berth b).ramp.currentCount = 0 then terminalCount h b t else requestStep h b t

/-- The berth leaves OPENING when its breaker has opened (R114, step 3). -/
def leaveOpening (h : Hooks) (b : BerthId) (s : State) : State :=
  if (s.berth b).cable.isSome then enterState h b .proved s
  else if (s.line b).latch.level = .active then s |> enterState h b .plugged |> startProving b
  else enterState h b .vacant s

/-- The notice that ends a release, or an aborted evening changeover (R114, step 4). -/
def openedNotice (b : BerthId) (r : Berth) : State → State :=
  if r.ramp.aborting then
    noticeBerth b .changeoverFailed
      [codeIn failureStages .rampIn, codeIn changeoverFailures .rampAborted, codeOrZero abortCauses r.ramp.abortCause]
  else noticeBerth b .releaseDone [codeOrZero methods (r.terms.map (·.method)), byte r.grant]

/-- The outcome of an OPEN (R114). -/
def openOutcome (h : Hooks) (b : BerthId) (o : OpOutcome) (s : State) : State :=
  match o with
  | .failed _ => trip h b .breakerFail none s
  | .success =>
    s |> endHold b |> releaseGrant b |> h.passes |> leaveOpening h b |> openedNotice b (s.berth b)

/-- An operation's outcome acts on the berth's changeover (R90, step 3). -/
def opOutcome (h : Hooks) (b : BerthId) (k : OpKind) (o : OpOutcome) : State → State :=
  match k with
  | .syncClose => syncCloseOutcome h b o
  | .deadClose => deadCloseOutcome h b o
  | .step => stepOutcome h b o
  | .openOp => openOutcome h b o

/-! ## The morning release (R110, R113) -/

/-- The latest SHIP_STATE shows generators running (R113). -/
def Berth.gensRun (r : Berth) : Bool := (r.obs.shipState.map (·.gensRunning)).getD false

/-- A release ends a gens-off wait with a GENS_NOT_OFF notice, reason RELEASED (R110). -/
def endGensOffWait (b : BerthId) (s : State) : State :=
  if s.flying b = some .gensOffWait then s |> clearInFlight b |> noticeBerth b .gensNotOff [2#8] else s

/-- The morning release of a berth in ON_SHORE, and its answer (R8, R11, R113). -/
def morningRelease (h : Hooks) (b : BerthId) (s : State) : Status × State :=
  match (s.berth b).terms with
  | none => (.noProfile, s)
  | some t =>
    if s.request b = some .openOp then (.badState, s)
    else
      match t.method with
      | .dead => (.accepted, s |> endGensOffWait b |> enterRequest h b .openOp)
      | .live =>
        if (s.berth b).gensRun then
          (.accepted, s |> endGensOffWait b |> enterState h b .rampOut
            |> startHandshake (releaseFailed h b .portFull) b)
        else (.badState, s)

end Sys2Proof.Machine
end

