-- ==== Sys2Proof/Machine/Arbiter.lean ====
section
/-! DEFINITION. The SECTION ARBITER: the choice, eligibility, the grant of an operation with its lock, frame and timer,
the end of an operation, and the local panel (chapter 5). -/

namespace Sys2Proof.Machine

/-! ## The choice (R85, R86) -/

/-- The ship's bus is DEAD in the berth's latest SHIP_STATE (R86). -/
def Berth.busDead (r : Berth) : Bool := (r.obs.shipState.map (·.busDead)).getD false

/-- A DEAD_CLOSE is handed back: the dead wait begins again for a DEAD bus (R86, R111). -/
def handBack (b : BerthId) (s : State) : State :=
  s |> withdrawRequest b |> startInFlight b .deadWait s.timings.deadWait

/-- The first of these berths with an eligible request; a DEAD_CLOSE reached with the bus not DEAD is handed back
(R86). -/
def pickRequest (x : SectionId) : List BerthId → State → State × Option (BerthId × OpKind)
  | [], s => (s, none)
  | b :: rest, s =>
    match (s.sec x).requests[b] with
    | none => pickRequest x rest s
    | some .step => if (s.sec x).spacing.isSome then pickRequest x rest s else (s, some (b, .step))
    | some .deadClose => if (s.berth b).busDead then (s, some (b, .deadClose)) else pickRequest x rest (handBack b s)
    | some .syncClose => (s, some (b, .syncClose))
    | some .openOp => (s, some (b, .openOp))

/-- The cyclic order of berth numbers, starting after the last-granted berth (R85). -/
def cyclicAfter : Option BerthId → List BerthId
  | none => allBerths
  | some b => allBerths.drop (b.val + 1) ++ allBerths.take (b.val + 1)

/-- The order in which the choice considers the berths (R85). -/
def SectionRec.order (r : SectionRec) : List BerthId :=
  match r.mode with
  | .fixed => allBerths
  | .rotating => cyclicAfter r.lastGranted

/-- What the choice decides: the request to grant, if any; serving the local panel's claim changes the arbiter
(R85). -/
def choose (x : SectionId) (s : State) : State × Option (BerthId × OpKind) :=
  let r := s.sec x
  if r.arbiter ≠ .partIdle then (s, none)
  else
    match r.lock with
    | some l => pickRequest x [l.holder] s
    | none =>
      if r.localPending then
        (updSec x (fun r => { r with localPending := false, arbiter := .localPanel }) s, none)
      else pickRequest x r.order s

/-! ## The grant (R87, R88, R97) -/

/-- The state an operation's grant takes its berth to (R87, step 2). -/
def OpKind.granted : OpKind → Option BerthState
  | .syncClose | .deadClose => some .closing
  | .openOp => some .opening
  | .step => none

/-- The lock a STEP of a ramp takes by its effective mode (R96). -/
def RampMode.lockSource : RampMode → Option LockSource
  | .single => none
  | .block => some .block
  | .demand => some .demand

/-- The section's lock after a grant (R97). -/
def lockAfterGrant (b : BerthId) (k : OpKind) (r : Berth) (limit : Nat) (l : Option Lock) : Option Lock :=
  match k with
  | .syncClose => some ⟨b, .close, limit, limit⟩
  | .deadClose | .openOp => l
  | .step =>
    match r.ramp.effMode.lockSource, l with
    | none, l => l
    | some src, none => if src = .demand ∧ r.holdGranted = false then none else some ⟨b, src, limit, limit⟩
    | some src, some l => if l.source = .close then some { l with source := src } else some l

/-- The frame of an operation is queued (R88). -/
def sendOperation (x : SectionId) (b : BerthId) (k : OpKind) (s : State) : State × Bool :=
  let breaker := s.berthEntry .shoreBreaker b
  let breakerId := ((breaker.map (·.id)).getD 0#16)
  let r := (s.berth b).ramp
  match k with
  | .syncClose => send (s.secEntry .synchroniser x) kindOrder codeSyncClose (bytesId breakerId) s
  | .deadClose => send breaker kindOrder codeClose (bytesId breakerId) s
  | .openOp => send breaker kindOrder codeOpen (bytesId breakerId) s
  | .step =>
    send (s.berthEntry .shipPms b) kindRequest codeTransferStep
      (codeIn directions r.direction :: bytes2 r.stepUnits) s

/-- The kind of an operation's in-flight record (R88). -/
def OpKind.flight : OpKind → InFlightKind
  | .syncClose => .syncClose
  | .deadClose => .deadClose
  | .step => .step
  | .openOp => .openOp

/-- The timeout of an operation (R88). -/
def Timings.ofOperation (t : Timings) : OpKind → Nat
  | .syncClose => t.sync
  | .deadClose => t.operate
  | .step => t.step
  | .openOp => t.operate

/-- Steps 1 to 3 of a grant: the arbiter, the berth's state, the lock; a STEP's grant stops its pause-limit timer
(R87, R103). -/
def beginGrant (x : SectionId) (b : BerthId) (k : OpKind) (s : State) : State :=
  let t := updSec x (fun r => { r with
    requests := r.requests.set b none, arbiter := .partBusy, op := some (b, k), lastGranted := some b }) s
  let t := match k.granted with
    | some st => enterState .quiet b st t
    | none => updRamp b (fun r => { r with pauseTimer := none }) t
  updSec x (fun r => { r with lock := lockAfterGrant b k (t.berth b) t.timings.lockLimit r.lock }) t

/-- A grant to a berth; false when its frame met a full transmit queue (R87). -/
def grantOperation (x : SectionId) (b : BerthId) (k : OpKind) (s : State) : State × Bool :=
  match sendOperation x b k (beginGrant x b k s) with
  | (t, true) => (startInFlight b k.flight (t.timings.ofOperation k) t, true)
  | (t, false) => (t, false)

/-! ## The end of an operation (R90) -/

/-- The holder's first STEP after the close has ended with the source still CLOSE: the lock is released (R90,
step 4). -/
def dropCloseLock (x : SectionId) (b : BerthId) (s : State) : State :=
  match (s.sec x).lock with
  | some l => if l.holder = b ∧ l.source = .close then dropLock x s else s
  | none => s

/-- Inside the end of an operation no choice runs (R83, R98), and the passes of a release run where its rule has them
(R72, R109, R114). -/
def Hooks.noChoice : Hooks := ⟨fun _ s => s, fun _ s => s, runPasses⟩

/-- Steps 1 to 4 of the end of an operation; the choice of step 5 is the caller's (R90). -/
def finishOperation (h : Hooks) (x : SectionId) (b : BerthId) (k : OpKind) (o : OpOutcome) (s : State) : State :=
  let t := s |> clearInFlight b |> freeArbiter x k |> opOutcome h b k o
  if k = .step then dropCloseLock x b t else t

/-- The choice and its grant, carried out once; an operation is answered where its frame met a full transmit queue and it
is to end with PORT_FULL (R85, R87). -/
def choiceTurn (x : SectionId) (s : State) : State × Option (BerthId × OpKind) :=
  match choose x s with
  | (t, none) => (t, none)
  | (t, some (b, k)) =>
    match grantOperation x b k t with
    | (u, true) => (u, none)
    | (u, false) => (u, some (b, k))

/-- The choice, run again after each grant that ends at once with PORT_FULL (R90); the passes of the releases this makes
are only called for. -/
def earlyLoop (x : SectionId) : Nat → State → State
  | 0, s => s
  | n + 1, s =>
    match choiceTurn x s with
    | (t, none) => t
    | (t, some (b, k)) => earlyLoop x n (finishOperation .quiet x b k (.failed .portFull) t)

/-- A choice that a release or another choice of the same event follows (R69). -/
def earlyChoice (x : SectionId) : State → State := earlyLoop x Config.choiceBound

/-- The end of an operation and the choice that follows it, of at most `n` grants more. The passes run at step 5 of the
operation's own release (R72) where nothing after it in the event calls for a pass; else they are only called for there,
and the choice goes on by `more` to the release that is the last (R69, log entry 7). -/
def endThen (x : SectionId) (n : Nat) (more : State → State) (b : BerthId) (k : OpKind) (o : OpOutcome) (s : State) :
    State :=
  let t := earlyLoop x n (finishOperation .noChoice x b k o s)
  if t.passA || t.passB then more (finishOperation .quiet x b k o s) else t

/-- The choice, run again after each grant that ends at once with PORT_FULL, with the passes of the event at the last
release it makes (R69, R85, R87, R90). -/
def choiceLoop (x : SectionId) : Nat → State → State
  | 0, s => s
  | n + 1, s =>
    match choiceTurn x s with
    | (t, none) => t
    | (t, some (b, k)) => endThen x n (choiceLoop x n) b k (.failed .portFull) t

/-- The choice of a section's arbiter (R85). -/
def runChoice (x : SectionId) : State → State := choiceLoop x Config.choiceBound

/-- In an event of its own a rule's choice and passes run at once. -/
def Hooks.live : Hooks := ⟨runChoice, earlyChoice, runPasses⟩

/-- The end of an operation in flight, by a report or its timer: R90 whole. -/
def endOperation (b : BerthId) (k : OpKind) (o : OpOutcome) (s : State) : State :=
  endThen (s.secOf b) Config.choiceBound (runChoice (s.secOf b)) b k o s

/-- The event is over: the passes it has called for and not yet run are run (R69). -/
def finishEvent : State → State := runPasses

/-! ## The local panel (R94, R95) -/

/-- What a LOCAL_CLAIM makes of a section's record (R94). -/
def SectionRec.claim (r : SectionRec) : SectionRec :=
  match r.arbiter, r.lock with
  | .partIdle, none => { r with arbiter := .localPanel }
  | .partIdle, some _ => { r with localPending := true }
  | .partBusy, _ => { r with localPending := true }
  | .localPanel, _ => r

/-- LOCAL_CLAIM at a section's arbiter (R94). -/
def localClaim (x : SectionId) : State → State := updSec x SectionRec.claim

/-- LOCAL_RELEASE at a section's arbiter (R95). -/
def localRelease (x : SectionId) (s : State) : State :=
  match (s.sec x).arbiter with
  | .localPanel => s |> updSec x (fun r => { r with arbiter := .partIdle }) |> runChoice x
  | .partIdle | .partBusy => updSec x (fun r => { r with localPending := false }) s

end Sys2Proof.Machine
end

