-- ==== Sys2Proof/Machine/Frames.lean ====
section
/-! DEFINITION. The FORWARDING UNIT: which command takes the frame at the head of a buffer, the frame and map checks,
and how a taken report, request, TABLE frame or other frame is disposed of (R122, R124, R127 to R130, R132, R160). -/

namespace Sys2Proof.Machine

/-- The commands that take a frame. -/
inductive FrameRow
  | gateDecision
  | forwardFrame
  | shoreWanted
  | releaseWanted
  | withdraw
  | service
  | outOfService
  | admitBerth
  | release
  | ackTrip
  | restart
  | setClock
  | tableRead
  | tableWrite
  | equipmentWrite
  | gateWrite
  | berthsWrite
  | sectionsWrite
  | profilesWrite
  | cablesWrite
  | timingsWrite
  | linesWrite
  | deviceWrite
  | position
  | syncResult
  | coreTest
  | assignDone
  | shipState
  | stepDone
  | holdState
  | vesselId
  | converterState
  | feederState
  | localClaim
  | localRelease
  deriving DecidableEq, Repr

/-- The command that takes a REPORT with this code. -/
def reportRow (code : Byte) : FrameRow :=
  match code.toNat with
  | 0x61 => .position
  | 0x62 => .syncResult
  | 0x63 => .coreTest
  | 0x64 => .assignDone
  | 0x65 => .shipState
  | 0x66 => .stepDone
  | 0x67 => .holdState
  | 0x68 => .vesselId
  | 0x69 => .converterState
  | 0x6A => .feederState
  | 0x6B => .localClaim
  | 0x6C => .localRelease
  | _ => .forwardFrame

/-- The command that takes a REQUEST with this code addressed to the part. -/
def requestRow (code : Byte) : FrameRow :=
  match code.toNat with
  | 0x31 => .shoreWanted
  | 0x32 => .releaseWanted
  | 0x33 => .withdraw
  | 0x41 => .service
  | 0x42 => .outOfService
  | 0x43 => .admitBerth
  | 0x44 => .release
  | 0x45 => .ackTrip
  | 0x46 => .restart
  | 0x47 => .setClock
  | _ => .gateDecision

/-- The command that takes a TABLE WRITE to a table (10.2). -/
def writeRow (table : Byte) : FrameRow :=
  match table.toNat with
  | 2 => .equipmentWrite
  | 3 => .gateWrite
  | 4 => .berthsWrite
  | 5 => .sectionsWrite
  | 6 => .profilesWrite
  | 7 => .cablesWrite
  | 8 => .timingsWrite
  | 9 => .linesWrite
  | 10 => .deviceWrite
  | _ => .tableWrite

/-- The one command that takes a received frame, read from its bytes as they stand, whether or not they pass the
checks. A frame no row of the table names goes with the row whose checks the spec lists for it (log entry 20). -/
def rowOf (own : EquipId) (bytes : List Byte) : FrameRow :=
  match bytes with
  | d1 :: d0 :: _ :: _ :: kind :: code :: _ :: _ :: rest =>
    match kind.toNat with
    | 1 => .gateDecision
    | 2 => reportRow code
    | 3 => if idOf d1 d0 = own then requestRow code else .gateDecision
    | 6 => if code = codeWrite then writeRow (at' rest 0) else .tableRead
    | _ => .forwardFrame
  | _ => .forwardFrame

/-- Takes the head frame of a port's buffer if it is this command's; otherwise the event has not come about and
nothing changes (R122, log entry 3). A frame that fails R124 is discarded and counted. -/
def takeFrame (row : FrameRow) (p : Port) (act : Frame → State → State) (s : State) :
    Host.Outcome State Fault Refusal :=
  match (s.port p).rx with
  | [] => .next s
  | bytes :: _ =>
    if rowOf s.ownId bytes = row then
      match checkFrame s.ownId bytes with
      | none => .next (s |> dropHead p |> countCheckError p)
      | some f => .next (s |> dropHead p |> act f)
    else .next s

/-- The checks of R127: the source entry, and the destination entry or none for the part itself. -/
def State.route (s : State) (p : Port) (f : Frame) : Option (EquipEntry × Option EquipEntry) :=
  match s.entryOf f.src with
  | none => none
  | some e =>
    if e.port ≠ p then none
    else if f.dst = s.ownId then some (e, none)
    else
      match s.entryOf f.dst with
      | none => none
      | some d => if d.port = p then none else some (e, some d)

/-- A frame that passes R127 is acted on; one that does not is discarded and counted (R127). -/
def routed (p : Port) (act : Frame → EquipEntry → Option EquipEntry → State → State) (f : Frame) (s : State) :
    State :=
  match s.route p f with
  | none => countUnmapped p s
  | some (e, d) => act f e d s

/-- A report addressed to the part is consumed; one for another party is forwarded (R128, R132). -/
def handOn (p : Port) (f : Frame) (d : Option EquipEntry) (s : State) : State :=
  match d with
  | none => s
  | some d => forward f p d.port s

/-- A report is observed, its effects are made, and it is then consumed or forwarded (R128, R130, R132). -/
def observed (p : Port) (act : Frame → EquipEntry → State → State) : Frame → State → State :=
  routed p fun f e d s => s |> act f e |> finishEvent |> handOn p f d

/-- The command of a report: `act` is given the frame and its source entry (R130). -/
def takeReport (row : FrameRow) (p : Port) (act : Frame → EquipEntry → State → State) (s : State) :
    Host.Outcome State Fault Refusal :=
  takeFrame row p (observed p act) s

/-- The REPLY to a request addressed to the part (R4). -/
def reply (p : Port) (f : Frame) (st : Status) (s : State) : State :=
  sendReply p ⟨f.src, s.ownId, kindReply, 0x01#8, f.tag, [codeIn statuses st, f.code]⟩ s

/-- Answers a request with a status, its effect and the passes it has called for made first (R4, R5). -/
def answer (p : Port) (f : Frame) (r : Status × State) : State := r.2 |> finishEvent |> reply p f r.1

/-- A request addressed to the part, from an entry of a class and with a payload of a size (R129). -/
def requested (cls : EquipClass) (size : Nat) (p : Port)
    (act : Frame → EquipEntry → State → State) : Frame → State → State :=
  routed p fun f e _ s =>
    if e.cls ≠ cls then reply p f .notPermitted s
    else if f.payload.length ≠ size then reply p f .badValue s
    else act f e s

/-- The command of a ship's request: it acts on the berth of the SHIP_PMS entry it came from (R4, R129). -/
def takeShipRequest (row : FrameRow) (p : Port) (act : BerthId → State → Status × State) (s : State) :
    Host.Outcome State Fault Refusal :=
  takeFrame row p
    (requested .shipPms 0 p fun f e s =>
      match e.berth with
      | some b => answer p f (act b s)
      | none => s) s

/-- The command of a control-room request about a berth (R4, R129). -/
def takeBerthRequest (row : FrameRow) (p : Port) (act : BerthId → State → Status × State) (s : State) :
    Host.Outcome State Fault Refusal :=
  takeFrame row p
    (requested .supervisor 1 p fun f _ s =>
      match berthOf (at' f.payload 0) with
      | some b => answer p f (act b s)
      | none => reply p f .badValue s) s

/-! ## TABLE frames (R128, R159, R160) -/

/-- A TABLE reply: the request's code, table and index, a status and a body (R128, R159). -/
def tableReply (p : Port) (f : Frame) (st : Status) (body : List Byte) (s : State) : State :=
  sendReply p
    ⟨f.src, s.ownId, kindTable, f.code, f.tag, [at' f.payload 0, at' f.payload 1, codeIn statuses st] ++ body⟩ s

/-- Start-up access: a TABLE frame on SUP for the part while no SUPERVISOR entry exists (R160). -/
def State.startUpAccess (s : State) (p : Port) (f : Frame) : Bool :=
  p == portSUP && f.dst == s.ownId && s.supervisor.isNone

/-- A TABLE frame reaches the MANAGEMENT UNIT from SUP, under start-up access or the map checks; any other is answered
NOT_PERMITTED (R128, R159, R160). -/
def managed (p : Port) (act : Frame → State → State) (f : Frame) (s : State) : State :=
  if s.startUpAccess p f then act f s
  else
    routed p (fun f _ d s =>
      if p = portSUP ∧ d = none then act f s else tableReply p f .notPermitted [] s) f s

/-- The command of a TABLE frame. -/
def takeTable (row : FrameRow) (p : Port) (act : Frame → State → State) (s : State) :
    Host.Outcome State Fault Refusal :=
  takeFrame row p (managed p act) s

/-! ## The two commands of frames for other parties -/

/-- GATE_DECISION (R135): an ORDER or REQUEST for another party goes to the GATE; an ORDER to the part is refused with
NO_RULE (R128), and a REQUEST to the part that its code table does not take is answered BAD_VALUE (R129). -/
def execGateDecision (p : Port) (s : State) : Host.Outcome State Fault Refusal :=
  takeFrame .gateDecision p
    (routed p fun f e d s =>
      match d with
      | some d => gateDecide f p e d s
      | none => if f.kind = kindOrder then refuse .noRule f p s else reply p f .badValue s) s

/-- FORWARD_FRAME (R128, R132): for another party it is forwarded unchanged; for the part it is consumed. -/
def execForwardFrame (p : Port) (s : State) : Host.Outcome State Fault Refusal :=
  takeFrame .forwardFrame p
    (routed p fun f _ d s =>
      match d with
      | some d => forward f p d.port s
      | none => s) s

end Sys2Proof.Machine
end

