-- ==== Sys2Proof/Machine/Lines.lean ====
section
/-! DEFINITION. The LINE MONITOR: activations, deactivations and their effects on the berth (R13, R16, R24, R26 to
R34). -/

namespace Sys2Proof.Machine

/-- A fault line's record. -/
def BerthLines.fault (r : BerthLines) : FaultLine → LineRec
  | .estop => r.estop
  | .pilot => r.pilot
  | .strain => r.strain

/-- Changes a fault line's record. -/
def BerthLines.updFault (r : BerthLines) (l : FaultLine) (f : LineRec → LineRec) : BerthLines :=
  match l with
  | .estop => { r with estop := f r.estop }
  | .pilot => { r with pilot := f r.pilot }
  | .strain => { r with strain := f r.strain }

/-- A line that the checks look at: enabled, sensed LEVEL and ACTIVE (R26). -/
def LineRec.blocks (r : LineRec) : Bool := r.enable == .enabled && r.sense == .level && r.level == .active

/-- The record of an activation: level, stamp and count (R24, R27). -/
def LineRec.activate (second night : Nat) (r : LineRec) : LineRec :=
  { r with level := .active, stamp := some (second, night), count := satInc Config.countMax r.count }

/-- One more activation of a line in the nightly tally (R153). -/
def Tally.count (t : Tally) : FaultLine → Tally
  | .estop => { t with estop := satInc Config.byteMax t.estop }
  | .pilot => { t with pilot := satInc Config.byteMax t.pilot }
  | .strain => { t with strain := satInc Config.byteMax t.strain }

/-- Stamps and counts an activation of an enabled fault line (R24, R153). -/
def stampFault (b : BerthId) (l : FaultLine) (s : State) : State :=
  s |> updLine b (fun r => r.updFault l (LineRec.activate s.clock.time s.clock.night))
    |> updBerth b fun r => { r with tally := r.tally.count l }

/-- An activation of a fault line: enabled it is recorded and has its effect, disabled only its level is recorded; an
input that is already active does not change (R24). -/
def activateFault (b : BerthId) (l : FaultLine) (effect : State → State) (s : State) : State :=
  let r := (s.line b).fault l
  if r.level = .active then s
  else if r.enable = .enabled then s |> stampFault b l |> effect
  else updLine b (fun t => t.updFault l fun r => { r with level := .active }) s

/-- The LINE_EVENT notice of an activation: the line, the activation, the berth's state when it was taken, and the
count (R34). -/
def lineEventActivation (b : BerthId) (l : FaultLine) (st : BerthState) (s : State) : State :=
  noticeBerth b .lineEvent
    ([codeIn faultLines l, 1#8, codeIn berthStates st] ++ bytes2 ((s.line b).fault l).count) s

/-- The effect of an ESTOP activation (R28). -/
def estopEffect (b : BerthId) (s : State) : State :=
  match (s.berth b).state with
  | .outOfService | .vacant => lineEventActivation b .estop (s.berth b).state s
  | .plugged | .proved | .queued | .admitted | .closing | .rampIn | .onShore | .rampOut | .opening =>
    trip .live b .estop none s
  | .tripped => s

/-- PILOT returns a berth to PLUGGED to be proved again (R30). -/
def pilotReturn (b : BerthId) (s : State) : State :=
  let st := (s.berth b).state
  let t := if st = .admitted then
      s |> withdrawRequest b |> clearInFlight b |> endHold b |> releaseGrant b |> Hooks.live.passes
    else s
  t |> updBerth b (fun r => { r with profile := none, cable := none, provingPassed := false })
    |> enterState .live b .plugged
    |> startProving b
    |> lineEventActivation b .pilot st

/-- The effect of a PILOT activation (R29, R30). -/
def pilotEffect (b : BerthId) (s : State) : State :=
  match (s.berth b).state with
  | .outOfService | .vacant | .plugged | .tripped => s
  | .proved | .queued | .admitted => pilotReturn b s
  | .closing | .rampIn | .onShore | .rampOut | .opening => trip .live b .pilotLost none s

/-- The effect of a STRAIN activation: the strain grace starts and a LINE_EVENT is sent (R31). -/
def strainEffect (b : BerthId) (s : State) : State :=
  s |> updLine b (fun r => { r with strainTimer := some s.timings.strainGrace })
    |> lineEventActivation b .strain (s.berth b).state

/-- A deactivation of a fault line: the level is recorded, and a running strain timer is stopped (R24, R32). -/
def deactivateFault (b : BerthId) (l : FaultLine) (s : State) : State :=
  updLine b (fun r =>
    let t := r.updFault l fun r => { r with level := .inactive }
    if l = .strain then { t with strainTimer := none } else t) s

/-- The strain timer expires (R33). -/
def expireStrain (b : BerthId) (s : State) : State :=
  if (s.line b).strainTimer = some 0 then
    let t := updLine b (fun r => { r with strainTimer := none }) s
    if (s.berth b).state.closingToOpening then trip .live b .strain none t
    else
      noticeBerth b .lineEvent
        ([codeIn faultLines .strain, 2#8, codeIn berthStates (s.berth b).state] ++ bytes2 0) t
  else s

/-! ## LATCH (R13, R16, R27) -/

/-- The record of a LATCH activation (R27, R153). -/
def stampLatch (b : BerthId) (s : State) : State :=
  s |> updLine b (fun r => { r with latch := r.latch.activate s.clock.time s.clock.night })
    |> updBerth b fun r => { r with tally := { r.tally with latch := satInc Config.byteMax r.tally.latch } }

/-- A LATCH activation (R13, R27). -/
def activateLatch (b : BerthId) (s : State) : State :=
  if (s.line b).latch.level = .active then s
  else
    let t := stampLatch b s
    if (t.berth b).state = .vacant then
      t |> updBerth b (fun r => { r with vessel := none, profile := none, cable := none })
        |> enterState .live b .plugged
        |> startProving b
    else t

/-- A plug leaves a berth whose breaker is expected open: the berth enters VACANT (R16, the PLUGGED row). -/
def unplug (b : BerthId) (s : State) : State :=
  s |> clearInFlight b
    |> unlinkCable b
    |> updBerth b (fun r => { r with provingPassed := false, provingStep := .idle, comparison := 0#5 })
    |> enterState .live b .vacant

/-- What a LATCH deactivation does in the berth's state (R16). -/
def latchLostEffect (b : BerthId) (s : State) : State :=
  match (s.berth b).state with
  | .outOfService | .vacant => s
  | .plugged | .proved | .queued => unplug b s
  | .admitted =>
    s |> withdrawRequest b
      |> clearInFlight b
      |> updBerth b (fun r => { r with holdGranted := false })
      |> releaseGrant b
      |> Hooks.live.passes
      |> unplug b
  | .closing | .rampIn | .onShore | .rampOut | .opening => trip .live b .latchLost none s
  | .tripped => unlinkCable b s

/-- A LATCH deactivation (R16, R27). -/
def deactivateLatch (b : BerthId) (s : State) : State :=
  if (s.line b).latch.level = .inactive then s
  else
    s |> updLine b (fun r => { r with latch := { r.latch with level := .inactive } })
      |> latchLostEffect b

/-! ## The meanings of the line commands -/

/-- ESTOP_ACTIVATION (R24, R28). -/
def execEstopActivation (b : BerthId) (s : State) : Host.Outcome State Fault Refusal :=
  .next (s |> activateFault b .estop (estopEffect b) |> finishEvent)

/-- PILOT_ACTIVATION (R24, R29, R30). -/
def execPilotActivation (b : BerthId) (s : State) : Host.Outcome State Fault Refusal :=
  .next (s |> activateFault b .pilot (pilotEffect b) |> finishEvent)

/-- STRAIN_ACTIVATION (R24, R31). -/
def execStrainActivation (b : BerthId) (s : State) : Host.Outcome State Fault Refusal :=
  .next (s |> activateFault b .strain (strainEffect b) |> finishEvent)

/-- FAULT_LINE_DEACTIVATION (R24, R32). -/
def execFaultLineDeactivation (b : BerthId) (l : FaultLine) (s : State) : Host.Outcome State Fault Refusal :=
  .next (deactivateFault b l s)

/-- LATCH_ACTIVATION (R13, R27). -/
def execLatchActivation (b : BerthId) (s : State) : Host.Outcome State Fault Refusal :=
  .next (s |> activateLatch b |> finishEvent)

/-- LATCH_DEACTIVATION (R16, R27). -/
def execLatchDeactivation (b : BerthId) (s : State) : Host.Outcome State Fault Refusal :=
  .next (s |> deactivateLatch b |> finishEvent)

/-- STRAIN_GRACE_EXPIRY (R33). -/
def execStrainGraceExpiry (b : BerthId) (s : State) : Host.Outcome State Fault Refusal :=
  .next (s |> expireStrain b |> finishEvent)

end Sys2Proof.Machine
end

