-- ==== Sys2Proof/Machine/Clock.lean ====
section
/-! DEFINITION. The NIGHT CLOCK: the tick, the night boundary's housekeeping and SET_CLOCK (R58, R59, R148 to R154). -/

namespace Sys2Proof.Machine

/-! ## The tick (R148, R149) -/

/-- The boundary second (R148). -/
def Clock.boundary (c : Clock) : Nat := c.boundaryHour * Config.hourSeconds

/-- The clock advances by one second; the tick that reaches the boundary second makes the boundary due (R148, log
entry 5). -/
def Clock.tick (c : Clock) : Clock :=
  let t := if c.time + 1 < Config.daySeconds then c.time + 1 else 0
  { c with time := t, boundaryDue := c.boundaryDue || t == c.boundary }

/-- One second off the pause-limit timer. -/
def Ramp.tick (r : Ramp) : Ramp := { r with pauseTimer := r.pauseTimer.map fun t => (t.1, t.2 - 1) }

/-- One second off every running timer of a berth (R149). -/
def Berth.tick (r : Berth) : Berth :=
  { r with
    inFlight := r.inFlight.map fun f => { f with timer := f.timer - 1 }
    ramp := r.ramp.tick
    overdraw := Timer.tick r.overdraw
    holdQueue := r.holdQueue.map fun h => { h with timer := h.timer - 1 } }

/-- One second off a strain timer. -/
def BerthLines.tick (r : BerthLines) : BerthLines := { r with strainTimer := Timer.tick r.strainTimer }

/-- One second off a section's lock timer and step-spacing timer. -/
def SectionRec.tick (r : SectionRec) : SectionRec :=
  { r with
    lock := r.lock.map fun l => { l with timer := l.timer - 1 }
    spacing := Timer.tick r.spacing }

/-- A tick takes one second from every running timer; one that comes to 0 stays there, its expiry due (R149, log
entry 4). -/
def tick (s : State) : State :=
  { s with
    clock := s.clock.tick
    berths := s.berths.map Berth.tick
    lines := s.lines.map BerthLines.tick
    sectionA := s.sectionA.tick
    sectionB := s.sectionB.tick }

/-! ## The housekeeping (R152 to R154, R58, R59) -/

/-- The record of the cable a tally names, if the table still holds it (R154). -/
def State.tallyCable (s : State) (t : Tally) : Option CableRec :=
  (t.cable.bind s.cableSlotOf).bind fun n => s.cables[n]

/-- The last-night record of a tally (R154, step 1). -/
def State.lastNightOf (s : State) (t : Tally) : LastNight :=
  let c := s.tallyCable t
  ⟨s.clock.night, t.cable, (c.map (·.tests)).getD 0, (c.map (·.andMask)).getD 0#5, (c.map (·.orMask)).getD 0#5,
    t.estop, t.pilot, t.strain, t.latch, t.trips⟩

/-- A tally that makes a NIGHT_SUMMARY notice (R154, step 2). -/
def Tally.active (t : Tally) : Bool :=
  t.cable.isSome || 0 < t.estop || 0 < t.pilot || 0 < t.strain || 0 < t.latch

/-- The detail of a NIGHT_SUMMARY notice (R154). -/
def LastNight.detail (l : LastNight) : List Byte :=
  vesselBytes l.cable ++ [byte l.tests, coresByte l.andMask, coresByte l.orMask,
    byte (min Config.byteMax (l.estop + l.pilot + l.strain))]

/-- The night summary of a berth (R154). -/
def nightSummary (b : BerthId) (s : State) : State :=
  let t := (s.berth b).tally
  let l := s.lastNightOf t
  let u := updBerth b (fun r => { r with lastNight := some l, tally := Tally.cleared }) s
  if t.active then noticeBerth b .nightSummary l.detail u else u

/-- A cable record's nightly clearing (R58). -/
def CableRec.nightly (r : CableRec) : CableRec :=
  { r with soft := ⟨0, 0, 0, 0, 0⟩, tests := 0, andMask := 0#5, orMask := 0#5 }

/-- A record that retention keeps (R59). -/
def CableRec.kept (retention night : Nat) (r : CableRec) : Bool := r.berth.isSome || r.age night < retention

/-- Every berth's nightly count and flag are cleared (R152, step 3). -/
def clearNoticeCounts : State → State :=
  forBerths fun b => updBerth b fun r => { r with noticeCount := 0, noticeLimited := false }

/-- The housekeeping of a night boundary (R152). -/
def housekeeping (s : State) : State :=
  let t := forBerths nightSummary s
  let night := (t.clock.night + 1) % Config.nightModulus
  let u := clearNoticeCounts { t with clock := { t.clock with night := night } }
  { u with cables :=
      (u.cables.map (Option.map CableRec.nightly)).map (Option.filter (CableRec.kept u.retention night)) }

/-- The boundary that a tick has reached runs its housekeeping, once (R148, R152). -/
def runBoundary (s : State) : State :=
  if s.clock.boundaryDue then housekeeping { s with clock := { s.clock with boundaryDue := false } } else s

/-! ## SET_CLOCK (R150) -/

/-- A move of the clock that crosses the boundary (R150, step 1). -/
def Clock.crosses (c : Clock) (new : Nat) : Bool := c.time < new && c.time < c.boundary && c.boundary ≤ new

/-- SET_CLOCK to a second count (R150). Where it crosses the boundary, the notices of the housekeeping carry the new time:
R148 has the time as it stands when the event is taken, R155 the time when the notice is made, which is after step 2 of
R150. DESIGN CHOICE, unsafe: the model takes R155's (log entry 35). -/
def setClockTo (new : Nat) (s : State) : Status × State :=
  if new < Config.daySeconds then
    let t := { s with clock := { s.clock with time := new } }
    (.accepted, if s.clock.crosses new then housekeeping t else t)
  else (.badValue, s)

/-! ## The meanings of the clock commands -/

/-- CLOCK_TICK (R148, R149). -/
def execClockTick (s : State) : Host.Outcome State Fault Refusal := .next (tick s)

/-- NIGHT_BOUNDARY (R152). -/
def execNightBoundary (s : State) : Host.Outcome State Fault Refusal := .next (runBoundary s)

/-- SET_CLOCK (R150). -/
def execSetClock (p : Port) (s : State) : Host.Outcome State Fault Refusal :=
  takeFrame .setClock p
    (requested .supervisor 3 p fun f _ s =>
      answer p f (setClockTo (num3 (at' f.payload 0) (at' f.payload 1) (at' f.payload 2)) s)) s

end Sys2Proof.Machine
end

