-- ==== Sys2Proof/Machine/Reset.lean ====
section
/-! DEFINITION. Power-on and RESTART (R164, R165), and the dynamic fields of a berth's record, which OUT_OF_SERVICE
resets as well (R1, R12). -/

namespace Sys2Proof.Machine

/-- The dynamic fields of a berth's record at their power-on values; kept are the section, the nightly notice count
and limit flag, and what is not a field of R1: the tally, the last-night record and the observed values. The hold queue
is kept too: its frames are refused by a step of their own (R1, R12, R131, R165). -/
def Berth.resetDynamic (r : Berth) : Berth :=
  { Berth.initial r.sec with
    noticeCount := r.noticeCount
    noticeLimited := r.noticeLimited
    tally := r.tally
    lastNight := r.lastNight
    obs := r.obs
    holdQueue := r.holdQueue }

/-- A section after RESTART: limit, bypass limit, priority mode and the latest SYNC_RESULT are kept (R62, R81,
R131). -/
def SectionRec.restart (r : SectionRec) : SectionRec :=
  { SectionRec.initial with
    limit := r.limit, bypassLimit := r.bypassLimit, mode := r.mode, syncResult := r.syncResult }

/-- A bay after RESTART: the latest CONVERTER_STATE is kept (R65). -/
def BayRec.restart (r : BayRec) : BayRec := { BayRec.initial with report := r.report }

/-- A port after RESTART: the frame on the link is completed and the tag count kept (R122, R123, R133, R165). -/
def PortRec.restart (r : PortRec) : PortRec :=
  { PortRec.initial with onLink := r.onLink, tagCount := r.tagCount }

/-- Steps 1 to 4 of RESTART, and the hit counts of step 5 (R165). -/
def clearDynamic (s : State) : State :=
  { s with
    berths := s.berths.map Berth.resetDynamic
    lines := s.lines.map fun r => { r with strainTimer := none }
    cables := s.cables.map (Option.map fun r => { r with berth := none })
    sectionA := s.sectionA.restart
    sectionB := s.sectionB.restart
    bay1 := s.bay1.restart
    bay2 := s.bay2.restart
    bayTurn := .A
    startQueue := []
    passA := false
    passB := false
    ports := s.ports.map PortRec.restart
    gate := s.gate.map fun e => { e with hits := 0 } }

/-- RESTART (R165): the held frames are refused once the queues are empty, then the reply, then the notices. -/
def restartPart (p : Port) (f : Frame) (s : State) : State :=
  let t := s |> clearDynamic |> forBerths (refuseHeld .restart) |> reply p f .accepted
  { t with notices := [] } |> noticePlain .restarted []

/-- POWER_ON (R164): the lines take the levels found; the queue of commands is the model's own and stays. -/
def execPowerOn (found : Vector LineInputs 8) (s : State) : Host.Outcome State Fault Refusal :=
  .next { State.powerOn found with pending := s.pending }

/-- RESTART (R165). -/
def execRestart (p : Port) (s : State) : Host.Outcome State Fault Refusal :=
  takeFrame .restart p (requested .supervisor 0 p fun f _ s => restartPart p f s) s

end Sys2Proof.Machine
end

