-- ==== Sys2Proof/Machine/Requests.lean ====
section
/-! DEFINITION. The requests that act on a berth, from the ship and from the control room (R4 to R12, R22, R38, R67). -/

namespace Sys2Proof.Machine

/-! ## Asking for shore power (R5, R67) -/

/-- The admission checks, and joining the queue at its tail (R5, R67). -/
def askShore (b : BerthId) (s : State) : Status × State :=
  if (s.berth b).state ≠ .proved then (.badState, s)
  else if (s.profileOf b).isNone then (.noProfile, s)
  else if (s.sec (s.secOf b)).feeder ≠ .live then (.feederDown, s)
  else if (s.line b).strain.blocks then (.lineActive, s)
  else (.accepted, joinQueue b (s.sec (s.secOf b)).queue.length s)

/-! ## Giving up a place or an admission (R6, R7) -/

/-- A QUEUED berth leaves its queue for PROVED (R6). -/
def giveUpPlace (b : BerthId) : State → State := enterState .live b .proved

/-- An ADMITTED berth gives up its admission (R7). -/
def giveUpAdmission (b : BerthId) (s : State) : State :=
  s |> withdrawRequest b
    |> clearInFlight b
    |> endHold b
    |> releaseGrant b
    |> Hooks.live.passes
    |> enterState .live b .proved

/-- WITHDRAW by the berth's state (R6, R7). -/
def withdraw (b : BerthId) (s : State) : Status × State :=
  match (s.berth b).state with
  | .queued => (.accepted, giveUpPlace b s)
  | .admitted => (.accepted, giveUpAdmission b s)
  | .outOfService | .vacant | .plugged | .proved | .closing | .rampIn | .onShore | .rampOut | .opening | .tripped =>
    (.badState, s)

/-! ## The release (R8) -/

/-- RELEASE_WANTED (R8). -/
def releaseWanted (b : BerthId) (s : State) : Status × State :=
  if (s.berth b).state = .onShore then morningRelease .live b s else (.badState, s)

/-- RELEASE: WITHDRAW in QUEUED and ADMITTED, else RELEASE_WANTED (R6 to R8). -/
def release (b : BerthId) (s : State) : Status × State :=
  if (s.berth b).state = .onShore then morningRelease .live b s else withdraw b s

/-! ## SERVICE (R9, R10) -/

/-- The EQUIPMENT MAP has every entry that a berth in service needs (R9). -/
def State.mapped (s : State) (b : BerthId) : Bool :=
  let x := s.secOf b
  (s.berthEntry .shoreBreaker b).isSome && (s.berthEntry .plugStation b).isSome && (s.berthEntry .shipPms b).isSome &&
    (s.secEntry .synchroniser x).isSome && (s.secEntry .feederMonitor x).isSome && (s.secEntry .localPanel x).isSome

/-- The bay an adoption takes: FREE, and reported RUNNING for the berth, bay 1 before bay 2 (R10, step 5). -/
def State.runningBay (s : State) (b : BerthId) : Option BayId :=
  bayIds.find? fun k =>
    (s.bay k).state == .free &&
      ((s.bay k).report.map fun r => r.run == .running && berthOf r.berth == some b).getD false

/-- The grant an adoption takes (R10, step 3). -/
def adoptedGrant (r : BerthObserved) (p : Option Profile) : Nat :=
  min Config.grantCap
    (match r.shipState with
      | some t => t.shoreLoad
      | none => (p.map (·.demand)).getD 0)

/-- Step 5 of an adoption: the bay turn is not changed (R10, R65). -/
def adoptBay (b : BerthId) (s : State) : State :=
  match s.runningBay b with
  | none => s
  | some k =>
    s |> updBay k (fun r => { r with state := .granted, berth := some b })
      |> updBerth b fun r => { r with bay := some k }

/-- Adoption (R10). -/
def adopt (b : BerthId) (s : State) : State :=
  let vessel := (s.berth b).obs.vesselId
  let index := vessel.bind s.profileIndexOf
  let profile := index.bind fun n => s.profiles[n]
  let grant := adoptedGrant (s.berth b).obs profile
  let x := s.secOf b
  let t := s
    |> updBerth b (fun r => { r with vessel := vessel, profile := index, grant := grant, cable := none })
    |> updSec x (fun r => { r with granted := r.granted + grant })
    |> raiseOver x
    |> adoptBay b
    |> updBerth b (fun r => { r with
        adopted := true, holdGranted := false, ramp := Ramp.initial, terms := profile.map Profile.terms })
  t |> noticeBerth b .adopted [byte grant, bayByte (t.berth b).bay]
    |> enterState .live b .onShore

/-- A berth in service with a latched plug begins to prove it, its vessel unknown (R9). -/
def serveLatched (b : BerthId) (s : State) : State :=
  s |> updBerth b (fun r => { r with vessel := none }) |> enterState .live b .plugged |> startProving b

/-- SERVICE (R9). -/
def service (b : BerthId) (s : State) : Status × State :=
  if (s.berth b).state ≠ .outOfService ∨ s.mapped b = false then (.badState, s)
  else if s.position b = some .closed then (.accepted, adopt b s)
  else if (s.line b).latch.level = .active then (.accepted, serveLatched b s)
  else (.accepted, enterState .live b .vacant s)

/-! ## OUT_OF_SERVICE (R12) -/

/-- A berth goes out of service; entering OUT_OF_SERVICE finds its hold queue empty (R12, R144). -/
def leaveService (b : BerthId) (s : State) : State :=
  s |> leaveQueue b
    |> unlinkCable b
    |> refuseHeld .berthTripped b
    |> updBerth b Berth.resetDynamic

/-- OUT_OF_SERVICE (R12). -/
def outOfService (b : BerthId) (s : State) : Status × State :=
  match (s.berth b).state with
  | .outOfService => (.badState, s)
  | .admitted | .closing | .rampIn | .onShore | .rampOut | .opening => (.busy, s)
  | .tripped => if s.position b = some .opened then (.accepted, leaveService b s) else (.badState, s)
  | .vacant | .plugged | .proved | .queued => (.accepted, leaveService b s)

/-! ## ACK_TRIP (R22, R38) -/

/-- Any of the berth's fault lines is enabled, sensed LEVEL and ACTIVE (R26, R38). -/
def BerthLines.blocks (r : BerthLines) : Bool := r.estop.blocks || r.pilot.blocks || r.strain.blocks

/-- Where a cleared trip takes the berth (R22, step 3). -/
def afterTrip (b : BerthId) (s : State) : BerthState :=
  if (s.line b).latch.level = .active then .plugged else .vacant

/-- The berth leaves TRIPPED; the cable link is cleared in both cases (R22, R43; log entry 27). -/
def leaveTripped (b : BerthId) (s : State) : State :=
  let t := unlinkCable b s
  if afterTrip b s = .plugged then
    t |> updBerth b (fun r => { r with profile := none, cable := none, provingPassed := false })
      |> enterState .live b .plugged
      |> startProving b
  else enterState .live b .vacant t

/-- A trip is cleared (R22). The TRIP_CLEARED notice carries the state of step 3, PLUGGED or VACANT, also where the
re-proving of step 3 fails at once with PORT_FULL and the berth is in TRIPPED again when step 4 sends the notice: a point
the spec leaves open; DESIGN CHOICE, log entry 31. -/
def clearTrip (b : BerthId) (s : State) : State :=
  s |> updBerth b (fun r => { r with tripCause := none, breakerFail := false })
    |> clearInFlight b
    |> leaveTripped b
    |> noticeBerth b .tripCleared
        [codeOrZero tripCauses (s.berth b).tripCause, codeIn berthStates (afterTrip b s)]

/-- ACK_TRIP (R22, R38). -/
def ackTrip (b : BerthId) (s : State) : Status × State :=
  if (s.berth b).state ≠ .tripped then (.badState, s)
  else if (s.line b).blocks then (.lineActive, s)
  else if s.position b ≠ some .opened then (.badState, s)
  else (.accepted, clearTrip b s)

/-! ## The meanings of the requests -/

/-- SHORE_WANTED (R5). -/
def execShoreWanted (p : Port) (s : State) : Host.Outcome State Fault Refusal :=
  takeShipRequest .shoreWanted p askShore s

/-- RELEASE_WANTED (R8). -/
def execReleaseWanted (p : Port) (s : State) : Host.Outcome State Fault Refusal :=
  takeShipRequest .releaseWanted p releaseWanted s

/-- WITHDRAW (R6, R7). -/
def execWithdraw (p : Port) (s : State) : Host.Outcome State Fault Refusal :=
  takeShipRequest .withdraw p withdraw s

/-- SERVICE (R9, R10). -/
def execService (p : Port) (s : State) : Host.Outcome State Fault Refusal :=
  takeBerthRequest .service p service s

/-- OUT_OF_SERVICE (R12). -/
def execOutOfService (p : Port) (s : State) : Host.Outcome State Fault Refusal :=
  takeBerthRequest .outOfService p outOfService s

/-- ADMIT (R5). -/
def execAdmitBerth (p : Port) (s : State) : Host.Outcome State Fault Refusal :=
  takeBerthRequest .admitBerth p askShore s

/-- RELEASE (R6 to R8). -/
def execRelease (p : Port) (s : State) : Host.Outcome State Fault Refusal :=
  takeBerthRequest .release p release s

/-- ACK_TRIP (R22). -/
def execAckTrip (p : Port) (s : State) : Host.Outcome State Fault Refusal :=
  takeBerthRequest .ackTrip p ackTrip s

end Sys2Proof.Machine
end

