-- ==== Sys2Proof/Machine/Reports.lean ====
section
/-! DEFINITION. The reports: each is observed from a source of the class its code needs, stored, and handed to the
blocks that act on it (R130, R131, and the rules named at each). -/

namespace Sys2Proof.Machine

/-- A report observed from a berth's entry of a class, with its payload read (R130). -/
def fromBerth {α : Type} (cls : EquipClass) (read : List Byte → Option α) (act : BerthId → α → State → State)
    (f : Frame) (e : EquipEntry) (s : State) : State :=
  if e.cls = cls then
    match e.berth, read f.payload with
    | some b, some r => act b r s
    | _, _ => s
  else s

/-- A report observed from a section's entry of a class, with its payload read (R130). -/
def fromSection {α : Type} (cls : EquipClass) (read : List Byte → Option α) (act : SectionId → α → State → State)
    (f : Frame) (e : EquipEntry) (s : State) : State :=
  if e.cls = cls then
    match e.sec, read f.payload with
    | some x, some r => act x r s
    | _, _ => s
  else s

/-- Stores a berth's observed value (R131). -/
def observe (b : BerthId) (f : BerthObserved → BerthObserved) : State → State :=
  updBerth b fun r => { r with obs := f r.obs }

/-! ## POSITION (R17 to R19, R36, R37, R89) -/

/-- A POSITION that no operation in flight is waiting for (R17 to R19). -/
def unaskedPosition (b : BerthId) (p : Breaker) (s : State) : State :=
  match p, (s.berth b).state with
  | .opened, .rampIn | .opened, .onShore | .opened, .rampOut => trip .live b .breakerOpened none s
  | .closed, .vacant | .closed, .plugged | .closed, .proved | .closed, .queued | .closed, .admitted =>
    trip .live b .breakerClosed none s
  | .closed, .tripped => tripOpen b s
  | .faulted, .rampIn | .faulted, .onShore | .faulted, .rampOut => trip .live b .breakerFail none s
  | .opened, _ | .closed, _ | .faulted, _ => s

/-- What a POSITION does to an operation in flight, if it ends it (R89). -/
def positionOutcome (k : OpKind) (p : Breaker) : Option OpOutcome :=
  match k, p with
  | .syncClose, .closed | .deadClose, .closed | .openOp, .opened => some .success
  | .syncClose, .faulted | .deadClose, .faulted | .openOp, .faulted => some (.failed .breakerFaulted)
  | .syncClose, .opened | .deadClose, .opened | .openOp, .closed | .step, _ => none

/-- A POSITION while a trip OPEN is in flight (R36, R37). -/
def tripOpenPosition (b : BerthId) (p : Breaker) (s : State) : State :=
  match p with
  | .opened => tripOpenDone b s
  | .faulted => tripOpenFailed b s
  | .closed => unaskedPosition b p s

/-- A shore breaker's POSITION reaches its berth: its operation in flight first, then R17 to R19 (R130). -/
def positionAtBerth (b : BerthId) (p : Breaker) (s : State) : State :=
  match s.opOf b with
  | some k =>
    match positionOutcome k p with
    | some o => endOperation b k o s
    | none => unaskedPosition b p s
  | none => if s.flying b = some .tripOpen then tripOpenPosition b p s else unaskedPosition b p s

/-- A POSITION report; an earth switch's is stored only (R130). -/
def takePosition (f : Frame) (e : EquipEntry) (s : State) : State :=
  match positionOf f.payload with
  | none => s
  | some (i, p) =>
    if i ≠ f.src then s
    else
      match e.cls, e.berth with
      | .shoreBreaker, some b => s |> storePosition i p |> positionAtBerth b p
      | .earthSwitch, _ => storePosition i p s
      | _, _ => s

/-! ## SYNC_RESULT and STEP_DONE (R89) -/

/-- A SYNC_RESULT; FAILED ends a SYNC_CLOSE in flight in the section (R89). -/
def takeSyncResult (x : SectionId) (o : SyncOutcome) (s : State) : State :=
  let t := updSec x (fun r => { r with syncResult := some o }) s
  match o, (t.sec x).op with
  | .failed, some (b, .syncClose) => endOperation b .syncClose (.failed .syncFailed) t
  | _, _ => t

/-- A STEP_DONE; a STEP of the berth in flight takes it, and its shore load (R89, R101). -/
def takeStepDone (b : BerthId) (r : StepDoneReport) (s : State) : State :=
  let t := observe b (fun o => { o with stepDone := some r }) s
  if t.opOf b = some .step then
    t |> updRamp b (fun c => { c with shoreSeen := some r.shoreLoad })
      |> endOperation b .step (if r.done then .success else .failed .refused)
  else t

/-! ## SHIP_STATE (R76, R77, R101, R110, R111) -/

/-- The gens-off wait ends on generators not running (R110). -/
def gensOffSeen (b : BerthId) (r : ShipStateReport) (s : State) : State :=
  if s.flying b = some .gensOffWait ∧ r.gensRunning = false then
    s |> clearInFlight b |> noticeBerth b .changeoverDone (doneDetail (s.berth b) .live)
  else s

/-- The dead wait goes on to the arbiter when the bus is DEAD, unless its DEAD_CLOSE waits there already (R111). -/
def deadBusSeen (b : BerthId) (r : ShipStateReport) (s : State) : State :=
  if s.flying b = some .deadWait ∧ r.busDead ∧ s.request b = none then enterRequest .live b .deadClose s else s

/-- A SHIP_STATE, handed to its blocks in the order R130 lists them (log entry 19). -/
def takeShipState (b : BerthId) (r : ShipStateReport) (s : State) : State :=
  let t := s
    |> observe b (fun o => { o with shipState := some r })
    |> updRamp b (fun c => { c with shoreSeen := some r.shoreLoad })
  let t := if (t.berth b).state = .onShore then compareLoad b r.shoreLoad t else t
  t |> gensOffSeen b r |> deadBusSeen b r

/-! ## HOLD_STATE (R107, R113, R115, R118) -/

/-- The handshake of an ADMITTED berth has asked for its close (R107, the second phase). -/
def State.awaitsClose (s : State) (b : BerthId) : Bool := s.request b == some .syncClose

/-- The hold is granted in the evening: the timer restarts and the close is asked for (R107, log entry 30). -/
def holdGrantedEvening (b : BerthId) (s : State) : State :=
  s |> updBerth b (fun r => { r with
        holdGranted := true
        inFlight := r.inFlight.map fun i => { i with timer := s.timings.hold } })
    |> enterRequest .live b .syncClose

/-- HOLD_STATE in a handshake of an ADMITTED berth (R107). -/
def holdInAdmitted (b : BerthId) (a : HoldAnswer) (s : State) : State :=
  match s.awaitsClose b, a with
  | false, .granted => holdGrantedEvening b s
  | false, .refused => changeoverFailure .live b .holdRefused s
  | true, .withdrawn => changeoverFailure .live b .holdWithdrawn s
  | false, .withdrawn | true, .granted | true, .refused => s

/-- A handshake in RAMP_OUT fails: a second abort, or the morning release failed (R113, R118, R119). -/
def rampOutHoldFailed (b : BerthId) (cause : ReleaseFailure) (s : State) : State :=
  let t := clearInFlight b s
  if (s.berth b).ramp.aborting then abortRampOut .live b .holdFailed t else releaseFailed .live b cause t

/-- HOLD_STATE in a handshake in RAMP_OUT (R113, R118). -/
def holdInRampOut (b : BerthId) (a : HoldAnswer) (s : State) : State :=
  match a with
  | .granted =>
    s |> updBerth b (fun r => { r with holdGranted := true }) |> clearInFlight b |> startRamp .live b .outward
  | .refused => rampOutHoldFailed b .holdRefused s
  | .withdrawn => s

/-- The hold granted flag follows the ship's answer, with no other effect (R115). -/
def clearHoldOn (b : BerthId) (a : HoldAnswer) (s : State) : State :=
  if a = .withdrawn then updBerth b (fun r => { r with holdGranted := false }) s else s

/-- HOLD_STATE in CLOSING (R115). -/
def holdInClosing (b : BerthId) (a : HoldAnswer) (s : State) : State :=
  if a = .granted then updBerth b (fun r => { r with holdGranted := true }) s else clearHoldOn b a s

/-- HOLD_STATE to a ramp that is running, paused, at terminal count, or masked with an OPEN pending (R115, R116). -/
def holdInRamp (b : BerthId) (a : HoldAnswer) (s : State) : State :=
  let r := s.berth b
  if r.ramp.paused then
    if a = .granted then resumeRamp .live b s else s
  else if r.rampRuns then
    if a = .withdrawn then withdrawHold .live b s else s
  else if r.ramp.terminal || s.request b == some .openOp then clearHoldOn b a s
  else s

/-- HOLD_STATE by the berth's state and the activity under way (R115). -/
def holdAtBerth (b : BerthId) (a : HoldAnswer) (s : State) : State :=
  match (s.berth b).state with
  | .admitted => if s.flying b = some .holdHandshake then holdInAdmitted b a s else s
  | .closing => holdInClosing b a s
  | .rampIn => holdInRamp b a s
  | .rampOut => if s.flying b = some .holdHandshake then holdInRampOut b a s else holdInRamp b a s
  | .opening => clearHoldOn b a s
  | .outOfService | .vacant | .plugged | .proved | .queued | .onShore | .tripped => s

/-- A HOLD_STATE (R115). -/
def takeHoldState (b : BerthId) (a : HoldAnswer) (s : State) : State :=
  s |> observe b (fun o => { o with holdState := some a }) |> holdAtBerth b a

/-! ## VESSEL_ID (R14) -/

/-- A different vessel is named in PROVED (R14). -/
def newVesselProved (b : BerthId) (v : Num32) (s : State) : State :=
  match s.profileIndexOf v with
  | some n => updBerth b (fun r => { r with vessel := some v, profile := some n }) s
  | none =>
    s |> updBerth b (fun r => { r with vessel := some v, profile := none })
      |> enterState .live b .plugged
      |> noticeBerth b .unknownVessel (bytes4 v)

/-- An adopted berth learns its vessel (R14, R64). -/
def newVesselAdopted (b : BerthId) (v : Num32) (s : State) : State :=
  let n := s.profileIndexOf v
  updBerth b (fun r => { r with
    vessel := some v
    profile := n
    terms := (n.bind fun n => s.profiles[n]).map Profile.terms }) s

/-- VESSEL_ID by the berth's state (R14). -/
def vesselAtBerth (b : BerthId) (v : Num32) (s : State) : State :=
  let r := s.berth b
  match r.state with
  | .plugged =>
    let t := updBerth b (fun r => { r with vessel := some v }) s
    if r.provingPassed then seekProfile b t else t
  | .proved => if r.vessel = some v then s else newVesselProved b v s
  | .onShore => if r.adopted ∧ r.vessel = none then newVesselAdopted b v s else s
  | .outOfService | .vacant | .queued | .admitted | .closing | .rampIn | .rampOut | .opening | .tripped => s

/-- A VESSEL_ID (R14). -/
def takeVesselId (b : BerthId) (v : Num32) (s : State) : State :=
  s |> observe b (fun o => { o with vesselId := some v }) |> vesselAtBerth b v

/-! ## CONVERTER_STATE (R66, R106) -/

/-- The BAY_FAULTED notice (R66, R155). -/
def bayFaultedNotice (k : BayId) (holder : Option BerthId) : State → State :=
  match holder with
  | some b => noticeBerth b .bayFaulted [bayByte (some k), berthByte (some b)]
  | none => noticePlain .bayFaulted [bayByte (some k), 0#8]

/-- A bay becomes FAULTED; it keeps the berth it names (R66). -/
def faultBay (k : BayId) (s : State) : State :=
  s |> updBay k (fun r => { r with state := .faulted }) |> bayFaultedNotice k (s.bay k).berth

/-- What the fault of a GRANTED bay does to the berth that holds it (R66). -/
def holderFaulted (b : BerthId) (s : State) : State :=
  if (s.berth b).state = .admitted then requeue b 0 s
  else if (s.berth b).state.closingToOpening then trip .live b .converterFault none s
  else s

/-- A bay reports RUNNING for the berth that waits for its converter (R66, R106). -/
def converterRunning (b : BerthId) (s : State) : State :=
  if s.flying b = some .converterStart then s |> clearInFlight b |> startMethod .live b else s

/-- A FAULTED bay becomes FREE, which calls for passes in both sections (R66). -/
def recoverBay (k : BayId) (s : State) : State :=
  s |> updBay k (fun r => { r with state := .free, berth := none }) |> callPass .A |> callPass .B

/-- A RUNNING or STOPPED report names a berth other than the one holding the bay (R66). -/
def namesOther (holder : Option BerthId) (reported : Byte) : Bool :=
  holder.isSome && berthOf reported != holder

/-- A CONVERTER_STATE by the state it reports and the bay's state (R66). -/
def converterAtBay (k : BayId) (r : ConverterReport) (s : State) : State :=
  let bay := s.bay k
  match r.run, bay.state with
  | .running, .granted =>
    match bay.berth with
    | some b => if namesOther bay.berth r.berth then s else converterRunning b s
    | none => s
  | .stopped, .faulted => if namesOther bay.berth r.berth then s else recoverBay k s
  | .faulted, .free => faultBay k s
  | .faulted, .granted =>
    match bay.berth with
    | some b => s |> faultBay k |> holderFaulted b
    | none => faultBay k s
  | .running, .free | .running, .faulted | .stopped, .free | .stopped, .granted | .faulted, .faulted => s

/-- A CONVERTER_STATE from the CONVERTER entry of the bay it names (R66, R130). -/
def takeConverterState (f : Frame) (e : EquipEntry) (s : State) : State :=
  match e.cls, e.bay, converterStateOf f.payload with
  | .converter, some k, some r =>
    if r.bay = k then s |> updBay k (fun t => { t with report := some r }) |> converterAtBay k r else s
  | _, _, _ => s

/-! ## FEEDER_STATE (R79, R80) -/

/-- The berths of a section in a set of states, ascending. -/
def State.berthsIn (s : State) (x : SectionId) (p : BerthState → Bool) : List BerthId :=
  allBerths.filter fun b => s.secOf b == x && p (s.berth b).state

/-- Re-queues of one event: each behind those before it, all ahead of the berths already queued (R73). -/
def requeueAll (bs : List BerthId) (s : State) : State :=
  bs.zipIdx.foldl (fun t b => requeue b.1 b.2 t) s

/-- A feeder loss (R79). No choice and no pass runs before every berth has been dealt with; the choice that the trips
call for then serves what is left, and the passes end the event (log entries 7 and 8). -/
def feederLost (x : SectionId) (s : State) : State :=
  let t := s |> updSec x (fun r => { r with feeder := .lost }) |> noticeSection x .feederLost []
  let busy := (t.sec x).op.isSome || (t.sec x).lock.isSome
  let u := (t.berthsIn x BerthState.closingToOpening).foldl (fun u b => trip .quiet b .feederLost none u) t
  let u := requeueAll (u.berthsIn x (· == .admitted)) u
  if busy then runChoice x u else u

/-- A feeder becomes LIVE (R80). -/
def feederLive (x : SectionId) (s : State) : State :=
  let t := s |> updSec x (fun r => { r with feeder := .live }) |> callPass x
  match (s.sec x).feeder with
  | .lost => noticeSection x .feederRestored [] t
  | .unknown => t
  | .live => s

/-- The feeder state a FEEDER_STATE reports; true is LIVE. -/
def feederStateOf (p : List Byte) : Option Bool := nameIn yesNo (at' p 0)

/-- A FEEDER_STATE (R79, R80). -/
def takeFeederState (x : SectionId) (live : Bool) (s : State) : State :=
  if live then feederLive x s
  else if (s.sec x).feeder = .lost then s
  else feederLost x s

/-! ## The meanings of the reports -/

/-- POSITION (R130, R17 to R19, R36, R37, R89). -/
def execPosition (p : Port) (s : State) : Host.Outcome State Fault Refusal :=
  takeReport .position p takePosition s

/-- SYNC_RESULT (R89). -/
def execSyncResult (p : Port) (s : State) : Host.Outcome State Fault Refusal :=
  takeReport .syncResult p
    (fromSection .synchroniser (fun q => nameIn syncOutcomes (at' q 0)) takeSyncResult) s

/-- CORE_TEST (R46). -/
def execCoreTest (p : Port) (s : State) : Host.Outcome State Fault Refusal :=
  takeReport .coreTest p
    (fromBerth .plugStation coreTestOf fun b r s =>
      s |> observe b (fun o => { o with coreTest := some r }) |> takeCoreTest b r) s

/-- ASSIGN_DONE (R48, R52). -/
def execAssignDone (p : Port) (s : State) : Host.Outcome State Fault Refusal :=
  takeReport .assignDone p
    (fromBerth .plugStation assignDoneOf fun b r s =>
      s |> observe b (fun o => { o with assignDone := some r }) |> takeAssignDone b r) s

/-- SHIP_STATE (R76, R77, R101, R110, R111). -/
def execShipState (p : Port) (s : State) : Host.Outcome State Fault Refusal :=
  takeReport .shipState p (fromBerth .shipPms shipStateOf takeShipState) s

/-- STEP_DONE (R89, R104). -/
def execStepDone (p : Port) (s : State) : Host.Outcome State Fault Refusal :=
  takeReport .stepDone p (fromBerth .shipPms stepDoneOf takeStepDone) s

/-- HOLD_STATE (R115). -/
def execHoldState (p : Port) (s : State) : Host.Outcome State Fault Refusal :=
  takeReport .holdState p (fromBerth .shipPms (fun q => nameIn holdAnswers (at' q 0)) takeHoldState) s

/-- VESSEL_ID (R14). -/
def execVesselId (p : Port) (s : State) : Host.Outcome State Fault Refusal :=
  takeReport .vesselId p (fromBerth .shipPms (fun q => some (vesselIdOf q)) takeVesselId) s

/-- CONVERTER_STATE (R66). -/
def execConverterState (p : Port) (s : State) : Host.Outcome State Fault Refusal :=
  takeReport .converterState p takeConverterState s

/-- FEEDER_STATE (R79, R80). -/
def execFeederState (p : Port) (s : State) : Host.Outcome State Fault Refusal :=
  takeReport .feederState p (fromSection .feederMonitor feederStateOf takeFeederState) s

/-- LOCAL_CLAIM (R94). -/
def execLocalClaim (p : Port) (s : State) : Host.Outcome State Fault Refusal :=
  takeReport .localClaim p (fromSection .localPanel (fun _ => some ()) fun x _ => localClaim x) s

/-- LOCAL_RELEASE (R95). -/
def execLocalRelease (p : Port) (s : State) : Host.Outcome State Fault Refusal :=
  takeReport .localRelease p (fromSection .localPanel (fun _ => some ()) fun x _ => localRelease x) s

end Sys2Proof.Machine
end

