-- ==== Sys2Proof/Machine/Timers.lean ====
section
/-! DEFINITION. The expiries and the start of a changeover. Each expiry is a command of its own, taken when a tick has
brought its timer to 0; one that is not due changes nothing (R149, log entries 3 and 4). -/

namespace Sys2Proof.Machine

/-! ## The berth's in-flight record -/

/-- A core test's or an assignment's timer expires (R45). -/
def expireCoreTest (b : BerthId) (s : State) : State :=
  if s.flyingDue b .coreTest || s.flyingDue b .assign then failRun b .timeout s else s

/-- A trip OPEN's operate timer expires (R37). -/
def expireTripOpen (b : BerthId) (s : State) : State :=
  if s.flyingDue b .tripOpen then tripOpenFailed b s else s

/-- An operation's timer expires (R89, R91). -/
def expireOperation (b : BerthId) (s : State) : State :=
  match s.opOf b with
  | some k => if s.flyingDue b k.flight then endOperation b k (.failed .timeout) s else s
  | none => s

/-- A converter start fails by its timer: the bay becomes FAULTED and the berth is re-queued at the head (R66,
R106). -/
def expireConverterStart (b : BerthId) (s : State) : State :=
  if s.flyingDue b .converterStart then
    match (s.berth b).bay with
    | some k => s |> faultBay k |> requeue b 0
    | none => clearInFlight b s
  else s

/-- A hold handshake's timer expires (R107, R113, R118). -/
def expireHold (b : BerthId) (s : State) : State :=
  if s.flyingDue b .holdHandshake then
    if (s.berth b).state = .rampOut then rampOutHoldFailed b .holdTimeout s
    else changeoverFailure .live b (if s.awaitsClose b then .closeWait else .holdTimeout) s
  else s

/-- The dead wait expires (R111). -/
def expireDeadWait (b : BerthId) (s : State) : State :=
  if s.flyingDue b .deadWait then changeoverFailure .live b .deadTimeout s else s

/-- The gens-off wait expires: a GENS_NOT_OFF notice, reason EXPIRED (R110). -/
def expireGensOff (b : BerthId) (s : State) : State :=
  if s.flyingDue b .gensOffWait then s |> clearInFlight b |> noticeBerth b .gensNotOff [1#8] else s

/-! ## The ramp channel's pause-limit timer (R103, R116) -/

/-- A pending STEP has waited for the pause limit: withdrawn, and counted as a failed step (R103). -/
def expireGrantWait (b : BerthId) (s : State) : State :=
  if (s.berth b).ramp.pauseTimer = some (.grantWait, 0) then
    s |> updRamp b (fun r => { r with pauseTimer := none }) |> withdrawRequest b |> stepFailed .live b
  else s

/-- A pause has lasted for the pause limit: the ramp aborts (R116). -/
def expirePause (b : BerthId) (s : State) : State :=
  if (s.berth b).ramp.pauseTimer = some (.pause, 0) then abortRamp .live b .pauseExpired s else s

/-! ## Overdraw (R78) -/

/-- The first expiry: SHED is sent, and the timer runs once more (R78). -/
def sendShed (b : BerthId) (s : State) : State :=
  let grant := (s.berth b).grant
  let r := send (s.berthEntry .shipPms b) kindRequest codeShed (bytes2 grant) s
  r.1 |> noticeBerth b .shedSent [byte grant, codeIn yesNo r.2]
    |> updBerth b fun t => { t with overdraw := some s.timings.overdraw, overdrawStage := .shedSent }

/-- The overdraw timer expires (R78). -/
def expireOverdraw (b : BerthId) (s : State) : State :=
  if (s.berth b).overdraw = some 0 then
    match (s.berth b).overdrawStage with
    | .first => sendShed b s
    | .shedSent => trip .live b .overdraw none s
  else s

/-! ## The section's timers (R93, R99) -/

/-- The step-spacing timer expires and the choice runs (R93). -/
def expireSpacing (x : SectionId) (s : State) : State :=
  if (s.sec x).spacing = some 0 then s |> updSec x (fun r => { r with spacing := none }) |> runChoice x else s

/-- The ramp channel of a berth whose lock is broken: before the ramp has started the demoted flag is set, else the
effective mode becomes SINGLE (R99, step 3). -/
def demote (b : BerthId) (s : State) : State :=
  if (s.berth b).state = .closing then updRamp b (fun r => { r with demoted := true }) s
  else updRamp b (fun r => { r with effMode := .single }) s

/-- The detail of a LOCK_BROKEN notice (R99). -/
def lockBrokenDetail (x : SectionId) (l : Lock) : List Byte :=
  [sectionByte (some x), berthByte (some l.holder), codeIn lockSources l.source, byte l.limit]

/-- The lock timer expires and the lock is broken (R99). -/
def expireLock (x : SectionId) (s : State) : State :=
  match (s.sec x).lock with
  | some l =>
    if l.timer = 0 then
      s |> dropLock x |> noticeBerth l.holder .lockBroken (lockBrokenDetail x l) |> demote l.holder |> runChoice x
    else s
  | none => s

/-! ## The start of a changeover (R106) -/

/-- The oldest berth granted and not yet started is started (R69, R106). -/
def startOldest (s : State) : State :=
  match s.startQueue with
  | [] => s
  | b :: rest => startChangeover .live b { s with startQueue := rest }

/-! ## The meanings -/

/-- TRIP_OPEN_TIMEOUT (R37). -/
def execTripOpenTimeout (b : BerthId) (s : State) : Host.Outcome State Fault Refusal :=
  .next (s |> expireTripOpen b |> finishEvent)

/-- CORE_TEST_TIMEOUT (R45). -/
def execCoreTestTimeout (b : BerthId) (s : State) : Host.Outcome State Fault Refusal :=
  .next (s |> expireCoreTest b |> finishEvent)

/-- OPERATION_TIMEOUT (R89). -/
def execOperationTimeout (b : BerthId) (s : State) : Host.Outcome State Fault Refusal :=
  .next (s |> expireOperation b |> finishEvent)

/-- STEP_SPACING_EXPIRY (R93). -/
def execStepSpacingExpiry (x : SectionId) (s : State) : Host.Outcome State Fault Refusal :=
  .next (s |> expireSpacing x |> finishEvent)

/-- LOCK_TIMER_EXPIRY (R99). -/
def execLockTimerExpiry (x : SectionId) (s : State) : Host.Outcome State Fault Refusal :=
  .next (s |> expireLock x |> finishEvent)

/-- GRANT_WAIT_EXPIRY (R103). -/
def execGrantWaitExpiry (b : BerthId) (s : State) : Host.Outcome State Fault Refusal :=
  .next (s |> expireGrantWait b |> finishEvent)

/-- PAUSE_EXPIRY (R116). -/
def execPauseExpiry (b : BerthId) (s : State) : Host.Outcome State Fault Refusal :=
  .next (s |> expirePause b |> finishEvent)

/-- CONVERTER_START_TIMEOUT (R106). -/
def execConverterStartTimeout (b : BerthId) (s : State) : Host.Outcome State Fault Refusal :=
  .next (s |> expireConverterStart b |> finishEvent)

/-- CHANGEOVER_START (R106). -/
def execChangeoverStart (s : State) : Host.Outcome State Fault Refusal := .next (s |> startOldest |> finishEvent)

/-- HOLD_TIMEOUT (R107). -/
def execHoldTimeout (b : BerthId) (s : State) : Host.Outcome State Fault Refusal :=
  .next (s |> expireHold b |> finishEvent)

/-- DEAD_WAIT_EXPIRY (R111). -/
def execDeadWaitExpiry (b : BerthId) (s : State) : Host.Outcome State Fault Refusal :=
  .next (s |> expireDeadWait b |> finishEvent)

/-- GENS_OFF_WAIT_EXPIRY (R110). -/
def execGensOffWaitExpiry (b : BerthId) (s : State) : Host.Outcome State Fault Refusal :=
  .next (s |> expireGensOff b |> finishEvent)

/-- OVERDRAW_EXPIRY (R78). -/
def execOverdrawExpiry (b : BerthId) (s : State) : Host.Outcome State Fault Refusal :=
  .next (s |> expireOverdraw b |> finishEvent)

end Sys2Proof.Machine
end

