-- ==== Sys2Proof/Machine/Tables.lean ====
section
/-! DEFINITION. The MANAGEMENT UNIT: the entry bodies of the ten tables and their reads (R159, R161, R162). A BERTHS
entry's layout below the order of its groups is DEDUCED, log entry 13. -/

namespace Sys2Proof.Machine

/-! ## Items (R161) -/

/-- A stamp: a time of day and a night; absent reads as zeros. -/
def stampBytes : Option (Nat × Nat) → List Byte
  | some (t, n) => bytes3 t ++ bytes2 n
  | none => [0, 0, 0, 0, 0]

/-- An optional number of two bytes. -/
def bytes2Or0 (n : Option Nat) : List Byte := bytes2 (n.getD 0)

/-- An optional profile index: 1 to 24, 0 absent. -/
def indexByte (n : Option (Fin 24)) : Byte :=
  match n with
  | some n => byte (n.val + 1)
  | none => 0#8

/-- An optional class: its number, 0 for ANY. -/
def classByte (c : Option EquipClass) : Byte := codeOrZero equipClasses c

/-- A state set: bits 0 to 11 for the states, bit 15 for ANY (R161). -/
def stateSetBytes : StateSet → List Byte
  | .any => [0x80, 0x00]
  | .of m => bytesId (m.zeroExtend 16)

/-- A proving step: none reads as 0 (R161). -/
def provingByte (p : ProvingStep) : Byte :=
  match p with
  | .idle => 0
  | .test1 => 1
  | .retest => 2
  | .assign => 3
  | .test3 => 4

/-- A PORTS entry's number of a port. -/
def portByte (p : Port) : Byte := byte (p.val + 1)

/-! ## PORTS (R123) -/

def portsEntry (p : Port) (s : State) : List Byte :=
  let r := s.port p
  bytes2 r.checkErrors ++ bytes2 r.overruns ++ bytes2 r.unmapped ++
    [byte r.rx.length, byte r.tx.length, byte (r.tx.countP (·.arrival.isSome))]

/-! ## EQUIPMENT (R125, R131) -/

/-- The eight bytes of a write body: present flag, ID, class, port, berth, section, bay. -/
def EquipEntry.body (e : EquipEntry) : List Byte :=
  1#8 :: bytesId e.id ++
    [codeIn equipClasses e.cls, portByte e.port, berthByte e.berth, sectionByte e.sec, bayByte e.bay]

def equipmentBody (n : Fin 64) (s : State) : List Byte :=
  match s.equipment[n] with
  | some e => e.body
  | none => 2#8 :: List.replicate 7 0

def equipmentEntry (n : Fin 64) (s : State) : List Byte :=
  equipmentBody n s ++ (s.equipment[n].map fun e => positionBytes e.id e.position).getD [0, 0, 0]

/-! ## GATE (R138) -/

/-- The eight bytes of a write body: every field but the hit count. -/
def GateEntry.body (e : GateEntry) : List Byte :=
  [flag e.valid, classByte e.srcClass, classByte e.dstClass, e.kind.byte, e.code.getD 0] ++
    stateSetBytes e.states ++ [codeIn gateActions e.action]

def gateBody (n : Fin 48) (s : State) : List Byte := s.gate[n].body

def gateEntry (n : Fin 48) (s : State) : List Byte := gateBody n s ++ bytes2 s.gate[n].hits

/-! ## BERTHS (R162) -/

def berthsBody (b : BerthId) (s : State) : List Byte := [sectionByte (some (s.secOf b))]

/-- An in-flight operation record: kind, start second, timer. -/
def inFlightBytes : Option InFlight → List Byte
  | some r => codeIn inFlightKinds r.kind :: bytes3 r.start ++ bytes2 r.timer
  | none => List.replicate 6 0

/-- Group 1: the record of R1, without the ramp channel and the hold queue, which are groups of their own. The section,
the one field of the write body, stands first, and the fields a write does not carry follow in R1's order (R161, log
entry 13). -/
def recordBytes (r : Berth) : List Byte :=
  [sectionByte (some r.sec), codeIn berthStates r.state] ++ vesselBytes r.vessel ++ [indexByte r.profile] ++
    vesselBytes r.cable ++ [byte r.grant, bayByte r.bay, codeOrZero tripCauses r.tripCause, flag r.breakerFail,
      flag r.adopted, flag r.holdGranted] ++
    inFlightBytes r.inFlight ++ [provingByte r.provingStep, flag r.provingPassed, byte r.noticeCount,
      flag r.noticeLimited, byte r.bypass]

/-- Group 2: the admission terms and the overdraw timer and stage (R64, R77). -/
def termsBytes (r : Berth) : List Byte :=
  (match r.terms with
    | some t => [codeIn frequencies t.frequency, codeIn methods t.method, codeIn rampModes t.rampMode, byte t.step]
    | none => [0, 0, 0, 0]) ++
    bytes2 (Timer.shown r.overdraw) ++ [codeIn overdrawStages r.overdrawStage]

/-- Group 3: the ramp channel (R101). -/
def rampBytes (r : Ramp) : List Byte :=
  codeIn directions r.direction :: bytes2 r.stepUnits ++
    [byte r.baseCount, byte r.currentCount, codeIn rampModes r.mode, codeIn rampModes r.effMode, flag r.demoted,
      byte r.failures, flag r.terminal, flag r.masked, flag r.aborting, codeOrZero abortCauses r.abortCause,
      flag r.paused] ++
    (match r.pauseTimer with
      | some (role, n) => codeIn pauseRoles role :: bytes2 n
      | none => [0, 0, 0]) ++ bytes2Or0 r.shoreSeen

/-- Group 5: the latest observed values (R131). -/
def observedBytes (b : BerthId) (s : State) : List Byte :=
  let o := (s.berth b).obs
  ((s.berthEntry .shoreBreaker b).map fun e => positionBytes e.id e.position).getD [0, 0, 0] ++
    coreTestBytes o.coreTest ++ assignDoneBytes o.assignDone ++ shipStateBytes o.shipState ++
    stepDoneBytes o.stepDone ++ [codeOrZero holdAnswers o.holdState] ++ vesselBytes o.vesselId

/-- One place of the hold queue (R143). -/
def heldBytes : Option HeldFrame → List Byte
  | some h =>
    bytesId h.frame.src ++ bytesId h.frame.dst ++ [h.frame.kind, h.frame.code, h.frame.tag] ++
      stampBytes (some (h.stampSecond, h.stampNight)) ++ bytes2 h.timer
  | none => List.replicate 14 0

/-- Group 7: the last-night record (R154). -/
def lastNightBytes : Option LastNight → List Byte
  | some l =>
    bytes2 l.night ++ vesselBytes l.cable ++
      [byte l.tests, coresByte l.andMask, coresByte l.orMask, byte l.estop, byte l.pilot, byte l.strain, byte l.latch,
        byte l.trips]
  | none => List.replicate 14 0

def berthsEntry (b : BerthId) (s : State) : List Byte :=
  let r := s.berth b
  recordBytes r ++ termsBytes r ++ rampBytes r.ramp ++ [coresByte r.comparison] ++ observedBytes b s ++
    heldBytes r.holdQueue[0]? ++ heldBytes r.holdQueue[1]? ++ lastNightBytes r.lastNight

/-! ## SECTIONS (R62, R65, R81, R161) -/

/-- Entry 1 is section A, entry 2 section B. -/
def sectionAt (n : Fin 2) : SectionId := if n = 0 then .A else .B

def sectionsBody (n : Fin 2) (s : State) : List Byte :=
  let r := s.sec (sectionAt n)
  [byte r.limit, byte r.bypassLimit, codeIn priorityModes r.mode]

/-- One place of the admission queue: a berth and its bypass count. -/
def queuePlace (r : SectionRec) (s : State) (n : Nat) : List Byte :=
  match r.queue[n]? with
  | some b => [berthByte (some b), byte (s.berth b).bypass]
  | none => [0, 0]

/-- The arbiter's fields (R81). -/
def arbiterBytes (r : SectionRec) : List Byte :=
  [codeIn arbiterStates r.arbiter] ++
    (match r.op with
      | some (b, k) => [berthByte (some b), codeIn opKinds k]
      | none => [0, 0]) ++
    r.requests.toList.map (codeOrZero opKinds) ++ [flag r.localPending] ++
    (match r.lock with
      | some l => [berthByte (some l.holder), codeIn lockSources l.source, byte l.timer]
      | none => [0, 0, 0]) ++
    [berthByte r.lastGranted, byte (Timer.shown r.spacing)]

def sectionsEntry (n : Fin 2) (s : State) : List Byte :=
  let r := s.sec (sectionAt n)
  sectionsBody n s ++ bytes2 r.granted ++ [flag r.overFlag, codeIn feederStates r.feeder] ++
    (List.range 8).flatMap (queuePlace r s) ++ arbiterBytes r ++ [codeOrZero syncOutcomes r.syncResult] ++
    [codeIn bayStates s.bay1.state, berthByte s.bay1.berth, codeIn bayStates s.bay2.state, berthByte s.bay2.berth,
      sectionByte (some s.bayTurn)] ++ converterBytes s.bay1.report ++ converterBytes s.bay2.report

/-! ## PROFILES (R60) -/

/-- The ten bytes of a write body: present flag, vessel ID, demand, frequency, method, ramp mode, step. -/
def Profile.body (p : Profile) : List Byte :=
  1#8 :: bytes4 p.vessel ++
    [byte p.demand, codeIn frequencies p.frequency, codeIn methods p.method, codeIn rampModes p.rampMode, byte p.step]

def profilesBody (n : Fin 24) (s : State) : List Byte :=
  match s.profiles[n] with
  | some p => p.body
  | none => 2#8 :: List.replicate 9 0

/-! ## CABLES (R41) -/

/-- The eighteen bytes of a record. -/
def CableRec.body (c : CableRec) : List Byte :=
  bytes4 c.cable ++
    [codeIn conditions c.condition, codeOrZero funcs c.map, byte c.soft.p1, byte c.soft.p2, byte c.soft.p3,
      byte c.soft.p4, byte c.soft.sp, coresByte c.hard, byte c.tests, coresByte c.andMask, coresByte c.orMask] ++
    bytes2 c.lastSeen ++ [berthByte c.berth]

/-- An empty slot reads as zeros (log entry 15). -/
def cablesBody (n : Fin 32) (s : State) : List Byte := (s.cables[n].map CableRec.body).getD (List.replicate 18 0)

/-! ## TIMINGS (R163) -/

/-- The fourteen durations in the order of the table. -/
def Timings.durations (t : Timings) : List Nat :=
  [t.coreTest, t.operate, t.sync, t.step, t.stepSpacing, t.hold, t.pauseLimit, t.deadWait, t.converterStart,
    t.gensOffWait, t.strainGrace, t.overdraw, t.lockLimit, t.holdLimit]

def timingsBody (_n : Fin 1) (s : State) : List Byte := s.timings.durations.flatMap bytes2

/-! ## LINES (R23) -/

/-- A line's level, stamp and count. -/
def LineRec.dynamic (r : LineRec) : List Byte := codeIn levels r.level :: stampBytes r.stamp ++ bytes2 r.count

/-- The forty bytes of an entry. -/
def linesBody (b : BerthId) (s : State) : List Byte :=
  let r := s.line b
  [codeIn enables r.estop.enable, codeIn senses r.estop.sense, codeIn enables r.pilot.enable,
    codeIn senses r.pilot.sense, codeIn enables r.strain.enable, codeIn senses r.strain.sense] ++
    r.estop.dynamic ++ r.pilot.dynamic ++ r.strain.dynamic ++ r.latch.dynamic ++ bytes2 (Timer.shown r.strainTimer)

/-! ## DEVICE (R162) -/

def deviceBody (_n : Fin 1) (s : State) : List Byte := bytesId s.ownId ++ [byte s.clock.boundaryHour, byte s.retention]

/-- The lost-after flag of an empty queue's newest record reads as 0, absent (log entry 26). -/
def deviceEntry (n : Fin 1) (s : State) : List Byte :=
  deviceBody n s ++ bytes3 s.clock.time ++ bytes2 s.clock.night ++
    [byte s.notices.length, (s.notices.getLast?.map fun r => flag r.lostAfter).getD 0]

/-! ## Reads (R159, R162) -/

/-- A series of reply bodies: the frame's number, the number of frames, and up to 43 bytes of the entry (R162). -/
def seriesBodies (entry : List Byte) : List (List Byte) :=
  let k := divUp entry.length Config.seriesBytes
  (List.range k).map fun i =>
    [byte (i + 1), byte k] ++ (entry.drop (Config.seriesBytes * i)).take Config.seriesBytes

/-- One reply frame with the entry (R159). -/
def replyEntry (p : Port) (f : Frame) (entry : List Byte) : State → State := tableReply p f .accepted entry

/-- The series of reply frames: a frame that meets a full queue is dropped, and every later one meets it full too
(R162). -/
def replySeries (p : Port) (f : Frame) (entry : List Byte) (s : State) : State :=
  (seriesBodies entry).foldl (fun t body => tableReply p f .accepted body t) s

/-- The entry of a read whose index is in its table (R159, step 2), or BAD_INDEX. -/
def readAt (n : Nat) (p : Port) (f : Frame) (entry : Fin n → State → State) (s : State) : State :=
  let i := (at' f.payload 1).toNat
  if h : 1 ≤ i ∧ i ≤ n then
    if f.payload.length = 2 then entry ⟨i - 1, by omega⟩ s else tableReply p f .badValue [] s
  else tableReply p f .badIndex [] s

/-- A TABLE READ (R159). -/
def readTable (p : Port) (f : Frame) (s : State) : State :=
  match (at' f.payload 0).toNat with
  | 1 => readAt 11 p f (fun n s => replyEntry p f (portsEntry n s) s) s
  | 2 => readAt 64 p f (fun n s => replyEntry p f (equipmentEntry n s) s) s
  | 3 => readAt 48 p f (fun n s => replyEntry p f (gateEntry n s) s) s
  | 4 => readAt 8 p f (fun n s => replySeries p f (berthsEntry n s) s) s
  | 5 => readAt 2 p f (fun n s => replySeries p f (sectionsEntry n s) s) s
  | 6 => readAt 24 p f (fun n s => replyEntry p f (profilesBody n s) s) s
  | 7 => readAt 32 p f (fun n s => replyEntry p f (cablesBody n s) s) s
  | 8 => readAt 1 p f (fun n s => replyEntry p f (timingsBody n s) s) s
  | 9 => readAt 8 p f (fun n s => replyEntry p f (linesBody n s) s) s
  | 10 => readAt 1 p f (fun n s => replyEntry p f (deviceEntry n s) s) s
  | _ => tableReply p f .badTable [] s

/-- A TABLE WRITE to a table that does not exist, or to PORTS (R159, steps 1 to 3). -/
def writeNoTable (p : Port) (f : Frame) (s : State) : State :=
  if (at' f.payload 0).toNat = 1 then
    if 1 ≤ (at' f.payload 1).toNat ∧ (at' f.payload 1).toNat ≤ 11 then tableReply p f .notPermitted [] s
    else tableReply p f .badIndex [] s
  else tableReply p f .badTable [] s

/-- A TABLE WRITE to a table of `n` entries with a write body of `size` bytes: the checks of R159, then the table's
own rule, whose answer goes out after the effects and the passes they call for. -/
def writeAt (n size : Nat) (rule : Fin n → List Byte → State → Status × State) (body : Fin n → State → List Byte)
    (p : Port) (f : Frame) (s : State) : State :=
  let i := (at' f.payload 1).toNat
  if h : 1 ≤ i ∧ i ≤ n then
    let k : Fin n := ⟨i - 1, by omega⟩
    if f.payload.length = size + 2 then
      let r := rule k (f.payload.drop 2) s
      let t := finishEvent r.2
      tableReply p f r.1 (if r.1 = .accepted then body k t else []) t
    else tableReply p f .badValue [] s
  else tableReply p f .badIndex [] s

/-- TABLE_READ (R159, R162). -/
def execTableRead (p : Port) (s : State) : Host.Outcome State Fault Refusal :=
  takeTable .tableRead p (readTable p) s

/-- TABLE_WRITE (R159). -/
def execTableWrite (p : Port) (s : State) : Host.Outcome State Fault Refusal :=
  takeTable .tableWrite p (writeNoTable p) s

end Sys2Proof.Machine
end

