-- ==== Sys2Proof/Machine/Writes.lean ====
section
/-! DEFINITION. The writes of the tables and what follows from each (R15, R25, R57, R61, R62, R74, R75, R126, R140,
R145, R151, R161 to R163). A rule takes the entry's index and its write body; a write that is not accepted changes
nothing. -/

namespace Sys2Proof.Machine

/-- An optional item: 0 is absent, any other value is read (R161). -/
def optOf {α : Type} (read : Byte → Option α) (b : Byte) : Option (Option α) :=
  if b = 0#8 then some none else (read b).map some

/-- A number within bounds. -/
def within (lo hi n : Nat) : Bool := lo ≤ n && n ≤ hi

/-! ## EQUIPMENT (R125, R126) -/

/-- The port a PORTS entry number names. -/
def portOf (b : Byte) : Option Port :=
  if h : 1 ≤ b.toNat ∧ b.toNat ≤ 11 then some ⟨b.toNat - 1, by omega⟩ else none

/-- The entry a write body describes, its values within their lists (R126, step 1). -/
def readEquip (body : List Byte) : Option EquipEntry := do
  let cls ← nameIn equipClasses (at' body 3)
  let port ← portOf (at' body 4)
  let berth ← optOf berthOf (at' body 5)
  let sec ← optOf (nameIn sectionIds) (at' body 6)
  let bay ← optOf (nameIn bayIds) (at' body 7)
  pure ⟨idOf (at' body 1) (at' body 2), cls, port, berth, sec, bay, none⟩

/-- Port and optional fields are as the class table has them (R125). -/
def EquipEntry.fitsClass (e : EquipEntry) : Bool :=
  match e.cls, e.berth, e.sec, e.bay with
  | .shoreBreaker, some _, none, none | .earthSwitch, some _, none, none => e.port == portSA || e.port == portSB
  | .plugStation, some b, none, none | .shipPms, some b, none, none => e.port == portOfBerth b
  | .synchroniser, none, some x, none | .feederMonitor, none, some x, none | .localPanel, none, some x, none =>
    e.port == portOfSection x
  | .converter, none, none, some _ => e.port == portSA || e.port == portSB
  | .supervisor, none, none, none => e.port == portSUP
  | _, _, _, _ => false

/-- Two entries that the map may not both hold: the same ID, or the same class for the same berth, section, bay or map
(R125, R126). -/
def EquipEntry.clashes (e f : EquipEntry) : Bool :=
  e.id == f.id || (e.cls == f.cls && e.berth == f.berth && e.sec == f.sec && e.bay == f.bay)

/-- The entries other than entry `n`. -/
def State.otherEntries (s : State) (n : Fin 64) : List EquipEntry :=
  ((List.finRange 64).filter (· ≠ n)).filterMap fun m => s.equipment[m]

/-- A berth of a section is not OUT_OF_SERVICE (R126). -/
def State.servesSection (s : State) (x : SectionId) : Bool :=
  allBerths.any fun b => s.secOf b == x && (s.berth b).state != .outOfService

/-- An entry is in use (R126, step 3). -/
def State.entryInUse (s : State) (e : EquipEntry) : Bool :=
  match e.cls with
  | .shoreBreaker | .earthSwitch | .plugStation | .shipPms =>
    (e.berth.map fun b => (s.berth b).state != .outOfService).getD false
  | .synchroniser | .feederMonitor | .localPanel => (e.sec.map s.servesSection).getD false
  | .converter =>
    (e.bay.map fun k => (s.bay k).state == .granted || ((s.bay k).state == .faulted && (s.bay k).berth.isSome)).getD
      false
  | .supervisor => false

/-- The six fields of an entry, without its observed value. -/
def EquipEntry.fields (e : EquipEntry) : EquipEntry := { e with position := none }

/-- Clears the observed values kept for an entry that is replaced or emptied (R126). -/
def forgetEntry (e : EquipEntry) (s : State) : State :=
  match e.cls, e.berth, e.sec, e.bay with
  | .plugStation, some b, _, _ => observe b (fun o => { o with coreTest := none, assignDone := none }) s
  | .shipPms, some b, _, _ =>
    observe b (fun o => { o with shipState := none, stepDone := none, holdState := none, vesselId := none }) s
  | .synchroniser, _, some x, _ => updSec x (fun r => { r with syncResult := none }) s
  | .converter, _, _, some k => updBay k (fun r => { r with report := none }) s
  | _, _, _, _ => s

/-- An accepted write keeps the observed values of an entry whose ID and class it keeps, the POSITION among them; else
it clears them (R126). -/
def putEntry (n : Fin 64) (new : Option EquipEntry) (s : State) : State :=
  match s.equipment[n] with
  | none => { s with equipment := s.equipment.set n new }
  | some old =>
    match new with
    | some e =>
      if e.id = old.id ∧ e.cls = old.cls then
        { s with equipment := s.equipment.set n (some { e with position := old.position }) }
      else forgetEntry old { s with equipment := s.equipment.set n new }
    | none => forgetEntry old { s with equipment := s.equipment.set n none }

/-- The entry a body gives: emptied by flag 2; none where a value is bad (R126, step 1; R161). -/
def equipWanted (own : EquipId) (body : List Byte) : Option (Option EquipEntry) :=
  match flagOf (at' body 0) with
  | none => none
  | some false => some none
  | some true => ((readEquip body).filter fun e => e.fitsClass && e.id != 0#16 && e.id != own).map some

/-- An EQUIPMENT write (R126). -/
def writeEquipment (n : Fin 64) (body : List Byte) (s : State) : Status × State :=
  match equipWanted s.ownId body with
  | none => (.badValue, s)
  | some new =>
    let clash := (new.map fun e => (s.otherEntries n).any e.clashes).getD false
    let changed := s.equipment[n].map EquipEntry.fields != new
    let used := (s.equipment[n].map s.entryInUse).getD false
    if clash then (.badValue, s)
    else if changed && used then (.inUse, s)
    else (.accepted, putEntry n new s)

/-! ## GATE (R138, R140, R145) -/

/-- The state set two bytes mean (R161, R140). -/
def readStateSet (h l : Byte) : Option StateSet :=
  let w : BitVec 16 := h ++ l
  if w = 0x8000#16 then some .any
  else if w = 0#16 ∨ w.extractLsb' 12 4 ≠ 0#4 then none
  else some (.of (w.extractLsb' 0 12))

/-- The kind a GATE entry's byte means (R161). -/
def gateKindOf (b : Byte) : Option GateKind :=
  match b.toNat with
  | 1 => some .order
  | 3 => some .request
  | _ => none

/-- The code of an entry: ANY, or a code of its kind (R140). -/
def readGateCode (k : GateKind) (b : Byte) : Option (Option Byte) :=
  if b = 0#8 then some none else if (payloadSizes k.byte b).isSome then some (some b) else none

/-- The entry a body gives, with its hit count 0 (R140). -/
def readGate (body : List Byte) : Option GateEntry := do
  let valid ← flagOf (at' body 0)
  let src ← optOf (nameIn equipClasses) (at' body 1)
  let dst ← optOf (nameIn equipClasses) (at' body 2)
  let kind ← gateKindOf (at' body 3)
  let code ← readGateCode kind (at' body 4)
  let states ← readStateSet (at' body 5) (at' body 6)
  let action ← nameIn gateActions (at' body 7)
  pure ⟨valid, src, dst, kind, code, states, action, 0⟩

/-- A GATE write: the entry, then the held frames of every berth, berths in ascending order (R140, R145). -/
def writeGate (n : Fin 48) (body : List Byte) (s : State) : Status × State :=
  match readGate body with
  | none => (.badValue, s)
  | some e => (.accepted, { s with gate := s.gate.set n e } |> forBerths reevaluate)

/-! ## BERTHS (R1, R161) -/

/-- A BERTHS write: the value is judged before the berth's state (log entry 17). -/
def writeBerths (b : BerthId) (body : List Byte) (s : State) : Status × State :=
  match nameIn sectionIds (at' body 0) with
  | none => (.badValue, s)
  | some x =>
    if (s.berth b).state = .outOfService then (.accepted, updBerth b (fun r => { r with sec := x }) s)
    else (.inUse, s)

/-! ## SECTIONS (R62, R74, R75, R81) -/

/-- A changed limit (R74). -/
def changeLimit (x : SectionId) (limit : Nat) (s : State) : State :=
  if (s.sec x).limit = limit then s
  else s |> updSec x (fun r => { r with limit := limit }) |> raiseOver x |> lowerOver x |> callPass x

/-- A changed bypass limit (R75). -/
def changeBypassLimit (x : SectionId) (limit : Nat) (s : State) : State :=
  if (s.sec x).bypassLimit = limit then s
  else s |> updSec x (fun r => { r with bypassLimit := limit }) |> callPass x

/-- A SECTIONS write (R62, R81). -/
def writeSections (n : Fin 2) (body : List Byte) (s : State) : Status × State :=
  let limit := (at' body 0).toNat
  let bypassLimit := (at' body 1).toNat
  let x := sectionAt n
  match nameIn priorityModes (at' body 2) with
  | none => (.badValue, s)
  | some m =>
    if within 0 Config.grantCap limit && within 0 Config.bypassMax bypassLimit then
      (.accepted, s |> updSec x (fun r => { r with mode := m }) |> changeLimit x limit
        |> changeBypassLimit x bypassLimit)
    else (.badValue, s)

/-! ## PROFILES (R15, R61) -/

/-- The profile a body gives, its values within their ranges (R61, step 1). -/
def readProfile (body : List Byte) : Option Profile := do
  let frequency ← nameIn frequencies (at' body 6)
  let method ← nameIn methods (at' body 7)
  let mode ← nameIn rampModes (at' body 8)
  let demand := (at' body 5).toNat
  let step := (at' body 9).toNat
  if within 1 250 demand && within 1 50 step then
    some ⟨num4 (at' body 1) (at' body 2) (at' body 3) (at' body 4), demand, frequency, method, mode, step⟩
  else none

/-- The entry a body gives: emptied by flag 2; none where a value is bad. -/
def profileWanted (body : List Byte) : Option (Option Profile) :=
  match flagOf (at' body 0) with
  | none => none
  | some false => some none
  | some true => (readProfile body).map some

/-- The vessel ID is held by another entry (R61, step 2). -/
def State.vesselElsewhere (s : State) (n : Fin 24) (v : Num32) : Bool :=
  (List.finRange 24).any fun m => m ≠ n && (s.profiles[m].map (·.vessel)) == some v

/-- The write removes the profile the entry holds (R61, step 3). -/
def removesProfile (old new : Option Profile) : Bool :=
  match old with
  | some o => new.map (·.vessel) != some o.vessel
  | none => false

/-- A berth that holds capacity names the entry; an adopted berth in ON_SHORE does not block (R61, step 3). -/
def State.profileInUse (s : State) (n : Fin 24) : Bool :=
  allBerths.any fun b =>
    let r := s.berth b
    r.state.holdsCapacity && r.profile == some n && !(r.adopted && r.state == .onShore)

/-- A PROVED or QUEUED berth loses its profile and returns to PLUGGED, its proving passed flag set (R15). -/
def loseProfile (b : BerthId) (s : State) : State :=
  s |> updBerth b (fun r => { r with profile := none })
    |> enterState .live b .plugged
    |> noticeBerth b .unknownVessel (vesselBytes (s.berth b).vessel)

/-- The removal of the profile a berth names (R15, R61). -/
def profileRemoved (b : BerthId) (s : State) : State :=
  match (s.berth b).state with
  | .proved | .queued => loseProfile b s
  | .onShore =>
    if (s.berth b).adopted then updBerth b (fun r => { r with profile := none, terms := none }) s else s
  | .outOfService | .vacant | .plugged | .admitted | .closing | .rampIn | .rampOut | .opening | .tripped => s

/-- A new or changed profile at a berth: in PLUGGED the conditions of R14 are looked at again; an adopted berth without
a profile takes it; a changed demand or frequency calls for a pass where a QUEUED berth names the entry (R15, R61). -/
def profileArrived (n : Fin 24) (old : Option Profile) (p : Profile) (b : BerthId) (s : State) : State :=
  let r := s.berth b
  match r.state with
  | .plugged => if r.provingPassed ∧ r.vessel = some p.vessel then seekProfile b s else s
  | .onShore =>
    if r.adopted ∧ r.profile = none ∧ r.vessel = some p.vessel then
      updBerth b (fun r => { r with profile := some n, terms := some p.terms }) s
    else s
  | .queued =>
    if r.profile = some n ∧ (old.map fun o => (o.demand, o.frequency)) ≠ some (p.demand, p.frequency) then
      callPass r.sec s
    else s
  | .outOfService | .vacant | .proved | .admitted | .closing | .rampIn | .rampOut | .opening | .tripped => s

/-- What an accepted write that changes the entry does to one berth (R61). -/
def profileAtBerth (n : Fin 24) (old new : Option Profile) (b : BerthId) (s : State) : State :=
  let t := if removesProfile old new ∧ (s.berth b).profile = some n then profileRemoved b s else s
  match new with
  | some p => profileArrived n old p b t
  | none => t

/-- A PROFILES write (R61). -/
def writeProfiles (n : Fin 24) (body : List Byte) (s : State) : Status × State :=
  match profileWanted body with
  | none => (.badValue, s)
  | some new =>
    let old := s.profiles[n]
    if (new.map fun p => s.vesselElsewhere n p.vessel).getD false then (.badValue, s)
    else if removesProfile old new ∧ s.profileInUse n then (.inUse, s)
    else if old = new then (.accepted, s)
    else (.accepted, { s with profiles := s.profiles.set n new } |> forBerths (profileAtBerth n old new))

/-! ## CABLES (R57) -/

/-- The set of cores a byte means. -/
def coresOf (b : Byte) : Option CoreSet := if b.toNat < 32 then some (b.extractLsb' 0 5) else none

/-- The map a CABLES body may give: none, or the record's present map (R57, step 4). -/
def readMap (c : CableRec) (b : Byte) : Option (Option Func) :=
  (optOf (nameIn funcs) b).filter fun m => m == none || m == c.map

/-- The hard-marked set a CABLES body may give: no core the record's set does not hold (R57, step 4). -/
def readHard (c : CableRec) (b : Byte) : Option CoreSet := (coresOf b).filter fun h => h &&& ~~~c.hard == 0#5

/-- The record a body gives (R57, steps 4 and 5). -/
def readCable (c : CableRec) (body : List Byte) : Option CableRec := do
  let condition ← nameIn conditions (at' body 4)
  let map ← readMap c (at' body 5)
  let hard ← readHard c (at' body 11)
  pure { c with condition := condition, map := map, hard := hard }

/-- A CABLES write (R57). -/
def writeCables (n : Fin 32) (body : List Byte) (s : State) : Status × State :=
  match s.cables[n] with
  | none => (.badState, s)
  | some c =>
    if num4 (at' body 0) (at' body 1) (at' body 2) (at' body 3) ≠ c.cable then (.badValue, s)
    else if c.berth.isSome then (.inUse, s)
    else
      match readCable c body with
      | none => (.badValue, s)
      | some c' => (.accepted, updCable n (fun _ => c') s)

/-! ## TIMINGS (R163) -/

/-- The ranges of the fourteen durations. -/
def timingRanges : List (Nat × Nat) :=
  [(1, 30), (1, 10), (5, 120), (2, 120), (0, 120), (5, 300), (10, 600), (10, 600), (10, 600), (10, 600), (1, 600),
    (10, 900), (1, 120), (1, 300)]

/-- Every duration is within its range. -/
def Timings.ok (t : Timings) : Bool := (t.durations.zip timingRanges).all fun d => within d.2.1 d.2.2 d.1

/-- The two-byte number at a place of a body. -/
def numAt (body : List Byte) (n : Nat) : Nat := num2 (at' body (2 * n)) (at' body (2 * n + 1))

/-- The durations of a body (R163). -/
def readTimings (body : List Byte) : Timings where
  coreTest := numAt body 0
  operate := numAt body 1
  sync := numAt body 2
  step := numAt body 3
  stepSpacing := numAt body 4
  hold := numAt body 5
  pauseLimit := numAt body 6
  deadWait := numAt body 7
  converterStart := numAt body 8
  gensOffWait := numAt body 9
  strainGrace := numAt body 10
  overdraw := numAt body 11
  lockLimit := numAt body 12
  holdLimit := numAt body 13

/-- A TIMINGS write (R163). -/
def writeTimings (_n : Fin 1) (body : List Byte) (s : State) : Status × State :=
  let t := readTimings body
  if t.ok then (.accepted, { s with timings := t }) else (.badValue, s)

/-! ## LINES (R25) -/

/-- Enable and sense of the three fault lines. -/
abbrev LineConfig := (Enable × Sense) × (Enable × Sense) × (Enable × Sense)

/-- The configuration a body gives; ESTOP and PILOT cannot be DISABLED (R25). -/
def readLines (body : List Byte) : Option LineConfig := do
  let e ← nameIn enables (at' body 0)
  let es ← nameIn senses (at' body 1)
  let p ← nameIn enables (at' body 2)
  let ps ← nameIn senses (at' body 3)
  let t ← nameIn enables (at' body 4)
  let ts ← nameIn senses (at' body 5)
  if e = .disabled ∨ p = .disabled then none else some ((e, es), (p, ps), (t, ts))

def LineRec.configure (c : Enable × Sense) (r : LineRec) : LineRec := { r with enable := c.1, sense := c.2 }

/-- The lines as configured; disabling STRAIN stops a running strain timer (R25, R32). -/
def BerthLines.configure (c : LineConfig) (r : BerthLines) : BerthLines :=
  { r with
    estop := r.estop.configure c.1
    pilot := r.pilot.configure c.2.1
    strain := r.strain.configure c.2.2
    strainTimer := if c.2.2.1 = .disabled then none else r.strainTimer }

/-- A LINES write (R25). -/
def writeLines (b : BerthId) (body : List Byte) (s : State) : Status × State :=
  match readLines body with
  | none => (.badValue, s)
  | some c => (.accepted, updLine b (BerthLines.configure c) s)

/-! ## DEVICE (R162) -/

/-- A DEVICE write (R151, R162). -/
def writeDevice (_n : Fin 1) (body : List Byte) (s : State) : Status × State :=
  let own := idOf (at' body 0) (at' body 1)
  let hour := (at' body 2).toNat
  let retention := (at' body 3).toNat
  if own ≠ 0#16 ∧ s.entryOf own = none ∧ hour ≤ 23 ∧ within 1 60 retention then
    (.accepted, { s with ownId := own, clock := { s.clock with boundaryHour := hour }, retention := retention })
  else (.badValue, s)

/-! ## The meanings of the writes -/

/-- EQUIPMENT_WRITE (R126). -/
def execEquipmentWrite (p : Port) (s : State) : Host.Outcome State Fault Refusal :=
  takeTable .equipmentWrite p (writeAt 64 8 writeEquipment equipmentBody p) s

/-- GATE_WRITE (R140, R145). -/
def execGateWrite (p : Port) (s : State) : Host.Outcome State Fault Refusal :=
  takeTable .gateWrite p (writeAt 48 8 writeGate gateBody p) s

/-- BERTHS_WRITE (R161). -/
def execBerthsWrite (p : Port) (s : State) : Host.Outcome State Fault Refusal :=
  takeTable .berthsWrite p (writeAt 8 1 writeBerths berthsBody p) s

/-- SECTIONS_WRITE (R62, R74, R75). -/
def execSectionsWrite (p : Port) (s : State) : Host.Outcome State Fault Refusal :=
  takeTable .sectionsWrite p (writeAt 2 3 writeSections sectionsBody p) s

/-- PROFILES_WRITE (R61). -/
def execProfilesWrite (p : Port) (s : State) : Host.Outcome State Fault Refusal :=
  takeTable .profilesWrite p (writeAt 24 10 writeProfiles profilesBody p) s

/-- CABLES_WRITE (R57). -/
def execCablesWrite (p : Port) (s : State) : Host.Outcome State Fault Refusal :=
  takeTable .cablesWrite p (writeAt 32 18 writeCables cablesBody p) s

/-- TIMINGS_WRITE (R163). -/
def execTimingsWrite (p : Port) (s : State) : Host.Outcome State Fault Refusal :=
  takeTable .timingsWrite p (writeAt 1 28 writeTimings timingsBody p) s

/-- LINES_WRITE (R25). -/
def execLinesWrite (p : Port) (s : State) : Host.Outcome State Fault Refusal :=
  takeTable .linesWrite p (writeAt 8 40 writeLines linesBody p) s

/-- DEVICE_WRITE (R162). -/
def execDeviceWrite (p : Port) (s : State) : Host.Outcome State Fault Refusal :=
  takeTable .deviceWrite p (writeAt 1 4 writeDevice deviceBody p) s

end Sys2Proof.Machine
end

