-- ==== Sys2Proof/Machine/Dispatch.lean ====
section
/-! DEFINITION. One arm per command, each a call of its meaning. -/

namespace Sys2Proof.Machine

def exec (i : Instr) (s : State) : Host.Outcome State Fault Refusal :=
  match i with
  | .powerOn found => Sys2Proof.Machine.execPowerOn found s
  | .restart p => Sys2Proof.Machine.execRestart p s
  | .clockTick => Sys2Proof.Machine.execClockTick s
  | .nightBoundary => Sys2Proof.Machine.execNightBoundary s
  | .receiveFrame p bytes => Sys2Proof.Machine.execReceiveFrame p bytes s
  | .transmitStart p => Sys2Proof.Machine.execTransmitStart p s
  | .noticeOffer => Sys2Proof.Machine.execNoticeOffer s
  | .gateDecision p => Sys2Proof.Machine.execGateDecision p s
  | .forwardFrame p => Sys2Proof.Machine.execForwardFrame p s
  | .shoreWanted p => Sys2Proof.Machine.execShoreWanted p s
  | .releaseWanted p => Sys2Proof.Machine.execReleaseWanted p s
  | .withdraw p => Sys2Proof.Machine.execWithdraw p s
  | .service p => Sys2Proof.Machine.execService p s
  | .outOfService p => Sys2Proof.Machine.execOutOfService p s
  | .admitBerth p => Sys2Proof.Machine.execAdmitBerth p s
  | .release p => Sys2Proof.Machine.execRelease p s
  | .ackTrip p => Sys2Proof.Machine.execAckTrip p s
  | .setClock p => Sys2Proof.Machine.execSetClock p s
  | .tableRead p => Sys2Proof.Machine.execTableRead p s
  | .tableWrite p => Sys2Proof.Machine.execTableWrite p s
  | .equipmentWrite p => Sys2Proof.Machine.execEquipmentWrite p s
  | .gateWrite p => Sys2Proof.Machine.execGateWrite p s
  | .berthsWrite p => Sys2Proof.Machine.execBerthsWrite p s
  | .sectionsWrite p => Sys2Proof.Machine.execSectionsWrite p s
  | .profilesWrite p => Sys2Proof.Machine.execProfilesWrite p s
  | .cablesWrite p => Sys2Proof.Machine.execCablesWrite p s
  | .timingsWrite p => Sys2Proof.Machine.execTimingsWrite p s
  | .linesWrite p => Sys2Proof.Machine.execLinesWrite p s
  | .deviceWrite p => Sys2Proof.Machine.execDeviceWrite p s
  | .position p => Sys2Proof.Machine.execPosition p s
  | .syncResult p => Sys2Proof.Machine.execSyncResult p s
  | .coreTest p => Sys2Proof.Machine.execCoreTest p s
  | .assignDone p => Sys2Proof.Machine.execAssignDone p s
  | .shipState p => Sys2Proof.Machine.execShipState p s
  | .stepDone p => Sys2Proof.Machine.execStepDone p s
  | .holdState p => Sys2Proof.Machine.execHoldState p s
  | .vesselId p => Sys2Proof.Machine.execVesselId p s
  | .converterState p => Sys2Proof.Machine.execConverterState p s
  | .feederState p => Sys2Proof.Machine.execFeederState p s
  | .localClaim p => Sys2Proof.Machine.execLocalClaim p s
  | .localRelease p => Sys2Proof.Machine.execLocalRelease p s
  | .estopActivation b => Sys2Proof.Machine.execEstopActivation b s
  | .pilotActivation b => Sys2Proof.Machine.execPilotActivation b s
  | .strainActivation b => Sys2Proof.Machine.execStrainActivation b s
  | .faultLineDeactivation b l => Sys2Proof.Machine.execFaultLineDeactivation b l s
  | .latchActivation b => Sys2Proof.Machine.execLatchActivation b s
  | .latchDeactivation b => Sys2Proof.Machine.execLatchDeactivation b s
  | .strainGraceExpiry b => Sys2Proof.Machine.execStrainGraceExpiry b s
  | .tripOpenTimeout b => Sys2Proof.Machine.execTripOpenTimeout b s
  | .coreTestTimeout b => Sys2Proof.Machine.execCoreTestTimeout b s
  | .operationTimeout b => Sys2Proof.Machine.execOperationTimeout b s
  | .stepSpacingExpiry x => Sys2Proof.Machine.execStepSpacingExpiry x s
  | .lockTimerExpiry x => Sys2Proof.Machine.execLockTimerExpiry x s
  | .grantWaitExpiry b => Sys2Proof.Machine.execGrantWaitExpiry b s
  | .pauseExpiry b => Sys2Proof.Machine.execPauseExpiry b s
  | .converterStartTimeout b => Sys2Proof.Machine.execConverterStartTimeout b s
  | .changeoverStart => Sys2Proof.Machine.execChangeoverStart s
  | .holdTimeout b => Sys2Proof.Machine.execHoldTimeout b s
  | .deadWaitExpiry b => Sys2Proof.Machine.execDeadWaitExpiry b s
  | .gensOffWaitExpiry b => Sys2Proof.Machine.execGensOffWaitExpiry b s
  | .overdrawExpiry b => Sys2Proof.Machine.execOverdrawExpiry b s
  | .holdQueueExpiry b place => Sys2Proof.Machine.execHoldQueueExpiry b place s

end Sys2Proof.Machine
end

