-- ==== Sys2Proof/Safety.lean ====
section
/-! DEFINITION. What the part keeps whatever commands it is given, and when a command has its frame before it: the
vocabulary of the statements in Certificates/Slice0. -/

namespace Sys2Proof.Machine

/-! ## Frames that have arrived -/

/-- The frame at the head of a port's buffer is `f`, which passes the frame checks of R124. -/
def Waits (s : State) (p : Port) (f : Frame) : Prop :=
  ∃ bytes rest, (s.port p).rx = bytes :: rest ∧ checkFrame s.ownId bytes = some f

/-- The frame at the head of a port's buffer is `f`; it passes the checks of R124 and R127: it comes from the entry `e`
and goes to the entry `d`, or, for none, to the part itself. -/
structure Arrived (s : State) (p : Port) (f : Frame) (e : EquipEntry) (d : Option EquipEntry) : Prop where
  waits : Waits s p f
  mapped : s.route p f = some (e, d)

/-- A ship's request to the part, with this code and no payload, has arrived from the SHIP_PMS entry of `b` (R4). -/
structure ShipAsks (s : State) (p : Port) (f : Frame) (b : BerthId) (code : Byte) : Prop where
  arrived : ∃ e, Arrived s p f e none ∧ e.cls = .shipPms ∧ e.berth = some b
  kind : f.kind = kindRequest
  code : f.code = code
  payload : f.payload = []

/-- A request of the control room to the part, with this code and payload, has arrived (R4). -/
structure RoomAsks (s : State) (p : Port) (f : Frame) (code : Byte) (payload : List Byte) : Prop where
  arrived : ∃ e, Arrived s p f e none ∧ e.cls = .supervisor
  kind : f.kind = kindRequest
  code : f.code = code
  payload : f.payload = payload

/-- The payload of a control-room request about a berth (R4). -/
def berthPayload (b : BerthId) : List Byte := [byte (b.val + 1)]

/-- A report with this code has arrived from the entry `e`, for the entry `d` or for the part (R128). -/
structure Reported (s : State) (p : Port) (f : Frame) (e : EquipEntry) (d : Option EquipEntry) (code : Byte) :
    Prop where
  arrived : Arrived s p f e d
  kind : f.kind = kindReport
  code : f.code = code

/-- A TABLE frame for the MANAGEMENT UNIT has arrived on SUP, from a mapped source or under start-up access (R128,
R160). -/
structure TableAsks (s : State) (f : Frame) (code table index : Byte) (body : List Byte) : Prop where
  waits : Waits s portSUP f
  managed : s.startUpAccess portSUP f = true ∨ ∃ e, s.route portSUP f = some (e, none)
  kind : f.kind = kindTable
  code : f.code = code
  payload : f.payload = table :: index :: body

/-- The command that takes a frame, by its destination, kind, code and payload. -/
def Frame.row (own : EquipId) (f : Frame) : FrameRow :=
  match f.kind.toNat with
  | 1 => .gateDecision
  | 2 => reportRow f.code
  | 3 => if f.dst = own then requestRow f.code else .gateDecision
  | 6 => if f.code = codeWrite then writeRow (at' f.payload 0) else .tableRead
  | _ => .forwardFrame

/-- The command that takes a frame of a row. -/
def FrameRow.command (p : Port) : FrameRow → Instr
  | .gateDecision => .gateDecision p
  | .forwardFrame => .forwardFrame p
  | .shoreWanted => .shoreWanted p
  | .releaseWanted => .releaseWanted p
  | .withdraw => .withdraw p
  | .service => .service p
  | .outOfService => .outOfService p
  | .admitBerth => .admitBerth p
  | .release => .release p
  | .ackTrip => .ackTrip p
  | .restart => .restart p
  | .setClock => .setClock p
  | .tableRead => .tableRead p
  | .tableWrite => .tableWrite p
  | .equipmentWrite => .equipmentWrite p
  | .gateWrite => .gateWrite p
  | .berthsWrite => .berthsWrite p
  | .sectionsWrite => .sectionsWrite p
  | .profilesWrite => .profilesWrite p
  | .cablesWrite => .cablesWrite p
  | .timingsWrite => .timingsWrite p
  | .linesWrite => .linesWrite p
  | .deviceWrite => .deviceWrite p
  | .position => .position p
  | .syncResult => .syncResult p
  | .coreTest => .coreTest p
  | .assignDone => .assignDone p
  | .shipState => .shipState p
  | .stepDone => .stepDone p
  | .holdState => .holdState p
  | .vesselId => .vesselId p
  | .converterState => .converterState p
  | .feederState => .feederState p
  | .localClaim => .localClaim p
  | .localRelease => .localRelease p

/-! ## What an event leaves alone -/

/-- `t` has the settings, the clock, the lines, the received frames and the observed values of `s`: what an event at a
berth, at an arbiter or in the ADMISSION UNIT leaves alone. What it may change is the berths' work, the sections' grants
and arbiters, the bays, the cable records, the notices, the frames to send, and the counts. -/
structure Untouched (s t : State) : Prop where
  lines : t.lines = s.lines
  profiles : t.profiles = s.profiles
  equipment : t.equipment = s.equipment
  ownId : t.ownId = s.ownId
  clock : t.clock = s.clock
  timings : t.timings = s.timings
  retention : t.retention = s.retention
  pending : t.pending = s.pending
  received : ∀ p, (t.port p).rx = (s.port p).rx
  gate : ∀ n, t.gate[(n : Fin 48)] = { s.gate[n] with hits := t.gate[n].hits }
  sections : ∀ x, (t.sec x).limit = (s.sec x).limit ∧ (t.sec x).bypassLimit = (s.sec x).bypassLimit ∧
    (t.sec x).mode = (s.sec x).mode ∧ (t.sec x).feeder = (s.sec x).feeder ∧
    (t.sec x).syncResult = (s.sec x).syncResult
  berths : ∀ b, t.secOf b = s.secOf b ∧ (t.berth b).obs = (s.berth b).obs
  bays : ∀ k, (t.bay k).report = (s.bay k).report

/-- Every berth but `b` has the record it had. -/
def OthersKept (b : BerthId) (s t : State) : Prop := ∀ c, c ≠ b → t.berth c = s.berth c

/-- The section's arbiter and queue hold nothing of the berth: no request, no operation, no lock, no place. -/
def SectionRec.freeOf (b : BerthId) (r : SectionRec) : Prop :=
  r.requests[b] = none ∧ r.op.map (·.1) ≠ some b ∧ r.lock.map (·.holder) ≠ some b ∧ b ∉ r.queue

/-- A service pass is called for in a section (R69). -/
def State.called (s : State) : SectionId → Bool
  | .A => s.passA
  | .B => s.passB

/-! ## Bounds of the buffers and queues -/

/-- A frame of another party that the part sends on is no closing order (R137, guard 1). -/
def TxFrame.guarded (t : TxFrame) : Bool := t.arrival.isNone || !closingOrder t.frame

/-- A port holds no more frames than it has places for: four received, eight to send, of which at most six are
forwarded, since a forwarded frame needs three free slots (R122, R133). -/
def PortRec.bounded (r : PortRec) : Prop :=
  r.rx.length ≤ Config.rxDepth ∧ r.tx.length ≤ Config.txSlots ∧
    r.tx.countP (·.arrival.isSome) + Config.forwardRoom ≤ Config.txSlots + 1

/-- Every buffer and queue of the part is within its bound: the ports, the HOLD QUEUES, the NOTICE QUEUE and the
berths' nightly notice counts (R122, R133, R143, R156, R157). -/
def State.bounded (s : State) : Prop :=
  (∀ p, (s.port p).bounded) ∧
    (∀ b, (s.berth b).holdQueue.length ≤ Config.holdPlaces ∧ (s.berth b).noticeCount ≤ Config.nightlyAllowance) ∧
    s.notices.length ≤ Config.noticeDepth

/-- No closing order of another party waits to be sent, is on a link or is held (R137, guard 1). -/
def State.guarded (s : State) : Prop :=
  (∀ p, ∀ t ∈ (s.port p).tx, t.guarded) ∧ (∀ p, ∀ t, (s.port p).onLink = some t → t.guarded) ∧
    ∀ b, ∀ h ∈ (s.berth b).holdQueue, closingOrder h.frame = false

/-! ## The sections -/

/-- An arbiter in PART_BUSY has an operation in flight, and in PART_IDLE or LOCAL it has none (R82). -/
def SectionRec.arbitrated (r : SectionRec) : Prop := r.arbiter = .partBusy ↔ r.op.isSome = true

/-- The granted sum does not exceed the limit unless the over flag is set (R63). -/
def SectionRec.withinLimit (r : SectionRec) : Prop := r.granted ≤ r.limit ∨ r.overFlag = true

/-- Both sections are arbitrated (R82). -/
def State.arbitrated (s : State) : Prop := ∀ x, (s.sec x).arbitrated

/-- Both sections are within their limits (R63). -/
def State.withinLimits (s : State) : Prop := ∀ x, (s.sec x).withinLimit

/-! ## The settings -/

/-- The clock shows a time of day, a night number and a boundary hour that exist (R148). -/
def Clock.sound (c : Clock) : Prop :=
  c.time < Config.daySeconds ∧ c.night < Config.nightModulus ∧ c.boundaryHour ≤ 23

/-- Limit and bypass limit are in their ranges (R62). -/
def SectionRec.sound (r : SectionRec) : Prop := r.limit ≤ Config.grantCap ∧ r.bypassLimit ≤ Config.bypassMax

/-- A bypass count is 0 to 7 (R68). -/
def Berth.bypassSound (r : Berth) : Prop := r.bypass ≤ Config.bypassMax

/-- What the control room configures stays in its ranges, and so do the clock and the bypass counts (R62, R68, R148,
R162, R163). -/
def State.sound (s : State) : Prop :=
  s.clock.sound ∧ (∀ x, (s.sec x).sound) ∧ (∀ b, (s.berth b).bypassSound) ∧ s.timings.ok ∧ s.ownId ≠ 0#16 ∧
    within 1 60 s.retention

/-! ## The EQUIPMENT MAP -/

/-- Every entry is as its class needs it, with an ID that is neither 0 nor the part's own, and no two entries clash
(R125, R126). -/
def State.mapSound (s : State) : Prop :=
  (∀ n e, s.equipment[(n : Fin 64)] = some e → e.fitsClass ∧ e.id ≠ 0#16 ∧ e.id ≠ s.ownId) ∧
    ∀ n m e f, s.equipment[(n : Fin 64)] = some e → s.equipment[(m : Fin 64)] = some f → n ≠ m → e.clashes f = false

/-! ## What the arbiters and the ADMISSION UNIT hold -/

/-- A queue holds each berth of its section that is QUEUED, once, and no other (R68). -/
def State.queuesExact (s : State) : Prop :=
  ∀ x, (s.sec x).queue.Nodup ∧ ∀ b, b ∈ (s.sec x).queue ↔ s.secOf b = x ∧ (s.berth b).state = .queued

/-- The states in which a berth may have a request of a kind pending. An OPEN waits in ON_SHORE, or at the end of a ramp,
its channel masked or at terminal count and its pause-limit timer stopped (R83, R84, R105, R107, R111, R113, R118). -/
def Berth.mayAsk (r : Berth) : OpKind → Prop
  | .syncClose | .deadClose => r.state = .admitted
  | .step => r.state = .rampIn ∨ r.state = .rampOut
  | .openOp => r.state = .onShore ∨ ((r.state = .rampIn ∨ r.state = .rampOut) ∧
      (r.ramp.masked = true ∨ r.ramp.terminal = true) ∧ r.ramp.pauseTimer = none)

/-- What the arbiters hold agrees with the berths: an arbiter deals with its own section's berths only (R81, R83); the
lock's holder is in CLOSING, RAMP_IN or RAMP_OUT (R96); a request waits in a state that may ask it; an operation in
flight is its berth's in-flight record, and its berth asks for no other (R83, R88); a berth is in CLOSING while its close
is in flight, and in OPENING while its OPEN is (1.2); and the waits of a changeover, a STEP's wait for its grant and the
starts still to come are those of berths in the states that have them (R69, R103, R106, R107, R111, R113). -/
structure State.arbitersSound (s : State) : Prop where
  arbitrated : s.arbitrated
  own : ∀ x b, s.secOf b ≠ x → (s.sec x).requests[b] = none ∧ (s.sec x).op.map (·.1) ≠ some b ∧
    (s.sec x).lock.map (·.holder) ≠ some b
  lock : ∀ x l, (s.sec x).lock = some l → (s.berth l.holder).state = .closing ∨ (s.berth l.holder).state = .rampIn ∨
    (s.berth l.holder).state = .rampOut
  request : ∀ b k, s.request b = some k → (s.berth b).mayAsk k
  op : ∀ b k, s.opOf b = some k → s.request b = none ∧ s.flying b = some k.flight
  closing : ∀ b, (s.berth b).state = .closing ↔ s.opOf b = some .syncClose ∨ s.opOf b = some .deadClose
  opening : ∀ b, (s.berth b).state = .opening ↔ s.opOf b = some .openOp
  stepping : ∀ b, s.opOf b = some .step → (s.berth b).state = .rampIn ∨ (s.berth b).state = .rampOut
  started : ∀ b, s.flying b = some .converterStart ∨ s.flying b = some .deadWait → (s.berth b).state = .admitted
  shaking : ∀ b, s.flying b = some .holdHandshake →
    (s.berth b).state = .admitted ∨ ((s.berth b).state = .rampOut ∧ s.request b = none)
  grantWait : ∀ b n, (s.berth b).ramp.pauseTimer = some (.grantWait, n) → s.request b = some .step
  starts : s.startQueue.Nodup ∧ ∀ b ∈ s.startQueue, (s.berth b).state = .admitted
  queues : s.queuesExact

/-- A section's granted sum is the sum of its berths' grants (R63), and a berth in a state that holds no capacity has
grant 0 and no bay (R2). -/
def State.grantsAgree (s : State) : Prop :=
  (∀ x, (s.sec x).granted = ((List.finRange 8).map fun b => if s.secOf b = x then (s.berth b).grant else 0).sum) ∧
    ∀ b, (s.berth b).state.holdsCapacity = false → (s.berth b).grant = 0 ∧ (s.berth b).bay = none

/-- A bay names a berth while it is GRANTED and only then, and it names the berth that has it (R65, R66, R72). -/
def State.baysAgree (s : State) : Prop :=
  ∀ k, ((s.bay k).state = .granted ↔ (s.bay k).berth ≠ none) ∧
    ∀ b, (s.bay k).berth = some b ↔ (s.berth b).bay = some k

/-! ## Between events -/

/-- Only QUEUED berths stand in an admission queue (R68). -/
def State.queuesSound (s : State) : Prop := ∀ x, ∀ c ∈ (s.sec x).queue, (s.berth c).state = .queued

/-- No pass is still called for: an event runs those it calls for before it is over (R69). -/
def State.settled (s : State) : Prop := s.passA = false ∧ s.passB = false

end Sys2Proof.Machine
end

