-- ==== Sys2Proof/Certificates/Slice0/Obligations.lean ====
section
/-! DEFINITION. The statements for the provers: what each command of the BC-820 does, and what every step keeps. A
statement gives a command's next state as the state before it with the updates the rules give, in their order; what no
update names is as it was, so each such statement is its command's frame as well. The operations that many rules share
(the re-evaluation of a hold queue, the release of a grant, a notice, an answer) have statements of their own. -/

open Sys2Proof Sys2Proof.Machine

/-! ## The part as a whole -/

/-- A step carries out the command at the front of the queue on the state with the queue's rest; an empty queue is an
idle step (log entry 9). -/
def Obligations.StepTakesTheFrontCommand : Prop :=
  ∀ s : State, (∀ c rest, s.pending = c :: rest → step s = exec c { s with pending := rest }) ∧
    (s.pending = [] → step s = .next s)

/-- No command stops the part: each answers a next state, and leaves the queue of commands as it was. That no rule of the
spec stops the part is the model's reading of the rules (log entry 1), and the queue is the model's own (log entry 25). -/
def Obligations.EveryCommandAnswersNext : Prop :=
  ∀ (c : Instr) (s : State), ∃ t, exec c s = .next t ∧ t.pending = s.pending

/-- The part after power-on meets every property that the steps keep. -/
def Obligations.ResetMeetsTheInvariants : Prop :=
  State.reset.bounded ∧ State.reset.guarded ∧ State.reset.arbitrated ∧ State.reset.withinLimits ∧
    State.reset.queuesSound ∧ State.reset.sound ∧ State.reset.mapSound ∧ State.reset.settled ∧
    State.reset.arbitersSound ∧ State.reset.grantsAgree ∧ State.reset.baysAgree

/-- Every step keeps every buffer and queue within its bound. -/
def Obligations.StepKeepsBuffersBounded : Prop :=
  ∀ s t : State, s.bounded → step s = .next t → t.bounded

/-- Every step keeps the closing orders of other parties out of the transmit queues, the links and the hold queues. -/
def Obligations.StepKeepsClosingOrdersOut : Prop :=
  ∀ s t : State, s.guarded → step s = .next t → t.guarded

/-- Every step keeps the sections consistent: an arbiter is busy exactly when an operation is in flight; a granted sum
above the limit has its over flag set; only QUEUED berths stand in an admission queue; and no service pass that a
command has called for is left to run. -/
def Obligations.StepKeepsSectionsConsistent : Prop :=
  ∀ s t : State, step s = .next t → (s.arbitrated → t.arbitrated) ∧ (s.withinLimits → t.withinLimits) ∧
    (s.queuesSound → t.queuesSound) ∧ (s.settled → t.settled)

/-- Every step keeps the settings, the clock and the bypass counts in their ranges, and the EQUIPMENT MAP free of
entries that clash or do not fit their class. -/
def Obligations.StepKeepsSettingsInRange : Prop :=
  ∀ s t : State, step s = .next t → (s.sound → t.sound) ∧ (s.mapSound → t.mapSound)

/-- Every step keeps what the arbiters hold in agreement with the berths: a lock is held only by a berth of its section in
CLOSING, RAMP_IN or RAMP_OUT; a request waits, and an operation is in flight, only of a berth of the section in a state
that may have it; and each queue holds every QUEUED berth of its section once, and no other. -/
def Obligations.StepKeepsArbitersSound : Prop :=
  ∀ s t : State, s.arbitersSound → step s = .next t → t.arbitersSound

/-- Where the arbiters agree with the berths, every step keeps the grants and the bays in agreement too: a granted sum is
the sum of its section's grants, a berth in a state without capacity has no grant and no bay, and a bay names the berth
that has it, and names one exactly while it is GRANTED. -/
def Obligations.StepKeepsGrantsAndBays : Prop :=
  ∀ s t : State, s.arbitersSound → s.grantsAgree → s.baysAgree → step s = .next t → t.grantsAgree ∧ t.baysAgree

/-! ## Frames and ports -/

/-- The bytes of a frame read back as that frame, and as no other: no bit of a header or payload is dropped. -/
def Obligations.FrameBytesReadBack : Prop :=
  ∀ (f : Frame) (bytes : List Byte),
    parseFrame bytes = some f ↔ f.payload.length ≤ 48 ∧ bytes = f.encode

/-- A taken frame that fails a condition of R124 is discarded and its port's check-error count raised; one that meets
them all waits for its command. A frame of fewer than ten bytes is discarded and counted too, by FORWARD_FRAME where it is
shorter than a header, which is the model's reading (log entries 28 and 20). The codes of each kind, the sizes of their
payloads and the fields that name one of a list are those of 7.2.1 and 7.2.2; which payload fields are enumerated is the
model's reading (log entry 16). -/
def Obligations.FaultyFrameIsDiscardedAndCounted : Prop :=
  let sizes : List ((Nat × Nat) × Nat × Nat) :=
    [((1, 0x01), 2, 2), ((1, 0x02), 2, 2), ((1, 0x03), 2, 2), ((1, 0x05), 0, 0), ((1, 0x06), 2, 2), ((1, 0x07), 2, 2),
      ((1, 0x08), 1, 1), ((1, 0x09), 0, 0), ((1, 0x0A), 0, 0)] ++
    [((2, 0x61), 3, 3), ((2, 0x62), 1, 1), ((2, 0x63), 9, 9), ((2, 0x64), 3, 3), ((2, 0x65), 6, 6), ((2, 0x66), 3, 3),
      ((2, 0x67), 1, 1), ((2, 0x68), 4, 4), ((2, 0x69), 3, 3), ((2, 0x6A), 1, 1), ((2, 0x6B), 0, 0), ((2, 0x6C), 0, 0)] ++
    [((3, 0x21), 0, 0), ((3, 0x22), 0, 0), ((3, 0x23), 3, 3), ((3, 0x24), 0, 0), ((3, 0x25), 2, 2)] ++
    ([0x31, 0x32, 0x33, 0x46].map fun c => ((3, c), 0, 0)) ++
    ([0x41, 0x42, 0x43, 0x44, 0x45].map fun c => ((3, c), 1, 1)) ++
    [((3, 0x47), 3, 3), ((4, 0x01), 2, 2), ((5, 0x01), 3, 3), ((6, 0x01), 2, 48), ((6, 0x02), 2, 48)]
  -- Where a payload names one of a list, and how many its list has.
  let names : List ((Nat × Nat) × List (Nat × Nat)) :=
    [((1, 0x06), [(0, 4), (1, 5)]), ((2, 0x61), [(2, 3)]), ((2, 0x62), [(0, 2)]),
      ((2, 0x63), [4, 5, 6, 7, 8].map fun n => (n, 4)), ((2, 0x64), [(0, 4), (1, 5), (2, 2)]),
      ((2, 0x65), [(4, 2), (5, 2)]), ((2, 0x66), [(0, 2)]), ((2, 0x67), [(0, 3)]), ((2, 0x69), [(2, 3)]),
      ((2, 0x6A), [(0, 2)]), ((3, 0x23), [(0, 2)]), ((4, 0x01), [(0, 11)]), ((5, 0x01), [(0, 9), (1, 7)])]
  (∀ kind code : Byte, payloadSizes kind code =
    if kind = 7#8 then (if 1 ≤ code.toNat ∧ code.toNat ≤ 24 then some (9, 17) else none)
    else sizes.lookup (kind.toNat, code.toNat)) ∧
  (∀ (kind code : Byte) (payload : List Byte),
    (sizeOk kind code payload = true ↔
      ∃ least most, payloadSizes kind code = some (least, most) ∧ least ≤ payload.length ∧ payload.length ≤ most) ∧
    (enumsOk kind code payload = true ↔
      (∀ f ∈ (names.lookup (kind.toNat, code.toNat)).getD [],
        1 ≤ (payload.getD f.1 0#8).toNat ∧ (payload.getD f.1 0#8).toNat ≤ f.2) ∧
      (kind = 7#8 → (payload.getD 1 0#8).toNat ≤ 2))) ∧
  (∀ (p : Port) (bytes : List Byte) (rest : List (List Byte)) (s : State), bytes.length < 10 →
    (s.port p).rx = bytes :: rest →
      (bytes.length < 8 → (rowOf s.ownId bytes).command p = .forwardFrame p) ∧
      exec ((rowOf s.ownId bytes).command p) s =
        .next (updPort p (fun r => { r with rx := rest, checkErrors := min 65535 (r.checkErrors + 1) }) s)) ∧
  ∀ (p : Port) (d1 d0 s1 s0 kind code tag len c1 c0 : Byte) (payload : List Byte) (rest : List (List Byte))
    (s : State),
    let head := [d1, d0, s1, s0, kind, code, tag, len] ++ payload
    let toPart := kind = kindRequest ∧ idOf d1 d0 = s.ownId
    let faulty := crc16 head ≠ idOf c1 c0 ∨ 48 < len.toNat ∨ len.toNat ≠ payload.length ∨ kind.toNat < 1 ∨
      7 < kind.toNat ∨ payloadSizes kind code = none ∨
      (¬toPart ∧ (sizeOk kind code payload = false ∨ enumsOk kind code payload = false))
    (s.port p).rx = (head ++ [c1, c0]) :: rest →
      (faulty → exec ((rowOf s.ownId (head ++ [c1, c0])).command p) s =
        .next (updPort p (fun r => { r with rx := rest, checkErrors := min 65535 (r.checkErrors + 1) }) s)) ∧
      (¬faulty → Waits s p ⟨idOf d1 d0, idOf s1 s0, kind, code, tag, payload⟩)

/-- A frame that passes R124 is discarded, and its port's unmapped count raised, when its source is not mapped on the
arrival port or its destination is neither the part nor mapped on another port; else its source and destination entries
are found. Start-up access alone passes a TABLE frame by (R160). -/
def Obligations.UnmappedFrameIsDiscardedAndCounted : Prop :=
  ∀ (p : Port) (f : Frame) (s : State),
    let unmapped := s.entryOf f.src = none ∨ (∃ e, s.entryOf f.src = some e ∧ e.port ≠ p) ∨
      (f.dst ≠ s.ownId ∧ s.entryOf f.dst = none) ∨ (f.dst ≠ s.ownId ∧ ∃ d, s.entryOf f.dst = some d ∧ d.port = p)
    Waits s p f →
      (unmapped → f.kind ≠ kindTable ∨ s.startUpAccess p f = false →
        exec ((f.row s.ownId).command p) s =
          .next (updPort p (fun r => { r with rx := r.rx.tail, unmapped := min 65535 (r.unmapped + 1) }) s)) ∧
      (¬unmapped → ∃ e d, Arrived s p f e d ∧ s.entryOf f.src = some e ∧
        (f.dst = s.ownId → d = none) ∧ (f.dst ≠ s.ownId → d = s.entryOf f.dst))

/-- A received frame joins the tail of its port's buffer of four, or is lost and raises the overrun count. Sending starts
with the head of the transmit queue, which leaves the queue for the link. That it stays there as the frame sent last, and
that with nothing to send nothing changes, are the model's choices (log entries 11 and 3). -/
def Obligations.PortsReceiveAndSendInOrder : Prop :=
  ∀ (p : Port) (bytes : List Byte) (s : State),
    ((s.port p).rx.length < 4 →
      exec (.receiveFrame p bytes) s = .next (updPort p (fun r => { r with rx := r.rx ++ [bytes] }) s)) ∧
    (4 ≤ (s.port p).rx.length →
      exec (.receiveFrame p bytes) s =
        .next (updPort p (fun r => { r with overruns := min 65535 (r.overruns + 1) }) s)) ∧
    (∀ t rest, (s.port p).tx = t :: rest →
      exec (.transmitStart p) s = .next (updPort p (fun r => { r with tx := rest, onLink := some t }) s)) ∧
    ((s.port p).tx = [] → exec (.transmitStart p) s = .next s)

/-- What a transmit queue of eight slots admits, by the class of the frame (R133), and what becomes of a forwarded frame
it does not admit (R132). That the tag count advances at every admitted frame, and that a destination without an entry
is a queue that takes nothing, are the model's readings (log entries 12 and 18); that a frame carries the count before its
own advance is its choice (log entry 33). -/
def Obligations.TransmitQueueAdmitsByClass : Prop :=
  ∀ (p : Port) (e : EquipEntry) (kind code : Byte) (payload : List Byte) (f : Frame) (a : Port) (s : State),
    let joins (t : TxFrame) : State :=
      updPort p (fun r => { r with tx := r.tx ++ [t], tagCount := (r.tagCount + 1) % 256 }) s
    e.port = p →
      ((s.port p).tx.length < 8 → send (some e) kind code payload s =
        (joins ⟨⟨e.id, s.ownId, kind, code, byte (s.port p).tagCount, payload⟩, none⟩, true)) ∧
      (8 ≤ (s.port p).tx.length → send (some e) kind code payload s = (s, false)) ∧
      send none kind code payload s = (s, false) ∧
      ((s.port p).tx.length < 8 → sendReply p f s = joins ⟨f, none⟩) ∧
      (8 ≤ (s.port p).tx.length → sendReply p f s = s) ∧
      ((s.port p).tx.length ≤ 5 → forward f a p s = joins ⟨f, some a⟩) ∧
      (5 < (s.port p).tx.length →
        forward f a p s = if f.kind = kindRefusal then s else refuse .congested f a s)

/-- A trip OPEN takes a free slot; in a full queue it takes the place of the oldest forwarded frame, which is refused
with CONGESTED or, if it is a REFUSAL, discarded; with no forwarded frame it is not queued. That its tag is the count
before its own advance is the model's choice (log entry 33). -/
def Obligations.TripOpenDisplacesAForwardedFrame : Prop :=
  ∀ (b : BerthId) (e : EquipEntry) (s : State),
    let order : TxFrame :=
      ⟨⟨e.id, s.ownId, 0x01#8, 0x02#8, byte (s.port e.port).tagCount, bytesId e.id⟩, none⟩
    s.berthEntry .shoreBreaker b = some e →
      ((s.port e.port).tx.length < 8 → sendTripOpen b s =
        updPort e.port (fun r => { r with tx := r.tx ++ [order], tagCount := (r.tagCount + 1) % 256 }) s) ∧
      (8 ≤ (s.port e.port).tx.length → ∀ front f a back,
        (s.port e.port).tx = front ++ ⟨f, some a⟩ :: back → (∀ t ∈ front, t.arrival = none) →
          let u := updPort e.port
            (fun r => { r with tx := front ++ back ++ [order], tagCount := (r.tagCount + 1) % 256 }) s
          sendTripOpen b s = if f.kind = kindRefusal then u else refuse .congested f a u) ∧
      (8 ≤ (s.port e.port).tx.length → (∀ t ∈ (s.port e.port).tx, t.arrival = none) → sendTripOpen b s = s)

/-- A REPLY, a REFUSAL and a TABLE reply go to the source of the frame they answer, from the part's own ID, with its
tag, and carry a status or reason with what identifies the frame. A REPLY, REFUSAL or NOTICE of another party is
forwarded unchanged, or consumed without effect when it is for the part; a report, its effects made, is handed on in the
same way. A REPORT that is not observed, since its source is of another class than its code needs, or names another bay
than its source's, has no effect and is handed on. -/
def Obligations.FramesAreAnsweredAndForwarded : Prop :=
  ∀ (p : Port) (f : Frame) (e d : EquipEntry) (st : Status) (r : Reason) (body : List Byte) (s : State),
    reply p f st s = sendReply p ⟨f.src, s.ownId, 0x04#8, 0x01#8, f.tag, [codeIn statuses st, f.code]⟩ s ∧
    refuse r f p s = sendReply p ⟨f.src, s.ownId, 0x05#8, 0x01#8, f.tag, [codeIn reasons r, f.kind, f.code]⟩ s ∧
    (∀ table index rest, f.payload = table :: index :: rest →
      tableReply p f st body s =
        sendReply p ⟨f.src, s.ownId, 0x06#8, f.code, f.tag, [table, index, codeIn statuses st] ++ body⟩ s) ∧
    (f.kind = kindReply ∨ f.kind = kindRefusal ∨ f.kind = kindNotice →
      (Arrived s p f e (some d) → exec (.forwardFrame p) s =
        .next (forward f p d.port (updPort p (fun r => { r with rx := r.rx.tail }) s))) ∧
      (Arrived s p f e none → exec (.forwardFrame p) s =
        .next (updPort p (fun r => { r with rx := r.rx.tail }) s))) ∧
    handOn p f (some d) s = forward f p d.port s ∧ handOn p f none s = s ∧
    (∀ (o : Option EquipEntry) (code : Byte), Reported s p f e o code → s.settled →
      let observable : Prop :=
        match code.toNat with
        | 0x61 => e.cls = .shoreBreaker ∨ e.cls = .earthSwitch
        | 0x62 => e.cls = .synchroniser
        | 0x63 | 0x64 => e.cls = .plugStation
        | 0x65 | 0x66 | 0x67 | 0x68 => e.cls = .shipPms
        | 0x69 => e.cls = .converter ∧ e.bay.map (fun k => codeIn bayIds k) = f.payload[0]?
        | 0x6A => e.cls = .feederMonitor
        | _ => e.cls = .localPanel
      ¬observable → exec ((f.row s.ownId).command p) s = .next (handOn p f o (dropHead p s)))

/-- The payload of every report that has one reads back as what it reports: POSITION, CORE_TEST, ASSIGN_DONE, SHIP_STATE,
STEP_DONE, VESSEL_ID, CONVERTER_STATE, and the one byte of SYNC_RESULT, HOLD_STATE and FEEDER_STATE (1 LIVE, 2 LOST). -/
def Obligations.ReportPayloadsReadBack : Prop :=
  (∀ i b, positionOf (positionBytes i (some b)) = some (i, b)) ∧
  (∀ r, coreTestOf (coreTestBytes (some r)) = some r) ∧
  (∀ r, assignDoneOf (assignDoneBytes (some r)) = some r) ∧
  (∀ r : ShipStateReport, r.shipLoad < 65536 → r.shoreLoad < 65536 →
    shipStateOf (shipStateBytes (some r)) = some r) ∧
  (∀ r : StepDoneReport, r.shoreLoad < 65536 → stepDoneOf (stepDoneBytes (some r)) = some r) ∧
  (∀ v, vesselIdOf (vesselBytes (some v)) = v) ∧
  (∀ r, converterStateOf (converterBytes (some r)) = some r) ∧
  (∀ q, nameIn syncOutcomes (codeIn syncOutcomes q) = some q) ∧ (∀ a, nameIn holdAnswers (codeIn holdAnswers a) = some a) ∧
  feederStateOf [1#8] = some true ∧ feederStateOf [2#8] = some false

/-- A REQUEST to the part is checked for its code, its origin and its payload in this order, and a berth number outside
1 to 8 is turned away; each such request is answered and changes nothing else. That GATE_DECISION is the command that takes
a REQUEST to the part with a code the part does not take is the model's choice (log entry 20). -/
def Obligations.RequestsAreChecked : Prop :=
  ∀ (p : Port) (f : Frame) (e : EquipEntry) (s : State),
    let c := f.code.toNat
    let ship := 0x31 ≤ c ∧ c ≤ 0x33
    let room := 0x41 ≤ c ∧ c ≤ 0x47
    let size := if ship then 0 else if c = 0x46 then 0 else if c = 0x47 then 3 else 1
    let origin := (ship → e.cls = .shipPms) ∧ (room → e.cls = .supervisor)
    let answered (st : Status) : Prop := exec ((f.row s.ownId).command p) s = .next (reply p f st (dropHead p s))
    Arrived s p f e none → f.kind = kindRequest →
      (¬ship → ¬room → f.row s.ownId = .gateDecision ∧ answered .badValue) ∧
      (ship ∨ room → ¬origin → answered .notPermitted) ∧
      (ship ∨ room → origin → f.payload.length ≠ size → answered .badValue) ∧
      (room → c ≤ 0x45 → origin → ∀ n : Byte, f.payload = [n] → n.toNat < 1 ∨ 8 < n.toNat → answered .badValue)

/-! ## The GATE -/

/-- The fixed guards come before the GATE TABLE and raise no hit count: a closing order of another party is refused with
GUARDED, and then anything but OPEN or EARTH_OPEN for a tripped berth with BERTH_TRIPPED. -/
def Obligations.FixedGuardsComeFirst : Prop :=
  ∀ (f : Frame) (src dst : EquipClass) (b : Option BerthId) (s : State),
    let closing := f.kind = 0x01#8 ∧ (f.code = 0x01#8 ∨ f.code = 0x03#8 ∨ f.code = 0x07#8 ∨ f.code = 0x09#8)
    let opening := f.kind = 0x01#8 ∧ (f.code = 0x02#8 ∨ f.code = 0x0A#8)
    (closing → gateJudge f src dst b s = (.refuse .guarded, s)) ∧
    (¬closing → (∃ c, b = some c ∧ (s.berth c).state = .tripped) → ¬opening →
      gateJudge f src dst b s = (.refuse .berthTripped, s))

/-- The first GATE entry that matches a frame decides it and counts the decision; a frame that no entry matches is
refused with NO_RULE and raises no count. -/
def Obligations.FirstMatchingEntryDecides : Prop :=
  ∀ (f : Frame) (src dst : EquipClass) (b : Option BerthId) (s : State),
    let matched (n : Fin 48) : Prop :=
      let e := s.gate[n]
      e.valid = true ∧ (e.srcClass = none ∨ e.srcClass = some src) ∧ (e.dstClass = none ∨ e.dstClass = some dst) ∧
        (match e.kind with | .order => f.kind = 0x01#8 | .request => f.kind = 0x03#8) ∧
        (e.code = none ∨ e.code = some f.code) ∧
        (e.states = .any ∨ ∃ c m, b = some c ∧ e.states = .of m ∧ m.getLsbD (s.berth c).state.bit = true)
    let verdict (a : GateAction) : Verdict :=
      match a with
      | .pass => .pass
      | .hold => .hold
      | .refuse => .refuse .byRule
      | .discard => .discard
    closingOrder f = false → (∀ c, b = some c → (s.berth c).state ≠ .tripped ∨ openingOrder f = true) →
      (∀ n, matched n → (∀ m, m < n → ¬matched m) →
        gateJudge f src dst b s = (verdict s.gate[n].action,
          { s with gate := s.gate.set n { s.gate[n] with hits := min 65535 (s.gate[n].hits + 1) } })) ∧
      ((∀ n, ¬matched n) → gateJudge f src dst b s = (.refuse .noRule, s))

/-- An ORDER or REQUEST for another party is judged under the destination's berth, else the source's, and the decision
is carried out: refused, forwarded, dropped, or held behind the frames its berth holds already. An ORDER to the part
itself is refused with NO_RULE. -/
def Obligations.GateDecisionIsCarriedOut : Prop :=
  ∀ (p : Port) (f : Frame) (e d : EquipEntry) (s : State),
    let t := dropHead p s
    let b := if d.berth.isSome then d.berth else e.berth
    let (verdict, u) := gateJudge f e.cls d.cls b t
    (Arrived s p f e (some d) → f.kind = kindOrder ∨ f.kind = kindRequest →
      (∀ r, verdict = .refuse r → exec (.gateDecision p) s = .next (refuse r f p u)) ∧
      (verdict = .pass → exec (.gateDecision p) s = .next (forward f p d.port u)) ∧
      (verdict = .discard → exec (.gateDecision p) s = .next u) ∧
      (verdict = .hold → b = none → exec (.gateDecision p) s = .next (refuse .noBerth f p u)) ∧
      (verdict = .hold → ∀ c, b = some c →
        ((s.berth c).state = .tripped ∨ (s.berth c).state = .outOfService →
          exec (.gateDecision p) s = .next (refuse .berthTripped f p u)) ∧
        ((s.berth c).state ≠ .tripped → (s.berth c).state ≠ .outOfService → 2 ≤ (s.berth c).holdQueue.length →
          exec (.gateDecision p) s = .next (refuse .holdFull f p u)) ∧
        ((s.berth c).state ≠ .tripped → (s.berth c).state ≠ .outOfService → (s.berth c).holdQueue.length < 2 →
          exec (.gateDecision p) s = .next (updBerth c (fun r => { r with holdQueue := r.holdQueue ++
            [⟨f, p, e.cls, d.cls, s.clock.time, s.clock.night, s.timings.holdLimit⟩] }) u)))) ∧
    (Arrived s p f e none → f.kind = kindOrder → exec (.gateDecision p) s = .next (refuse .noRule f p t))

/-- The re-evaluation of a berth's hold queue keeps exactly the frames that are judged HOLD, in their order, and changes
nothing but that queue, the frames to send, the ports' counts and the hit counts. Each held frame, from the oldest, is
refused, forwarded as the EQUIPMENT MAP then stands, dropped or kept, and its outcome is carried out before the next is
decided. -/
def Obligations.ReevaluationKeepsTheFramesHeldAgain : Prop :=
  ∀ (b : BerthId) (s : State),
    let u := reevaluate b s
    let judged (h : HeldFrame) := gateJudge h.frame h.srcClass h.dstClass (some b) s
    u = { s with berths := u.berths, ports := u.ports, gate := u.gate } ∧ Untouched s u ∧ OthersKept b s u ∧
      u.berth b = { s.berth b with
        holdQueue := (s.berth b).holdQueue.filter (fun h => decide ((judged h).1 = .hold)) } ∧
      ((s.berth b).holdQueue = [] → u = s) ∧
      let carriedOut (t : State) (h : HeldFrame) : State :=
        let v := gateJudge h.frame h.srcClass h.dstClass (some b) t
        match v.1, s.entryOf h.frame.src, s.entryOf h.frame.dst with
        | .refuse r, _, _ => refuse r h.frame h.arrival v.2
        | .pass, some e, some d =>
          if e.port = h.arrival ∧ d.port ≠ h.arrival then forward h.frame h.arrival d.port v.2
          else countUnmapped h.arrival v.2
        | .pass, _, _ => countUnmapped h.arrival v.2
        | .discard, _, _ => v.2
        | .hold, _, _ => v.2
      let kept (q : List HeldFrame) : State → State := updBerth b fun r => { r with holdQueue := q }
      (∀ h, (s.berth b).holdQueue = [h] →
        u = kept (if (judged h).1 = .hold then [h] else []) (carriedOut s h)) ∧
      ∀ h g, (s.berth b).holdQueue = [h, g] →
        let t := carriedOut s h
        u = kept ((if (judged h).1 = .hold then [h] else []) ++
          (if (gateJudge g.frame g.srcClass g.dstClass (some b) t).1 = .hold then [g] else [])) (carriedOut t g)

/-- A hold timer that has run out takes its frame from its place in the hold queue and refuses it with HOLD_EXPIRED;
the other frame of the queue is not touched. The expiry as a command of its own, taken at a timer of 0, and its changing
nothing where no timer is due, are the model's choices (log entries 4 and 3). -/
def Obligations.HoldTimerExpiryRefusesItsFrame : Prop :=
  ∀ (b : BerthId) (place : Nat) (s : State),
    (∀ h, (s.berth b).holdQueue[place]? = some h → h.timer = 0 →
      exec (.holdQueueExpiry b place) s = .next (refuse .holdExpired h.frame h.arrival
        (updBerth b (fun r => { r with holdQueue := r.holdQueue.eraseIdx place }) s))) ∧
    ((∀ h, (s.berth b).holdQueue[place]? = some h → h.timer ≠ 0) → exec (.holdQueueExpiry b place) s = .next s)

/-! ## A berth's state and what it holds -/

/-- A change of a berth's state: it leaves what the old state held (a queue place, a start still to come), the record
takes the new state and loses what belongs to the old one alone, the hold queue is re-evaluated under the new state, the
timed activity ends, and on leaving CLOSING, RAMP_IN and RAMP_OUT the section's lock is given up. A change to the same
state is none. That a berth which leaves ADMITTED before its start is no longer to be started is the model's reading (log
entry 6). -/
def Obligations.ChangeOfStateHasItsEffects : Prop :=
  ∀ (h : Hooks) (b : BerthId) (new : BerthState) (s : State),
    let old := (s.berth b).state
    let bare := new = .vacant ∨ new = .outOfService
    let left := match old with
      | .queued => leaveQueue b s
      | .admitted => { s with startQueue := s.startQueue.erase b }
      | _ => s
    let t := left
      |> updBerth b (fun r => { r with
          state := new
          adopted := if r.state = .onShore then false else r.adopted
          overdraw := if r.state = .onShore then none else r.overdraw
          overdrawStage := if r.state = .onShore then .first else r.overdrawStage
          provingStep := if r.state = .plugged then .idle else r.provingStep
          comparison := if r.state = .plugged then 0#5 else r.comparison
          assignOrder := if r.state = .plugged then none else r.assignOrder
          vessel := if bare then none else r.vessel
          profile := if bare then none else r.profile
          cable := if bare then none else r.cable })
      |> reevaluate b
      |> updBerth b (fun r => { r with inFlight := none })
    let givesUpLock := (old = .closing ∨ old = .rampIn ∨ old = .rampOut) ∧
      new ≠ .closing ∧ new ≠ .rampIn ∧ new ≠ .rampOut ∧ (s.sec (s.secOf b)).lock.map (·.holder) = some b
    (old = new → enterState h b new s = s) ∧
    (old ≠ new → ¬givesUpLock → enterState h b new s = t) ∧
    (old ≠ new → givesUpLock →
      enterState h b new s = h.choice (s.secOf b) (updSec (s.secOf b) (fun r => { r with lock := none }) t))

/-- The small steps that many rules take: a withdrawn request is gone and no other; a berth that leaves its queue is in
no queue, the others keep their order, and its bypass count is 0; a hold that the ship granted is ended with HOLD_END; a
cable record loses its link; the held frames of a berth are refused, oldest first, and its hold queue is empty; a vessel's
profile is the entry that names the vessel. -/
def Obligations.SharedStepsDoWhatTheySay : Prop :=
  ∀ (b : BerthId) (s : State),
    (∀ x, (withdrawRequest b s).sec x = { s.sec x with requests := (s.sec x).requests.set b none }) ∧
    (∀ x, (leaveQueue b s).sec x = { s.sec x with queue := (s.sec x).queue.filter (· ≠ b) }) ∧
    (leaveQueue b s).berth b = { s.berth b with bypass := 0 } ∧
    Untouched s (withdrawRequest b s) ∧ (withdrawRequest b s).berths = s.berths ∧
    Untouched s (leaveQueue b s) ∧ OthersKept b s (leaveQueue b s) ∧
    ((s.berth b).holdGranted = false → endHold b s = s) ∧
    ((s.berth b).holdGranted = true → endHold b s =
      updBerth b (fun r => { r with holdGranted := false })
        (send (s.berthEntry .shipPms b) kindRequest 0x22#8 [] s).1) ∧
    unlinkCable b s = { s with cables := s.cables.map (fun c =>
      c.map (fun r => if r.berth = some b then { r with berth := none } else r)) } ∧
    (∀ why, refuseHeld why b s = updBerth b (fun r => { r with holdQueue := [] })
      ((s.berth b).holdQueue.foldl (fun t h => refuse why h.frame h.arrival t) s)) ∧
    ∀ v : Num32,
      let names (n : Fin 24) : Prop := ∃ q, s.profiles[n] = some q ∧ q.vessel = v
      (∀ n, s.profileIndexOf v = some n ↔ names n ∧ ∀ m : Fin 24, m < n → ¬names m) ∧
      (s.profileIndexOf v = none ↔ ∀ n, ¬names n)

/-- A released grant: the grant leaves the section's granted sum, the terms and the overdraw are cleared, the over flag
is cleared once the sum is within the limit, and a pass is called for; a held bay is sent CONVERTER_STOP, drops the berth
and, unless it is FAULTED, becomes FREE, which calls for passes in both sections. -/
def Obligations.ReleasedGrantGoesBack : Prop :=
  ∀ (b : BerthId) (s : State),
    let x := s.secOf b
    let sum := (s.sec x).granted - (s.berth b).grant
    let given (t : State) : State := t
      |> updBerth b (fun r => { r with grant := 0, bay := none, terms := none, overdraw := none, overdrawStage := .first })
      |> updSec x (fun r => { r with granted := sum, overFlag := if sum ≤ r.limit then false else r.overFlag })
      |> callPass x
    ((s.berth b).bay = none → releaseGrant b s = given s) ∧
    (∀ k, (s.berth b).bay = some k →
      let t := (send (s.converterEntry k) kindOrder 0x08#8 [codeIn bayIds k] s).1
      ((s.bay k).state = .granted → releaseGrant b s =
        (given (updBay k (fun r => { r with state := .free, berth := none }) t) |> callPass .A |> callPass .B)) ∧
      ((s.bay k).state ≠ .granted → releaseGrant b s = given (updBay k (fun r => { r with berth := none }) t)))

/-- The trip path, in its order: the berth leaves what its old state held and is in TRIPPED with the cause; where its
breaker may be closed, a trip OPEN is sent and timed; its request, operation and lock are given up, an abandoned STEP
starting the step spacing, and the arbiter chooses, an early choice, whose own releases leave the passes to this trip's; its
grant and bay are given back and the passes run; its ramp is masked, its held frames are refused with BERTH_TRIPPED, and a
TRIPPED notice is made. Inside an event that holds back the choice or the passes (log entries 7 and 8) the hooks are
quiet. In the end it holds nothing at its section's arbiter and waits in no queue, vessel, profile and cable stay, and the
settings, lines and observed values are untouched. A berth already in TRIPPED does not trip again. -/
def Obligations.TripPathLeavesNothingHeld : Prop :=
  ∀ (h : Hooks) (b : BerthId) (cause : TripCause) (reason : Option FailReason) (s : State),
    let old := (s.berth b).state
    let x := s.secOf b
    let supplied := old = .closing ∨ old = .rampIn ∨ old = .onShore ∨ old = .rampOut ∨ old = .opening
    let capacity := old = .admitted ∨ supplied
    let opens := cause = .breakerClosed ∨ (supplied ∧ cause ≠ .breakerOpened)
    let locks := (s.sec x).lock.map (·.holder) = some b
    let left := match old with
      | .queued => leaveQueue b s
      | .admitted => { s with startQueue := s.startQueue.erase b }
      | _ => s
    let marked := left |> updBerth b (fun r => { r with
      state := .tripped
      tripCause := some cause
      tally := { r.tally with trips := min 255 (r.tally.trips + 1) }
      adopted := if old = .onShore then false else r.adopted
      overdraw := if old = .onShore then none else r.overdraw
      overdrawStage := if old = .onShore then .first else r.overdrawStage
      provingStep := if old = .plugged then .idle else r.provingStep
      comparison := if old = .plugged then 0#5 else r.comparison
      assignOrder := if old = .plugged then none else r.assignOrder
      inFlight := none })
    let opened := if opens then
        marked |> sendTripOpen b |> updBerth b (fun r => { r with inFlight := some ⟨.tripOpen, s.clock.time, s.timings.operate⟩ })
      else marked
    let freed := match s.opOf b with
      | none => withdrawRequest b opened
      | some k => opened |> withdrawRequest b |> updSec x (fun r => { r with
          arbiter := .partIdle
          op := none
          spacing := if k = .step then (if s.timings.stepSpacing = 0 then none else some s.timings.stepSpacing)
            else r.spacing })
    let unlocked := if locks then updSec x (fun r => { r with lock := none }) freed else freed
    let chosen := if s.opOf b ≠ none ∨ locks then h.early x unlocked else unlocked
    let given := if capacity then h.passes (releaseGrant b chosen) else chosen
    (old = .tripped → trip h b cause reason s = s) ∧
    (old ≠ .tripped → trip h b cause reason s = (given
      |> updBerth b (fun r => { r with holdGranted := false, ramp := { r.ramp with masked := true, pauseTimer := none } })
      |> refuseHeld .berthTripped b
      |> noticeBerth b .tripped [codeIn tripCauses cause, codeIn berthStates old,
          if (given.berth b).breakerFail = true then 1#8 else 2#8, codeOrZero failReasons reason])) ∧
    (old ≠ .tripped → s.queuesSound →
      let t := trip .live b cause reason s
      t.berth b = { s.berth b with
        state := .tripped
        tripCause := some cause
        tally := { (s.berth b).tally with trips := min 255 ((s.berth b).tally.trips + 1) }
        adopted := if old = .onShore then false else (s.berth b).adopted
        overdraw := if capacity then none else (s.berth b).overdraw
        overdrawStage := if capacity then .first else (s.berth b).overdrawStage
        provingStep := if old = .plugged then .idle else (s.berth b).provingStep
        comparison := if old = .plugged then 0#5 else (s.berth b).comparison
        assignOrder := if old = .plugged then none else (s.berth b).assignOrder
        bypass := if old = .queued then 0 else (s.berth b).bypass
        inFlight := if opens then some ⟨.tripOpen, s.clock.time, s.timings.operate⟩ else none
        grant := if capacity then 0 else (s.berth b).grant
        bay := if capacity then none else (s.berth b).bay
        terms := if capacity then none else (s.berth b).terms
        ramp := { (s.berth b).ramp with masked := true, pauseTimer := none }
        holdGranted := false
        holdQueue := [] } ∧
      (t.sec x).freeOf b ∧ Untouched s t)

/-- A proving run starts at TEST1 with TEST_CORES sent and its timer started, and goes on to each later test in the same
way; where the frame finds no slot the run fails at once, and the berth trips with CABLE_FAULT, reason PORT_FULL. That the
frame's tag is the count before its own advance is the model's choice (log entry 33). -/
def Obligations.ProvingRunStarts : Prop :=
  ∀ (b : BerthId) (e : EquipEntry) (s : State), s.berthEntry .plugStation b = some e →
    ((s.port e.port).tx.length < 8 → startProving b s =
      (s |> updPort e.port (fun r => { r with
              tx := r.tx ++ [⟨⟨e.id, s.ownId, 0x01#8, 0x05#8, byte r.tagCount, []⟩, none⟩]
              tagCount := (r.tagCount + 1) % 256 })
        |> updBerth b (fun r => { r with
              provingPassed := false
              cable := none
              comparison := 0#5
              assignOrder := none
              provingStep := .test1
              inFlight := some ⟨.coreTest, s.clock.time, s.timings.coreTest⟩ }))) ∧
    (8 ≤ (s.port e.port).tx.length → startProving b s =
      (s |> updBerth b (fun r => { r with
              provingPassed := false
              cable := none
              comparison := 0#5
              assignOrder := none
              provingStep := .idle
              inFlight := none })
        |> trip .quiet b .cableFault (some .portFull))) ∧
    ∀ step : ProvingStep,
      ((s.port e.port).tx.length < 8 → sendTest b step s =
        (s |> updPort e.port (fun r => { r with
                tx := r.tx ++ [⟨⟨e.id, s.ownId, 0x01#8, 0x05#8, byte r.tagCount, []⟩, none⟩]
                tagCount := (r.tagCount + 1) % 256 })
          |> updBerth b (fun r => { r with
                assignOrder := none
                provingStep := step
                inFlight := some ⟨.coreTest, s.clock.time, s.timings.coreTest⟩ }))) ∧
      (8 ≤ (s.port e.port).tx.length → sendTest b step s =
        (s |> updBerth b (fun r => { r with
                comparison := 0#5, assignOrder := none, provingStep := .idle, inFlight := none })
          |> trip .quiet b .cableFault (some .portFull)))

/-! ## Requests -/

/-- SHORE_WANTED and ADMIT take a PROVED berth that passes the admission checks into its section's queue, at the tail
and with bypass count 0; the pass they call for runs before the REPLY. Where a check fails they are answered with the
status of the first that fails, and change nothing. -/
def Obligations.ShoreRequestIsCheckedAndQueued : Prop :=
  ∀ (c : Instr) (p : Port) (f : Frame) (b : BerthId) (s : State),
    (c = .shoreWanted p ∧ ShipAsks s p f b 0x31#8) ∨ (c = .admitBerth p ∧ RoomAsks s p f 0x43#8 (berthPayload b)) →
    ((s.berth b).state = .proved → (s.profileOf b).isSome → (s.sec (s.secOf b)).feeder = .live →
    ¬((s.line b).strain.enable = .enabled ∧ (s.line b).strain.sense = .level ∧ (s.line b).strain.level = .active) →
    exec c s = .next (s
      |> dropHead p
      |> updBerth b (fun r => { r with state := .queued })
      |> reevaluate b
      |> updBerth b (fun r => { r with inFlight := none, bypass := 0 })
      |> updSec (s.secOf b) (fun r => { r with queue := r.queue ++ [b] })
      |> callPass (s.secOf b)
      |> runPasses
      |> reply p f .accepted)) ∧
    (s.settled →
      let answered (st : Status) : Prop := exec c s = .next (reply p f st (dropHead p s))
      ((s.berth b).state ≠ .proved → answered .badState) ∧
      ((s.berth b).state = .proved → s.profileOf b = none → answered .noProfile) ∧
      ((s.berth b).state = .proved → (s.profileOf b).isSome → (s.sec (s.secOf b)).feeder ≠ .live →
        answered .feederDown) ∧
      ((s.berth b).state = .proved → (s.profileOf b).isSome → (s.sec (s.secOf b)).feeder = .live →
        (s.line b).strain.enable = .enabled → (s.line b).strain.sense = .level → (s.line b).strain.level = .active →
        answered .lineActive))

/-- WITHDRAW and RELEASE take a QUEUED berth out of its queue and back to PROVED, and no pass runs for it. Of an ADMITTED
berth they withdraw its request, abandon its wait, end its hold, give back its grant and bay, run the passes and return
it to PROVED; that it is then no longer to be started is the model's reading (log entry 6). -/
def Obligations.BerthGivesUpItsPlaceOrAdmission : Prop :=
  ∀ (c : Instr) (p : Port) (f : Frame) (b : BerthId) (s : State),
    (c = .withdraw p ∧ ShipAsks s p f b 0x33#8) ∨ (c = .release p ∧ RoomAsks s p f 0x44#8 (berthPayload b)) →
    ((s.berth b).state = .queued → s.settled →
      exec c s = .next (s
        |> dropHead p
        |> leaveQueue b
        |> updBerth b (fun r => { r with state := .proved })
        |> reevaluate b
        |> updBerth b (fun r => { r with inFlight := none })
        |> reply p f .accepted)) ∧
    ((s.berth b).state = .admitted → s.queuesSound →
      exec c s = .next (s
        |> dropHead p
        |> withdrawRequest b
        |> updBerth b (fun r => { r with inFlight := none })
        |> endHold b
        |> releaseGrant b
        |> runPasses
        |> (fun t => { t with startQueue := t.startQueue.erase b })
        |> updBerth b (fun r => { r with state := .proved })
        |> reevaluate b
        |> updBerth b (fun r => { r with inFlight := none })
        |> reply p f .accepted))

/-- RELEASE_WANTED and RELEASE start the morning release of a berth in ON_SHORE that has terms and no OPEN pending: a
running gens-off wait ends with its notice; DEAD asks the arbiter for an OPEN; LIVE, with generators running, goes to
RAMP_OUT and asks the ship for its hold. That the frame's tag is the count before its own advance is the model's choice
(log entry 33). -/
def Obligations.MorningReleaseStarts : Prop :=
  ∀ (c : Instr) (p : Port) (f : Frame) (b : BerthId) (m : Terms) (s : State),
    (c = .releaseWanted p ∧ ShipAsks s p f b 0x32#8) ∨ (c = .release p ∧ RoomAsks s p f 0x44#8 (berthPayload b)) →
    (s.berth b).state = .onShore → (s.berth b).terms = some m → s.request b ≠ some .openOp →
    let x := s.secOf b
    let t := if (s.berth b).inFlight.map (·.kind) = some .gensOffWait then
        s |> dropHead p |> updBerth b (fun r => { r with inFlight := none }) |> noticeBerth b .gensNotOff [2#8]
      else dropHead p s
    (m.method = .dead →
      let u := updSec x (fun r => { r with requests := r.requests.set b (some .openOp) }) t
      exec c s = .next (reply p f .accepted (runPasses
        (if (s.sec x).arbiter = .partIdle then runChoice x u else u)))) ∧
    (m.method = .live → ∀ r, (s.berth b).obs.shipState = some r → r.gensRunning = true →
      let u := t
        |> updBerth b (fun r => { r with state := .rampOut, adopted := false, overdraw := none, overdrawStage := .first })
        |> reevaluate b
        |> updBerth b (fun r => { r with inFlight := none })
      ∀ e, s.berthEntry .shipPms b = some e →
        ((u.port e.port).tx.length < 8 → exec c s = .next (u
          |> updPort e.port (fun r => { r with
              tx := r.tx ++ [⟨⟨e.id, s.ownId, 0x03#8, 0x21#8, byte r.tagCount, []⟩, none⟩]
              tagCount := (r.tagCount + 1) % 256 })
          |> updBerth b (fun r => { r with inFlight := some ⟨.holdHandshake, s.clock.time, s.timings.hold⟩ })
          |> runPasses
          |> reply p f .accepted)) ∧
        (8 ≤ (u.port e.port).tx.length → exec c s = .next (u
          |> releaseFailed .live b .portFull |> runPasses |> reply p f .accepted)))

/-- Requests that the berth's state, or a check of their rule, does not accept are answered with the status of the rule
and change nothing. A line blocks ACK_TRIP when it is enabled, sensed LEVEL and ACTIVE; SERVICE needs the berth's breaker,
plug station and ship PMS, and its section's synchroniser, feeder monitor and local panel, in the EQUIPMENT MAP. -/
def Obligations.UnacceptedRequestsChangeNothing : Prop :=
  (∀ (b : BerthId) (s : State),
    let x := s.secOf b
    let blocks (l : LineRec) : Prop := l.enable = .enabled ∧ l.sense = .level ∧ l.level = .active
    let entry (c : EquipClass) (o : EquipEntry → Prop) : Prop :=
      ∃ (n : Fin 64) (e : EquipEntry), s.equipment[n] = some e ∧ e.cls = c ∧ o e
    ((s.line b).blocks = true ↔ blocks (s.line b).estop ∨ blocks (s.line b).pilot ∨ blocks (s.line b).strain) ∧
    (s.mapped b = true ↔
      entry .shoreBreaker (·.berth = some b) ∧ entry .plugStation (·.berth = some b) ∧ entry .shipPms (·.berth = some b) ∧
        entry .synchroniser (·.sec = some x) ∧ entry .feederMonitor (·.sec = some x) ∧
        entry .localPanel (·.sec = some x))) ∧
  ∀ (p : Port) (f : Frame) (b : BerthId) (s : State), s.settled →
    let st := (s.berth b).state
    let answered (c : Instr) (a : Status) : Prop := exec c s = .next (reply p f a (dropHead p s))
    (ShipAsks s p f b 0x33#8 → st ≠ .queued → st ≠ .admitted → answered (.withdraw p) .badState) ∧
    (ShipAsks s p f b 0x32#8 → st ≠ .onShore → answered (.releaseWanted p) .badState) ∧
    (RoomAsks s p f 0x44#8 (berthPayload b) → st ≠ .queued → st ≠ .admitted → st ≠ .onShore →
      answered (.release p) .badState) ∧
    (∀ c, (c = .releaseWanted p ∧ ShipAsks s p f b 0x32#8) ∨ (c = .release p ∧ RoomAsks s p f 0x44#8 (berthPayload b)) →
      st = .onShore →
        ((s.berth b).terms = none → answered c .noProfile) ∧
        (∀ m, (s.berth b).terms = some m → s.request b = some .openOp → answered c .badState) ∧
        (∀ m, (s.berth b).terms = some m → m.method = .live →
          (∀ r, (s.berth b).obs.shipState = some r → r.gensRunning = false) → answered c .badState)) ∧
    (RoomAsks s p f 0x41#8 (berthPayload b) → st ≠ .outOfService ∨ s.mapped b = false →
      answered (.service p) .badState) ∧
    (RoomAsks s p f 0x42#8 (berthPayload b) →
      (st = .outOfService → answered (.outOfService p) .badState) ∧
      (st.holdsCapacity = true → answered (.outOfService p) .busy) ∧
      (st = .tripped → s.position b ≠ some .opened → answered (.outOfService p) .badState)) ∧
    (RoomAsks s p f 0x45#8 (berthPayload b) →
      (st ≠ .tripped → answered (.ackTrip p) .badState) ∧
      (st = .tripped → (s.line b).blocks = true → answered (.ackTrip p) .lineActive) ∧
      (st = .tripped → (s.line b).blocks = false → s.position b ≠ some .opened → answered (.ackTrip p) .badState))

/-- SERVICE with the EQUIPMENT MAP complete takes a berth whose breaker is not closed into VACANT, or, with its plug
latched, into PLUGGED with its vessel unknown and proving started. A berth whose breaker is closed it adopts into ON_SHORE:
with the vessel and profile reported, a grant of the reported load up to 250, or else of the profile's demand, past any
limit, a SECTION_OVER notice where the granted sum passes the limit, a bay that reports RUNNING for it, and an ADOPTED
notice. That the ramp channel's shore load seen is cleared with the rest is the model's reading (log entry 29). -/
def Obligations.ServiceTakesTheBerthIn : Prop :=
  ∀ (p : Port) (f : Frame) (b : BerthId) (s : State),
    RoomAsks s p f 0x41#8 (berthPayload b) → s.settled → (s.berth b).state = .outOfService → s.mapped b = true →
    let entered (st : BerthState) (t : State) : State := t
      |> updBerth b (fun r => { r with state := st })
      |> reevaluate b
      |> updBerth b (fun r => { r with inFlight := none })
    (s.position b ≠ some .closed → (s.line b).latch.level = .inactive → exec (.service p) s = .next (s
      |> dropHead p
      |> updBerth b (fun r => { r with vessel := none, profile := none, cable := none })
      |> entered .vacant
      |> reply p f .accepted)) ∧
    (s.position b ≠ some .closed → (s.line b).latch.level = .active → exec (.service p) s = .next (s
      |> dropHead p
      |> updBerth b (fun r => { r with vessel := none })
      |> entered .plugged
      |> startProving b
      |> runPasses
      |> reply p f .accepted)) ∧
    (s.position b = some .closed →
      let o := (s.berth b).obs
      let x := s.secOf b
      let index := o.vesselId.bind s.profileIndexOf
      let profile := index.bind fun n => s.profiles[n]
      let grant := min 250 (match o.shipState, profile with
        | some r, _ => r.shoreLoad
        | none, some q => q.demand
        | none, none => 0)
      let sum := (s.sec x).granted + grant
      let overLimit (t : State) : State :=
        if (s.sec x).limit < sum ∧ (s.sec x).overFlag = false then
          t |> updSec x (fun r => { r with overFlag := true })
            |> noticeSection x .sectionOver ([sectionByte (some x), byte (s.sec x).limit] ++ bytes2 sum)
        else t
      let take (k : BayId) : State → State := updBay k fun r => { r with state := .granted, berth := some b }
      let runs (k : BayId) : Prop := (s.bay k).state = .free ∧
        ∃ r, (s.bay k).report = some r ∧ r.run = .running ∧ berthOf r.berth = some b
      let adopts (k : Option BayId) (taken : State → State) : Prop := exec (.service p) s = .next (s
        |> dropHead p
        |> updBerth b (fun r => { r with vessel := o.vesselId, profile := index, cable := none, grant := grant })
        |> updSec x (fun r => { r with granted := sum })
        |> overLimit
        |> taken
        |> updBerth b (fun r => { r with
            bay := k
            adopted := true
            holdGranted := false
            ramp := ⟨.inward, 0, 0, 0, .single, .single, false, 0, false, true, false, none, false, none, none⟩
            terms := profile.map fun q => ⟨q.frequency, q.method, q.rampMode, q.step⟩ })
        |> noticeBerth b .adopted [byte grant, bayByte k]
        |> entered .onShore
        |> reply p f .accepted)
      (runs .bay1 → adopts (some .bay1) (take .bay1)) ∧
      (¬runs .bay1 → runs .bay2 → adopts (some .bay2) (take .bay2)) ∧
      (¬runs .bay1 → ¬runs .bay2 → adopts (s.berth b).bay (fun t => t)))

/-- OUT_OF_SERVICE of a berth that holds no capacity, in TRIPPED only with its breaker reported OPEN: it leaves its queue
and its cable record, its held frames are refused, and its record returns to its power-on values but for the nightly
counts, the tally, the last night, the observed values and its section. -/
def Obligations.OutOfServiceResetsTheBerth : Prop :=
  ∀ (p : Port) (f : Frame) (b : BerthId) (s : State),
    RoomAsks s p f 0x42#8 (berthPayload b) → s.settled →
    (s.berth b).state = .vacant ∨ (s.berth b).state = .plugged ∨ (s.berth b).state = .proved ∨
      (s.berth b).state = .queued ∨ ((s.berth b).state = .tripped ∧ s.position b = some .opened) →
    exec (.outOfService p) s = .next (s
      |> dropHead p
      |> leaveQueue b
      |> unlinkCable b
      |> refuseHeld .berthTripped b
      |> updBerth b (fun r => { Berth.initial r.sec with
          noticeCount := r.noticeCount, noticeLimited := r.noticeLimited, tally := r.tally, lastNight := r.lastNight,
          obs := r.obs })
      |> reply p f .accepted)

/-- ACK_TRIP of a berth with no blocking line and its breaker reported OPEN clears the cause and the BREAKER_FAIL flag,
abandons a trip OPEN, and takes the berth to PLUGGED, to be proved afresh, or to VACANT; a TRIP_CLEARED notice is made. That
the cable record's link is cleared in both cases is the model's reading of R43 (log entry 27), and that the notice names
PLUGGED even where proving fails at once is its choice (log entry 31). -/
def Obligations.AcknowledgedTripIsCleared : Prop :=
  ∀ (p : Port) (f : Frame) (b : BerthId) (s : State),
    RoomAsks s p f 0x45#8 (berthPayload b) → (s.berth b).state = .tripped → (s.line b).blocks = false →
    s.position b = some .opened →
    let cause := codeOrZero tripCauses (s.berth b).tripCause
    let cleared := s
      |> dropHead p
      |> updBerth b (fun r => { r with tripCause := none, breakerFail := false, inFlight := none })
      |> unlinkCable b
    let entered (st : BerthState) (t : State) : State := t
      |> updBerth b (fun r => { r with state := st })
      |> reevaluate b
      |> updBerth b (fun r => { r with inFlight := none })
    ((s.line b).latch.level = .active → exec (.ackTrip p) s = .next (cleared
      |> updBerth b (fun r => { r with profile := none, cable := none, provingPassed := false })
      |> entered .plugged
      |> startProving b
      |> noticeBerth b .tripCleared [cause, 3#8]
      |> runPasses
      |> reply p f .accepted)) ∧
    ((s.line b).latch.level = .inactive → exec (.ackTrip p) s = .next (cleared
      |> updBerth b (fun r => { r with vessel := none, profile := none, cable := none })
      |> entered .vacant
      |> noticeBerth b .tripCleared [cause, 2#8]
      |> runPasses
      |> reply p f .accepted))

/-! ## Clock, notices, power-on and RESTART -/

/-- A tick advances the time of day, takes one second from every running timer and, where it reaches the boundary
second, makes the night boundary due. That a timer stays at 0 until its expiry is taken, and that the boundary is a
command of its own, are the model's choices (log entries 4 and 5). -/
def Obligations.TickAdvancesTheClockAndTheTimers : Prop :=
  ∀ s : State,
    let time := if s.clock.time < 86399 then s.clock.time + 1 else 0
    let second (t : Timer) : Timer := t.map (· - 1)
    exec .clockTick s = .next { s with
      clock := { s.clock with
        time := time
        boundaryDue := s.clock.boundaryDue || decide (time = s.clock.boundaryHour * 3600) }
      berths := s.berths.map fun r => { r with
        inFlight := r.inFlight.map fun i => { i with timer := i.timer - 1 }
        ramp := { r.ramp with pauseTimer := r.ramp.pauseTimer.map fun t => (t.1, t.2 - 1) }
        overdraw := second r.overdraw
        holdQueue := r.holdQueue.map fun h => { h with timer := h.timer - 1 } }
      lines := s.lines.map fun r => { r with strainTimer := second r.strainTimer }
      sectionA := { s.sectionA with
        lock := s.sectionA.lock.map fun l => { l with timer := l.timer - 1 }, spacing := second s.sectionA.spacing }
      sectionB := { s.sectionB with
        lock := s.sectionB.lock.map fun l => { l with timer := l.timer - 1 }, spacing := second s.sectionB.spacing } }

/-- A night boundary that a tick has reached runs its housekeeping once; that it is a command of its own, and that with
none due nothing changes, are the model's choices (log entries 5 and 3). SET_CLOCK to a second of the day sets the time,
and runs the housekeeping before its REPLY when the move crosses the boundary forward; that its notices then carry the new
time is the model's choice (log entry 35). A count above 86399 is answered BAD_VALUE and changes nothing. The housekeeping
makes each berth's last-night record from its tally and the tested cable's record, and a NIGHT_SUMMARY of each active tally,
berths ascending, which joins the NOTICE QUEUE or, past its 32 places, is lost and marks the newest record; it clears the
tallies and the nightly counts, advances the night modulo 65536, clears the cable records' counts and masks, and removes
those without a berth whose age has reached the retention. -/
def Obligations.NightBoundaryRunsTheHousekeeping : Prop :=
  ∀ (p : Port) (f : Frame) (n : Nat) (s : State),
    let ended (u : State) : State :=
      let night := (u.clock.night + 1) % 65536
      let lastNight (a : Tally) : LastNight :=
        let c := a.cable.bind fun v => u.cables.toList.findSome? fun o => o.filter fun c => c.cable = v
        ⟨u.clock.night, a.cable, (c.map (·.tests)).getD 0, (c.map (·.andMask)).getD 0#5, (c.map (·.orMask)).getD 0#5,
          a.estop, a.pilot, a.strain, a.latch, a.trips⟩
      let detail (l : LastNight) : List Byte := (l.cable.map bytes4).getD [0, 0, 0, 0] ++
        [byte l.tests, byte l.andMask.toNat, byte l.orMask.toNat, byte (min 255 (l.estop + l.pilot + l.strain))]
      let summaries : List NoticeRec := [0, 1, 2, 3, 4, 5, 6, 7].filterMap fun b =>
        let a := (u.berth b).tally
        if a.cable ≠ none ∨ 0 < a.estop ∨ 0 < a.pilot ∨ 0 < a.strain ∨ 0 < a.latch then
          some ⟨.nightSummary, some b, some (u.secOf b), u.clock.night, u.clock.time, detail (lastNight a), false⟩
        else none
      let room := 32 - u.notices.length
      let joined := u.notices ++ summaries.take room
      let aged (c : CableRec) : Prop := u.retention ≤ (night + 65536 - c.lastSeen) % 65536
      { u with
        clock := { u.clock with night := night }
        berths := u.berths.map fun r => { r with
          lastNight := some (lastNight r.tally)
          tally := ⟨none, 0, 0, 0, 0, 0⟩
          noticeCount := 0
          noticeLimited := false }
        cables := u.cables.map fun o => o.bind fun c =>
          if c.berth = none ∧ aged c then none
          else some { c with soft := ⟨0, 0, 0, 0, 0⟩, tests := 0, andMask := 0#5, orMask := 0#5 }
        notices :=
          if summaries.length ≤ room then joined
          else joined.dropLast ++ (joined.getLast?.map fun m => { m with lostAfter := true }).toList }
    (s.clock.boundaryDue = true →
      exec .nightBoundary s = .next (ended { s with clock := { s.clock with boundaryDue := false } })) ∧
    (s.clock.boundaryDue = false → exec .nightBoundary s = .next s) ∧
    (n < 16777216 → RoomAsks s p f 0x47#8 (bytes3 n) → s.settled →
      let boundary := s.clock.boundaryHour * 3600
      let crosses := s.clock.time < n ∧ s.clock.time < boundary ∧ boundary ≤ n
      let u := dropHead p s
      let moved := { u with clock := { s.clock with time := n } }
      (86399 < n → exec (.setClock p) s = .next (reply p f .badValue u)) ∧
      (n ≤ 86399 → ¬crosses → exec (.setClock p) s = .next (reply p f .accepted moved)) ∧
      (n ≤ 86399 → crosses → exec (.setClock p) s = .next (reply p f .accepted (ended moved))))

/-- A notice about a berth is judged by the berth's nightly count unless its kind is unlimited; one about a section, or
about neither, is not judged. What goes to the NOTICE QUEUE joins its tail, or is lost and marks the newest record where 32
wait. -/
def Obligations.NoticesAreLimitedAndQueued : Prop :=
  ∀ (b : BerthId) (k : NoticeKind) (detail : List Byte) (s : State),
    let record (k : NoticeKind) (detail : List Byte) : NoticeRec :=
      ⟨k, some b, some (s.secOf b), s.clock.night, s.clock.time, detail, false⟩
    let unlimited := k = .tripped ∨ k = .nightSummary ∨ k = .limitReached
    let count := (s.berth b).noticeCount
    (unlimited → noticeBerth b k detail s = joinNotices (record k detail) s) ∧
    (¬unlimited → count < 16 → noticeBerth b k detail s =
      joinNotices (record k detail) (updBerth b (fun r => { r with noticeCount := count + 1 }) s)) ∧
    (¬unlimited → 16 ≤ count → (s.berth b).noticeLimited = false → noticeBerth b k detail s =
      joinNotices (record .limitReached [codeIn noticeKinds k])
        (updBerth b (fun r => { r with noticeLimited := true }) s)) ∧
    (¬unlimited → 16 ≤ count → (s.berth b).noticeLimited = true → noticeBerth b k detail s = s) ∧
    ∀ n : NoticeRec,
      (s.notices.length < 32 → joinNotices n s = { s with notices := s.notices ++ [n] }) ∧
      (32 ≤ s.notices.length → ∀ l m, s.notices = l ++ [m] →
        joinNotices n s = { s with notices := l ++ [{ m with lostAfter := true }] }) ∧
      (∀ x, noticeSection x k detail s =
        joinNotices ⟨k, none, some x, s.clock.night, s.clock.time, detail, false⟩ s) ∧
      noticePlain k detail s = joinNotices ⟨k, none, none, s.clock.night, s.clock.time, detail, false⟩ s

/-- The head record of the NOTICE QUEUE goes to the control room when a SUPERVISOR entry exists and SUP has a free slot;
otherwise it waits. That the frame's tag is the count before its own advance is the model's choice (log entry 33). -/
def Obligations.NoticeIsOfferedToTheControlRoom : Prop :=
  ∀ s : State,
    (∀ n rest e, s.notices = n :: rest → s.supervisor = some e → (s.port portSUP).tx.length < 8 →
      exec .noticeOffer s = .next (updPort portSUP (fun r => { r with
        tx := r.tx ++ [⟨⟨e.id, s.ownId, 0x07#8, codeIn noticeKinds n.kind, byte r.tagCount,
          [berthByte n.berth, codeOrZero sectionIds n.sec] ++ bytes2 n.night ++ bytes3 n.second ++
            [if n.lostAfter then 1#8 else 0#8, byte n.detail.length] ++ n.detail⟩, none⟩]
        tagCount := (r.tagCount + 1) % 256 }) { s with notices := rest })) ∧
    (s.notices = [] ∨ s.supervisor = none ∨ 8 ≤ (s.port portSUP).tx.length → exec .noticeOffer s = .next s)

/-- Power-on gives every field its power-on value, whatever was there, with each line at the level found at its input; no
notice is made and no frame sent. RESTART resets every berth, section, bay and port count, empties the buffers and queues,
refuses the held frames with RESTART, berths ascending and the oldest first, is answered, and leaves RESTARTED alone in the
NOTICE QUEUE; tables, clock, lines, observed values, tallies and nightly counts are kept. Beside the record of R1 a berth
has the model's fields; these start as nothing (log entry 23), and the queue of commands is kept (log entry 25). -/
def Obligations.PowerOnAndRestartSetTheState : Prop :=
  let channel : Ramp :=
    { direction := .inward, stepUnits := 0, baseCount := 0, currentCount := 0, mode := .single, effMode := .single
      demoted := false, failures := 0, terminal := false, masked := true, aborting := false, abortCause := none
      paused := false, pauseTimer := none, shoreSeen := none }
  let record (x : SectionId) : Berth :=
    { state := .outOfService, sec := x, vessel := none, profile := none, cable := none, grant := 0, bay := none
      tripCause := none, breakerFail := false, adopted := false, holdGranted := false, inFlight := none, ramp := channel
      holdQueue := [], provingStep := .idle, provingPassed := false, noticeCount := 0, noticeLimited := false, bypass := 0
      terms := none, overdraw := none, overdrawStage := .first, comparison := 0#5, assignOrder := none
      obs := ⟨none, none, none, none, none, none⟩, tally := ⟨none, 0, 0, 0, 0, 0⟩, lastNight := none }
  let sec : SectionRec :=
    { limit := 0, bypassLimit := 3, granted := 0, overFlag := false, feeder := .unknown, queue := [], arbiter := .partIdle
      op := none, requests := Vector.replicate 8 none, localPending := false, lock := none, lastGranted := none
      spacing := none, mode := .rotating, syncResult := none }
  let line (l : Level) : LineRec := { enable := .enabled, sense := .edge, level := l, stamp := none, count := 0 }
  (∀ (found : Vector LineInputs 8) (s : State), exec (.powerOn found) s = .next
    { berths := #v[record .A, record .A, record .A, record .A, record .B, record .B, record .B, record .B]
      lines := found.map fun i => ⟨line i.estop, line i.pilot, line i.strain, line i.latch, none⟩
      cables := Vector.replicate 32 none
      profiles := Vector.replicate 24 none
      sectionA := sec
      sectionB := sec
      bay1 := ⟨.free, none, none⟩
      bay2 := ⟨.free, none, none⟩
      bayTurn := .A
      startQueue := []
      passA := false
      passB := false
      ports := Vector.replicate 11 ⟨[], [], none, 0, 0, 0, 0⟩
      equipment := Vector.replicate 64 none
      ownId := 0x0001#16
      gate := Vector.replicate 48 ⟨false, none, none, .order, none, .any, .refuse, 0⟩
      clock := ⟨0, 0, 12, false⟩
      notices := []
      timings := ⟨5, 2, 20, 15, 10, 30, 120, 60, 60, 60, 60, 120, 20, 30⟩
      retention := 10
      pending := s.pending }) ∧
  ∀ (p : Port) (f : Frame) (s : State), RoomAsks s p f 0x46#8 [] →
    let restarted (r : SectionRec) : SectionRec :=
      { sec with limit := r.limit, bypassLimit := r.bypassLimit, mode := r.mode, syncResult := r.syncResult }
    let cleared : State := { s with
      berths := s.berths.map fun r => { record r.sec with
        noticeCount := r.noticeCount, noticeLimited := r.noticeLimited, tally := r.tally, lastNight := r.lastNight
        obs := r.obs, holdQueue := r.holdQueue }
      lines := s.lines.map fun r => { r with strainTimer := none }
      cables := s.cables.map (Option.map fun c => { c with berth := none })
      sectionA := restarted s.sectionA
      sectionB := restarted s.sectionB
      bay1 := ⟨.free, none, s.bay1.report⟩
      bay2 := ⟨.free, none, s.bay2.report⟩
      bayTurn := .A
      startQueue := []
      passA := false
      passB := false
      ports := s.ports.map fun r => ⟨[], [], r.onLink, 0, 0, 0, r.tagCount⟩
      gate := s.gate.map fun g => { g with hits := 0 } }
    let refused := [0, 1, 2, 3, 4, 5, 6, 7].foldl (fun t b => updBerth b (fun r => { r with holdQueue := [] })
      ((t.berth b).holdQueue.foldl (fun u h => refuse .restart h.frame h.arrival u) t)) cleared
    exec (.restart p) s = .next { reply p f .accepted refused with
      notices := [⟨.restarted, none, none, s.clock.night, s.clock.time, [], false⟩] }

/-! ## Tables -/

/-- The bytes of an entry's write body (R60, R125, R138, R161 to R163), and of a LINES entry. A number of two bytes has its
more significant byte first; 0 stands for an absent item, and, of a class, a code, for ANY; a flag is 1 when set and 2 when
clear. A TABLE READ is answered ACCEPTED with the entry as it stands: in one frame, or, for BERTHS and SECTIONS, in a series
of frames of up to 43 bytes, each with its number and their number. A BERTHS entry begins with its section, the one field
of its write body (R161). The order of the items that follow within its groups, and with it that it has 126 bytes, is the
model's reading (log entry 13), and so are an empty CABLES slot's zeros (15) and the 0 that an empty NOTICE QUEUE's flag
reads as (26). -/
def Obligations.TableReadShowsTheEntry : Prop :=
  let flagged (c : Bool) : Byte := if c = true then 1#8 else 2#8
  let berthOr0 (b : Option BerthId) : Byte := (b.map fun n => byte (n.val + 1)).getD 0#8
  let stamped (o : Option (Nat × Nat)) : List Byte := (o.map fun q => bytes3 q.1 ++ bytes2 q.2).getD [0, 0, 0, 0, 0]
  let lineBytes (l : LineRec) : List Byte := codeIn levels l.level :: stamped l.stamp ++ bytes2 l.count
  let positionOf (e : EquipEntry) : List Byte := (e.position.map fun q => bytesId e.id ++ [codeIn breakers q]).getD [0, 0, 0]
  (∀ e : EquipEntry, e.body = 1#8 :: bytesId e.id ++ [codeIn equipClasses e.cls, byte (e.port.val + 1), berthOr0 e.berth,
    codeOrZero sectionIds e.sec, codeOrZero bayIds e.bay]) ∧
  (∀ g : GateEntry, g.body = [flagged g.valid, codeOrZero equipClasses g.srcClass, codeOrZero equipClasses g.dstClass,
    match g.kind with | .order => 1#8 | .request => 3#8, g.code.getD 0#8] ++
      (match g.states with | .any => [0x80#8, 0#8] | .of m => bytes2 m.toNat) ++ [codeIn gateActions g.action]) ∧
  (∀ q : Profile, q.body = 1#8 :: bytes4 q.vessel ++ [byte q.demand, codeIn frequencies q.frequency,
    codeIn methods q.method, codeIn rampModes q.rampMode, byte q.step]) ∧
  (∀ c : CableRec, c.body = bytes4 c.cable ++ [codeIn conditions c.condition, codeOrZero funcs c.map, byte c.soft.p1,
    byte c.soft.p2, byte c.soft.p3, byte c.soft.p4, byte c.soft.sp, byte c.hard.toNat, byte c.tests,
    byte c.andMask.toNat, byte c.orMask.toNat] ++ bytes2 c.lastSeen ++ [berthOr0 c.berth]) ∧
  (∀ a : Timings, a.durations = [a.coreTest, a.operate, a.sync, a.step, a.stepSpacing, a.hold, a.pauseLimit, a.deadWait,
    a.converterStart, a.gensOffWait, a.strainGrace, a.overdraw, a.lockLimit, a.holdLimit]) ∧
  (∀ (b : BerthId) (s : State), linesBody b s =
    let l := s.line b
    [codeIn enables l.estop.enable, codeIn senses l.estop.sense, codeIn enables l.pilot.enable,
      codeIn senses l.pilot.sense, codeIn enables l.strain.enable, codeIn senses l.strain.sense] ++
      lineBytes l.estop ++ lineBytes l.pilot ++ lineBytes l.strain ++ lineBytes l.latch ++ bytes2 (l.strainTimer.getD 0)) ∧
  (∀ (n : Fin 24) (s : State), profilesBody n s =
    (s.profiles[n].map fun q => q.body).getD [2#8, 0, 0, 0, 0, 0, 0, 0, 0, 0]) ∧
  ∀ (f : Frame) (table : Byte) (i : Nat) (s : State), TableAsks s f 0x01#8 table (byte (i + 1)) [] →
    let t := dropHead portSUP s
    let shown (entry : List Byte) : Prop :=
      exec (.tableRead portSUP) s = .next (tableReply portSUP f .accepted entry t)
    (table = 1#8 → ∀ h : i < 11,
      let r := t.port ⟨i, h⟩
      shown (bytes2 r.checkErrors ++ bytes2 r.overruns ++ bytes2 r.unmapped ++
        [byte r.rx.length, byte r.tx.length, byte (r.tx.countP fun m => m.arrival.isSome)])) ∧
    (table = 2#8 → ∀ h : i < 64,
      shown ((t.equipment[i].map fun e => e.body ++ positionOf e).getD [2#8, 0, 0, 0, 0, 0, 0, 0, 0, 0, 0])) ∧
    (table = 3#8 → ∀ h : i < 48, shown (t.gate[i].body ++ bytes2 t.gate[i].hits)) ∧
    (table = 6#8 → ∀ h : i < 24, shown (profilesBody ⟨i, h⟩ t)) ∧
    (table = 7#8 → ∀ h : i < 32, shown ((t.cables[i].map fun c => c.body).getD (List.replicate 18 0#8))) ∧
    (table = 8#8 → i = 0 → shown (t.timings.durations.flatMap bytes2)) ∧
    (table = 9#8 → ∀ h : i < 8, shown (linesBody ⟨i, h⟩ t)) ∧
    (table = 10#8 → i = 0 → shown (bytesId t.ownId ++ [byte t.clock.boundaryHour, byte t.retention] ++
      bytes3 t.clock.time ++ bytes2 t.clock.night ++
      [byte t.notices.length, (t.notices.getLast?.map fun n => flagged n.lostAfter).getD 0#8])) ∧
    (table = 4#8 → ∀ h : i < 8,
      let b : BerthId := ⟨i, h⟩
      let r := t.berth b
      let vesselOr0 (v : Option Num32) : List Byte := (v.map bytes4).getD [0, 0, 0, 0]
      let record := [codeIn sectionIds r.sec, codeIn berthStates r.state] ++ vesselOr0 r.vessel ++
        [(r.profile.map fun n => byte (n.val + 1)).getD 0#8] ++ vesselOr0 r.cable ++
        [byte r.grant, codeOrZero bayIds r.bay, codeOrZero tripCauses r.tripCause, flagged r.breakerFail,
          flagged r.adopted, flagged r.holdGranted] ++
        (r.inFlight.map fun j => codeIn inFlightKinds j.kind :: bytes3 j.start ++ bytes2 j.timer).getD [0, 0, 0, 0, 0, 0] ++
        [match r.provingStep with | .idle => 0#8 | .test1 => 1#8 | .retest => 2#8 | .assign => 3#8 | .test3 => 4#8,
          flagged r.provingPassed, byte r.noticeCount, flagged r.noticeLimited, byte r.bypass]
      let terms := (r.terms.map fun m => [codeIn frequencies m.frequency, codeIn methods m.method,
          codeIn rampModes m.rampMode, byte m.step]).getD [0, 0, 0, 0] ++
        bytes2 (r.overdraw.getD 0) ++ [codeIn overdrawStages r.overdrawStage]
      let c := r.ramp
      let channel := codeIn directions c.direction :: bytes2 c.stepUnits ++ [byte c.baseCount, byte c.currentCount,
          codeIn rampModes c.mode, codeIn rampModes c.effMode, flagged c.demoted, byte c.failures, flagged c.terminal,
          flagged c.masked, flagged c.aborting, codeOrZero abortCauses c.abortCause, flagged c.paused] ++
        (c.pauseTimer.map fun q => codeIn pauseRoles q.1 :: bytes2 q.2).getD [0, 0, 0] ++ bytes2 (c.shoreSeen.getD 0)
      let o := r.obs
      let observed := ((t.berthEntry .shoreBreaker b).map positionOf).getD [0, 0, 0] ++
        (o.coreTest.map fun q => bytes4 q.cable ++ ([q.p1, q.p2, q.p3, q.p4, q.sp].map (codeIn coreResults ·))).getD
          (List.replicate 9 0#8) ++
        (o.assignDone.map fun q => [codeIn funcs q.func, codeIn cores q.core, flagged q.ok]).getD [0, 0, 0] ++
        (o.shipState.map fun q => bytes2 q.shipLoad ++ bytes2 q.shoreLoad ++
          [flagged q.gensRunning, if q.busDead = true then 2#8 else 1#8]).getD [0, 0, 0, 0, 0, 0] ++
        (o.stepDone.map fun q => flagged q.done :: bytes2 q.shoreLoad).getD [0, 0, 0] ++
        [codeOrZero holdAnswers o.holdState] ++ vesselOr0 o.vesselId
      let place (n : Nat) : List Byte := (r.holdQueue[n]?.map fun q => bytesId q.frame.src ++ bytesId q.frame.dst ++
        [q.frame.kind, q.frame.code, q.frame.tag] ++ bytes3 q.stampSecond ++ bytes2 q.stampNight ++ bytes2 q.timer).getD
          (List.replicate 14 0#8)
      let lastNight := (r.lastNight.map fun q => bytes2 q.night ++ vesselOr0 q.cable ++ [byte q.tests,
        byte q.andMask.toNat, byte q.orMask.toNat, byte q.estop, byte q.pilot, byte q.strain, byte q.latch,
        byte q.trips]).getD (List.replicate 14 0#8)
      let entry := record ++ terms ++ channel ++ [byte r.comparison.toNat] ++ observed ++ place 0 ++ place 1 ++ lastNight
      entry.length = 126 ∧ exec (.tableRead portSUP) s = .next (t
        |> tableReply portSUP f .accepted ([1#8, 3#8] ++ entry.take 43)
        |> tableReply portSUP f .accepted ([2#8, 3#8] ++ (entry.drop 43).take 43)
        |> tableReply portSUP f .accepted ([3#8, 3#8] ++ entry.drop 86))) ∧
    (table = 5#8 → i < 2 →
      let r := t.sec (if i = 0 then .A else .B)
      let place (n : Nat) : List Byte :=
        (r.queue[n]?.map fun b => [byte (b.val + 1), byte (t.berth b).bypass]).getD [0, 0]
      let reported (k : BayId) : List Byte :=
        ((t.bay k).report.map fun q => [codeIn bayIds q.bay, q.berth, codeIn converterRuns q.run]).getD [0, 0, 0]
      let bay (k : BayId) : List Byte := [codeIn bayStates (t.bay k).state, berthOr0 (t.bay k).berth]
      let arbiter := [codeIn arbiterStates r.arbiter] ++
        (r.op.map fun q => [byte (q.1.val + 1), codeIn opKinds q.2]).getD [0, 0] ++
        (r.requests.toList.map fun q => codeOrZero opKinds q) ++ [flagged r.localPending] ++
        (r.lock.map fun l => [byte (l.holder.val + 1), codeIn lockSources l.source, byte l.timer]).getD [0, 0, 0] ++
        [berthOr0 r.lastGranted, byte (r.spacing.getD 0)]
      let entry := [byte r.limit, byte r.bypassLimit, codeIn priorityModes r.mode] ++ bytes2 r.granted ++
        [flagged r.overFlag, codeIn feederStates r.feeder] ++ ([0, 1, 2, 3, 4, 5, 6, 7].flatMap place) ++ arbiter ++
        [codeOrZero syncOutcomes r.syncResult] ++ bay .bay1 ++ bay .bay2 ++ [codeIn sectionIds t.bayTurn] ++
        reported .bay1 ++ reported .bay2
      entry.length = 52 ∧ exec (.tableRead portSUP) s = .next (t
        |> tableReply portSUP f .accepted ([1#8, 2#8] ++ entry.take 43)
        |> tableReply portSUP f .accepted ([2#8, 2#8] ++ entry.drop 43)))

/-- A TABLE frame is checked for its table, then its index, then, for a WRITE to PORTS, that the table may be written, then
its length; one that fails is answered with the status of that check and changes nothing. One that does not come over
SUP, or is not for the part, is answered NOT_PERMITTED. -/
def Obligations.TableFramesAreChecked : Prop :=
  (∀ (f : Frame) (code table index : Byte) (body : List Byte) (s : State), TableAsks s f code table index body →
    let entries : Nat :=
      match table.toNat with
      | 1 => 11 | 2 => 64 | 3 => 48 | 4 => 8 | 5 => 2 | 6 => 24 | 7 => 32 | 8 => 1 | 9 => 8 | 10 => 1 | _ => 0
    let size : Nat :=
      if code = 0x01#8 then 0
      else
        match table.toNat with
        | 2 => 8 | 3 => 8 | 4 => 1 | 5 => 3 | 6 => 10 | 7 => 18 | 8 => 28 | 9 => 40 | 10 => 4 | _ => 0
    let answered (st : Status) : Prop :=
      exec ((f.row s.ownId).command portSUP) s = .next (tableReply portSUP f st [] (dropHead portSUP s))
    (entries = 0 → answered .badTable) ∧
    (entries ≠ 0 → index.toNat < 1 ∨ entries < index.toNat → answered .badIndex) ∧
    (1 ≤ index.toNat → index.toNat ≤ entries → code = 0x02#8 → table = 1#8 → answered .notPermitted) ∧
    (1 ≤ index.toNat → index.toNat ≤ entries → code ≠ 0x02#8 ∨ table ≠ 1#8 → body.length ≠ size →
      answered .badValue)) ∧
  ∀ (p : Port) (f : Frame) (e : EquipEntry) (d : Option EquipEntry) (s : State),
    Arrived s p f e d → f.kind = kindTable → s.startUpAccess p f = false → p ≠ portSUP ∨ d.isSome →
    exec ((f.row s.ownId).command p) s = .next (tableReply p f .notPermitted [] (dropHead p s))

/-- The writes of the TIMING TABLE, DEVICE, LINES, BERTHS and SECTIONS: a body within its ranges and lists is stored and
answered ACCEPTED with the entry as it then stands, and its effects follow; any other is turned away and changes nothing. A
new limit sets or clears the over flag, and a new limit or bypass limit calls for a service pass. That a BERTHS body that
names no section is BAD_VALUE in every state of the berth, before IN_USE, is the model's reading (log entry 17). -/
def Obligations.SettingsAreWritten : Prop :=
  ∀ (f : Frame) (table : Byte) (i : Nat) (body : List Byte) (s : State),
    TableAsks s f 0x02#8 table (byte (i + 1)) body → s.settled →
    let t := dropHead portSUP s
    let refused (c : Instr) (st : Status) : Prop := exec c s = .next (tableReply portSUP f st [] t)
    let stored (c : Instr) (u : State) : Prop := exec c s = .next (tableReply portSUP f .accepted body u)
    (table = 8#8 → i = 0 → ∀ a : Timings, (∀ n ∈ a.durations, n < 65536) → body = a.durations.flatMap bytes2 →
      let inRange := (1 ≤ a.coreTest ∧ a.coreTest ≤ 30) ∧ (1 ≤ a.operate ∧ a.operate ≤ 10) ∧
        (5 ≤ a.sync ∧ a.sync ≤ 120) ∧ (2 ≤ a.step ∧ a.step ≤ 120) ∧ a.stepSpacing ≤ 120 ∧
        (5 ≤ a.hold ∧ a.hold ≤ 300) ∧ (10 ≤ a.pauseLimit ∧ a.pauseLimit ≤ 600) ∧
        (10 ≤ a.deadWait ∧ a.deadWait ≤ 600) ∧ (10 ≤ a.converterStart ∧ a.converterStart ≤ 600) ∧
        (10 ≤ a.gensOffWait ∧ a.gensOffWait ≤ 600) ∧ (1 ≤ a.strainGrace ∧ a.strainGrace ≤ 600) ∧
        (10 ≤ a.overdraw ∧ a.overdraw ≤ 900) ∧ (1 ≤ a.lockLimit ∧ a.lockLimit ≤ 120) ∧
        (1 ≤ a.holdLimit ∧ a.holdLimit ≤ 300)
      (inRange → stored (.timingsWrite portSUP) { t with timings := a }) ∧
      (¬inRange → refused (.timingsWrite portSUP) .badValue)) ∧
    (table = 10#8 → i = 0 → ∀ (own : EquipId) (hour retention : Byte), body = bytesId own ++ [hour, retention] →
      let inRange := own ≠ 0#16 ∧ s.entryOf own = none ∧ hour.toNat ≤ 23 ∧ 1 ≤ retention.toNat ∧ retention.toNat ≤ 60
      (inRange → stored (.deviceWrite portSUP) { t with
        ownId := own, clock := { t.clock with boundaryHour := hour.toNat }, retention := retention.toNat }) ∧
      (¬inRange → refused (.deviceWrite portSUP) .badValue)) ∧
    (table = 9#8 → ∀ h : i < 8, ∀ (e p n : Enable) (es ps ns : Sense), body.length = 40 →
      body.take 6 = [codeIn enables e, codeIn senses es, codeIn enables p, codeIn senses ps, codeIn enables n,
        codeIn senses ns] →
      (e = .enabled ∧ p = .enabled →
        let u := updLine ⟨i, h⟩ (fun r => { r with
          estop := { r.estop with enable := .enabled, sense := es }
          pilot := { r.pilot with enable := .enabled, sense := ps }
          strain := { r.strain with enable := n, sense := ns }
          strainTimer := if n = .disabled then none else r.strainTimer }) t
        exec (.linesWrite portSUP) s = .next (tableReply portSUP f .accepted (linesBody ⟨i, h⟩ u) u)) ∧
      (e = .disabled ∨ p = .disabled → refused (.linesWrite portSUP) .badValue)) ∧
    (table = 9#8 → i < 8 → body.length = 40 → ∀ n : Byte, n ∈ body.take 6 → n ≠ 1#8 → n ≠ 2#8 →
      refused (.linesWrite portSUP) .badValue) ∧
    (table = 4#8 → ∀ h : i < 8,
      (∀ x, body = [sectionByte (some x)] →
        ((s.berth ⟨i, h⟩).state = .outOfService →
          stored (.berthsWrite portSUP) (updBerth ⟨i, h⟩ (fun r => { r with sec := x }) t)) ∧
        ((s.berth ⟨i, h⟩).state ≠ .outOfService → refused (.berthsWrite portSUP) .inUse)) ∧
      (∀ n : Byte, n ≠ 1#8 → n ≠ 2#8 → body = [n] → refused (.berthsWrite portSUP) .badValue)) ∧
    (table = 5#8 → i < 2 → ∀ (limit bypass : Byte) (m : PriorityMode),
      body = [limit, bypass, codeIn priorityModes m] →
      let x : SectionId := if i = 0 then .A else .B
      let r := s.sec x
      let same := limit.toNat = r.limit
      let u := updSec x (fun r => { r with
        mode := m
        limit := limit.toNat
        bypassLimit := bypass.toNat
        overFlag := if limit.toNat = r.limit then r.overFlag else decide (limit.toNat < r.granted) }) t
      let v := if ¬same ∧ limit.toNat < r.granted ∧ r.overFlag = false then
          noticeSection x .sectionOver ([sectionByte (some x), limit] ++ bytes2 r.granted) u
        else u
      let w := if same ∧ bypass.toNat = r.bypassLimit then v else runPasses (callPass x v)
      (limit.toNat ≤ 250 → bypass.toNat ≤ 7 → stored (.sectionsWrite portSUP) w) ∧
      (250 < limit.toNat ∨ 7 < bypass.toNat → refused (.sectionsWrite portSUP) .badValue)) ∧
    (table = 5#8 → i < 2 → ∀ limit bypass mode : Byte, body = [limit, bypass, mode] → mode ≠ 1#8 → mode ≠ 2#8 →
      refused (.sectionsWrite portSUP) .badValue)

/-- The writes of the EQUIPMENT MAP and the GATE TABLE. A map entry must have the port and the fields of its class
and clash with no other, by its ID or as a second of its class for one berth, section, bay or map, and an entry in use
cannot be changed; an entry that keeps its ID and class keeps its observed values, else they are forgotten. A new GATE entry
starts with its hit count clear, and the held frames of every berth are judged again, berths ascending. A body with a byte
outside its list, or with a state set that names no state or has a bit it may not have, is answered BAD_VALUE. -/
def Obligations.MapAndGateAreWritten : Prop :=
  (∀ e g : EquipEntry,
    let ofBerth := e.berth ≠ none ∧ e.sec = none ∧ e.bay = none
    let ofSection (x : SectionId) : Prop := e.berth = none ∧ e.sec = some x ∧ e.bay = none
    (e.fitsClass = true ↔
      match e.cls with
      | .shoreBreaker | .earthSwitch => ofBerth ∧ (e.port = portSA ∨ e.port = portSB)
      | .plugStation | .shipPms => ofBerth ∧ ∃ b, e.berth = some b ∧ e.port.val = b.val
      | .synchroniser | .feederMonitor | .localPanel => (ofSection .A ∧ e.port = portSA) ∨ (ofSection .B ∧ e.port = portSB)
      | .converter => e.berth = none ∧ e.sec = none ∧ e.bay ≠ none ∧ (e.port = portSA ∨ e.port = portSB)
      | .supervisor => e.berth = none ∧ e.sec = none ∧ e.bay = none ∧ e.port = portSUP) ∧
    (e.clashes g = true ↔ e.id = g.id ∨ (e.cls = g.cls ∧ e.berth = g.berth ∧ e.sec = g.sec ∧ e.bay = g.bay))) ∧
  (∀ (f : Frame) (n : Fin 64) (s : State), s.settled →
    let t := dropHead portSUP s
    let refused (st : Status) : Prop := exec (.equipmentWrite portSUP) s = .next (tableReply portSUP f st [] t)
    let stored (body : List Byte) (u : State) : Prop :=
      exec (.equipmentWrite portSUP) s = .next (tableReply portSUP f .accepted body u)
    let used (o : EquipEntry) : Prop :=
      (∃ b, o.berth = some b ∧ (s.berth b).state ≠ .outOfService ∧
        (o.cls = .shoreBreaker ∨ o.cls = .earthSwitch ∨ o.cls = .plugStation ∨ o.cls = .shipPms)) ∨
      (∃ b, o.sec = some (s.secOf b) ∧ (s.berth b).state ≠ .outOfService ∧
        (o.cls = .synchroniser ∨ o.cls = .feederMonitor ∨ o.cls = .localPanel)) ∨
      (∃ k, o.bay = some k ∧ o.cls = .converter ∧
        ((s.bay k).state = .granted ∨ ((s.bay k).state = .faulted ∧ (s.bay k).berth ≠ none)))
    let forgotten (o : EquipEntry) (u : State) : State :=
      match o.cls, o.berth, o.sec, o.bay with
      | .plugStation, some b, _, _ =>
        updBerth b (fun r => { r with obs := { r.obs with coreTest := none, assignDone := none } }) u
      | .shipPms, some b, _, _ => updBerth b (fun r => { r with obs := { r.obs with
          shipState := none, stepDone := none, holdState := none, vesselId := none } }) u
      | .synchroniser, _, some x, _ => updSec x (fun r => { r with syncResult := none }) u
      | .converter, _, _, some k => updBay k (fun r => { r with report := none }) u
      | _, _, _, _ => u
    let put (e : Option EquipEntry) : State := { t with equipment := t.equipment.set n e }
    (∀ e : EquipEntry, e.position = none → TableAsks s f 0x02#8 2#8 (byte (n.val + 1)) e.body →
      let fits := e.fitsClass = true ∧ e.id ≠ 0#16 ∧ e.id ≠ s.ownId
      let clash := ∃ (m : Fin 64) (g : EquipEntry), m ≠ n ∧ s.equipment[m] = some g ∧ e.clashes g = true
      let blocked := ∃ o, s.equipment[n] = some o ∧ used o ∧ { o with position := none } ≠ e
      (¬fits ∨ clash → refused .badValue) ∧
      (fits → ¬clash → blocked → refused .inUse) ∧
      (fits → ¬clash → ¬blocked →
        (s.equipment[n] = none → stored e.body (put (some e))) ∧
        ∀ o, s.equipment[n] = some o →
          (o.id = e.id → o.cls = e.cls → stored e.body (put (some { e with position := o.position }))) ∧
          (o.id ≠ e.id ∨ o.cls ≠ e.cls → stored e.body (forgotten o (put (some e)))))) ∧
    (∀ rest : List Byte, rest.length = 7 → TableAsks s f 0x02#8 2#8 (byte (n.val + 1)) (2#8 :: rest) →
      ((∃ o, s.equipment[n] = some o ∧ used o) → refused .inUse) ∧
      (s.equipment[n] = none → stored [2#8, 0, 0, 0, 0, 0, 0, 0] (put none)) ∧
      (∀ o, s.equipment[n] = some o → ¬used o → stored [2#8, 0, 0, 0, 0, 0, 0, 0] (forgotten o (put none)))) ∧
    (∀ flag i1 i0 cls port berth sec bay : Byte,
      TableAsks s f 0x02#8 2#8 (byte (n.val + 1)) [flag, i1, i0, cls, port, berth, sec, bay] → flag ≠ 2#8 →
      flag ≠ 1#8 ∨ cls.toNat < 1 ∨ 9 < cls.toNat ∨ port.toNat < 1 ∨ 11 < port.toNat ∨ 8 < berth.toNat ∨
        2 < sec.toNat ∨ 2 < bay.toNat →
      refused .badValue)) ∧
  (∀ (f : Frame) (n : Fin 48) (valid src dst kind code h l action : Byte) (s : State), s.settled →
    TableAsks s f 0x02#8 3#8 (byte (n.val + 1)) [valid, src, dst, kind, code, h, l, action] →
    let set := h.toNat * 256 + l.toNat
    (valid ≠ 1#8 ∧ valid ≠ 2#8) ∨ 9 < src.toNat ∨ 9 < dst.toNat ∨ (kind ≠ 1#8 ∧ kind ≠ 3#8) ∨
      (code ≠ 0#8 ∧ payloadSizes kind code = none) ∨ (set ≠ 0x8000 ∧ (set = 0 ∨ 0x1000 ≤ set)) ∨
      action.toNat < 1 ∨ 4 < action.toNat →
    exec (.gateWrite portSUP) s = .next (tableReply portSUP f .badValue [] (dropHead portSUP s))) ∧
  ∀ (f : Frame) (n : Fin 48) (g : GateEntry) (s : State), s.settled →
    TableAsks s f 0x02#8 3#8 (byte (n.val + 1)) g.body →
    let t := dropHead portSUP s
    let good := (∀ c, g.code = some c → payloadSizes g.kind.byte c ≠ none) ∧ g.states ≠ .of 0#12
    (good → exec (.gateWrite portSUP) s = .next (tableReply portSUP f .accepted g.body
      (allBerths.foldl (fun u b => reevaluate b u) { t with gate := t.gate.set n { g with hits := 0 } }))) ∧
    (¬good → (∀ c, g.code = some c → c ≠ 0#8) →
      exec (.gateWrite portSUP) s = .next (tableReply portSUP f .badValue [] t))

/-- The writes of the VESSEL PROFILE TABLE and the CABLE RECORD TABLE. A profile must be within its ranges and name a
vessel no other entry names; one that a berth with capacity uses is not removed; a stored change acts on the berths in
ascending order, by the berth's state. Of a cable record only condition, map and marks are written, the map only to be
cleared and marks only to be removed, and none while a berth uses it. A body with a byte outside its list or range is
answered BAD_VALUE; a CABLES body is judged so once its cable and the record's link have been. -/
def Obligations.ProfilesAndCablesAreWritten : Prop :=
  (∀ (f : Frame) (n : Fin 24) (new : Option Profile) (body : List Byte) (s : State), s.settled →
    TableAsks s f 0x02#8 6#8 (byte (n.val + 1)) body →
    (∃ p, new = some p ∧ body = p.body ∧ p.demand < 256 ∧ p.step < 256) ∨
      (new = none ∧ ∃ rest, rest.length = 9 ∧ body = 2#8 :: rest) →
    let t := dropHead portSUP s
    let refused (st : Status) : Prop := exec (.profilesWrite portSUP) s = .next (tableReply portSUP f st [] t)
    let stored (u : State) : Prop :=
      exec (.profilesWrite portSUP) s = .next (tableReply portSUP f .accepted (profilesBody n u) u)
    let inRange := ∀ p, new = some p → 1 ≤ p.demand ∧ p.demand ≤ 250 ∧ 1 ≤ p.step ∧ p.step ≤ 50
    let twice := ∃ p q, ∃ m : Fin 24, new = some p ∧ m ≠ n ∧ s.profiles[m] = some q ∧ q.vessel = p.vessel
    let removes := ∃ o, s.profiles[n] = some o ∧ ∀ p, new = some p → p.vessel ≠ o.vessel
    let used := ∃ b, (s.berth b).state.holdsCapacity = true ∧ (s.berth b).profile = some n ∧
      ¬((s.berth b).adopted = true ∧ (s.berth b).state = .onShore)
    (¬inRange ∨ twice → refused .badValue) ∧
    (inRange → ¬twice → removes → used → refused .inUse) ∧
    (inRange → ¬twice → ¬(removes ∧ used) →
      (s.profiles[n] = new → stored t) ∧
      (s.profiles[n] ≠ new → stored (runPasses (allBerths.foldl
        (fun u b => profileAtBerth n s.profiles[n] new b u) { t with profiles := t.profiles.set n new }))))) ∧
  (∀ (f : Frame) (n : Fin 24) (flag v3 v2 v1 v0 demand frequency method mode step : Byte) (s : State), s.settled →
    TableAsks s f 0x02#8 6#8 (byte (n.val + 1)) [flag, v3, v2, v1, v0, demand, frequency, method, mode, step] →
    flag ≠ 2#8 →
    flag ≠ 1#8 ∨ demand.toNat < 1 ∨ 250 < demand.toNat ∨ frequency.toNat < 1 ∨ 2 < frequency.toNat ∨
      method.toNat < 1 ∨ 2 < method.toNat ∨ mode.toNat < 1 ∨ 3 < mode.toNat ∨ step.toNat < 1 ∨ 50 < step.toNat →
    exec (.profilesWrite portSUP) s = .next (tableReply portSUP f .badValue [] (dropHead portSUP s))) ∧
  (∀ (n : Fin 24) (o : Profile) (b : BerthId) (s : State),
    let r := s.berth b
    let lost := updBerth b (fun r => { r with profile := none }) s
    (r.profile = some n → r.state = .proved ∨ r.state = .queued → profileAtBerth n (some o) none b s =
      (lost |> enterState .live b .plugged |> noticeBerth b .unknownVessel (vesselBytes r.vessel))) ∧
    (r.profile = some n → r.state = .onShore → r.adopted = true → profileAtBerth n (some o) none b s =
      updBerth b (fun r => { r with profile := none, terms := none }) s) ∧
    (r.profile ≠ some n → profileAtBerth n (some o) none b s = s) ∧
    (∀ p : Profile, p.vessel ≠ o.vessel → profileAtBerth n (some o) (some p) b s =
      profileAtBerth n none (some p) b (profileAtBerth n (some o) none b s)) ∧
    ∀ (old : Option Profile) (p : Profile), (∀ q, old = some q → q.vessel = p.vessel) →
      (r.state = .plugged → profileAtBerth n old (some p) b s =
        if r.provingPassed = true ∧ r.vessel = some p.vessel then seekProfile b s else s) ∧
      (r.state = .onShore → profileAtBerth n old (some p) b s =
        if r.adopted = true ∧ r.profile = none ∧ r.vessel = some p.vessel then
          updBerth b (fun r => { r with
            profile := some n, terms := some ⟨p.frequency, p.method, p.rampMode, p.step⟩ }) s
        else s) ∧
      (r.state = .queued → profileAtBerth n old (some p) b s =
        if r.profile = some n ∧ ¬(old.map (·.demand) = some p.demand ∧ old.map (·.frequency) = some p.frequency) then
          callPass r.sec s
        else s) ∧
      (r.state ≠ .plugged → r.state ≠ .onShore → r.state ≠ .queued → profileAtBerth n old (some p) b s = s)) ∧
  ∀ (f : Frame) (n : Fin 32) (v : Num32) (cond mapCode hardCode : Byte) (soft rest : List Byte) (s : State), s.settled →
    soft.length = 5 → rest.length = 6 →
    TableAsks s f 0x02#8 7#8 (byte (n.val + 1)) (bytes4 v ++ [cond, mapCode] ++ soft ++ [hardCode] ++ rest) →
    let t := dropHead portSUP s
    let refused (st : Status) : Prop := exec (.cablesWrite portSUP) s = .next (tableReply portSUP f st [] t)
    (s.cables[n] = none → refused .badState) ∧
    ∀ c, s.cables[n] = some c →
      (v ≠ c.cable → refused .badValue) ∧
      (v = c.cable → c.berth ≠ none → refused .inUse) ∧
      (v = c.cable → c.berth = none →
        cond.toNat < 1 ∨ 2 < cond.toNat ∨ 4 < mapCode.toNat ∨ 31 < hardCode.toNat → refused .badValue) ∧
      (v = c.cable → c.berth = none → ∀ (k : Condition) (m : Option Func) (h : CoreSet), cond = codeIn conditions k →
        mapCode = codeOrZero funcs m → hardCode = coresByte h →
          (m = none ∨ m = c.map → h &&& ~~~c.hard = 0#5 →
            let c' := { c with condition := k, map := m, hard := h }
            exec (.cablesWrite portSUP) s = .next (tableReply portSUP f .accepted c'.body
              { t with cables := t.cables.set n (some c') })) ∧
          (¬((m = none ∨ m = c.map) ∧ h &&& ~~~c.hard = 0#5) → refused .badValue))

/-! ## The ADMISSION UNIT -/

/-- A service pass walks its queue from the head: it does nothing without a LIVE feeder or under the over flag; an entry
behind one whose bypass count has reached the limit ends the walk; one that fits is granted, and raises the bypass count
of every entry still ahead; any other is passed over. A grant takes the berth to ADMITTED with its demand, its terms, a
bay for F60, its ramp masked, and an ADMITTED notice. Passes of both sections run in the order of the bay turn. That a
granted berth waits for its start behind those granted before it is the model's reading (log entry 6). -/
def Obligations.ServicePassGrantsWhatFits : Prop :=
  ∀ (x : SectionId) (s : State),
    ((s.sec x).feeder ≠ .live ∨ (s.sec x).overFlag = true → servicePass x s = s) ∧
    ((s.sec x).feeder = .live → (s.sec x).overFlag = false →
      servicePass x s = walkQueue x (s.sec x).queue [] s) ∧
    (∀ ahead, walkQueue x [] ahead s = s) ∧
    (∀ (b : BerthId) (rest ahead : List BerthId),
      let blocked := ∃ a ∈ ahead, (s.sec x).bypassLimit ≤ (s.berth a).bypass
      let bayFree (k : BayId) : Prop := (s.bay k).state = .free ∧ s.converterEntry k ≠ none
      let fits (p : Profile) : Prop := (s.sec x).granted + p.demand ≤ (s.sec x).limit ∧
        (p.frequency = .f50 ∨ bayFree .bay1 ∨ bayFree .bay2)
      (blocked → walkQueue x (b :: rest) ahead s = s) ∧
      (¬blocked → ∀ p, s.profileOf b = some p → fits p →
        walkQueue x (b :: rest) ahead s = walkQueue x rest ahead
          (ahead.foldl (fun t a => updBerth a (fun r => { r with bypass := min 7 (r.bypass + 1) }) t)
            (grantBerth x b p s))) ∧
      (¬blocked → (∀ p, s.profileOf b = some p → ¬fits p) →
        walkQueue x (b :: rest) ahead s = walkQueue x rest (ahead ++ [b]) s) ∧
      ∀ p, (s.berth b).state = .queued →
        let granted (k : Option BayId) (t : State) : State := t
          |> leaveQueue b
          |> updBerth b (fun r => { r with
              state := .admitted
              grant := p.demand
              bay := k
              terms := some ⟨p.frequency, p.method, p.rampMode, p.step⟩
              ramp := { r.ramp with
                masked := true, pauseTimer := none, aborting := false, demoted := false, abortCause := none } })
          |> updSec x (fun r => { r with granted := r.granted + p.demand })
          |> reevaluate b
          |> updBerth b (fun r => { r with inFlight := none })
          |> (fun t => { t with startQueue := t.startQueue ++ [b] })
          |> noticeBerth b .admitted ([byte p.demand, bayByte k] ++ bytes2 ((s.sec x).granted + p.demand))
        let turned (k : BayId) : State :=
          updBay k (fun r => { r with state := .granted, berth := some b }) { s with bayTurn := otherSection x }
        (p.frequency = .f50 → grantBerth x b p s = granted (s.berth b).bay s) ∧
        (p.frequency = .f60 → bayFree .bay1 → grantBerth x b p s = granted (some .bay1) (turned .bay1)) ∧
        (p.frequency = .f60 → ¬bayFree .bay1 → bayFree .bay2 →
          grantBerth x b p s = granted (some .bay2) (turned .bay2))) ∧
    let t := { s with passA := false, passB := false }
    (s.settled → runPasses s = s) ∧
    (s.passA = true → s.passB = false → runPasses s = servicePass .A t) ∧
    (s.passA = false → s.passB = true → runPasses s = servicePass .B t) ∧
    (s.passA = true → s.passB = true →
      runPasses s = servicePass (otherSection s.bayTurn) (servicePass s.bayTurn t))

/-! ## The section arbiters -/

/-- The choice of a section's arbiter: nothing unless PART_IDLE; the lock's holder alone while a lock is held; else a
local claim; else the berths in the order of the priority mode. A STEP waits for the step spacing, and a DEAD_CLOSE whose
bus is not DEAD is handed back, its wait with the current second as its start (log entry 30). A grant makes the arbiter
busy, takes the berth to its new state, takes or converts the lock, sends the operation's frame and starts its timer; where
the frame finds no slot the operation ends at once with PORT_FULL and the choice runs again (its bound is the model's, log
entry 2). The passes of an operation so ended run at its release unless a later release of the choice calls for one; an
early choice, which a release of its event follows, leaves them to that (R69, log entry 7). -/
def Obligations.ArbiterChoosesAndGrants : Prop :=
  ∀ (x : SectionId) (s : State),
    let r := s.sec x
    let order : List BerthId :=
      match r.lock, r.mode, r.lastGranted with
      | some l, _, _ => [l.holder]
      | none, .rotating, some b => List.rotate [0, 1, 2, 3, 4, 5, 6, 7] (b.val + 1)
      | none, _, _ => [0, 1, 2, 3, 4, 5, 6, 7]
    let waits (b : BerthId) : Prop := r.requests[b] = none ∨ (r.requests[b] = some .step ∧ r.spacing ≠ none)
    let noClaim := r.lock ≠ none ∨ r.localPending = false
    let chosen (u : State) : Prop := runChoice x s = u ∧ earlyChoice x s = u
    (r.arbiter ≠ .partIdle → chosen s) ∧
    (r.arbiter = .partIdle → r.lock = none → r.localPending = true →
      chosen (updSec x (fun r => { r with localPending := false, arbiter := .localPanel }) s)) ∧
    (r.arbiter = .partIdle → noClaim → (∀ b ∈ order, waits b) → chosen s) ∧
    (r.arbiter = .partIdle → noClaim → ∀ front b back k, order = front ++ b :: back → (∀ c ∈ front, waits c) →
      r.requests[b] = some k → ¬waits b →
      let dead := ∃ q, (s.berth b).obs.shipState = some q ∧ q.busDead = true
      let breaker := s.berthEntry .shoreBreaker b
      let breakerId := bytesId ((breaker.map (·.id)).getD 0#16)
      let ramp := (s.berth b).ramp
      let busy := updSec x (fun r => { r with
        requests := r.requests.set b none, arbiter := .partBusy, op := some (b, k), lastGranted := some b }) s
      let entered :=
        match k with
        | .syncClose | .deadClose => enterState .quiet b .closing busy
        | .openOp => enterState .quiet b .opening busy
        | .step => updBerth b (fun r => { r with ramp := { r.ramp with pauseTimer := none } }) busy
      let taken (src : LockSource) : Option Lock := some ⟨b, src, s.timings.lockLimit, s.timings.lockLimit⟩
      let handed (src : LockSource) (l : Lock) : Lock := if l.source = .close then { l with source := src } else l
      let lock (l : Option Lock) : Option Lock :=
        match k, ramp.effMode, l with
        | .syncClose, _, _ => taken .close
        | .step, .block, none => taken .block
        | .step, .demand, none => if (s.berth b).holdGranted = true then taken .demand else none
        | .step, .block, some l => some (handed .block l)
        | .step, .demand, some l => some (handed .demand l)
        | _, _, l => l
      let u := updSec x (fun r => { r with lock := lock r.lock }) entered
      let sent : State × Bool :=
        match k with
        | .syncClose => send (s.secEntry .synchroniser x) kindOrder 0x03#8 breakerId u
        | .deadClose => send breaker kindOrder 0x01#8 breakerId u
        | .openOp => send breaker kindOrder 0x02#8 breakerId u
        | .step => send (s.berthEntry .shipPms b) kindRequest 0x23#8
            (codeIn directions ramp.direction :: bytes2 ramp.stepUnits) u
      let timed : InFlight :=
        match k with
        | .syncClose => ⟨.syncClose, s.clock.time, s.timings.sync⟩
        | .deadClose => ⟨.deadClose, s.clock.time, s.timings.operate⟩
        | .openOp => ⟨.openOp, s.clock.time, s.timings.operate⟩
        | .step => ⟨.step, s.clock.time, s.timings.step⟩
      let handedBack := s
        |> withdrawRequest b
        |> updBerth b (fun r => { r with inFlight := some ⟨.deadWait, s.clock.time, s.timings.deadWait⟩ })
      let ended (h : Hooks) : State := finishOperation h x b k (.failed .portFull) sent.1
      (k = .deadClose → ¬dead → runChoice x s = runChoice x handedBack ∧ earlyChoice x s = earlyChoice x handedBack) ∧
      (k ≠ .deadClose ∨ dead →
        (sent.2 = true → chosen (updBerth b (fun r => { r with inFlight := some timed }) sent.1)) ∧
        (sent.2 = false →
          earlyChoice x s = earlyLoop x 63 (ended .quiet) ∧
          runChoice x s =
            let w := earlyLoop x 63 (ended .noChoice)
            if w.passA = true ∨ w.passB = true then choiceLoop x 63 (ended .quiet) else w)))

/-- LOCAL_CLAIM takes an idle section without a lock to LOCAL, and otherwise waits; LOCAL_RELEASE ends LOCAL with a
choice, or withdraws a claim that waits. The step spacing's expiry runs the choice; the lock timer's expiry breaks the
lock with a notice, demotes the holder's ramp to SINGLE and runs the choice. That an expiry whose timer is not due changes
nothing is the model's choice (log entry 3). -/
def Obligations.LocalPanelAndSectionTimers : Prop :=
  ∀ (p : Port) (f : Frame) (e : EquipEntry) (d : Option EquipEntry) (x : SectionId) (s : State),
    let t := dropHead p s
    (Reported s p f e d 0x6B#8 → e.cls = .localPanel → e.sec = some x → s.settled →
      exec (.localClaim p) s = .next (handOn p f d (updSec x (fun r =>
        if r.arbiter = .localPanel then r
        else if r.arbiter = .partIdle ∧ r.lock = none then { r with arbiter := .localPanel }
        else { r with localPending := true }) t))) ∧
    (Reported s p f e d 0x6C#8 → e.cls = .localPanel → e.sec = some x →
      ((s.sec x).arbiter = .localPanel → exec (.localRelease p) s = .next (t
        |> updSec x (fun r => { r with arbiter := .partIdle }) |> runChoice x |> runPasses |> handOn p f d)) ∧
      ((s.sec x).arbiter ≠ .localPanel → s.settled → exec (.localRelease p) s =
        .next (handOn p f d (updSec x (fun r => { r with localPending := false }) t)))) ∧
    ((s.sec x).spacing = some 0 → exec (.stepSpacingExpiry x) s =
      .next (s |> updSec x (fun r => { r with spacing := none }) |> runChoice x |> runPasses)) ∧
    ((s.sec x).spacing ≠ some 0 → s.settled → exec (.stepSpacingExpiry x) s = .next s) ∧
    (∀ l, (s.sec x).lock = some l → l.timer = 0 → exec (.lockTimerExpiry x) s = .next (s
      |> updSec x (fun r => { r with lock := none })
      |> noticeBerth l.holder .lockBroken [sectionByte (some x), berthByte (some l.holder),
          codeIn lockSources l.source, byte l.limit]
      |> updBerth l.holder (fun r => { r with ramp :=
          if r.state = .closing then { r.ramp with demoted := true } else { r.ramp with effMode := .single } })
      |> runChoice x
      |> runPasses)) ∧
    ((∀ l, (s.sec x).lock = some l → l.timer ≠ 0) → s.settled → exec (.lockTimerExpiry x) s = .next s)

/-- An operation in flight ends on its breaker's POSITION, the section's SYNC_RESULT FAILED, its ship's STEP_DONE or its
timer: its record is cleared, the arbiter is idle, a STEP starts the step spacing, the outcome acts on the berth, a lock
still of source CLOSE is given up after the first STEP, and the choice runs. No choice runs before that, while the passes
of a release run in their place in its rule, unless the choice makes a later release that calls for them (log entries 8 and
7). A report that ends nothing is stored. That a timeout which is not due changes nothing is the model's choice (log entry
3). -/
def Obligations.OperationsEnd : Prop :=
  ∀ (p : Port) (f : Frame) (e : EquipEntry) (d : Option EquipEntry) (b : BerthId) (k : OpKind) (s : State),
    let x := s.secOf b
    let finished (h : Hooks) (o : OpOutcome) (t : State) : State :=
      let u := t
        |> updBerth b (fun r => { r with inFlight := none })
        |> updSec x (fun r => { r with
            arbiter := .partIdle
            op := none
            spacing := if k = .step then (if s.timings.stepSpacing = 0 then none else some s.timings.stepSpacing)
              else r.spacing })
        |> opOutcome h b k o
      let first := k = .step ∧ (u.sec x).lock.map (·.holder) = some b ∧ (u.sec x).lock.map (·.source) = some .close
      if first then updSec x (fun r => { r with lock := none }) u else u
    let ended (o : OpOutcome) (t : State) : State :=
      let w := earlyChoice x (finished .noChoice o t)
      if w.passA = true ∨ w.passB = true then runChoice x (finished .quiet o t) else w
    (∀ q, Reported s p f e d 0x61#8 → e.cls = .shoreBreaker → e.berth = some b → positionOf f.payload = some (f.src, q) →
      s.opOf b = some k →
      let t := { dropHead p s with equipment := s.equipment.map (Option.map fun g =>
        if g.id = f.src then { g with position := some q } else g) }
      let ends (o : OpOutcome) : Prop := exec (.position p) s = .next (t |> ended o |> runPasses |> handOn p f d)
      (q = .closed → k = .syncClose ∨ k = .deadClose → ends .success) ∧
      (q = .opened → k = .openOp → ends .success) ∧
      (q = .faulted → k ≠ .step → ends (.failed .breakerFaulted))) ∧
    (Reported s p f e d 0x62#8 → e.cls = .synchroniser → e.sec = some x → ∀ q, f.payload = [codeIn syncOutcomes q] →
      let t := updSec x (fun r => { r with syncResult := some q }) (dropHead p s)
      (q = .failed → k = .syncClose → (s.sec x).op = some (b, k) →
        exec (.syncResult p) s = .next (t |> ended (.failed .syncFailed) |> runPasses |> handOn p f d)) ∧
      (q = .matched ∨ (∀ c, (s.sec x).op ≠ some (c, .syncClose)) → s.settled →
        exec (.syncResult p) s = .next (handOn p f d t))) ∧
    (Reported s p f e d 0x66#8 → e.cls = .shipPms → e.berth = some b → ∀ q, stepDoneOf f.payload = some q →
      let t := updBerth b (fun r => { r with obs := { r.obs with stepDone := some q } }) (dropHead p s)
      (s.opOf b = some .step → k = .step → exec (.stepDone p) s = .next (t
        |> updBerth b (fun r => { r with ramp := { r.ramp with shoreSeen := some q.shoreLoad } })
        |> ended (if q.done = true then .success else .failed .refused)
        |> runPasses
        |> handOn p f d)) ∧
      (s.opOf b ≠ some .step → s.settled → exec (.stepDone p) s = .next (handOn p f d t))) ∧
    (s.opOf b = some k → ∀ i, (s.berth b).inFlight = some i →
      i.kind = (match k with | .syncClose => .syncClose | .deadClose => .deadClose | .step => .step | .openOp => .openOp) →
      (i.timer = 0 → exec (.operationTimeout b) s = .next (s |> ended (.failed .timeout) |> runPasses)) ∧
      (i.timer ≠ 0 → s.settled → exec (.operationTimeout b) s = .next s)) ∧
    (s.opOf b = none → s.settled → exec (.operationTimeout b) s = .next s)

/-! ## The CHANGEOVER UNIT -/

/-- What an operation's outcome does to its berth. A failed close gives the changeover up, with its cause, or trips the
berth where the breaker is FAULTED; a failed OPEN trips it. A closed breaker takes a LIVE changeover to RAMP_IN and its
ramp, and a DEAD one to ON_SHORE. An OPEN that is done ends the hold, gives the grant back, takes the berth to PROVED, or
without a cable to PLUGGED or VACANT, and reports the release, or the changeover it has undone. That PLUGGED then keeps the
vessel ID and profile index is the model's reading (log entry 21), and so are the numbers of the causes in the notices,
RAMP_ABORTED as 9 and 0 for no abort cause among them (log entry 14). -/
def Obligations.OperationOutcomesActOnTheBerth : Prop :=
  ∀ (h : Hooks) (b : BerthId) (k : OpKind) (cause : ChangeoverFailure) (s : State),
    let r := s.berth b
    (r.state = .admitted ∨ r.state = .closing → changeoverFailure h b cause s = (s
      |> withdrawRequest b
      |> updBerth b (fun r => { r with inFlight := none })
      |> endHold b
      |> releaseGrant b
      |> h.passes
      |> enterState h b .proved
      |> noticeBerth b .changeoverFailed
          [if r.state = .admitted then 1#8 else 2#8, codeIn changeoverFailures cause, 0#8])) ∧
    (k = .syncClose ∨ k = .deadClose →
      opOutcome h b k (.failed .breakerFaulted) s = trip h b .breakerFail none s ∧
      opOutcome h b k (.failed .syncFailed) s = changeoverFailure h b .syncFailed s ∧
      opOutcome h b k (.failed .timeout) s = changeoverFailure h b .timeout s ∧
      opOutcome h b k (.failed .portFull) s = changeoverFailure h b .portFull s) ∧
    (let t := s
      |> enterState h b .rampIn
      |> updBerth b (fun r => { r with ramp := { r.ramp with aborting := false } })
      |> startRamp h b .inward
    opOutcome h b .syncClose .success s = if r.holdGranted = true then t else withdrawHold h b t) ∧
    opOutcome h b .deadClose .success s =
      (s |> enterState h b .onShore |> noticeBerth b .changeoverDone [2#8, byte r.grant, bayByte r.bay, 0#8]) ∧
    (∀ c, opOutcome h b .openOp (.failed c) s = trip h b .breakerFail none s) ∧
    let t := s |> endHold b |> releaseGrant b |> h.passes
    let u :=
      if (t.berth b).cable ≠ none then enterState h b .proved t
      else if (t.line b).latch.level = .active then t |> enterState h b .plugged |> startProving b
      else enterState h b .vacant t
    opOutcome h b .openOp .success s =
      if r.ramp.aborting = true then
        noticeBerth b .changeoverFailed [3#8, 9#8, codeOrZero abortCauses r.ramp.abortCause] u
      else noticeBerth b .releaseDone [codeOrZero methods (r.terms.map (·.method)), byte r.grant] u

/-- A ramp moves its load in at most 64 steps. It keeps one STEP request before the arbiter, timed by the pause limit; a
done step lowers the count, a failed one is asked for again, and the second failure in a row, as well as a second wait
that outlasts the pause limit, aborts the ramp. At terminal count the lock is given up, and the transfer is complete, or
an OPEN is asked for. That an expiry which is not due changes nothing is the model's choice (log entry 3). -/
def Obligations.RampsMoveTheLoadInSteps : Prop :=
  ∀ (h : Hooks) (b : BerthId) (s : State),
    let x := s.secOf b
    let r := s.berth b
    let ceil (n m : Nat) : Nat := (n + m - 1) / m
    let failed (h : Hooks) (t : State) : State :=
      let u := updBerth b (fun r => { r with ramp := { r.ramp with failures := r.ramp.failures + 1 } }) t
      if 2 ≤ (t.berth b).ramp.failures + 1 then abortRamp h b .stepFailures u else requestStep h b u
    (∀ k, enterRequest h b k s =
      let t := updSec x (fun r => { r with requests := r.requests.set b (some k) }) s
      if (s.sec x).arbiter = .partIdle then h.choice x t else t) ∧
    (r.ramp.masked = true ∨ r.ramp.terminal = true ∨ r.ramp.paused = true → requestStep h b s = s) ∧
    (r.ramp.masked = false → r.ramp.terminal = false → r.ramp.paused = false → requestStep h b s =
      enterRequest h b .step (updBerth b (fun r => { r with
        ramp := { r.ramp with pauseTimer := some (.grantWait, s.timings.pauseLimit) } }) s)) ∧
    (∀ (d : Direction) (t : Terms), r.terms = some t →
      let load :=
        match d, r.obs.shipState, r.ramp.shoreSeen with
        | .inward, some q, _ => q.shipLoad
        | .outward, _, some n => n
        | _, _, _ => r.grant
      let units := if 64 < ceil load t.step then ceil load 64 else t.step
      let base := max 1 (ceil load units)
      let u := updBerth b (fun r => { r with ramp := { r.ramp with
        direction := d
        stepUnits := units
        baseCount := base
        currentCount := if load = 0 then 0 else base
        mode := t.rampMode
        effMode := if r.ramp.demoted = true then .single else t.rampMode
        demoted := false
        failures := 0
        masked := false
        terminal := false
        paused := false
        pauseTimer := none } }) s
      startRamp h b d s = if load = 0 then terminalCount h b u else requestStep h b u) ∧
    (let t := updBerth b (fun r => { r with
        ramp := { r.ramp with terminal := true, pauseTimer := none, paused := false } }) s
    let u := if (s.sec x).lock.map (·.holder) = some b then h.choice x (updSec x (fun r => { r with lock := none }) t)
      else t
    (r.ramp.direction = .inward → r.ramp.aborting = false → terminalCount h b s =
      ((send (u.berthEntry .shipPms b) kindRequest 0x22#8 [] u).1
        |> updBerth b (fun r => { r with holdGranted := false })
        |> enterState h b .onShore
        |> (fun v => updBerth b (fun r => { r with
              inFlight := some ⟨.gensOffWait, v.clock.time, u.timings.gensOffWait⟩ }) v))) ∧
    (r.ramp.direction = .outward → terminalCount h b s = enterRequest h b .openOp u)) ∧
    (r.ramp.masked = true → ∀ o, opOutcome h b .step o s = s) ∧
    (r.ramp.masked = false →
      (∀ c, opOutcome h b .step (.failed c) s = failed h s) ∧
      opOutcome h b .step .success s =
        let t := updBerth b (fun r => { r with
          ramp := { r.ramp with currentCount := r.ramp.currentCount - 1, failures := 0 } }) s
        if r.ramp.currentCount ≤ 1 then terminalCount h b t else requestStep h b t) ∧
    (r.ramp.pauseTimer = some (.grantWait, 0) → exec (.grantWaitExpiry b) s = .next (s
      |> updBerth b (fun r => { r with ramp := { r.ramp with pauseTimer := none } })
      |> withdrawRequest b
      |> failed .live
      |> runPasses)) ∧
    (r.ramp.pauseTimer ≠ some (.grantWait, 0) → s.settled → exec (.grantWaitExpiry b) s = .next s)

/-- The ship's withdrawal of its hold pauses a running DEMAND ramp and aborts any other; its answer resumes a paused one,
and a pause that outlasts the pause limit aborts the ramp. An abort gives up the STEP, the request and the lock and masks
the channel, its choice an early one where a trip or another choice follows (log entry 7); in RAMP_IN it opens the breaker
at a small shore load and otherwise reverses the ramp, and in RAMP_OUT it fails the release, its channel masked, or trips a
berth that was already undoing its changeover. That an expiry which is not due changes nothing is the model's choice (log
entry 3), as are the counts of a failed release whose ramp did not start (log entry 32) and a frame's tag, the count before
its own advance (log entry 33); the numbers of the causes in RELEASE_FAILED are its reading (log entry 14). -/
def Obligations.RampsPauseAndAbort : Prop :=
  ∀ (h : Hooks) (b : BerthId) (cause : AbortCause) (failure : ReleaseFailure) (onFull : State → State) (s : State),
    let x := s.secOf b
    let r := s.berth b
    let runs := (r.state = .rampIn ∨ r.state = .rampOut) ∧ r.ramp.masked = false ∧ r.ramp.terminal = false ∧
      r.ramp.paused = false
    let unlocked (choice : SectionId → State → State) (t : State) : State :=
      if (t.sec (t.secOf b)).lock.map (·.holder) = some b then
        choice (t.secOf b) (updSec (t.secOf b) (fun r => { r with lock := none }) t)
      else t
    let unasked (t : State) : State := if t.request b = some .step then withdrawRequest b t else t
    (¬runs → withdrawHold h b s = s) ∧
    (runs → r.ramp.mode ≠ .demand → withdrawHold h b s =
      abortRamp h b .holdWithdrawn (updBerth b (fun r => { r with holdGranted := false }) s)) ∧
    (runs → r.ramp.mode = .demand → withdrawHold h b s = (s
      |> updBerth b (fun r => { r with
          holdGranted := false, ramp := { r.ramp with paused := true, pauseTimer := none } })
      |> unasked
      |> unlocked h.choice
      |> updBerth b (fun r => { r with ramp := { r.ramp with pauseTimer := some (.pause, s.timings.pauseLimit) } }))) ∧
    (let t := updBerth b (fun r => { r with
        holdGranted := true, ramp := { r.ramp with paused := false, pauseTimer := none } }) s
    resumeRamp h b s = if s.opOf b = some .step then t else requestStep h b t) ∧
    (r.ramp.pauseTimer = some (.pause, 0) → exec (.pauseExpiry b) s =
      .next (runPasses (abortRamp .live b .pauseExpired s))) ∧
    (r.ramp.pauseTimer ≠ some (.pause, 0) → s.settled → exec (.pauseExpiry b) s = .next s) ∧
    (∀ e, s.berthEntry .shipPms b = some e →
      ((s.port e.port).tx.length < 8 → startHandshake onFull b s = (s
        |> updPort e.port (fun r => { r with
            tx := r.tx ++ [⟨⟨e.id, s.ownId, 0x03#8, 0x21#8, byte r.tagCount, []⟩, none⟩]
            tagCount := (r.tagCount + 1) % 256 })
        |> updBerth b (fun r => { r with inFlight := some ⟨.holdHandshake, s.clock.time, s.timings.hold⟩ }))) ∧
      (8 ≤ (s.port e.port).tx.length → startHandshake onFull b s = onFull s)) ∧
    releaseFailed h b failure s = (s
      |> endHold b
      |> updBerth b (fun r => { r with ramp := { r.ramp with masked := true, pauseTimer := none } })
      |> enterState h b .onShore
      |> noticeBerth b .releaseFailed
          [codeIn releaseFailures failure, byte r.ramp.currentCount, byte r.ramp.baseCount]) ∧
    let common (choice : SectionId → State → State) : State :=
      (if s.opOf b = some .step then
        choice x (s
          |> updSec x (fun r => { r with
              arbiter := .partIdle
              op := none
              spacing := if s.timings.stepSpacing = 0 then none else some s.timings.stepSpacing })
          |> updBerth b (fun r => { r with inFlight := none }))
      else s)
        |> unasked
        |> updBerth b (fun r => { r with ramp := { r.ramp with pauseTimer := none, paused := false } })
        |> unlocked choice
        |> updBerth b (fun r => { r with ramp := { r.ramp with masked := true, pauseTimer := none } })
    (r.state = .rampIn →
      let u := common h.early
      let v := updBerth b (fun r => { r with ramp := { r.ramp with aborting := true, abortCause := some cause } }) u
      let channel := (u.berth b).ramp
      ((channel.shoreSeen = none ∨ ∃ n, channel.shoreSeen = some n ∧ n ≤ channel.stepUnits) →
        abortRamp h b cause s = enterRequest h b .openOp (endHold b v)) ∧
      (∀ n, channel.shoreSeen = some n → channel.stepUnits < n →
        abortRamp h b cause s =
          if (u.berth b).holdGranted = true then startRamp h b .outward (enterState h b .rampOut v)
          else startHandshake (abortRampOut h b .holdFailed) b (enterState h b .rampOut v))) ∧
    (r.state = .rampOut →
      let u := common (if r.ramp.aborting = true then h.early else h.choice)
      abortRamp h b cause s =
        if (u.berth b).ramp.aborting = true then trip h b .rampFailed none u
        else
          let f : ReleaseFailure :=
            match cause with
            | .stepFailures => .stepFailures
            | .holdWithdrawn => .holdWithdrawn
            | .pauseExpired => .pauseExpired
            | .holdFailed => .holdFailed
          releaseFailed h b f u) ∧
    let u := common h.early
    abortRampOut h b failure s =
      if (u.berth b).ramp.aborting = true then trip h b .rampFailed none u else releaseFailed h b failure u

/-- HOLD_STATE acts by the berth's state and activity. In a handshake a grant asks for the close, or starts the ramp out,
and a refusal gives the changeover up, or fails the release; the timer's expiry does the same with its cause. A ramp under
way is paused, resumed or aborted; elsewhere the hold granted flag follows the answer or nothing happens. The expiry of a
dead wait gives the changeover up. That the close is asked for with the handshake timer started anew is the spec's, and
that its record keeps its start second is the model's reading (log entry 30). That an expiry which is not due changes
nothing is its choice (log entry 3). -/
def Obligations.HoldAnswersAreActedOn : Prop :=
  ∀ (p : Port) (f : Frame) (e : EquipEntry) (d : Option EquipEntry) (b : BerthId) (a : HoldAnswer) (s : State),
    let r := s.berth b
    let shaking := r.inFlight.map (·.kind) = some .holdHandshake
    let asked := s.request b = some .syncClose
    (Reported s p f e d 0x67#8 → e.cls = .shipPms → e.berth = some b → f.payload = [codeIn holdAnswers a] →
      let t := updBerth b (fun r => { r with obs := { r.obs with holdState := some a } }) (dropHead p s)
      let acts (u : State) : Prop := exec (.holdState p) s = .next (u |> runPasses |> handOn p f d)
      let unheld := updBerth b (fun r => { r with holdGranted := false }) t
      let runs := r.ramp.masked = false ∧ r.ramp.terminal = false ∧ r.ramp.paused = false
      let ramping := r.state = .rampIn ∨ (r.state = .rampOut ∧ ¬shaking)
      (r.state = .admitted → shaking → ¬asked →
        (a = .granted → acts (t
          |> updBerth b (fun r => { r with
              holdGranted := true, inFlight := r.inFlight.map fun i => { i with timer := s.timings.hold } })
          |> enterRequest .live b .syncClose)) ∧
        (a = .refused → acts (changeoverFailure .live b .holdRefused t)) ∧
        (a = .withdrawn → acts t)) ∧
      (r.state = .admitted → shaking → asked →
        (a = .withdrawn → acts (changeoverFailure .live b .holdWithdrawn t)) ∧ (a ≠ .withdrawn → acts t)) ∧
      (r.state = .admitted → ¬shaking → acts t) ∧
      (r.state = .closing →
        (a = .granted → acts (updBerth b (fun r => { r with holdGranted := true }) t)) ∧
        (a = .refused → acts t) ∧ (a = .withdrawn → acts unheld)) ∧
      (ramping → r.ramp.paused = true →
        (a = .granted → acts (resumeRamp .live b t)) ∧ (a ≠ .granted → acts t)) ∧
      (ramping → runs → (a = .withdrawn → acts (withdrawHold .live b t)) ∧ (a ≠ .withdrawn → acts t)) ∧
      (ramping → r.ramp.paused = false → ¬runs →
        (a = .withdrawn → r.ramp.terminal = true ∨ s.request b = some .openOp → acts unheld) ∧
        (a = .withdrawn → r.ramp.terminal = false → s.request b ≠ some .openOp → acts t) ∧
        (a ≠ .withdrawn → acts t)) ∧
      (r.state = .rampOut → shaking →
        let u := updBerth b (fun r => { r with inFlight := none }) t
        (a = .granted → acts (startRamp .live b .outward (updBerth b (fun r => { r with holdGranted := true }) u))) ∧
        (a = .refused → r.ramp.aborting = true → acts (abortRampOut .live b .holdFailed u)) ∧
        (a = .refused → r.ramp.aborting = false → acts (releaseFailed .live b .holdRefused u)) ∧
        (a = .withdrawn → acts t)) ∧
      (r.state = .opening → (a = .withdrawn → acts unheld) ∧ (a ≠ .withdrawn → acts t)) ∧
      (r.state = .outOfService ∨ r.state = .vacant ∨ r.state = .plugged ∨ r.state = .proved ∨ r.state = .queued ∨
        r.state = .onShore ∨ r.state = .tripped → acts t)) ∧
    (∀ i, r.inFlight = some i → i.timer = 0 →
      let u := updBerth b (fun r => { r with inFlight := none }) s
      (i.kind = .holdHandshake → r.state = .admitted → exec (.holdTimeout b) s =
        .next (runPasses (changeoverFailure .live b (if s.request b = some .syncClose then .closeWait else .holdTimeout)
          s))) ∧
      (i.kind = .holdHandshake → r.state = .rampOut → exec (.holdTimeout b) s =
        .next (runPasses (if r.ramp.aborting = true then abortRampOut .live b .holdFailed u
          else releaseFailed .live b .holdTimeout u))) ∧
      (i.kind = .deadWait → exec (.deadWaitExpiry b) s =
        .next (runPasses (changeoverFailure .live b .deadTimeout s)))) ∧
    (s.settled →
      (¬(∃ i, r.inFlight = some i ∧ i.kind = .holdHandshake ∧ i.timer = 0) → exec (.holdTimeout b) s = .next s) ∧
      (¬(∃ i, r.inFlight = some i ∧ i.kind = .deadWait ∧ i.timer = 0) → exec (.deadWaitExpiry b) s = .next s))

/-- The oldest berth granted and not yet started is started, the order being that of the grants as the model keeps it
(log entry 6): with a bay by CONVERTER_START, else by its method, LIVE with HOLD_PARALLEL and DEAD with DEAD_READY, each
timed; a frame that finds no slot gives the changeover up with PORT_FULL. A converter that runs takes its berth on to its
method. A bay that faults is kept FAULTED with its berth, and sends a notice; its ADMITTED holder goes back to the head of
its queue, as it does when the converter does not start in time, and a holder past that trips. A FAULTED bay that reports
STOPPED is FREE again. That a start with none to start, and an expiry which is not due, change nothing is the model's choice
(log entry 3), and so is a frame's tag, the count before its own advance (log entry 33). -/
def Obligations.ConvertersAreStartedAndWatched : Prop :=
  (∀ (b : BerthId) (rest : List BerthId) (s : State), s.startQueue = b :: rest →
    let r := s.berth b
    let t := { s with startQueue := rest }
    let started (e : EquipEntry) (kind code : Byte) (payload : List Byte) (i : InFlight) : Prop :=
      ((s.port e.port).tx.length < 8 → exec .changeoverStart s = .next (t
        |> updPort e.port (fun r => { r with
            tx := r.tx ++ [⟨⟨e.id, s.ownId, kind, code, byte r.tagCount, payload⟩, none⟩]
            tagCount := (r.tagCount + 1) % 256 })
        |> updBerth b (fun r => { r with inFlight := some i })
        |> runPasses)) ∧
      (8 ≤ (s.port e.port).tx.length →
        exec .changeoverStart s = .next (runPasses (changeoverFailure .live b .portFull t)))
    (∀ k e, r.bay = some k → s.converterEntry k = some e →
      started e 0x01#8 0x07#8 [bayByte (some k), berthByte (some b)]
        ⟨.converterStart, s.clock.time, s.timings.converterStart⟩) ∧
    (∀ m e, r.bay = none → r.terms = some m → m.method = .live → s.berthEntry .shipPms b = some e →
      started e 0x03#8 0x21#8 [] ⟨.holdHandshake, s.clock.time, s.timings.hold⟩) ∧
    (∀ m e, r.bay = none → r.terms = some m → m.method = .dead → s.berthEntry .shipPms b = some e →
      started e 0x03#8 0x24#8 [] ⟨.deadWait, s.clock.time, s.timings.deadWait⟩)) ∧
  (∀ s : State, s.startQueue = [] → s.settled → exec .changeoverStart s = .next s) ∧
  (∀ (p : Port) (f : Frame) (e : EquipEntry) (d : Option EquipEntry) (k : BayId) (q : ConverterReport) (s : State),
    Reported s p f e d 0x69#8 → e.cls = .converter → e.bay = some k → converterStateOf f.payload = some q → q.bay = k →
    let bay := s.bay k
    let t := updBay k (fun r => { r with report := some q }) (dropHead p s)
    let acts (u : State) : Prop := exec (.converterState p) s = .next (u |> runPasses |> handOn p f d)
    let other := ∃ b, bay.berth = some b ∧ berthOf q.berth ≠ some b
    let faulted := updBay k (fun r => { r with state := .faulted }) t
    let noticed (o : Option BerthId) : State :=
      match o with
      | some b => noticeBerth b .bayFaulted [bayByte (some k), berthByte (some b)] faulted
      | none => noticePlain .bayFaulted [bayByte (some k), 0#8] faulted
    (q.run = .running → bay.state = .granted → ∀ b, bay.berth = some b → ¬other →
      (s.flying b = some .converterStart →
        acts (startMethod .live b (updBerth b (fun r => { r with inFlight := none }) t))) ∧
      (s.flying b ≠ some .converterStart → acts t)) ∧
    (q.run = .running → bay.state ≠ .granted ∨ other → acts t) ∧
    (q.run = .stopped → bay.state = .faulted → ¬other →
      acts (t |> updBay k (fun r => { r with state := .free, berth := none }) |> callPass .A |> callPass .B)) ∧
    (q.run = .stopped → bay.state ≠ .faulted ∨ other → acts t) ∧
    (q.run = .faulted → bay.state = .free → acts (noticed bay.berth)) ∧
    (q.run = .faulted → bay.state = .granted → ∀ b, bay.berth = some b →
      ((s.berth b).state = .admitted → acts (requeue b 0 (noticed (some b)))) ∧
      ((s.berth b).state.closingToOpening = true → acts (trip .live b .converterFault none (noticed (some b))))) ∧
    (q.run = .faulted → bay.state = .faulted → acts t)) ∧
  ∀ (b : BerthId) (s : State),
    (∀ i k, (s.berth b).inFlight = some i → i.kind = .converterStart → i.timer = 0 → (s.berth b).bay = some k →
      let t := updBay k (fun r => { r with state := .faulted }) s
      let u :=
        match (s.bay k).berth with
        | some c => noticeBerth c .bayFaulted [bayByte (some k), berthByte (some c)] t
        | none => noticePlain .bayFaulted [bayByte (some k), 0#8] t
      exec (.converterStartTimeout b) s = .next (runPasses (requeue b 0 u))) ∧
    (¬(∃ i, (s.berth b).inFlight = some i ∧ i.kind = .converterStart ∧ i.timer = 0) → s.settled →
      exec (.converterStartTimeout b) s = .next s) ∧
    ∀ place, requeue b place s = (s
      |> withdrawRequest b
      |> updBerth b (fun r => { r with inFlight := none })
      |> endHold b
      |> releaseGrant b
      |> enterState .quiet b .queued
      |> (fun t => updSec (t.secOf b) (fun r => { r with queue := r.queue.insertIdx place b }) t)
      |> updBerth b (fun r => { r with bypass := 0 })
      |> (fun t => callPass (t.secOf b) t))

/-- SHIP_STATE is stored with the shore load seen. In ON_SHORE the load is compared with the grant: at or below it the
overdraw stops; above it the grant grows where the section has room, and otherwise the overdraw timer starts. It ends a
gens-off wait when no generator runs, and asks for the close of a berth whose bus is DEAD (their order is the model's, log
entry 19). The overdraw timer sheds the load first and then trips; a gens-off wait that expires sends its notice. That an
expiry which is not due changes nothing is the model's choice (log entry 3). -/
def Obligations.ShipLoadsAreWatched : Prop :=
  ∀ (p : Port) (f : Frame) (e : EquipEntry) (d : Option EquipEntry) (b : BerthId) (q : ShipStateReport) (s : State),
    let r := s.berth b
    let x := s.secOf b
    (Reported s p f e d 0x65#8 → e.cls = .shipPms → e.berth = some b → shipStateOf f.payload = some q →
      let t := updBerth b (fun r => { r with
        obs := { r.obs with shipState := some q }, ramp := { r.ramp with shoreSeen := some q.shoreLoad } }) (dropHead p s)
      let grows := (s.sec x).overFlag = false ∧ (s.sec x).granted + (q.shoreLoad - r.grant) ≤ (s.sec x).limit
      let u :=
        if r.state ≠ .onShore then t
        else if q.shoreLoad ≤ r.grant then updBerth b (fun r => { r with overdraw := none, overdrawStage := .first }) t
        else if grows then
          t |> updBerth b (fun r => { r with grant := q.shoreLoad, overdraw := none, overdrawStage := .first })
            |> updSec x (fun y => { y with granted := y.granted + (q.shoreLoad - r.grant) })
            |> noticeBerth b .grantGrown [byte r.grant, byte q.shoreLoad]
        else if r.overdraw ≠ none then t
        else
          t |> updBerth b (fun r => { r with overdraw := some s.timings.overdraw, overdrawStage := .first })
            |> noticeBerth b .overdraw (bytes2 q.shoreLoad ++ [byte r.grant])
      let v :=
        if s.flying b = some .gensOffWait ∧ q.gensRunning = false then
          u |> updBerth b (fun r => { r with inFlight := none })
            |> noticeBerth b .changeoverDone
                [1#8, byte (u.berth b).grant, bayByte r.bay, byte r.ramp.baseCount]
        else u
      let w := if s.flying b = some .deadWait ∧ q.busDead = true ∧ s.request b = none then enterRequest .live b .deadClose v
        else v
      exec (.shipState p) s = .next (w |> runPasses |> handOn p f d)) ∧
    (r.overdraw = some 0 → r.overdrawStage = .first →
      let sent := send (s.berthEntry .shipPms b) kindRequest 0x25#8 (bytes2 r.grant) s
      exec (.overdrawExpiry b) s = .next (sent.1
        |> noticeBerth b .shedSent [byte r.grant, if sent.2 = true then 1#8 else 2#8]
        |> updBerth b (fun t => { t with overdraw := some s.timings.overdraw, overdrawStage := .shedSent })
        |> runPasses)) ∧
    (r.overdraw = some 0 → r.overdrawStage = .shedSent →
      exec (.overdrawExpiry b) s = .next (runPasses (trip .live b .overdraw none s))) ∧
    (r.overdraw ≠ some 0 → s.settled → exec (.overdrawExpiry b) s = .next s) ∧
    (s.settled → ∀ i, r.inFlight = some i → i.kind = .gensOffWait → i.timer = 0 → exec (.gensOffWaitExpiry b) s =
      .next (s |> updBerth b (fun r => { r with inFlight := none }) |> noticeBerth b .gensNotOff [1#8])) ∧
    (s.settled → ¬(∃ i, r.inFlight = some i ∧ i.kind = .gensOffWait ∧ i.timer = 0) →
      exec (.gensOffWaitExpiry b) s = .next s)

/-- FEEDER_STATE LIVE makes the section's feeder LIVE and calls for a service pass, with a notice when it was LOST. LOST
trips every berth from CLOSING to OPENING and re-queues the ADMITTED ones, each in ascending order and the re-queued ahead
of the queue; a choice follows where an operation or a lock was given up. A state that does not change has no effect. The
choice and the passes wait for the whole rule (log entries 7 and 8). -/
def Obligations.FeederLossAndReturn : Prop :=
  ∀ (p : Port) (f : Frame) (e : EquipEntry) (d : Option EquipEntry) (x : SectionId) (s : State),
    Reported s p f e d 0x6A#8 → e.cls = .feederMonitor → e.sec = some x →
    let t := dropHead p s
    let live := t |> updSec x (fun r => { r with feeder := .live }) |> callPass x
    (f.payload = [1#8] →
      ((s.sec x).feeder = .lost → exec (.feederState p) s =
        .next (live |> noticeSection x .feederRestored [] |> runPasses |> handOn p f d)) ∧
      ((s.sec x).feeder = .unknown → exec (.feederState p) s = .next (live |> runPasses |> handOn p f d)) ∧
      ((s.sec x).feeder = .live → s.settled → exec (.feederState p) s = .next (handOn p f d t))) ∧
    (f.payload = [2#8] →
      ((s.sec x).feeder = .lost → s.settled → exec (.feederState p) s = .next (handOn p f d t)) ∧
      ((s.sec x).feeder ≠ .lost →
        let lost := t |> updSec x (fun r => { r with feeder := .lost }) |> noticeSection x .feederLost []
        let tripped := (allBerths.filter fun b => decide (s.secOf b = x) && (s.berth b).state.closingToOpening).foldl
          (fun u b => trip .quiet b .feederLost none u) lost
        let waiting := allBerths.filter fun b => decide (s.secOf b = x ∧ (s.berth b).state = .admitted)
        let requeued := waiting.zipIdx.foldl (fun u b => requeue b.1 b.2 u) tripped
        exec (.feederState p) s = .next (handOn p f d (runPasses
          (if (s.sec x).op ≠ none ∨ (s.sec x).lock ≠ none then runChoice x requeued else requeued)))))

/-! ## POSITION and proving -/

/-- A POSITION that ends no operation of the part is stored and acts by the berth's state: an unexpected OPEN or FAULTED
of a berth on shore trips it, an unexpected CLOSED trips it or, in TRIPPED, sends a trip OPEN again. A trip OPEN in flight
is done on OPEN, and on FAULTED or by its timer it fails, which sets the BREAKER_FAIL flag and makes a TRIPPED notice. An
earth switch's POSITION, and one that names another ID than its source, has no further effect. That a STEP in flight awaits
no POSITION, so that OPEN and FAULTED then trip the berth, is the model's reading (log entry 24), and that a timeout which
is not due changes nothing its choice (log entry 3). -/
def Obligations.UnaskedPositionsActOnTheBerth : Prop :=
  ∀ (p : Port) (f : Frame) (e : EquipEntry) (d : Option EquipEntry) (b : BerthId) (q : Breaker) (s : State),
    let r := s.berth b
    let failed (u : State) : State := u
      |> updBerth b (fun r => { r with inFlight := none, breakerFail := true })
      |> noticeBerth b .tripped [codeOrZero tripCauses r.tripCause, 12#8, 1#8, 0#8]
    (Reported s p f e d 0x61#8 → positionOf f.payload = some (f.src, q) →
      let t := { dropHead p s with equipment := s.equipment.map (Option.map fun g =>
        if g.id = f.src then { g with position := some q } else g) }
      let acts (u : State) : Prop := exec (.position p) s = .next (u |> runPasses |> handOn p f d)
      let again := t
        |> sendTripOpen b
        |> updBerth b (fun r => { r with inFlight := some ⟨.tripOpen, s.clock.time, s.timings.operate⟩ })
      let supplied := r.state = .rampIn ∨ r.state = .onShore ∨ r.state = .rampOut
      let expectedOpen := r.state = .vacant ∨ r.state = .plugged ∨ r.state = .proved ∨ r.state = .queued ∨
        r.state = .admitted
      (e.cls = .earthSwitch → acts t) ∧
      (e.cls = .shoreBreaker → e.berth = some b →
        (s.opOf b = none → s.flying b ≠ some .tripOpen →
          (q = .opened → supplied → acts (trip .live b .breakerOpened none t)) ∧
          (q = .faulted → supplied → acts (trip .live b .breakerFail none t)) ∧
          (q = .closed → expectedOpen → acts (trip .live b .breakerClosed none t)) ∧
          (q = .closed → r.state = .tripped → acts again) ∧
          (q = .closed → ¬expectedOpen → r.state ≠ .tripped → acts t) ∧
          (q ≠ .closed → ¬supplied → acts t)) ∧
        (s.opOf b = some .step → supplied →
          (q = .opened → acts (trip .live b .breakerOpened none t)) ∧
          (q = .faulted → acts (trip .live b .breakerFail none t)) ∧ (q = .closed → acts t)) ∧
        (r.state = .closing → s.opOf b = some .syncClose ∨ s.opOf b = some .deadClose → q = .opened → acts t) ∧
        (r.state = .opening → s.opOf b = some .openOp → q = .closed → acts t) ∧
        (r.state = .tripped → s.opOf b = none → s.flying b = some .tripOpen →
          (q = .opened → acts (updBerth b (fun r => { r with inFlight := none }) t)) ∧
          (q = .faulted → acts (failed t)) ∧ (q = .closed → acts again)))) ∧
    (Reported s p f e d 0x61#8 → ∀ i, positionOf f.payload = some (i, q) → i ≠ f.src → s.settled →
      exec (.position p) s = .next (handOn p f d (dropHead p s))) ∧
    (∀ i, r.inFlight = some i → i.kind = .tripOpen → i.timer = 0 → s.settled →
      exec (.tripOpenTimeout b) s = .next (failed s)) ∧
    (¬(∃ i, r.inFlight = some i ∧ i.kind = .tripOpen ∧ i.timer = 0) → s.settled →
      exec (.tripOpenTimeout b) s = .next s)

/-- CORE_TEST and ASSIGN_DONE are stored, and taken by a proving run that awaits them. A first test selects its cable's
record, fails on a cable in use elsewhere or UNSERVICEABLE, and re-applies a map; a later test of another cable fails the
run. A report's fault set, the cores whose result is not OK, is folded into the record, its cable noted in the night's
tally, and judged. An assignment that is not done as ordered fails the run; one that is sets the map of a record without
one, with a notice, and goes on to TEST3. The timer's expiry fails the run; that one which is not due changes nothing is
the model's choice (log entry 3). -/
def Obligations.ProvingReportsAreTaken : Prop :=
  ∀ (p : Port) (f : Frame) (e : EquipEntry) (d : Option EquipEntry) (b : BerthId) (s : State),
    let r := s.berth b
    let failed (reason : FailReason) (t : State) : State := t
      |> updBerth b (fun r => { r with inFlight := none, provingStep := .idle, comparison := 0#5, assignOrder := none })
      |> trip .quiet b .cableFault (some reason)
    let faulty (q : CoreTestReport) : CoreSet := BitVec.ofNat 5 ((if q.p1 = .ok then 0 else 1) +
      (if q.p2 = .ok then 0 else 2) + (if q.p3 = .ok then 0 else 4) + (if q.p4 = .ok then 0 else 8) +
      (if q.sp = .ok then 0 else 16))
    let folded (faults : CoreSet) (c : CableRec) : CableRec := { c with
      andMask := if c.tests = 0 then faults else c.andMask &&& faults
      orMask := if c.tests = 0 then faults else c.orMask ||| faults
      tests := min 255 (c.tests + 1)
      lastSeen := s.clock.night }
    (Reported s p f e d 0x63#8 → e.cls = .plugStation → e.berth = some b → ∀ q, coreTestOf f.payload = some q →
      let t := updBerth b (fun r => { r with obs := { r.obs with coreTest := some q } }) (dropHead p s)
      let acts (u : State) : Prop := exec (.coreTest p) s = .next (u |> runPasses |> handOn p f d)
      let taken := updBerth b (fun r => { r with inFlight := none }) t
      let linked (n : Fin 32) (c : CableRec) (u : State) : State := u
        |> unlinkCable b
        |> (fun v => { v with cables := v.cables.set n (some (folded (faulty q) { c with berth := some b })) })
        |> updBerth b (fun r => { r with cable := some q.cable, tally := { r.tally with cable := some q.cable } })
      (r.state ≠ .plugged ∨ r.provingStep = .idle ∨ r.provingStep = .assign → acts t) ∧
      (r.state = .plugged → r.provingStep = .test1 → ∀ n c, s.cableSlotOf q.cable = some n → s.cables[n] = some c →
        ((∃ o, c.berth = some o ∧ o ≠ b) → acts (failed .cableInUse taken)) ∧
        (c.berth = none ∨ c.berth = some b →
          (c.condition = .unserviceable → acts (failed .unserviceable (linked n c taken))) ∧
          (c.condition = .serviceable → ∀ m, c.map = some m → acts (sendAssign b m (linked n c taken))) ∧
          (c.condition = .serviceable → c.map = none →
            acts (firstLook b n (folded (faulty q) { c with berth := some b }) (faulty q) (linked n c taken))))) ∧
      (r.state = .plugged → r.provingStep = .test1 → s.cableSlotOf q.cable = none →
        let fresh : CableRec :=
          ⟨q.cable, .serviceable, none, ⟨0, 0, 0, 0, 0⟩, 0#5, 0, 0#5, 0#5, s.clock.night, none⟩
        let age (c : CableRec) : Nat := (s.clock.night + 65536 - c.lastSeen) % 65536
        ∀ n : Fin 32, (s.cables[n] = none ∧ ∀ m : Fin 32, m < n → s.cables[m] ≠ none) ∨
          ((∀ m : Fin 32, s.cables[m] ≠ none) ∧ ∃ o, s.cables[n] = some o ∧ o.berth = none ∧
            (∀ (m : Fin 32) g, s.cables[m] = some g → g.berth = none → age g ≤ age o ∧ (m < n → age g < age o))) →
          acts (firstLook b n (folded (faulty q) { fresh with berth := some b }) (faulty q) (linked n fresh taken))) ∧
      (r.state = .plugged → r.provingStep = .retest ∨ r.provingStep = .test3 →
        (r.cable ≠ some q.cable → acts (failed .cableChanged taken)) ∧
        (r.cable = some q.cable → ∀ n c, s.cableSlotOf q.cable = some n → s.cables[n] = some c →
          let u := taken
            |> (fun v => { v with cables := v.cables.set n (some (folded (faulty q) c)) })
            |> updBerth b (fun r => { r with tally := { r.tally with cable := some q.cable } })
          (r.provingStep = .retest → acts (retest b n (folded (faulty q) c) (faulty q) u)) ∧
          (r.provingStep = .test3 → acts (firstLook b n (folded (faulty q) c) (faulty q) u))))) ∧
    (Reported s p f e d 0x64#8 → e.cls = .plugStation → e.berth = some b → ∀ q, assignDoneOf f.payload = some q →
      let t := updBerth b (fun r => { r with obs := { r.obs with assignDone := some q } }) (dropHead p s)
      let acts (u : State) : Prop := exec (.assignDone p) s = .next (u |> runPasses |> handOn p f d)
      let taken := updBerth b (fun r => { r with inFlight := none }) t
      let asOrdered := q.ok = true ∧ q.core = .sp ∧ r.assignOrder = some q.func
      (r.state ≠ .plugged ∨ r.provingStep ≠ .assign → acts t) ∧
      (r.state = .plugged → r.provingStep = .assign → ¬asOrdered → acts (failed .assignFailed taken)) ∧
      (r.state = .plugged → r.provingStep = .assign → asOrdered → ∀ v n c, r.cable = some v →
        s.cableSlotOf v = some n → s.cables[n] = some c →
        (c.map ≠ none → acts (sendTest b .test3 taken)) ∧
        (c.map = none → acts (taken
          |> (fun u => { u with cables := u.cables.set n (some { c with map := some q.func }) })
          |> noticeBerth b .cableSubstituted (bytes4 v ++ [codeIn funcs q.func, codeIn cores q.func.defaultCore])
          |> updBerth b (fun r => { r with comparison := 0#5 })
          |> sendTest b .test3)))) ∧
    (∀ i, r.inFlight = some i → i.kind = .coreTest ∨ i.kind = .assign → i.timer = 0 →
      exec (.coreTestTimeout b) s = .next (runPasses (failed .timeout s))) ∧
    (¬(∃ i, r.inFlight = some i ∧ (i.kind = .coreTest ∨ i.kind = .assign) ∧ i.timer = 0) → s.settled →
      exec (.coreTestTimeout b) s = .next s)

/-- A report is judged on the cores that carry a function. A record with a judged core marked hard goes the hard path; a
report without a judged fault passes the run; any other leads to a retest. A retest marks a core hard that is bad twice,
counts a soft fault on one bad once, and marks a core hard at its third. On the hard path the comparison set becomes the
judged cores bad in that test, and one marked core is carried over by the spare, if that is good and no map is set, and
otherwise the cable is withdrawn and the run fails. A passed run looks for the vessel's profile; VESSEL_ID does so too, by
the berth's state. That a frame's tag is the count before its own advance is the model's choice (log entry 33). -/
def Obligations.CablesAreJudgedAndVesselsNamed : Prop :=
  (∀ (b : BerthId) (n : Fin 32) (c : CableRec) (faults : CoreSet) (s : State),
    let judgedBy (m : Option Func) : CoreSet :=
      match m with
      | none => 0b01111#5
      | some .pilot => 0b11110#5
      | some .earth => 0b11101#5
      | some .latch => 0b11011#5
      | some .ready => 0b10111#5
    let bad := faults &&& judgedBy c.map
    let marked := c.hard &&& judgedBy c.map
    (marked ≠ 0#5 → firstLook b n c faults s = hardPath b n c faults s) ∧
    (marked = 0#5 → bad = 0#5 → firstLook b n c faults s = passRun b s) ∧
    (marked = 0#5 → bad ≠ 0#5 → firstLook b n c faults s =
      sendTest b .retest (updBerth b (fun r => { r with comparison := bad }) s)) ∧
    (s.cables[n] = some c →
      let before := (s.berth b).comparison
      let once := (before ^^^ bad) &&& judgedBy c.map
      let count (bit m : Nat) : Nat := if once.getLsbD bit = true then min 255 (m + 1) else m
      let third (bit m : Nat) : Bool := once.getLsbD bit && decide (3 ≤ count bit m)
      let c' := { c with
        soft := ⟨count 0 c.soft.p1, count 1 c.soft.p2, count 2 c.soft.p3, count 3 c.soft.p4, count 4 c.soft.sp⟩
        hard := c.hard ||| (before &&& bad &&& judgedBy c.map) |||
          BitVec.ofBoolListLE [third 0 c.soft.p1, third 1 c.soft.p2, third 2 c.soft.p3, third 3 c.soft.p4,
            third 4 c.soft.sp] }
      let t := { s with cables := s.cables.set n (some c') }
      (c'.hard &&& judgedBy c.map ≠ 0#5 → retest b n c faults s = hardPath b n c' faults t) ∧
      (c'.hard &&& judgedBy c.map = 0#5 → bad = 0#5 → retest b n c faults s = passRun b t) ∧
      (c'.hard &&& judgedBy c.map = 0#5 → bad ≠ 0#5 → retest b n c faults s =
        sendTest b .retest (updBerth b (fun r => { r with comparison := bad }) t))) ∧
    (let spare := c.map = none ∧ c.hard.getLsbD 4 = false ∧ faults.getLsbD 4 = false
    let t := updBerth b (fun r => { r with comparison := bad }) s
    (∀ k ∈ [(0b00001#5, Func.pilot), (0b00010#5, .earth), (0b00100#5, .latch), (0b01000#5, .ready)],
      spare → marked = k.1 → hardPath b n c faults s = sendAssign b k.2 t) ∧
    (¬spare ∨ (marked ≠ 0b00001#5 ∧ marked ≠ 0b00010#5 ∧ marked ≠ 0b00100#5 ∧ marked ≠ 0b01000#5) →
      s.cables[n] = some c → hardPath b n c faults s = ({ t with
            cables := s.cables.set n (some { c with condition := .unserviceable }) }
        |> noticeBerth b .cableUnserviceable (bytes4 c.cable ++ [coresByte marked])
        |> updBerth b (fun r => { r with
            inFlight := none, provingStep := .idle, comparison := 0#5, assignOrder := none })
        |> trip .quiet b .cableFault (some .noSpare)))) ∧
    (∀ (m : Func) (e : EquipEntry), s.berthEntry .plugStation b = some e →
      let t := updBerth b (fun r => { r with provingStep := .assign, assignOrder := some m }) s
      ((s.port e.port).tx.length < 8 → sendAssign b m s = (t
        |> updPort e.port (fun r => { r with
            tx := r.tx ++ [⟨⟨e.id, s.ownId, 0x01#8, 0x06#8, byte r.tagCount, [codeIn funcs m, 5#8]⟩, none⟩]
            tagCount := (r.tagCount + 1) % 256 })
        |> updBerth b (fun r => { r with inFlight := some ⟨.assign, s.clock.time, s.timings.coreTest⟩ }))) ∧
      (8 ≤ (s.port e.port).tx.length → sendAssign b m s = (t
        |> updBerth b (fun r => { r with
            inFlight := none, provingStep := .idle, comparison := 0#5, assignOrder := none })
        |> trip .quiet b .cableFault (some .portFull)))) ∧
    passRun b s =
      seekProfile b (updBerth b (fun r => { r with provingStep := .idle, comparison := 0#5, provingPassed := true }) s) ∧
    ((s.berth b).vessel = none → seekProfile b s = s) ∧
    (∀ v, (s.berth b).vessel = some v →
      (s.profileIndexOf v = none → seekProfile b s = noticeBerth b .unknownVessel (bytes4 v) s) ∧
      ∀ i, s.profileIndexOf v = some i →
        seekProfile b s = enterState .quiet b .proved (updBerth b (fun r => { r with profile := some i }) s))) ∧
  ∀ (p : Port) (f : Frame) (e : EquipEntry) (d : Option EquipEntry) (b : BerthId) (v : Num32) (s : State),
    Reported s p f e d 0x68#8 → e.cls = .shipPms → e.berth = some b → f.payload = bytes4 v →
    let r := s.berth b
    let t := updBerth b (fun r => { r with obs := { r.obs with vesselId := some v } }) (dropHead p s)
    let acts (u : State) : Prop := exec (.vesselId p) s = .next (u |> runPasses |> handOn p f d)
    let named := updBerth b (fun r => { r with vessel := some v }) t
    (r.state = .plugged → r.provingPassed = true → acts (seekProfile b named)) ∧
    (r.state = .plugged → r.provingPassed = false → acts named) ∧
    (r.state = .proved → r.vessel = some v → acts t) ∧
    (r.state = .proved → r.vessel ≠ some v →
      (∀ i, s.profileIndexOf v = some i → acts (updBerth b (fun r => { r with vessel := some v, profile := some i }) t)) ∧
      (s.profileIndexOf v = none → acts (t
        |> updBerth b (fun r => { r with vessel := some v, profile := none })
        |> enterState .live b .plugged
        |> noticeBerth b .unknownVessel (bytes4 v)))) ∧
    (r.state = .onShore → r.adopted = true → r.vessel = none →
      (∀ i w, s.profileIndexOf v = some i → s.profiles[i] = some w → acts (updBerth b (fun r => { r with
        vessel := some v, profile := some i, terms := some ⟨w.frequency, w.method, w.rampMode, w.step⟩ }) t)) ∧
      (s.profileIndexOf v = none →
        acts (updBerth b (fun r => { r with vessel := some v, profile := none, terms := none }) t))) ∧
    (r.state = .onShore → r.adopted = false ∨ r.vessel ≠ none → acts t) ∧
    (r.state ≠ .plugged → r.state ≠ .proved → r.state ≠ .onShore → acts t)

/-! ## The LINE MONITOR -/

/-- An activation of an inactive line is stamped and counted and acts by the berth's state: ESTOP trips a berth in use;
PILOT trips one that may be on shore and takes a PROVED, QUEUED or ADMITTED one back to be proved again; STRAIN starts its
grace, whose expiry trips a berth that may be on shore; LATCH takes a VACANT berth in to be proved. A deactivation is
recorded, stops the strain grace, and, of LATCH, takes the berth to VACANT or trips it. A disabled line is recorded only.
An input that is at that level already is no change (log entry 3). -/
def Obligations.LinesActOnTheBerth : Prop :=
  ∀ (b : BerthId) (s : State),
    let r := s.berth b
    let l := s.line b
    let st := r.state
    let hit (c : LineRec) : LineRec :=
      { c with level := .active, stamp := some (s.clock.time, s.clock.night), count := min 65535 (c.count + 1) }
    let supplied := st = .closing ∨ st = .rampIn ∨ st = .onShore ∨ st = .rampOut ∨ st = .opening
    let away := st = .outOfService ∨ st = .vacant
    let event (line : Byte) (what : Byte) (count : Nat) : State → State :=
      noticeBerth b .lineEvent ([line, what, codeIn berthStates st] ++ bytes2 count)
    (l.estop.level = .inactive → l.estop.enable = .enabled →
      let t := s
        |> updLine b (fun l => { l with estop := hit l.estop })
        |> updBerth b (fun r => { r with tally := { r.tally with estop := min 255 (r.tally.estop + 1) } })
      (away → s.settled → exec (.estopActivation b) s = .next (event 1#8 1#8 (min 65535 (l.estop.count + 1)) t)) ∧
      (¬away → st ≠ .tripped → exec (.estopActivation b) s = .next (runPasses (trip .live b .estop none t))) ∧
      (st = .tripped → s.settled → exec (.estopActivation b) s = .next t)) ∧
    (l.pilot.level = .inactive → l.pilot.enable = .enabled →
      let t := s
        |> updLine b (fun l => { l with pilot := hit l.pilot })
        |> updBerth b (fun r => { r with tally := { r.tally with pilot := min 255 (r.tally.pilot + 1) } })
      let back (u : State) : State := u
        |> updBerth b (fun r => { r with profile := none, cable := none, provingPassed := false })
        |> enterState .live b .plugged
        |> startProving b
        |> event 2#8 1#8 (min 65535 (l.pilot.count + 1))
        |> runPasses
      (away ∨ st = .plugged ∨ st = .tripped → s.settled → exec (.pilotActivation b) s = .next t) ∧
      (st = .proved ∨ st = .queued → exec (.pilotActivation b) s = .next (back t)) ∧
      (st = .admitted → exec (.pilotActivation b) s = .next (back (t
        |> withdrawRequest b
        |> updBerth b (fun r => { r with inFlight := none })
        |> endHold b
        |> releaseGrant b
        |> runPasses))) ∧
      (supplied → exec (.pilotActivation b) s = .next (runPasses (trip .live b .pilotLost none t)))) ∧
    (l.strain.level = .inactive → l.strain.enable = .enabled → s.settled →
      exec (.strainActivation b) s = .next (s
        |> updLine b (fun l => { l with strain := hit l.strain, strainTimer := some s.timings.strainGrace })
        |> updBerth b (fun r => { r with tally := { r.tally with strain := min 255 (r.tally.strain + 1) } })
        |> event 3#8 1#8 (min 65535 (l.strain.count + 1)))) ∧
    (l.strain.level = .inactive → l.strain.enable = .disabled → s.settled → exec (.strainActivation b) s =
      .next (updLine b (fun l => { l with strain := { l.strain with level := .active } }) s)) ∧
    (s.settled →
      (l.estop.level = .active → exec (.estopActivation b) s = .next s) ∧
      (l.pilot.level = .active → exec (.pilotActivation b) s = .next s) ∧
      (l.strain.level = .active → exec (.strainActivation b) s = .next s)) ∧
    exec (.faultLineDeactivation b .estop) s =
      .next (updLine b (fun l => { l with estop := { l.estop with level := .inactive } }) s) ∧
    exec (.faultLineDeactivation b .pilot) s =
      .next (updLine b (fun l => { l with pilot := { l.pilot with level := .inactive } }) s) ∧
    exec (.faultLineDeactivation b .strain) s =
      .next (updLine b (fun l => { l with strain := { l.strain with level := .inactive }, strainTimer := none }) s) ∧
    (let t := updLine b (fun l => { l with strainTimer := none }) s
    (l.strainTimer = some 0 → supplied →
      exec (.strainGraceExpiry b) s = .next (runPasses (trip .live b .strain none t))) ∧
    (l.strainTimer = some 0 → ¬supplied → s.settled → exec (.strainGraceExpiry b) s = .next (event 3#8 2#8 0 t)) ∧
    (l.strainTimer ≠ some 0 → s.settled → exec (.strainGraceExpiry b) s = .next s)) ∧
    (l.latch.level = .inactive →
      let t := s
        |> updLine b (fun l => { l with latch := hit l.latch })
        |> updBerth b (fun r => { r with tally := { r.tally with latch := min 255 (r.tally.latch + 1) } })
      (st = .vacant → exec (.latchActivation b) s = .next (t
        |> updBerth b (fun r => { r with vessel := none, profile := none, cable := none })
        |> enterState .live b .plugged
        |> startProving b
        |> runPasses)) ∧
      (st ≠ .vacant → s.settled → exec (.latchActivation b) s = .next t) ∧
      (s.settled → exec (.latchDeactivation b) s = .next s)) ∧
    (l.latch.level = .active →
      let t := updLine b (fun l => { l with latch := { l.latch with level := .inactive } }) s
      let unplugged (u : State) : State := u
        |> updBerth b (fun r => { r with
            inFlight := none, provingPassed := false, provingStep := .idle, comparison := 0#5 })
        |> unlinkCable b
        |> enterState .live b .vacant
        |> runPasses
      (s.settled → exec (.latchActivation b) s = .next s) ∧
      (away → s.settled → exec (.latchDeactivation b) s = .next t) ∧
      (st = .plugged ∨ st = .proved ∨ st = .queued → exec (.latchDeactivation b) s = .next (unplugged t)) ∧
      (st = .admitted → exec (.latchDeactivation b) s = .next (unplugged (t
        |> withdrawRequest b
        |> updBerth b (fun r => { r with inFlight := none, holdGranted := false })
        |> releaseGrant b
        |> runPasses))) ∧
      (supplied → exec (.latchDeactivation b) s = .next (runPasses (trip .live b .latchLost none t))) ∧
      (st = .tripped → s.settled → exec (.latchDeactivation b) s = .next (unlinkCable b t)))
end

