-- ==== Sys2Proof/Laws/State.lean ====
section
/-! SUPPORT. What each update of State leaves as it was: one lemma per field per update, for simp, so that no later
proof unfolds a record update; and how the accessors read an updated record. -/

namespace Sys2Proof.Machine


/-! ## updBerth -/

@[simp] theorem updBerth_lines (b : BerthId) (f : Berth → Berth) (s : State) : (updBerth b f s).lines = s.lines := rfl
@[simp] theorem updBerth_cables (b : BerthId) (f : Berth → Berth) (s : State) : (updBerth b f s).cables = s.cables := rfl
@[simp] theorem updBerth_profiles (b : BerthId) (f : Berth → Berth) (s : State) : (updBerth b f s).profiles = s.profiles := rfl
@[simp] theorem updBerth_sectionA (b : BerthId) (f : Berth → Berth) (s : State) : (updBerth b f s).sectionA = s.sectionA := rfl
@[simp] theorem updBerth_sectionB (b : BerthId) (f : Berth → Berth) (s : State) : (updBerth b f s).sectionB = s.sectionB := rfl
@[simp] theorem updBerth_bay1 (b : BerthId) (f : Berth → Berth) (s : State) : (updBerth b f s).bay1 = s.bay1 := rfl
@[simp] theorem updBerth_bay2 (b : BerthId) (f : Berth → Berth) (s : State) : (updBerth b f s).bay2 = s.bay2 := rfl
@[simp] theorem updBerth_bayTurn (b : BerthId) (f : Berth → Berth) (s : State) : (updBerth b f s).bayTurn = s.bayTurn := rfl
@[simp] theorem updBerth_startQueue (b : BerthId) (f : Berth → Berth) (s : State) : (updBerth b f s).startQueue = s.startQueue := rfl
@[simp] theorem updBerth_passA (b : BerthId) (f : Berth → Berth) (s : State) : (updBerth b f s).passA = s.passA := rfl
@[simp] theorem updBerth_passB (b : BerthId) (f : Berth → Berth) (s : State) : (updBerth b f s).passB = s.passB := rfl
@[simp] theorem updBerth_ports (b : BerthId) (f : Berth → Berth) (s : State) : (updBerth b f s).ports = s.ports := rfl
@[simp] theorem updBerth_equipment (b : BerthId) (f : Berth → Berth) (s : State) : (updBerth b f s).equipment = s.equipment := rfl
@[simp] theorem updBerth_ownId (b : BerthId) (f : Berth → Berth) (s : State) : (updBerth b f s).ownId = s.ownId := rfl
@[simp] theorem updBerth_gate (b : BerthId) (f : Berth → Berth) (s : State) : (updBerth b f s).gate = s.gate := rfl
@[simp] theorem updBerth_clock (b : BerthId) (f : Berth → Berth) (s : State) : (updBerth b f s).clock = s.clock := rfl
@[simp] theorem updBerth_notices (b : BerthId) (f : Berth → Berth) (s : State) : (updBerth b f s).notices = s.notices := rfl
@[simp] theorem updBerth_timings (b : BerthId) (f : Berth → Berth) (s : State) : (updBerth b f s).timings = s.timings := rfl
@[simp] theorem updBerth_retention (b : BerthId) (f : Berth → Berth) (s : State) : (updBerth b f s).retention = s.retention := rfl
@[simp] theorem updBerth_pending (b : BerthId) (f : Berth → Berth) (s : State) : (updBerth b f s).pending = s.pending := rfl

/-! ## updLine -/

@[simp] theorem updLine_berths (b : BerthId) (f : BerthLines → BerthLines) (s : State) : (updLine b f s).berths = s.berths := rfl
@[simp] theorem updLine_cables (b : BerthId) (f : BerthLines → BerthLines) (s : State) : (updLine b f s).cables = s.cables := rfl
@[simp] theorem updLine_profiles (b : BerthId) (f : BerthLines → BerthLines) (s : State) : (updLine b f s).profiles = s.profiles := rfl
@[simp] theorem updLine_sectionA (b : BerthId) (f : BerthLines → BerthLines) (s : State) : (updLine b f s).sectionA = s.sectionA := rfl
@[simp] theorem updLine_sectionB (b : BerthId) (f : BerthLines → BerthLines) (s : State) : (updLine b f s).sectionB = s.sectionB := rfl
@[simp] theorem updLine_bay1 (b : BerthId) (f : BerthLines → BerthLines) (s : State) : (updLine b f s).bay1 = s.bay1 := rfl
@[simp] theorem updLine_bay2 (b : BerthId) (f : BerthLines → BerthLines) (s : State) : (updLine b f s).bay2 = s.bay2 := rfl
@[simp] theorem updLine_bayTurn (b : BerthId) (f : BerthLines → BerthLines) (s : State) : (updLine b f s).bayTurn = s.bayTurn := rfl
@[simp] theorem updLine_startQueue (b : BerthId) (f : BerthLines → BerthLines) (s : State) : (updLine b f s).startQueue = s.startQueue := rfl
@[simp] theorem updLine_passA (b : BerthId) (f : BerthLines → BerthLines) (s : State) : (updLine b f s).passA = s.passA := rfl
@[simp] theorem updLine_passB (b : BerthId) (f : BerthLines → BerthLines) (s : State) : (updLine b f s).passB = s.passB := rfl
@[simp] theorem updLine_ports (b : BerthId) (f : BerthLines → BerthLines) (s : State) : (updLine b f s).ports = s.ports := rfl
@[simp] theorem updLine_equipment (b : BerthId) (f : BerthLines → BerthLines) (s : State) : (updLine b f s).equipment = s.equipment := rfl
@[simp] theorem updLine_ownId (b : BerthId) (f : BerthLines → BerthLines) (s : State) : (updLine b f s).ownId = s.ownId := rfl
@[simp] theorem updLine_gate (b : BerthId) (f : BerthLines → BerthLines) (s : State) : (updLine b f s).gate = s.gate := rfl
@[simp] theorem updLine_clock (b : BerthId) (f : BerthLines → BerthLines) (s : State) : (updLine b f s).clock = s.clock := rfl
@[simp] theorem updLine_notices (b : BerthId) (f : BerthLines → BerthLines) (s : State) : (updLine b f s).notices = s.notices := rfl
@[simp] theorem updLine_timings (b : BerthId) (f : BerthLines → BerthLines) (s : State) : (updLine b f s).timings = s.timings := rfl
@[simp] theorem updLine_retention (b : BerthId) (f : BerthLines → BerthLines) (s : State) : (updLine b f s).retention = s.retention := rfl
@[simp] theorem updLine_pending (b : BerthId) (f : BerthLines → BerthLines) (s : State) : (updLine b f s).pending = s.pending := rfl

/-! ## updPort -/

@[simp] theorem updPort_berths (p : Port) (f : PortRec → PortRec) (s : State) : (updPort p f s).berths = s.berths := rfl
@[simp] theorem updPort_lines (p : Port) (f : PortRec → PortRec) (s : State) : (updPort p f s).lines = s.lines := rfl
@[simp] theorem updPort_cables (p : Port) (f : PortRec → PortRec) (s : State) : (updPort p f s).cables = s.cables := rfl
@[simp] theorem updPort_profiles (p : Port) (f : PortRec → PortRec) (s : State) : (updPort p f s).profiles = s.profiles := rfl
@[simp] theorem updPort_sectionA (p : Port) (f : PortRec → PortRec) (s : State) : (updPort p f s).sectionA = s.sectionA := rfl
@[simp] theorem updPort_sectionB (p : Port) (f : PortRec → PortRec) (s : State) : (updPort p f s).sectionB = s.sectionB := rfl
@[simp] theorem updPort_bay1 (p : Port) (f : PortRec → PortRec) (s : State) : (updPort p f s).bay1 = s.bay1 := rfl
@[simp] theorem updPort_bay2 (p : Port) (f : PortRec → PortRec) (s : State) : (updPort p f s).bay2 = s.bay2 := rfl
@[simp] theorem updPort_bayTurn (p : Port) (f : PortRec → PortRec) (s : State) : (updPort p f s).bayTurn = s.bayTurn := rfl
@[simp] theorem updPort_startQueue (p : Port) (f : PortRec → PortRec) (s : State) : (updPort p f s).startQueue = s.startQueue := rfl
@[simp] theorem updPort_passA (p : Port) (f : PortRec → PortRec) (s : State) : (updPort p f s).passA = s.passA := rfl
@[simp] theorem updPort_passB (p : Port) (f : PortRec → PortRec) (s : State) : (updPort p f s).passB = s.passB := rfl
@[simp] theorem updPort_equipment (p : Port) (f : PortRec → PortRec) (s : State) : (updPort p f s).equipment = s.equipment := rfl
@[simp] theorem updPort_ownId (p : Port) (f : PortRec → PortRec) (s : State) : (updPort p f s).ownId = s.ownId := rfl
@[simp] theorem updPort_gate (p : Port) (f : PortRec → PortRec) (s : State) : (updPort p f s).gate = s.gate := rfl
@[simp] theorem updPort_clock (p : Port) (f : PortRec → PortRec) (s : State) : (updPort p f s).clock = s.clock := rfl
@[simp] theorem updPort_notices (p : Port) (f : PortRec → PortRec) (s : State) : (updPort p f s).notices = s.notices := rfl
@[simp] theorem updPort_timings (p : Port) (f : PortRec → PortRec) (s : State) : (updPort p f s).timings = s.timings := rfl
@[simp] theorem updPort_retention (p : Port) (f : PortRec → PortRec) (s : State) : (updPort p f s).retention = s.retention := rfl
@[simp] theorem updPort_pending (p : Port) (f : PortRec → PortRec) (s : State) : (updPort p f s).pending = s.pending := rfl

/-! ## updSec -/

@[simp] theorem updSec_berths (x : SectionId) (f : SectionRec → SectionRec) (s : State) : (updSec x f s).berths = s.berths := by cases x <;> rfl
@[simp] theorem updSec_lines (x : SectionId) (f : SectionRec → SectionRec) (s : State) : (updSec x f s).lines = s.lines := by cases x <;> rfl
@[simp] theorem updSec_cables (x : SectionId) (f : SectionRec → SectionRec) (s : State) : (updSec x f s).cables = s.cables := by cases x <;> rfl
@[simp] theorem updSec_profiles (x : SectionId) (f : SectionRec → SectionRec) (s : State) : (updSec x f s).profiles = s.profiles := by cases x <;> rfl
@[simp] theorem updSec_bay1 (x : SectionId) (f : SectionRec → SectionRec) (s : State) : (updSec x f s).bay1 = s.bay1 := by cases x <;> rfl
@[simp] theorem updSec_bay2 (x : SectionId) (f : SectionRec → SectionRec) (s : State) : (updSec x f s).bay2 = s.bay2 := by cases x <;> rfl
@[simp] theorem updSec_bayTurn (x : SectionId) (f : SectionRec → SectionRec) (s : State) : (updSec x f s).bayTurn = s.bayTurn := by cases x <;> rfl
@[simp] theorem updSec_startQueue (x : SectionId) (f : SectionRec → SectionRec) (s : State) : (updSec x f s).startQueue = s.startQueue := by cases x <;> rfl
@[simp] theorem updSec_passA (x : SectionId) (f : SectionRec → SectionRec) (s : State) : (updSec x f s).passA = s.passA := by cases x <;> rfl
@[simp] theorem updSec_passB (x : SectionId) (f : SectionRec → SectionRec) (s : State) : (updSec x f s).passB = s.passB := by cases x <;> rfl
@[simp] theorem updSec_ports (x : SectionId) (f : SectionRec → SectionRec) (s : State) : (updSec x f s).ports = s.ports := by cases x <;> rfl
@[simp] theorem updSec_equipment (x : SectionId) (f : SectionRec → SectionRec) (s : State) : (updSec x f s).equipment = s.equipment := by cases x <;> rfl
@[simp] theorem updSec_ownId (x : SectionId) (f : SectionRec → SectionRec) (s : State) : (updSec x f s).ownId = s.ownId := by cases x <;> rfl
@[simp] theorem updSec_gate (x : SectionId) (f : SectionRec → SectionRec) (s : State) : (updSec x f s).gate = s.gate := by cases x <;> rfl
@[simp] theorem updSec_clock (x : SectionId) (f : SectionRec → SectionRec) (s : State) : (updSec x f s).clock = s.clock := by cases x <;> rfl
@[simp] theorem updSec_notices (x : SectionId) (f : SectionRec → SectionRec) (s : State) : (updSec x f s).notices = s.notices := by cases x <;> rfl
@[simp] theorem updSec_timings (x : SectionId) (f : SectionRec → SectionRec) (s : State) : (updSec x f s).timings = s.timings := by cases x <;> rfl
@[simp] theorem updSec_retention (x : SectionId) (f : SectionRec → SectionRec) (s : State) : (updSec x f s).retention = s.retention := by cases x <;> rfl
@[simp] theorem updSec_pending (x : SectionId) (f : SectionRec → SectionRec) (s : State) : (updSec x f s).pending = s.pending := by cases x <;> rfl

/-! ## updBay -/

@[simp] theorem updBay_berths (k : BayId) (f : BayRec → BayRec) (s : State) : (updBay k f s).berths = s.berths := by cases k <;> rfl
@[simp] theorem updBay_lines (k : BayId) (f : BayRec → BayRec) (s : State) : (updBay k f s).lines = s.lines := by cases k <;> rfl
@[simp] theorem updBay_cables (k : BayId) (f : BayRec → BayRec) (s : State) : (updBay k f s).cables = s.cables := by cases k <;> rfl
@[simp] theorem updBay_profiles (k : BayId) (f : BayRec → BayRec) (s : State) : (updBay k f s).profiles = s.profiles := by cases k <;> rfl
@[simp] theorem updBay_sectionA (k : BayId) (f : BayRec → BayRec) (s : State) : (updBay k f s).sectionA = s.sectionA := by cases k <;> rfl
@[simp] theorem updBay_sectionB (k : BayId) (f : BayRec → BayRec) (s : State) : (updBay k f s).sectionB = s.sectionB := by cases k <;> rfl
@[simp] theorem updBay_bayTurn (k : BayId) (f : BayRec → BayRec) (s : State) : (updBay k f s).bayTurn = s.bayTurn := by cases k <;> rfl
@[simp] theorem updBay_startQueue (k : BayId) (f : BayRec → BayRec) (s : State) : (updBay k f s).startQueue = s.startQueue := by cases k <;> rfl
@[simp] theorem updBay_passA (k : BayId) (f : BayRec → BayRec) (s : State) : (updBay k f s).passA = s.passA := by cases k <;> rfl
@[simp] theorem updBay_passB (k : BayId) (f : BayRec → BayRec) (s : State) : (updBay k f s).passB = s.passB := by cases k <;> rfl
@[simp] theorem updBay_ports (k : BayId) (f : BayRec → BayRec) (s : State) : (updBay k f s).ports = s.ports := by cases k <;> rfl
@[simp] theorem updBay_equipment (k : BayId) (f : BayRec → BayRec) (s : State) : (updBay k f s).equipment = s.equipment := by cases k <;> rfl
@[simp] theorem updBay_ownId (k : BayId) (f : BayRec → BayRec) (s : State) : (updBay k f s).ownId = s.ownId := by cases k <;> rfl
@[simp] theorem updBay_gate (k : BayId) (f : BayRec → BayRec) (s : State) : (updBay k f s).gate = s.gate := by cases k <;> rfl
@[simp] theorem updBay_clock (k : BayId) (f : BayRec → BayRec) (s : State) : (updBay k f s).clock = s.clock := by cases k <;> rfl
@[simp] theorem updBay_notices (k : BayId) (f : BayRec → BayRec) (s : State) : (updBay k f s).notices = s.notices := by cases k <;> rfl
@[simp] theorem updBay_timings (k : BayId) (f : BayRec → BayRec) (s : State) : (updBay k f s).timings = s.timings := by cases k <;> rfl
@[simp] theorem updBay_retention (k : BayId) (f : BayRec → BayRec) (s : State) : (updBay k f s).retention = s.retention := by cases k <;> rfl
@[simp] theorem updBay_pending (k : BayId) (f : BayRec → BayRec) (s : State) : (updBay k f s).pending = s.pending := by cases k <;> rfl

/-! ## updCable -/

@[simp] theorem updCable_berths (n : Fin 32) (f : CableRec → CableRec) (s : State) : (updCable n f s).berths = s.berths := rfl
@[simp] theorem updCable_lines (n : Fin 32) (f : CableRec → CableRec) (s : State) : (updCable n f s).lines = s.lines := rfl
@[simp] theorem updCable_profiles (n : Fin 32) (f : CableRec → CableRec) (s : State) : (updCable n f s).profiles = s.profiles := rfl
@[simp] theorem updCable_sectionA (n : Fin 32) (f : CableRec → CableRec) (s : State) : (updCable n f s).sectionA = s.sectionA := rfl
@[simp] theorem updCable_sectionB (n : Fin 32) (f : CableRec → CableRec) (s : State) : (updCable n f s).sectionB = s.sectionB := rfl
@[simp] theorem updCable_bay1 (n : Fin 32) (f : CableRec → CableRec) (s : State) : (updCable n f s).bay1 = s.bay1 := rfl
@[simp] theorem updCable_bay2 (n : Fin 32) (f : CableRec → CableRec) (s : State) : (updCable n f s).bay2 = s.bay2 := rfl
@[simp] theorem updCable_bayTurn (n : Fin 32) (f : CableRec → CableRec) (s : State) : (updCable n f s).bayTurn = s.bayTurn := rfl
@[simp] theorem updCable_startQueue (n : Fin 32) (f : CableRec → CableRec) (s : State) : (updCable n f s).startQueue = s.startQueue := rfl
@[simp] theorem updCable_passA (n : Fin 32) (f : CableRec → CableRec) (s : State) : (updCable n f s).passA = s.passA := rfl
@[simp] theorem updCable_passB (n : Fin 32) (f : CableRec → CableRec) (s : State) : (updCable n f s).passB = s.passB := rfl
@[simp] theorem updCable_ports (n : Fin 32) (f : CableRec → CableRec) (s : State) : (updCable n f s).ports = s.ports := rfl
@[simp] theorem updCable_equipment (n : Fin 32) (f : CableRec → CableRec) (s : State) : (updCable n f s).equipment = s.equipment := rfl
@[simp] theorem updCable_ownId (n : Fin 32) (f : CableRec → CableRec) (s : State) : (updCable n f s).ownId = s.ownId := rfl
@[simp] theorem updCable_gate (n : Fin 32) (f : CableRec → CableRec) (s : State) : (updCable n f s).gate = s.gate := rfl
@[simp] theorem updCable_clock (n : Fin 32) (f : CableRec → CableRec) (s : State) : (updCable n f s).clock = s.clock := rfl
@[simp] theorem updCable_notices (n : Fin 32) (f : CableRec → CableRec) (s : State) : (updCable n f s).notices = s.notices := rfl
@[simp] theorem updCable_timings (n : Fin 32) (f : CableRec → CableRec) (s : State) : (updCable n f s).timings = s.timings := rfl
@[simp] theorem updCable_retention (n : Fin 32) (f : CableRec → CableRec) (s : State) : (updCable n f s).retention = s.retention := rfl
@[simp] theorem updCable_pending (n : Fin 32) (f : CableRec → CableRec) (s : State) : (updCable n f s).pending = s.pending := rfl

/-! ## callPass -/

@[simp] theorem callPass_berths (x : SectionId) (s : State) : (callPass x s).berths = s.berths := by cases x <;> rfl
@[simp] theorem callPass_lines (x : SectionId) (s : State) : (callPass x s).lines = s.lines := by cases x <;> rfl
@[simp] theorem callPass_cables (x : SectionId) (s : State) : (callPass x s).cables = s.cables := by cases x <;> rfl
@[simp] theorem callPass_profiles (x : SectionId) (s : State) : (callPass x s).profiles = s.profiles := by cases x <;> rfl
@[simp] theorem callPass_sectionA (x : SectionId) (s : State) : (callPass x s).sectionA = s.sectionA := by cases x <;> rfl
@[simp] theorem callPass_sectionB (x : SectionId) (s : State) : (callPass x s).sectionB = s.sectionB := by cases x <;> rfl
@[simp] theorem callPass_bay1 (x : SectionId) (s : State) : (callPass x s).bay1 = s.bay1 := by cases x <;> rfl
@[simp] theorem callPass_bay2 (x : SectionId) (s : State) : (callPass x s).bay2 = s.bay2 := by cases x <;> rfl
@[simp] theorem callPass_bayTurn (x : SectionId) (s : State) : (callPass x s).bayTurn = s.bayTurn := by cases x <;> rfl
@[simp] theorem callPass_startQueue (x : SectionId) (s : State) : (callPass x s).startQueue = s.startQueue := by cases x <;> rfl
@[simp] theorem callPass_ports (x : SectionId) (s : State) : (callPass x s).ports = s.ports := by cases x <;> rfl
@[simp] theorem callPass_equipment (x : SectionId) (s : State) : (callPass x s).equipment = s.equipment := by cases x <;> rfl
@[simp] theorem callPass_ownId (x : SectionId) (s : State) : (callPass x s).ownId = s.ownId := by cases x <;> rfl
@[simp] theorem callPass_gate (x : SectionId) (s : State) : (callPass x s).gate = s.gate := by cases x <;> rfl
@[simp] theorem callPass_clock (x : SectionId) (s : State) : (callPass x s).clock = s.clock := by cases x <;> rfl
@[simp] theorem callPass_notices (x : SectionId) (s : State) : (callPass x s).notices = s.notices := by cases x <;> rfl
@[simp] theorem callPass_timings (x : SectionId) (s : State) : (callPass x s).timings = s.timings := by cases x <;> rfl
@[simp] theorem callPass_retention (x : SectionId) (s : State) : (callPass x s).retention = s.retention := by cases x <;> rfl
@[simp] theorem callPass_pending (x : SectionId) (s : State) : (callPass x s).pending = s.pending := by cases x <;> rfl

/-! ## The accessors, where another record is updated -/

@[simp] theorem updBerth_line (b : BerthId) (f : Berth → Berth) (s : State) (c : BerthId) :
    (updBerth b f s).line c = s.line c := rfl
@[simp] theorem updBerth_port (b : BerthId) (f : Berth → Berth) (s : State) (q : Port) :
    (updBerth b f s).port q = s.port q := rfl
@[simp] theorem updBerth_sec (b : BerthId) (f : Berth → Berth) (s : State) (y : SectionId) :
    (updBerth b f s).sec y = s.sec y := rfl
@[simp] theorem updBerth_bay (b : BerthId) (f : Berth → Berth) (s : State) (j : BayId) :
    (updBerth b f s).bay j = s.bay j := rfl
@[simp] theorem updBerth_freeSlots (b : BerthId) (f : Berth → Berth) (s : State) (q : Port) :
    (updBerth b f s).freeSlots q = s.freeSlots q := rfl
@[simp] theorem updLine_berth (b : BerthId) (f : BerthLines → BerthLines) (s : State) (c : BerthId) :
    (updLine b f s).berth c = s.berth c := rfl
@[simp] theorem updLine_port (b : BerthId) (f : BerthLines → BerthLines) (s : State) (q : Port) :
    (updLine b f s).port q = s.port q := rfl
@[simp] theorem updLine_sec (b : BerthId) (f : BerthLines → BerthLines) (s : State) (y : SectionId) :
    (updLine b f s).sec y = s.sec y := rfl
@[simp] theorem updLine_bay (b : BerthId) (f : BerthLines → BerthLines) (s : State) (j : BayId) :
    (updLine b f s).bay j = s.bay j := rfl
@[simp] theorem updLine_secOf (b : BerthId) (f : BerthLines → BerthLines) (s : State) (c : BerthId) :
    (updLine b f s).secOf c = s.secOf c := rfl
@[simp] theorem updLine_freeSlots (b : BerthId) (f : BerthLines → BerthLines) (s : State) (q : Port) :
    (updLine b f s).freeSlots q = s.freeSlots q := rfl
@[simp] theorem updPort_berth (p : Port) (f : PortRec → PortRec) (s : State) (c : BerthId) :
    (updPort p f s).berth c = s.berth c := rfl
@[simp] theorem updPort_line (p : Port) (f : PortRec → PortRec) (s : State) (c : BerthId) :
    (updPort p f s).line c = s.line c := rfl
@[simp] theorem updPort_sec (p : Port) (f : PortRec → PortRec) (s : State) (y : SectionId) :
    (updPort p f s).sec y = s.sec y := rfl
@[simp] theorem updPort_bay (p : Port) (f : PortRec → PortRec) (s : State) (j : BayId) :
    (updPort p f s).bay j = s.bay j := rfl
@[simp] theorem updPort_secOf (p : Port) (f : PortRec → PortRec) (s : State) (c : BerthId) :
    (updPort p f s).secOf c = s.secOf c := rfl
@[simp] theorem updSec_berth (x : SectionId) (f : SectionRec → SectionRec) (s : State) (c : BerthId) :
    (updSec x f s).berth c = s.berth c := by cases x <;> rfl
@[simp] theorem updSec_line (x : SectionId) (f : SectionRec → SectionRec) (s : State) (c : BerthId) :
    (updSec x f s).line c = s.line c := by cases x <;> rfl
@[simp] theorem updSec_port (x : SectionId) (f : SectionRec → SectionRec) (s : State) (q : Port) :
    (updSec x f s).port q = s.port q := by cases x <;> rfl
@[simp] theorem updSec_bay (x : SectionId) (f : SectionRec → SectionRec) (s : State) (j : BayId) :
    (updSec x f s).bay j = s.bay j := by cases x <;> rfl
@[simp] theorem updSec_secOf (x : SectionId) (f : SectionRec → SectionRec) (s : State) (c : BerthId) :
    (updSec x f s).secOf c = s.secOf c := by cases x <;> rfl
@[simp] theorem updSec_freeSlots (x : SectionId) (f : SectionRec → SectionRec) (s : State) (q : Port) :
    (updSec x f s).freeSlots q = s.freeSlots q := by cases x <;> rfl
@[simp] theorem updBay_berth (k : BayId) (f : BayRec → BayRec) (s : State) (c : BerthId) :
    (updBay k f s).berth c = s.berth c := by cases k <;> rfl
@[simp] theorem updBay_line (k : BayId) (f : BayRec → BayRec) (s : State) (c : BerthId) :
    (updBay k f s).line c = s.line c := by cases k <;> rfl
@[simp] theorem updBay_port (k : BayId) (f : BayRec → BayRec) (s : State) (q : Port) :
    (updBay k f s).port q = s.port q := by cases k <;> rfl
@[simp] theorem updBay_sec (k : BayId) (f : BayRec → BayRec) (s : State) (y : SectionId) :
    (updBay k f s).sec y = s.sec y := by cases k <;> rfl
@[simp] theorem updBay_secOf (k : BayId) (f : BayRec → BayRec) (s : State) (c : BerthId) :
    (updBay k f s).secOf c = s.secOf c := by cases k <;> rfl
@[simp] theorem updBay_freeSlots (k : BayId) (f : BayRec → BayRec) (s : State) (q : Port) :
    (updBay k f s).freeSlots q = s.freeSlots q := by cases k <;> rfl
@[simp] theorem updCable_berth (n : Fin 32) (f : CableRec → CableRec) (s : State) (c : BerthId) :
    (updCable n f s).berth c = s.berth c := rfl
@[simp] theorem updCable_line (n : Fin 32) (f : CableRec → CableRec) (s : State) (c : BerthId) :
    (updCable n f s).line c = s.line c := rfl
@[simp] theorem updCable_port (n : Fin 32) (f : CableRec → CableRec) (s : State) (q : Port) :
    (updCable n f s).port q = s.port q := rfl
@[simp] theorem updCable_sec (n : Fin 32) (f : CableRec → CableRec) (s : State) (y : SectionId) :
    (updCable n f s).sec y = s.sec y := rfl
@[simp] theorem updCable_bay (n : Fin 32) (f : CableRec → CableRec) (s : State) (j : BayId) :
    (updCable n f s).bay j = s.bay j := rfl
@[simp] theorem updCable_secOf (n : Fin 32) (f : CableRec → CableRec) (s : State) (c : BerthId) :
    (updCable n f s).secOf c = s.secOf c := rfl
@[simp] theorem updCable_freeSlots (n : Fin 32) (f : CableRec → CableRec) (s : State) (q : Port) :
    (updCable n f s).freeSlots q = s.freeSlots q := rfl
@[simp] theorem callPass_berth (x : SectionId) (s : State) (c : BerthId) :
    (callPass x s).berth c = s.berth c := by cases x <;> rfl
@[simp] theorem callPass_line (x : SectionId) (s : State) (c : BerthId) :
    (callPass x s).line c = s.line c := by cases x <;> rfl
@[simp] theorem callPass_port (x : SectionId) (s : State) (q : Port) :
    (callPass x s).port q = s.port q := by cases x <;> rfl
@[simp] theorem callPass_sec (x : SectionId) (s : State) (y : SectionId) :
    (callPass x s).sec y = s.sec y := by cases x <;> rfl
@[simp] theorem callPass_bay (x : SectionId) (s : State) (j : BayId) :
    (callPass x s).bay j = s.bay j := by cases x <;> rfl
@[simp] theorem callPass_secOf (x : SectionId) (s : State) (c : BerthId) :
    (callPass x s).secOf c = s.secOf c := by cases x <;> rfl
@[simp] theorem callPass_freeSlots (x : SectionId) (s : State) (q : Port) :
    (callPass x s).freeSlots q = s.freeSlots q := by cases x <;> rfl

/-! ## The accessors, where the record itself is updated -/

@[simp] theorem updBerth_berth_same (b : BerthId) (f : Berth → Berth) (s : State) :
    (updBerth b f s).berth b = f (s.berth b) := by simp [updBerth, State.berth]

theorem updBerth_berth_ne {b c : BerthId} (h : c ≠ b) (f : Berth → Berth) (s : State) :
    (updBerth b f s).berth c = s.berth c := by
  have h' : b.val ≠ c.val := fun e => h (Fin.ext e.symm)
  simp [updBerth, State.berth, h']

theorem updBerth_berth (b c : BerthId) (f : Berth → Berth) (s : State) :
    (updBerth b f s).berth c = if c = b then f (s.berth b) else s.berth c := by
  by_cases h : c = b
  · subst h; simp
  · simp [h, updBerth_berth_ne h]

@[simp] theorem updLine_line_same (b : BerthId) (f : BerthLines → BerthLines) (s : State) :
    (updLine b f s).line b = f (s.line b) := by simp [updLine, State.line]

theorem updLine_line_ne {b c : BerthId} (h : c ≠ b) (f : BerthLines → BerthLines) (s : State) :
    (updLine b f s).line c = s.line c := by
  have h' : b.val ≠ c.val := fun e => h (Fin.ext e.symm)
  simp [updLine, State.line, h']

@[simp] theorem updPort_port_same (p : Port) (f : PortRec → PortRec) (s : State) :
    (updPort p f s).port p = f (s.port p) := by simp [updPort, State.port]

theorem updPort_port_ne {p q : Port} (h : q ≠ p) (f : PortRec → PortRec) (s : State) :
    (updPort p f s).port q = s.port q := by
  have h' : p.val ≠ q.val := fun e => h (Fin.ext e.symm)
  simp [updPort, State.port, h']

theorem updPort_port (p q : Port) (f : PortRec → PortRec) (s : State) :
    (updPort p f s).port q = if q = p then f (s.port p) else s.port q := by
  by_cases h : q = p
  · subst h; simp
  · simp [h, updPort_port_ne h]

@[simp] theorem updSec_sec_same (x : SectionId) (f : SectionRec → SectionRec) (s : State) :
    (updSec x f s).sec x = f (s.sec x) := by cases x <;> rfl

theorem updSec_sec_ne {x y : SectionId} (h : y ≠ x) (f : SectionRec → SectionRec) (s : State) :
    (updSec x f s).sec y = s.sec y := by cases x <;> cases y <;> first | rfl | exact absurd rfl h

theorem updSec_sec (x y : SectionId) (f : SectionRec → SectionRec) (s : State) :
    (updSec x f s).sec y = if y = x then f (s.sec x) else s.sec y := by cases x <;> cases y <;> rfl

@[simp] theorem updBay_bay_same (k : BayId) (f : BayRec → BayRec) (s : State) :
    (updBay k f s).bay k = f (s.bay k) := by cases k <;> rfl

theorem updBay_bay_ne {k j : BayId} (h : j ≠ k) (f : BayRec → BayRec) (s : State) :
    (updBay k f s).bay j = s.bay j := by cases k <;> cases j <;> first | rfl | exact absurd rfl h

/-- An update that keeps a berth's section keeps every berth's. -/
theorem updBerth_secOf (b c : BerthId) (f : Berth → Berth) (s : State) (h : (f (s.berth b)).sec = (s.berth b).sec) :
    (updBerth b f s).secOf c = s.secOf c := by
  rw [State.secOf, updBerth_berth]; split
  · rename_i e; subst e; exact h
  · rfl


end Sys2Proof.Machine
end

