-- ==== Sys2Proof/Laws/Closed.lean ====
section
/-! SUPPORT. What one event can do to the state: every shared operation of the part is made of the few kinds of change
listed in `Closed`, so a property that each of them keeps is kept by every operation. `A` is the set of berths whose
records may change: with all berths this proves invariants, with all but one it proves that berth left alone. -/

namespace Sys2Proof.Machine

/-- A change of a berth's record that touches neither its state, section, hold queue, notice count, bypass count nor
observed values. -/
def BerthPlain (f : Berth → Berth) : Prop :=
  ∀ r, (f r).state = r.state ∧ (f r).sec = r.sec ∧ (f r).holdQueue = r.holdQueue ∧
    (f r).noticeCount = r.noticeCount ∧ (f r).bypass = r.bypass ∧ (f r).obs = r.obs

/-- A change of a port's record that touches no frame. -/
def PortPlain (f : PortRec → PortRec) : Prop :=
  ∀ r, (f r).rx = r.rx ∧ (f r).tx = r.tx ∧ (f r).onLink = r.onLink

/-- A change of a section's record that makes nobody a claim: it may take berths out of the queue, withdraw requests
and drop the lock, and touches neither the arbiter's state, the capacity, the settings nor the observed values. -/
def SecPlain (f : SectionRec → SectionRec) : Prop :=
  ∀ r, (f r).arbiter = r.arbiter ∧ (f r).op = r.op ∧ (f r).limit = r.limit ∧ (f r).bypassLimit = r.bypassLimit ∧
    (f r).granted = r.granted ∧ (f r).overFlag = r.overFlag ∧ (f r).feeder = r.feeder ∧ (f r).mode = r.mode ∧
    (f r).syncResult = r.syncResult ∧ (∀ c ∈ (f r).queue, c ∈ r.queue) ∧
    (∀ c : BerthId, (f r).requests[c] = none ∨ (f r).requests[c] = r.requests[c]) ∧
    ((f r).lock = none ∨ (f r).lock = r.lock)

/-- The lock a grant leaves is its berth's, or the one there was with its holder. -/
def LockFor (A : BerthId → Prop) (f : Option Lock → Option Lock) : Prop :=
  ∀ l m, f l = some m → A m.holder ∨ ∃ k, l = some k ∧ k.holder = m.holder

/-- A property that every change an event can make to the berths it acts on keeps; `A` holds of those berths. -/
structure Changes (A : BerthId → Prop) (P : State → Prop) : Prop where
  berth : ∀ {s b} {f : Berth → Berth}, A b → BerthPlain f → P s → P (updBerth b f s)
  moves : ∀ {s b} t, A b → P s → P (moveTo b t s)
  bypass : ∀ {s b} {g : Nat → Nat}, A b → (∀ n, g n ≤ Config.bypassMax) → P s →
    P (updBerth b (fun r => { r with bypass := g r.bypass }) s)
  noticed : ∀ {s b}, A b → (s.berth b).noticeCount < Config.nightlyAllowance → P s →
    P (updBerth b (fun r => { r with noticeCount := r.noticeCount + 1 }) s)
  held : ∀ {s b h}, A b → (s.berth b).holdQueue.length < Config.holdPlaces → closingOrder h.frame = false → P s →
    P (updBerth b (fun r => { r with holdQueue := r.holdQueue ++ [h] }) s)
  unheld : ∀ {s b l}, A b → l.Sublist (s.berth b).holdQueue → P s → P (updBerth b (fun r => { r with holdQueue := l }) s)
  cables : ∀ {s} c, P s → P { s with cables := c }
  bay : ∀ {s} k {f : BayRec → BayRec}, (∀ r, (f r).report = r.report) → P s → P (updBay k f s)
  turn : ∀ {s} x, P s → P { s with bayTurn := x }
  starts : ∀ {s} l, P s → P { s with startQueue := l }
  passes : ∀ {s} a b, P s → P { s with passA := a, passB := b }
  hit : ∀ {s} n, P s → P (countHit n s)
  joined : ∀ {s} n, P s → P (joinNotices n s)
  port : ∀ {s p} {f : PortRec → PortRec}, PortPlain f → P s → P (updPort p f s)
  own : ∀ {s p f}, 1 ≤ s.freeSlots p → P s → P (enqueue p ⟨f, none⟩ s)
  forwarded : ∀ {s p f a}, Config.forwardRoom ≤ s.freeSlots p → closingOrder f = false → P s →
    P (enqueue p ⟨f, some a⟩ s)
  displaced : ∀ {s p f rest g a}, takeOldestForwarded (s.port p).tx = some (rest, g, a) → P s →
    P (enqueue p ⟨f, none⟩ (updPort p (fun r => { r with tx := rest }) s))
  sec : ∀ {s x} {f : SectionRec → SectionRec}, SecPlain f → P s → P (updSec x f s)
  less : ∀ {s} x n, P s → P (updSec x (fun r => { r with granted := r.granted - n }) s)
  more : ∀ {s x n}, (s.sec x).granted + n ≤ (s.sec x).limit → P s →
    P (updSec x (fun r => { r with granted := r.granted + n }) s)
  most : ∀ {s} x n, P s → P (raiseOver x (updSec x (fun r => { r with granted := r.granted + n }) s))
  lower : ∀ {s} x, P s → P (lowerOver x s)
  asked : ∀ {s b} k, A b → P s → P (updSec (s.secOf b) (fun r => { r with requests := r.requests.set b (some k) }) s)
  queued : ∀ {s b} n, A b → (s.berth b).state = .queued → P s → P (updSec (s.secOf b) (fun r => { r with queue := r.queue.insertIdx n b }) s)
  freed : ∀ {s} x, P s → P (updSec x (fun r => { r with arbiter := .partIdle, op := none }) s)
  began : ∀ {s b} x k, A b → P s → P (updSec x (fun r => { r with
    requests := r.requests.set b none, arbiter := .partBusy, op := some (b, k), lastGranted := some b }) s)
  locked : ∀ {s} x f, LockFor A f → P s → P (updSec x (fun r => { r with lock := f r.lock }) s)
  panel : ∀ {s x} v, (s.sec x).arbiter = .partIdle → P s →
    P (updSec x (fun r => { r with localPending := v, arbiter := .localPanel }) s)
  unpanel : ∀ {s x}, (s.sec x).arbiter = .localPanel → P s → P (updSec x (fun r => { r with arbiter := .partIdle }) s)

/-- A property that every change an event can make keeps, the choices and passes it sets going among them: the berths
that ask an arbiter or wait in a queue are berths the event may act on. -/
structure Closed (A : BerthId → Prop) (P : State → Prop) : Prop extends Changes A P where
  asks : ∀ {s x} {c : BerthId}, P s → (s.sec x).requests[c] ≠ none → A c
  waits : ∀ {s x c}, P s → c ∈ (s.sec x).queue → A c

variable {A : BerthId → Prop} {P : State → Prop} {s : State} {b : BerthId} {x : SectionId} {h : Hooks}

/-- What an event's hooks do keeps the property. -/
structure HooksClosed (P : State → Prop) (h : Hooks) : Prop where
  choice : ∀ {s} x, P s → P (h.choice x s)
  early : ∀ {s} x, P s → P (h.early x s)
  passes : ∀ {s}, P s → P (h.passes s)

theorem HooksClosed.quiet : HooksClosed P Hooks.quiet := ⟨fun _ h => h, fun _ h => h, fun h => h⟩

theorem HooksClosed.before (hc : HooksClosed P h) : HooksClosed P h.before := ⟨hc.early, hc.early, hc.passes⟩

namespace Changes

/-! ## Records -/

theorem updRamp (c : Changes A P) (ha : A b) {f : Ramp → Ramp} (hp : P s) : P (updRamp b f s) :=
  c.berth ha (fun _ => ⟨rfl, rfl, rfl, rfl, rfl, rfl⟩) hp

theorem clearInFlight (c : Changes A P) (ha : A b) (hp : P s) : P (clearInFlight b s) :=
  c.berth ha (fun _ => ⟨rfl, rfl, rfl, rfl, rfl, rfl⟩) hp

theorem startInFlight (c : Changes A P) (ha : A b) {k : InFlightKind} {n : Nat} (hp : P s) :
    P (startInFlight b k n s) := c.berth ha (fun _ => ⟨rfl, rfl, rfl, rfl, rfl, rfl⟩) hp

theorem updCable (c : Changes A P) {n : Fin 32} {f : CableRec → CableRec} (hp : P s) : P (updCable n f s) :=
  c.cables _ hp

theorem unlinkCable (c : Changes A P) (hp : P s) : P (unlinkCable b s) := c.cables _ hp

theorem callPass (c : Changes A P) (hp : P s) : P (callPass x s) := by
  cases x
  · exact c.passes true s.passB hp
  · exact c.passes s.passA true hp

/-! ## Ports -/

theorem send (c : Changes A P) {e : Option EquipEntry} {k d : Byte} {l : List Byte} (hp : P s) :
    P (send e k d l s).1 := by
  unfold Machine.send
  split
  · exact hp
  · split
    · rename_i hf; exact c.own hf hp
    · exact hp

theorem sendReply (c : Changes A P) {p : Port} {f : Frame} (hp : P s) : P (sendReply p f s) := by
  unfold Machine.sendReply
  split
  · rename_i hf; exact c.own hf hp
  · exact hp

theorem refuse (c : Changes A P) {r : Reason} {f : Frame} {p : Port} (hp : P s) : P (refuse r f p s) :=
  c.sendReply hp

theorem rejectForwarded (c : Changes A P) {f : Frame} {p : Port} (hp : P s) : P (rejectForwarded f p s) := by
  unfold Machine.rejectForwarded
  split
  · exact hp
  · exact c.refuse hp

theorem forward (c : Changes A P) {f : Frame} {p q : Port} (hf : closingOrder f = false) (hp : P s) :
    P (forward f p q s) := by
  unfold Machine.forward
  split
  · rename_i hr; exact c.forwarded hr hf hp
  · exact c.rejectForwarded hp

theorem sendTripOpen (c : Changes A P) (hp : P s) : P (sendTripOpen b s) := by
  unfold Machine.sendTripOpen
  split
  · exact hp
  · dsimp only
    split
    · rename_i hf; exact c.own hf hp
    · split
      · exact hp
      · rename_i ht; exact c.rejectForwarded (c.displaced ht hp)

theorem sendHoldEnd (c : Changes A P) (hp : P s) : P (sendHoldEnd b s) := c.send hp

theorem endHold (c : Changes A P) (ha : A b) (hp : P s) : P (endHold b s) := by
  unfold Machine.endHold
  split
  · exact c.berth ha (fun _ => ⟨rfl, rfl, rfl, rfl, rfl, rfl⟩) (c.sendHoldEnd hp)
  · exact hp

/-! ## Notices -/

theorem noticeBerth (c : Changes A P) (ha : A b) {k : NoticeKind} {d : List Byte} (hp : P s) :
    P (noticeBerth b k d s) := by
  unfold Machine.noticeBerth
  dsimp only
  split
  · exact c.joined _ hp
  · split
    · rename_i hn; exact c.joined _ (c.noticed ha hn hp)
    · split
      · exact hp
      · exact c.joined _ (c.berth ha (fun _ => ⟨rfl, rfl, rfl, rfl, rfl, rfl⟩) hp)

theorem noticeSection (c : Changes A P) {k : NoticeKind} {d : List Byte} (hp : P s) : P (noticeSection x k d s) :=
  c.joined _ hp

theorem noticePlain (c : Changes A P) {k : NoticeKind} {d : List Byte} (hp : P s) : P (noticePlain k d s) :=
  c.joined _ hp

/-! ## The gate -/

theorem gateJudge (c : Changes A P) {f : Frame} {sc dc : EquipClass} {o : Option BerthId} (hp : P s) :
    P (gateJudge f sc dc o s).2 := by
  unfold Machine.gateJudge
  dsimp only
  split
  · exact hp
  · split
    · exact hp
    · split
      · exact hp
      · split <;> exact c.hit _ hp

end Changes

/-- A closing order is never passed and never held (R137, guard 1). -/
theorem gateJudge_closingOrder {f : Frame} {sc dc : EquipClass} {o : Option BerthId} (hf : closingOrder f = true) :
    gateJudge f sc dc o s = (.refuse .guarded, s) := by simp [gateJudge, hf]

theorem closingOrder_of_pass {f : Frame} {sc dc : EquipClass} {o : Option BerthId} {t : State}
    (hj : gateJudge f sc dc o s = (.pass, t)) : closingOrder f = false := by
  cases hf : closingOrder f
  · rfl
  · rw [gateJudge_closingOrder hf] at hj; simp at hj

theorem closingOrder_of_hold {f : Frame} {sc dc : EquipClass} {o : Option BerthId} {t : State}
    (hj : gateJudge f sc dc o s = (.hold, t)) : closingOrder f = false := by
  cases hf : closingOrder f
  · rfl
  · rw [gateJudge_closingOrder hf] at hj; simp at hj

/-! Frames sent and hits counted leave the berths as they were. -/

@[simp] theorem enqueue_berths {p : Port} {t : TxFrame} : (enqueue p t s).berths = s.berths := rfl

@[simp] theorem sendReply_berths {p : Port} {f : Frame} : (sendReply p f s).berths = s.berths := by
  unfold sendReply; split <;> rfl

@[simp] theorem refuse_berths {r : Reason} {f : Frame} {p : Port} : (refuse r f p s).berths = s.berths :=
  sendReply_berths

@[simp] theorem rejectForwarded_berths {f : Frame} {p : Port} : (rejectForwarded f p s).berths = s.berths := by
  unfold rejectForwarded; split <;> simp

@[simp] theorem forward_berths {f : Frame} {p q : Port} : (forward f p q s).berths = s.berths := by
  unfold forward; split <;> simp

@[simp] theorem countHit_berths {n : Fin 48} : (countHit n s).berths = s.berths := rfl

@[simp] theorem gateJudge_berths {f : Frame} {sc dc : EquipClass} {o : Option BerthId} :
    (gateJudge f sc dc o s).2.berths = s.berths := by
  unfold gateJudge
  dsimp only
  split
  · rfl
  · split
    · rfl
    · split
      · rfl
      · split <;> rfl

@[simp] theorem passHeld_berths {g : HeldFrame} : (passHeld g s).berths = s.berths := by
  unfold passHeld
  split
  · split
    · rfl
    · simp
  · rfl

@[simp] theorem reJudge_berths {g : HeldFrame} : (reJudge b g s).2.berths = s.berths := by
  have hj := gateJudge_berths (s := s) (f := g.frame) (sc := g.srcClass) (dc := g.dstClass) (o := some b)
  unfold reJudge
  split <;> rename_i e <;> rw [e] at hj <;> simpa using hj

@[simp] theorem reJudgeAll_berths {l : List HeldFrame} : (reJudgeAll b l s).2.berths = s.berths := by
  induction l generalizing s with
  | nil => rfl
  | cons g l ih => simp [reJudgeAll, ih]

/-! Frames sent leave the sections as they were. -/

@[simp] theorem sendReply_sec {p : Port} {f : Frame} : (sendReply p f s).sec x = s.sec x := by
  unfold sendReply; split <;> cases x <;> rfl

@[simp] theorem refuse_sec {r : Reason} {f : Frame} {p : Port} : (refuse r f p s).sec x = s.sec x := sendReply_sec

@[simp] theorem refuseHeld_sec {r : Reason} : (refuseHeld r b s).sec x = s.sec x := by
  have hl : ∀ (l : List HeldFrame) {u : State},
      (l.foldl (fun t h => refuse r h.frame h.arrival t) u).sec x = u.sec x := by
    intro l
    induction l with
    | nil => exact rfl
    | cons g l ih => intro u; rw [List.foldl_cons, ih]; simp
  unfold refuseHeld
  rw [updBerth_sec, hl]

/-- The re-evaluation of a hold queue changes nothing of a berth's record but what is held (R144). -/
theorem reevaluate_berth {d : BerthId} : (reevaluate b s).berth d =
    if d = b then { s.berth b with holdQueue := (reJudgeAll b (s.berth b).holdQueue s).1 } else s.berth d := by
  unfold reevaluate
  rw [updBerth_berth]
  split <;> simp [State.berth]

theorem reJudgeAll_sublist {l : List HeldFrame} : (reJudgeAll b l s).1.Sublist l := by
  induction l generalizing s with
  | nil => exact List.Sublist.refl _
  | cons g l ih =>
    simp only [reJudgeAll]
    split
    · exact ih.cons_cons g
    · exact ih.cons g

namespace Changes

theorem passHeld (c : Changes A P) {g : HeldFrame} (hf : closingOrder g.frame = false) (hp : P s) :
    P (passHeld g s) := by
  have hu : P (countUnmapped g.arrival s) := c.port (fun _ => ⟨rfl, rfl, rfl⟩) hp
  unfold Machine.passHeld
  split
  · split
    · exact hu
    · exact c.forward hf hp
  · exact hu

theorem reJudge (c : Changes A P) {g : HeldFrame} (hp : P s) : P (reJudge b g s).2 := by
  have hj := c.gateJudge (f := g.frame) (sc := g.srcClass) (dc := g.dstClass) (o := some b) hp
  unfold Machine.reJudge
  split <;> rename_i e <;> rw [e] at hj
  · exact c.refuse hj
  · exact c.passHeld (closingOrder_of_pass e) hj
  · exact hj
  · exact hj

theorem reJudgeAll (c : Changes A P) {l : List HeldFrame} (hp : P s) : P (reJudgeAll b l s).2 := by
  induction l generalizing s with
  | nil => exact hp
  | cons g l ih => exact ih (c.reJudge hp)

theorem reevaluate (c : Changes A P) (ha : A b) (hp : P s) : P (reevaluate b s) := by
  refine c.unheld ha ?_ (c.reJudgeAll hp)
  have e : (Machine.reJudgeAll b (s.berth b).holdQueue s).2.berth b = s.berth b := by
    simp [State.berth]
  rw [e]
  exact reJudgeAll_sublist

theorem holdFrame (c : Changes (fun _ => True) P) {f : Frame} {p : Port} {sc dc : EquipClass} {o : Option BerthId}
    (hf : closingOrder f = false) (hp : P s) : P (holdFrame f p sc dc o s) := by
  unfold Machine.holdFrame
  split
  · exact c.refuse hp
  · split
    · exact c.refuse hp
    · split
      · exact c.refuse hp
      · rename_i hl; exact c.held trivial (Nat.lt_of_not_le hl) hf hp

theorem gateDecide (c : Changes (fun _ => True) P) {f : Frame} {p : Port} {e d : EquipEntry} (hp : P s) :
    P (gateDecide f p e d s) := by
  have hj := c.gateJudge (f := f) (sc := e.cls) (dc := d.cls) (o := associatedBerth e d) hp
  unfold Machine.gateDecide
  split <;> rename_i e <;> rw [e] at hj
  · exact c.refuse hj
  · exact c.forward (closingOrder_of_pass e) hj
  · exact c.holdFrame (closingOrder_of_hold e) hj
  · exact hj

theorem refuseHeld (c : Changes A P) (ha : A b) {r : Reason} (hp : P s) : P (refuseHeld r b s) := by
  have hl : ∀ (l : List HeldFrame) {t : State}, P t →
      P (l.foldl (fun t h => Machine.refuse r h.frame h.arrival t) t) := by
    intro l
    induction l with
    | nil => exact fun h => h
    | cons g l ih => exact fun h => ih (c.refuse h)
  exact c.unheld ha (List.nil_sublist _) (hl _ hp)

theorem expireHeld (c : Changes A P) (ha : A b) {n : Nat} (hp : P s) : P (expireHeld b n s) := by
  unfold Machine.expireHeld
  split
  · exact hp
  · split
    · refine c.refuse ?_
      have e : Machine.updBerth b (fun r => { r with holdQueue := r.holdQueue.eraseIdx n }) s =
          Machine.updBerth b (fun r => { r with holdQueue := (s.berth b).holdQueue.eraseIdx n }) s := rfl
      rw [e]
      exact c.unheld ha (List.eraseIdx_sublist _ _) hp
    · exact hp

/-! ## Berths and their hold on the arbiter -/

theorem withdrawRequest (c : Changes A P) (hp : P s) : P (withdrawRequest b s) := by
  have hs : SecPlain (SectionRec.unasked b) := fun r =>
    ⟨rfl, rfl, rfl, rfl, rfl, rfl, rfl, rfl, rfl, fun _ h => h, fun d => by
      by_cases e : b = d
      · subst e; left; simp [SectionRec.unasked]
      · right
        have e' : b.val ≠ d.val := fun h => e (Fin.ext h)
        simp [SectionRec.unasked, e'], .inr rfl⟩
  exact c.sec hs (c.sec hs hp)

theorem enterRequest (c : Changes A P) (hc : HooksClosed P h) (ha : A b) {k : OpKind} (hp : P s) :
    P (enterRequest h b k s) := by
  unfold Machine.enterRequest
  dsimp only
  split
  · exact hc.choice _ (c.asked k ha hp)
  · exact c.asked k ha hp

theorem startSpacing (c : Changes A P) (hp : P s) : P (startSpacing x s) :=
  c.sec (fun _ => ⟨rfl, rfl, rfl, rfl, rfl, rfl, rfl, rfl, rfl, fun _ h => h, fun _ => .inr rfl, .inr rfl⟩) hp

theorem freeArbiter (c : Changes A P) {k : OpKind} (hp : P s) : P (freeArbiter x k s) := by
  unfold Machine.freeArbiter
  dsimp only
  split
  · exact c.startSpacing (c.freed x hp)
  · exact c.freed x hp

theorem abandonOp (c : Changes A P) (hc : HooksClosed P h) (ha : A b) (hp : P s) : P (abandonOp h b s) := by
  unfold Machine.abandonOp
  split
  · exact hp
  · exact hc.choice _ (c.clearInFlight ha (c.freeArbiter hp))

theorem dropLock (c : Changes A P) (hp : P s) : P (dropLock x s) :=
  c.sec (fun _ => ⟨rfl, rfl, rfl, rfl, rfl, rfl, rfl, rfl, rfl, fun _ h => h, fun _ => .inr rfl, .inl rfl⟩) hp

theorem releaseLock (c : Changes A P) (hc : HooksClosed P h) (hp : P s) : P (releaseLock h b s) := by
  unfold Machine.releaseLock
  split
  · exact hc.choice _ (c.dropLock hp)
  · exact hp

theorem enterState (c : Changes A P) (hc : HooksClosed P h) (ha : A b) {t : BerthState} (hp : P s) :
    P (enterState h b t s) := by
  have hm : P (s |> moveTo b t |> Machine.reevaluate b |> Machine.clearInFlight b) :=
    c.clearInFlight ha (c.reevaluate ha (c.moves t ha hp))
  unfold Machine.enterState
  split
  · exact hp
  · dsimp only
    split
    · exact c.releaseLock hc hm
    · exact hm

theorem leaveQueue (c : Changes A P) (ha : A b) (hp : P s) : P (leaveQueue b s) := by
  have hs : SecPlain (SectionRec.without b) := fun r =>
    ⟨rfl, rfl, rfl, rfl, rfl, rfl, rfl, rfl, rfl, fun d hd => (List.mem_filter.mp hd).1, fun _ => .inr rfl, .inr rfl⟩
  exact c.bypass ha (g := fun _ => 0) (fun _ => Nat.zero_le _) (c.sec hs (c.sec hs hp))

theorem maskRamp (c : Changes A P) (ha : A b) (hp : P s) : P (maskRamp b s) := c.updRamp ha hp

end Changes

/-! Entering a state. -/

@[simp] theorem leaveState_berth_state {d : BerthId} : ((leaveState b s).berth d).state = (s.berth d).state := by
  unfold leaveState leaveQueue
  split <;> first | rfl | (rw [updBerth_berth]; split <;> simp_all [State.berth])

@[simp] theorem enterState_quiet_state {t : BerthState} : ((enterState .quiet b t s).berth b).state = t := by
  unfold enterState releaseLock dropLock
  split
  · assumption
  · dsimp only
    repeat' split
    all_goals simp [Hooks.quiet, clearInFlight, reevaluate_berth, moveTo, Berth.goTo]

theorem leaveState_berth {d : BerthId} : (leaveState b s).berth d =
    if d = b ∧ (s.berth b).state = .queued then { s.berth b with bypass := 0 } else s.berth d := by
  unfold leaveState leaveQueue
  split <;> rename_i e <;> simp only [e, and_true, and_false, reduceCtorEq, if_false]
  · rw [updBerth_berth]; simp [e]
  · rfl

/-- The berths' records after a berth has entered a state with neither choice nor pass (R3). -/
theorem enterState_quiet_berth {t : BerthState} (hn : (s.berth b).state ≠ t) {d : BerthId} :
    ∃ l, List.Sublist l (s.berth b).holdQueue ∧ (enterState .quiet b t s).berth d =
      if d = b then { Berth.goTo t ((leaveState b s).berth b) with holdQueue := l, inFlight := none }
      else s.berth d := by
  refine ⟨(reJudgeAll b (s.berth b).holdQueue (moveTo b t s)).1, reJudgeAll_sublist, ?_⟩
  have hq : ((leaveState b s).berth b).holdQueue = (s.berth b).holdQueue := by
    rw [leaveState_berth]; split <;> rfl
  unfold enterState releaseLock dropLock
  simp only [hn, if_false]
  repeat' split
  all_goals simp_all [Hooks.quiet, clearInFlight, updBerth_berth, reevaluate_berth, moveTo, Berth.goTo,
    leaveState_berth]

theorem enterState_quiet_secOf {t : BerthState} : (enterState .quiet b t s).secOf b = s.secOf b := by
  by_cases hn : (s.berth b).state = t
  · simp [enterState, hn]
  · obtain ⟨l, -, hl⟩ := enterState_quiet_berth hn (d := b)
    rw [State.secOf, hl, leaveState_berth]
    simp only [if_true, Berth.goTo]
    split <;> rfl

namespace Changes

/-! ## Admission -/

theorem raiseOver (c : Changes A P) (hp : P s) : P (raiseOver x s) := by
  have h := c.most x 0 hp
  have e : Machine.updSec x (fun r => { r with granted := r.granted + 0 }) s = s := by cases x <;> rfl
  rwa [e] at h

theorem releaseBay (c : Changes A P) (ha : A b) (hp : P s) : P (releaseBay b s) := by
  unfold Machine.releaseBay
  split
  · exact hp
  · dsimp only
    split
    · exact c.callPass (c.callPass (c.berth ha (fun _ => ⟨rfl, rfl, rfl, rfl, rfl, rfl⟩) (c.bay _ (fun _ => rfl) (c.send hp))))
    · exact c.berth ha (fun _ => ⟨rfl, rfl, rfl, rfl, rfl, rfl⟩) (c.bay _ (fun _ => rfl) (c.send hp))

theorem releaseGrant (c : Changes A P) (ha : A b) (hp : P s) : P (releaseGrant b s) :=
  c.callPass (c.lower _ (c.berth ha (fun _ => ⟨rfl, rfl, rfl, rfl, rfl, rfl⟩)
    (c.releaseBay ha (c.berth ha (fun _ => ⟨rfl, rfl, rfl, rfl, rfl, rfl⟩) (c.less _ _ hp)))))

theorem takeBay (c : Changes A P) (ha : A b) {f : Frequency} (hp : P s) : P (takeBay x b f s) := by
  unfold Machine.takeBay
  split
  · exact c.berth ha (fun _ => ⟨rfl, rfl, rfl, rfl, rfl, rfl⟩) (c.bay _ (fun _ => rfl) (c.turn _ hp))
  · exact hp

theorem grantBerth (c : Changes A P) (ha : A b) {p : Profile}
    (hf : (s.sec x).granted + p.demand ≤ (s.sec x).limit) (hp : P s) : P (grantBerth x b p s) := by
  unfold Machine.grantBerth
  dsimp only
  refine c.noticeBerth ha (c.starts _ (c.enterState .quiet ha (c.updRamp ha
    (c.berth ha (fun _ => ⟨rfl, rfl, rfl, rfl, rfl, rfl⟩) (c.takeBay ha (c.more ?_
      (c.berth ha (fun _ => ⟨rfl, rfl, rfl, rfl, rfl, rfl⟩) hp)))))))
  cases x <;> exact hf

theorem bumpAhead (c : Changes A P) {l : List BerthId} (ha : ∀ d ∈ l, A d) (hp : P s) : P (bumpAhead l s) := by
  induction l generalizing s with
  | nil => exact hp
  | cons d l ih =>
    exact ih (fun e he => ha e (List.mem_cons_of_mem _ he))
      (c.bypass (ha d List.mem_cons_self) (g := fun n => min Config.bypassMax (n + 1)) (fun _ => Nat.min_le_left _ _)
        hp)

theorem walkQueue (c : Changes A P) {l ahead : List BerthId} (hl : ∀ d ∈ l, A d) (hd : ∀ d ∈ ahead, A d) (hp : P s) :
    P (walkQueue x l ahead s) := by
  induction l generalizing ahead s with
  | nil => exact hp
  | cons d l ih =>
    have hl' : ∀ e ∈ l, A e := fun e he => hl e (List.mem_cons_of_mem _ he)
    have hA : A d := hl d List.mem_cons_self
    unfold Machine.walkQueue
    split
    · exact hp
    · split
      · rename_i hf hq
        refine ih hl' hd (c.bumpAhead hd (c.grantBerth hA ?_ hp))
        simp only [State.fits, hq, Bool.and_eq_true, decide_eq_true_eq] at hf
        exact hf.1
      · refine ih hl' ?_ hp
        intro e he
        rcases List.mem_append.mp he with h | h
        · exact hd e h
        · rw [List.mem_singleton.mp h]; exact hA

theorem joinQueue (c : Changes A P) (ha : A b) {n : Nat} (hp : P s) : P (joinQueue b n s) := by
  have h1 := c.enterState .quiet ha (t := .queued) hp
  have h2 : ((Machine.enterState .quiet b .queued s).berth b).state = .queued := by simp
  have h3 := c.queued n ha h2 h1
  rw [enterState_quiet_secOf] at h3
  exact c.callPass (c.bypass ha (g := fun _ => 0) (fun _ => Nat.zero_le _) h3)

theorem requeue (c : Changes A P) (ha : A b) {n : Nat} (hp : P s) : P (requeue b n s) :=
  c.joinQueue ha (c.releaseGrant ha (c.endHold ha (c.clearInFlight ha (c.withdrawRequest hp))))

theorem stopOverdraw (c : Changes A P) (ha : A b) (hp : P s) : P (stopOverdraw b s) :=
  c.berth ha (fun _ => ⟨rfl, rfl, rfl, rfl, rfl, rfl⟩) hp

theorem startOverdraw (c : Changes A P) (ha : A b) {n : Nat} (hp : P s) : P (startOverdraw b n s) := by
  unfold Machine.startOverdraw
  split
  · exact hp
  · exact c.noticeBerth ha (c.berth ha (fun _ => ⟨rfl, rfl, rfl, rfl, rfl, rfl⟩) hp)

theorem compareLoad (c : Changes A P) (ha : A b) {n : Nat} (hp : P s) : P (compareLoad b n s) := by
  unfold Machine.compareLoad
  dsimp only
  split
  · exact c.stopOverdraw ha hp
  · split
    · rename_i hg
      refine c.noticeBerth ha (c.stopOverdraw ha (c.more ?_ (c.berth ha (fun _ => ⟨rfl, rfl, rfl, rfl, rfl, rfl⟩) hp)))
      simpa using hg.2
    · exact c.startOverdraw ha hp

end Changes

namespace Closed

theorem servicePass (c : Closed A P) (hp : P s) : P (servicePass x s) := by
  unfold Machine.servicePass
  split
  · exact c.walkQueue (fun _ hd => c.waits hp hd) (fun _ hd => absurd hd List.not_mem_nil) hp
  · exact hp

theorem runPasses (c : Closed A P) (hp : P s) : P (runPasses s) := by
  have h0 := c.passes false false hp
  unfold Machine.runPasses
  dsimp only
  split
  · exact h0
  · exact c.servicePass h0
  · exact c.servicePass h0
  · exact c.servicePass (c.servicePass h0)

theorem finishEvent (c : Closed A P) (hp : P s) : P (finishEvent s) := c.runPasses hp

end Closed

end Sys2Proof.Machine
end

