-- ==== Sys2Proof/Laws/ClosedEvents.lean ====
section
/-! SUPPORT. The closure lemmas of `Changes` and `Closed`, for the trip path, proving, the changeover unit and the arbiter. -/

namespace Sys2Proof.Machine

variable {A : BerthId → Prop} {P : State → Prop} {s : State} {b : BerthId} {x : SectionId} {h : Hooks}

namespace Changes

/-! ## The trip path -/

theorem tripOpen (c : Changes A P) (ha : A b) (hp : P s) : P (tripOpen b s) :=
  c.startInFlight ha (c.sendTripOpen hp)

theorem tripHead (c : Changes A P) (hc : HooksClosed P h) (ha : A b) {k : TripCause} (hp : P s) :
    P (tripHead h b k s) := by
  have h1 : ∀ {u}, P u → P (if tripSendsOpen (s.berth b).state k then Machine.tripOpen b u else u) := by
    intro u hu
    split
    · exact c.tripOpen ha hu
    · exact hu
  have h2 : ∀ {u}, P u →
      P (match u.opOf b with | some k => Machine.freeArbiter (s.secOf b) k u | none => u) := by
    intro u hu
    split
    · exact c.freeArbiter hu
    · exact hu
  have h3 : ∀ {u}, P u → P (if u.holdsLock b then Machine.dropLock (s.secOf b) u else u) := by
    intro u hu
    split
    · exact c.dropLock hu
    · exact hu
  unfold Machine.tripHead
  dsimp only
  split
  · exact hc.early _ (h3 (h2 (c.withdrawRequest (h1 (c.clearInFlight ha
      (c.berth ha (fun _ => ⟨rfl, rfl, rfl, rfl, rfl, rfl⟩) (c.moves _ ha hp)))))))
  · exact h3 (h2 (c.withdrawRequest (h1 (c.clearInFlight ha
      (c.berth ha (fun _ => ⟨rfl, rfl, rfl, rfl, rfl, rfl⟩) (c.moves _ ha hp))))))

theorem tripTail (c : Changes A P) (hc : HooksClosed P h) (ha : A b) {t : BerthState} {k : TripCause}
    {r : Option FailReason} (hp : P s) : P (tripTail h b t k r s) := by
  have h1 : ∀ {u}, P u → P (if t.holdsCapacity then h.passes (Machine.releaseGrant b u) else u) := by
    intro u hu
    split
    · exact hc.passes (c.releaseGrant ha hu)
    · exact hu
  unfold Machine.tripTail
  exact c.noticeBerth ha (c.refuseHeld ha (c.berth ha (fun _ => ⟨rfl, rfl, rfl, rfl, rfl, rfl⟩)
    (c.maskRamp ha (h1 hp))))

theorem trip (c : Changes A P) (hc : HooksClosed P h) (ha : A b) {k : TripCause} {r : Option FailReason} (hp : P s) :
    P (trip h b k r s) := by
  unfold Machine.trip
  split
  · exact hp
  · exact c.tripTail hc ha (c.tripHead hc ha hp)

theorem tripOpenFailed (c : Changes A P) (ha : A b) (hp : P s) : P (tripOpenFailed b s) :=
  c.noticeBerth ha (c.berth ha (fun _ => ⟨rfl, rfl, rfl, rfl, rfl, rfl⟩) (c.clearInFlight ha hp))

/-! ## Proving -/

theorem failRun (c : Changes A P) (ha : A b) {r : FailReason} (hp : P s) : P (failRun b r s) :=
  c.trip .quiet ha (c.berth ha (fun _ => ⟨rfl, rfl, rfl, rfl, rfl, rfl⟩) (c.clearInFlight ha hp))

theorem sendTest (c : Changes A P) (ha : A b) {t : ProvingStep} (hp : P s) : P (sendTest b t s) := by
  have h1 := c.berth ha (f := fun r => { r with provingStep := t, assignOrder := none })
    (fun _ => ⟨rfl, rfl, rfl, rfl, rfl, rfl⟩) hp
  unfold Machine.sendTest
  dsimp only
  have h2 := c.send (e := (Machine.updBerth b (fun r => { r with provingStep := t, assignOrder := none }) s).berthEntry
    .plugStation b) (k := kindOrder) (d := codeTestCores) (l := []) h1
  split <;> rename_i e <;> rw [e] at h2
  · exact c.startInFlight ha h2
  · exact c.failRun ha h2

theorem sendAssign (c : Changes A P) (ha : A b) {f : Func} (hp : P s) : P (sendAssign b f s) := by
  have h1 := c.berth ha (f := fun r => { r with provingStep := .assign, assignOrder := some f })
    (fun _ => ⟨rfl, rfl, rfl, rfl, rfl, rfl⟩) hp
  unfold Machine.sendAssign
  dsimp only
  have h2 := c.send (e := (Machine.updBerth b (fun r => { r with
    provingStep := .assign, assignOrder := some f }) s).berthEntry .plugStation b) (k := kindOrder)
    (d := codeAssignCore) (l := [codeIn funcs f, codeIn cores .sp]) h1
  split <;> rename_i e <;> rw [e] at h2
  · exact c.startInFlight ha h2
  · exact c.failRun ha h2

theorem startProving (c : Changes A P) (ha : A b) (hp : P s) : P (startProving b s) :=
  c.sendTest ha (c.berth ha (fun _ => ⟨rfl, rfl, rfl, rfl, rfl, rfl⟩) hp)

theorem seekProfile (c : Changes A P) (ha : A b) (hp : P s) : P (seekProfile b s) := by
  unfold Machine.seekProfile
  split
  · exact hp
  · split
    · exact c.enterState .quiet ha (c.berth ha (fun _ => ⟨rfl, rfl, rfl, rfl, rfl, rfl⟩) hp)
    · exact c.noticeBerth ha hp

theorem passRun (c : Changes A P) (ha : A b) (hp : P s) : P (passRun b s) :=
  c.seekProfile ha (c.berth ha (fun _ => ⟨rfl, rfl, rfl, rfl, rfl, rfl⟩) hp)

theorem selectRecord (c : Changes A P) {n : Num32} (hp : P s) : P (selectRecord n s).2 := by
  unfold Machine.selectRecord
  split
  · exact hp
  · split
    · exact c.cables _ hp
    · exact hp

theorem foldReport (c : Changes A P) (ha : A b) {n : Fin 32} {t : CoreTestReport} (hp : P s) :
    P (foldReport b n t s) := c.berth ha (fun _ => ⟨rfl, rfl, rfl, rfl, rfl, rfl⟩) (c.updCable hp)

theorem hardPath (c : Changes A P) (ha : A b) {n : Fin 32} {r : CableRec} {f : CoreSet} (hp : P s) :
    P (hardPath b n r f s) := by
  have h1 := c.berth (f := fun t => { t with comparison := f &&& judged r.map }) ha
    (fun _ => ⟨rfl, rfl, rfl, rfl, rfl, rfl⟩) hp
  unfold Machine.hardPath
  dsimp only
  split
  · exact c.sendAssign ha h1
  · exact c.failRun ha (c.noticeBerth ha (c.updCable h1))

theorem firstLook (c : Changes A P) (ha : A b) {n : Fin 32} {r : CableRec} {f : CoreSet} (hp : P s) :
    P (firstLook b n r f s) := by
  unfold Machine.firstLook
  dsimp only
  split
  · exact c.hardPath ha hp
  · split
    · exact c.passRun ha hp
    · exact c.sendTest ha (c.berth ha (fun _ => ⟨rfl, rfl, rfl, rfl, rfl, rfl⟩) hp)

theorem retest (c : Changes A P) (ha : A b) {n : Fin 32} {r : CableRec} {f : CoreSet} (hp : P s) :
    P (retest b n r f s) := by
  unfold Machine.retest
  dsimp only
  split
  · exact c.hardPath ha (c.updCable hp)
  · split
    · exact c.passRun ha (c.updCable hp)
    · exact c.sendTest ha (c.berth ha (fun _ => ⟨rfl, rfl, rfl, rfl, rfl, rfl⟩) (c.updCable hp))

theorem firstTest (c : Changes A P) (ha : A b) {t : CoreTestReport} (hp : P s) : P (firstTest b t s) := by
  have hr := c.selectRecord (n := t.cable) hp
  unfold Machine.firstTest
  extract_lets inUse
  split
  · exact c.failRun ha hp
  · split <;> rename_i e <;> rw [e] at hr
    · exact hr
    · rename_i n _
      have hu := c.foldReport ha (n := n) (t := t) (c.berth ha (f := fun r => { r with cable := some t.cable })
        (fun _ => ⟨rfl, rfl, rfl, rfl, rfl, rfl⟩) (c.updCable (n := n) (f := fun r => { r with berth := some b })
          (c.unlinkCable (b := b) hr)))
      extract_lets u
      split
      · exact hu
      · split
        · exact c.failRun ha hu
        · split
          · exact c.sendAssign ha hu
          · exact c.firstLook ha hu

theorem laterTest (c : Changes A P) (ha : A b) {t : CoreTestReport}
    {j : BerthId → Fin 32 → CableRec → CoreSet → State → State} (hj : ∀ {n r f u}, P u → P (j b n r f u))
    (hp : P s) : P (laterTest b t j s) := by
  unfold Machine.laterTest
  split
  · exact c.failRun ha hp
  · split
    · exact hp
    · dsimp only
      split
      · exact c.foldReport ha hp
      · exact hj (c.foldReport ha hp)

theorem takeCoreTest (c : Changes A P) (ha : A b) {t : CoreTestReport} (hp : P s) : P (takeCoreTest b t s) := by
  unfold Machine.takeCoreTest
  split
  · exact hp
  · split
    · exact c.firstTest ha (c.clearInFlight ha hp)
    · exact c.laterTest ha (c.retest ha) (c.clearInFlight ha hp)
    · exact c.laterTest ha (c.firstLook ha) (c.clearInFlight ha hp)
    · exact hp
    · exact hp

theorem substitute (c : Changes A P) (ha : A b) {n : Fin 32} {f : Func} (hp : P s) : P (substitute b n f s) :=
  c.sendTest ha (c.berth ha (fun _ => ⟨rfl, rfl, rfl, rfl, rfl, rfl⟩) (c.noticeBerth ha (c.updCable hp)))

theorem takeAssignDone (c : Changes A P) (ha : A b) {t : AssignDoneReport} (hp : P s) : P (takeAssignDone b t s) := by
  unfold Machine.takeAssignDone
  split
  · exact hp
  · have hu := c.clearInFlight ha hp
    dsimp only
    split
    · split
      · exact c.sendTest ha hu
      · split
        · exact c.sendTest ha hu
        · exact c.substitute ha hu
    · exact c.failRun ha hu

/-! ## The changeover -/

theorem changeoverFailure (c : Changes A P) (hc : HooksClosed P h) (ha : A b) {k : ChangeoverFailure} (hp : P s) :
    P (changeoverFailure h b k s) :=
  c.noticeBerth ha (c.enterState hc ha (hc.passes (c.releaseGrant ha (c.endHold ha (c.clearInFlight ha
    (c.withdrawRequest hp))))))

theorem startHandshake (c : Changes A P) (ha : A b) {f : State → State} (hf : ∀ {u}, P u → P (f u)) (hp : P s) :
    P (startHandshake f b s) := by
  have h1 := c.send (e := s.berthEntry .shipPms b) (k := kindRequest) (d := codeHoldParallel) (l := []) hp
  unfold Machine.startHandshake
  split <;> rename_i e <;> rw [e] at h1
  · exact c.startInFlight ha h1
  · exact hf h1

theorem startDeadWait (c : Changes A P) (hc : HooksClosed P h) (ha : A b) (hp : P s) : P (startDeadWait h b s) := by
  have h1 := c.send (e := s.berthEntry .shipPms b) (k := kindRequest) (d := codeDeadReady) (l := []) hp
  unfold Machine.startDeadWait
  split <;> rename_i e <;> rw [e] at h1
  · exact c.startInFlight ha h1
  · exact c.changeoverFailure hc ha h1

theorem startMethod (c : Changes A P) (hc : HooksClosed P h) (ha : A b) (hp : P s) : P (startMethod h b s) := by
  unfold Machine.startMethod
  split
  · exact c.startHandshake ha (c.changeoverFailure hc ha) hp
  · exact c.startDeadWait hc ha hp
  · exact hp

theorem startChangeover (c : Changes A P) (hc : HooksClosed P h) (ha : A b) (hp : P s) :
    P (startChangeover h b s) := by
  unfold Machine.startChangeover
  split
  · exact c.startMethod hc ha hp
  · rename_i k _
    have h1 := c.send (e := s.converterEntry k) (k := kindOrder) (d := codeConverterStart)
      (l := [bayByte (some k), berthByte (some b)]) hp
    split <;> rename_i e <;> rw [e] at h1
    · exact c.startInFlight ha h1
    · exact c.changeoverFailure hc ha h1

theorem requestStep (c : Changes A P) (hc : HooksClosed P h) (ha : A b) (hp : P s) : P (requestStep h b s) := by
  unfold Machine.requestStep
  dsimp only
  split
  · exact hp
  · exact c.enterRequest hc ha (c.updRamp ha hp)

theorem completeTransfer (c : Changes A P) (hc : HooksClosed P h) (ha : A b) (hp : P s) :
    P (completeTransfer h b s) :=
  c.startInFlight ha (c.enterState hc ha (c.berth ha (fun _ => ⟨rfl, rfl, rfl, rfl, rfl, rfl⟩) (c.sendHoldEnd hp)))

theorem terminalCount (c : Changes A P) (hc : HooksClosed P h) (ha : A b) (hp : P s) : P (terminalCount h b s) := by
  have h1 := c.releaseLock hc (b := b) (c.updRamp ha (f := fun r => { r with
    terminal := true, pauseTimer := none, paused := false }) hp)
  unfold Machine.terminalCount
  dsimp only
  split
  · exact c.completeTransfer hc ha h1
  · exact c.enterRequest hc ha h1
  · exact h1

theorem startRamp (c : Changes A P) (hc : HooksClosed P h) (ha : A b) {d : Direction} (hp : P s) :
    P (startRamp h b d s) := by
  unfold Machine.startRamp
  split
  · exact hp
  · dsimp only
    split
    · exact c.terminalCount hc ha (c.updRamp ha hp)
    · exact c.requestStep hc ha (c.updRamp ha hp)

theorem abortCommon (c : Changes A P) (hc : HooksClosed P h) (ha : A b) (hp : P s) : P (abortCommon h b s) := by
  have h1 : ∀ {u}, P u → P (if u.opOf b = some .step then Machine.abandonOp h b u else u) := by
    intro u hu
    split
    · exact c.abandonOp hc ha hu
    · exact hu
  have h2 : ∀ {u}, P u → P (if u.request b = some .step then Machine.withdrawRequest b u else u) := by
    intro u hu
    split
    · exact c.withdrawRequest hu
    · exact hu
  exact c.maskRamp ha (c.releaseLock hc (c.updRamp ha (h2 (h1 hp))))

theorem releaseFailed (c : Changes A P) (hc : HooksClosed P h) (ha : A b) {k : ReleaseFailure} (hp : P s) :
    P (releaseFailed h b k s) := c.noticeBerth ha (c.enterState hc ha (c.maskRamp ha (c.endHold ha hp)))

theorem failRampOut (c : Changes A P) (hc : HooksClosed P h) (ha : A b) {k : ReleaseFailure} (hp : P s) :
    P (failRampOut h b k s) := by
  unfold Machine.failRampOut
  split
  · exact c.trip hc ha hp
  · exact c.releaseFailed hc ha hp

theorem abortRampOut (c : Changes A P) (hc : HooksClosed P h) (ha : A b) {k : ReleaseFailure} (hp : P s) :
    P (abortRampOut h b k s) := c.failRampOut hc ha (c.abortCommon hc.before ha hp)

theorem abortRampIn (c : Changes A P) (hc : HooksClosed P h) (ha : A b) {k : AbortCause} (hp : P s) :
    P (abortRampIn h b k s) := by
  have h1 := c.updRamp ha (f := fun r => { r with aborting := true, abortCause := some k }) hp
  unfold Machine.abortRampIn
  dsimp only
  split
  · exact c.enterRequest hc ha (c.endHold ha h1)
  · split
    · exact c.startRamp hc ha (c.enterState hc ha h1)
    · exact c.startHandshake ha (c.abortRampOut hc ha) (c.enterState hc ha h1)

theorem abortRamp (c : Changes A P) (hc : HooksClosed P h) (ha : A b) {k : AbortCause} (hp : P s) :
    P (abortRamp h b k s) := by
  unfold Machine.abortRamp
  split
  · exact c.abortRampIn hc ha (c.abortCommon hc.before ha hp)
  · refine c.failRampOut hc ha (c.abortCommon ?_ ha hp)
    split
    · exact hc.before
    · exact hc
  all_goals exact c.abortCommon hc ha hp

theorem stepFailed (c : Changes A P) (hc : HooksClosed P h) (ha : A b) (hp : P s) : P (stepFailed h b s) := by
  unfold Machine.stepFailed
  dsimp only
  split
  · exact c.abortRamp hc ha (c.updRamp ha hp)
  · exact c.requestStep hc ha (c.updRamp ha hp)

theorem pauseRamp (c : Changes A P) (hc : HooksClosed P h) (ha : A b) (hp : P s) : P (pauseRamp h b s) := by
  have h1 : ∀ {u}, P u → P (if u.request b = some .step then Machine.withdrawRequest b u else u) := by
    intro u hu
    split
    · exact c.withdrawRequest hu
    · exact hu
  unfold Machine.pauseRamp
  extract_lets u v
  have hv : P v := h1 (c.berth ha (fun _ => ⟨rfl, rfl, rfl, rfl, rfl, rfl⟩) hp)
  exact c.updRamp ha (c.releaseLock hc (c.updRamp ha hv))

theorem withdrawHold (c : Changes A P) (hc : HooksClosed P h) (ha : A b) (hp : P s) : P (withdrawHold h b s) := by
  unfold Machine.withdrawHold
  split
  · split
    · exact c.pauseRamp hc ha hp
    · exact c.abortRamp hc ha (c.berth ha (fun _ => ⟨rfl, rfl, rfl, rfl, rfl, rfl⟩) hp)
    · exact c.abortRamp hc ha (c.berth ha (fun _ => ⟨rfl, rfl, rfl, rfl, rfl, rfl⟩) hp)
  · exact hp

theorem resumeRamp (c : Changes A P) (hc : HooksClosed P h) (ha : A b) (hp : P s) : P (resumeRamp h b s) := by
  unfold Machine.resumeRamp
  dsimp only
  split
  · exact c.berth ha (fun _ => ⟨rfl, rfl, rfl, rfl, rfl, rfl⟩) hp
  · exact c.requestStep hc ha (c.berth ha (fun _ => ⟨rfl, rfl, rfl, rfl, rfl, rfl⟩) hp)

theorem closeFailed (c : Changes A P) (hc : HooksClosed P h) (ha : A b) {o : OpFailure} (hp : P s) :
    P (closeFailed h b o s) := by
  unfold Machine.closeFailed
  split
  · exact c.changeoverFailure hc ha hp
  · exact c.trip hc ha hp

theorem syncCloseOutcome (c : Changes A P) (hc : HooksClosed P h) (ha : A b) {o : OpOutcome} (hp : P s) :
    P (syncCloseOutcome h b o s) := by
  unfold Machine.syncCloseOutcome
  split
  · exact c.closeFailed hc ha hp
  · have h1 := c.startRamp hc ha (d := .inward) (c.updRamp ha (f := fun r => { r with aborting := false })
      (c.enterState hc ha (t := .rampIn) hp))
    dsimp only
    split
    · exact h1
    · exact c.withdrawHold hc ha h1

theorem deadCloseOutcome (c : Changes A P) (hc : HooksClosed P h) (ha : A b) {o : OpOutcome} (hp : P s) :
    P (deadCloseOutcome h b o s) := by
  unfold Machine.deadCloseOutcome
  split
  · exact c.closeFailed hc ha hp
  · exact c.noticeBerth ha (c.enterState hc ha hp)

theorem stepOutcome (c : Changes A P) (hc : HooksClosed P h) (ha : A b) {o : OpOutcome} (hp : P s) :
    P (stepOutcome h b o s) := by
  unfold Machine.stepOutcome
  split
  · exact hp
  · split
    · exact c.stepFailed hc ha hp
    · dsimp only
      split
      · exact c.terminalCount hc ha (c.updRamp ha hp)
      · exact c.requestStep hc ha (c.updRamp ha hp)

theorem leaveOpening (c : Changes A P) (hc : HooksClosed P h) (ha : A b) (hp : P s) : P (leaveOpening h b s) := by
  unfold Machine.leaveOpening
  split
  · exact c.enterState hc ha hp
  · split
    · exact c.startProving ha (c.enterState hc ha hp)
    · exact c.enterState hc ha hp

theorem openedNotice (c : Changes A P) (ha : A b) {r : Berth} (hp : P s) : P (openedNotice b r s) := by
  unfold Machine.openedNotice
  split <;> exact c.noticeBerth ha hp

theorem openOutcome (c : Changes A P) (hc : HooksClosed P h) (ha : A b) {o : OpOutcome} (hp : P s) :
    P (openOutcome h b o s) := by
  unfold Machine.openOutcome
  split
  · exact c.trip hc ha hp
  · exact c.openedNotice ha (c.leaveOpening hc ha (hc.passes (c.releaseGrant ha (c.endHold ha hp))))

theorem opOutcome (c : Changes A P) (hc : HooksClosed P h) (ha : A b) {k : OpKind} {o : OpOutcome} (hp : P s) :
    P (opOutcome h b k o s) := by
  unfold Machine.opOutcome
  split
  · exact c.syncCloseOutcome hc ha hp
  · exact c.deadCloseOutcome hc ha hp
  · exact c.stepOutcome hc ha hp
  · exact c.openOutcome hc ha hp

theorem endGensOffWait (c : Changes A P) (ha : A b) (hp : P s) : P (endGensOffWait b s) := by
  unfold Machine.endGensOffWait
  split
  · exact c.noticeBerth ha (c.clearInFlight ha hp)
  · exact hp

theorem morningRelease (c : Changes A P) (hc : HooksClosed P h) (ha : A b) (hp : P s) :
    P (morningRelease h b s).2 := by
  unfold Machine.morningRelease
  split
  · exact hp
  · split
    · exact hp
    · split
      · exact c.enterRequest hc ha (c.endGensOffWait ha hp)
      · split
        · exact c.startHandshake ha (c.releaseFailed hc ha) (c.enterState hc ha (c.endGensOffWait ha hp))
        · exact hp

/-! ## The arbiter -/

theorem handBack (c : Changes A P) (ha : A b) (hp : P s) : P (handBack b s) :=
  c.startInFlight ha (c.withdrawRequest hp)

theorem lockAfterGrant {b : BerthId} (ha : A b) {k : OpKind} {r : Berth} {n : Nat} :
    LockFor A (lockAfterGrant b k r n) := by
  intro l m hm
  unfold Machine.lockAfterGrant at hm
  split at hm
  · left; simp only [Option.some.injEq] at hm; rw [← hm]; exact ha
  · right; exact ⟨m, hm, rfl⟩
  · right; exact ⟨m, hm, rfl⟩
  · split at hm
    · right; exact ⟨m, hm, rfl⟩
    · split at hm
      · simp at hm
      · left; simp only [Option.some.injEq] at hm; rw [← hm]; exact ha
    · split at hm
      · right; simp only [Option.some.injEq] at hm; exact ⟨_, rfl, by rw [← hm]⟩
      · right; exact ⟨m, hm, rfl⟩

theorem beginGrant (c : Changes A P) (ha : A b) {k : OpKind} (hp : P s) : P (beginGrant x b k s) := by
  have h1 := c.began x k ha hp
  unfold Machine.beginGrant
  extract_lets t u
  refine c.locked x _ (lockAfterGrant ha) ?_
  show P (match k.granted with | some st => _ | none => _)
  split
  · exact c.enterState .quiet ha h1
  · exact c.updRamp ha h1

theorem sendOperation (c : Changes A P) {k : OpKind} (hp : P s) : P (sendOperation x b k s).1 := by
  unfold Machine.sendOperation
  dsimp only
  split <;> exact c.send hp

theorem grantOperation (c : Changes A P) (ha : A b) {k : OpKind} (hp : P s) : P (grantOperation x b k s).1 := by
  have h1 := c.sendOperation (x := x) (b := b) (k := k) (c.beginGrant (x := x) ha (k := k) hp)
  unfold Machine.grantOperation
  split <;> rename_i e <;> rw [e] at h1
  · exact c.startInFlight ha h1
  · exact h1

theorem dropCloseLock (c : Changes A P) (hp : P s) : P (dropCloseLock x b s) := by
  unfold Machine.dropCloseLock
  split
  · split
    · exact c.dropLock hp
    · exact hp
  · exact hp

end Changes

namespace Closed

/-! ## The choice -/

theorem pickRequest (c : Closed A P) {l : List BerthId} (hp : P s) :
    P (pickRequest x l s).1 ∧ ∀ d k, (pickRequest x l s).2 = some (d, k) → A d := by
  induction l generalizing s with
  | nil => exact ⟨hp, fun _ _ h => by simp [Machine.pickRequest] at h⟩
  | cons d l ih =>
    have hA : ∀ {k}, (s.sec x).requests[d] = some k → A d := fun h => c.asks (x := x) (c := d) hp (by rw [h]; simp)
    unfold Machine.pickRequest
    split
    · exact ih hp
    · rename_i e
      split
      · exact ih hp
      · exact ⟨hp, fun _ _ h => by simp at h; rw [← h.1]; exact hA e⟩
    · rename_i e
      split
      · exact ⟨hp, fun _ _ h => by simp at h; rw [← h.1]; exact hA e⟩
      · exact ih (c.handBack (hA e) hp)
    · rename_i e; exact ⟨hp, fun _ _ h => by simp at h; rw [← h.1]; exact hA e⟩
    · rename_i e; exact ⟨hp, fun _ _ h => by simp at h; rw [← h.1]; exact hA e⟩

theorem choose (c : Closed A P) (hp : P s) : P (choose x s).1 ∧ ∀ d k, (choose x s).2 = some (d, k) → A d := by
  unfold Machine.choose
  dsimp only
  split
  · exact ⟨hp, fun _ _ h => by simp at h⟩
  · rename_i hi
    split
    · exact c.pickRequest hp
    · split
      · refine ⟨?_, fun _ _ h => by simp at h⟩
        exact c.panel false (by simpa using hi) hp
      · exact c.pickRequest hp

/-- The passes of an operation's end keep the property. -/
theorem noChoice (c : Closed A P) : HooksClosed P Hooks.noChoice :=
  ⟨fun _ hp => hp, fun _ hp => hp, fun hp => c.runPasses hp⟩

theorem finishOperation (c : Closed A P) (hc : HooksClosed P h) (ha : A b) {k : OpKind} {o : OpOutcome} (hp : P s) :
    P (finishOperation h x b k o s) := by
  have h1 := c.opOutcome hc ha (k := k) (o := o) (c.freeArbiter (x := x) (k := k) (c.clearInFlight ha hp))
  unfold Machine.finishOperation
  dsimp only
  split
  · exact c.dropCloseLock h1
  · exact h1

/-- A turn of the choice keeps the property, and the operation it leaves to end is of a berth that asked. -/
theorem choiceTurn (c : Closed A P) (hp : P s) :
    P (choiceTurn x s).1 ∧ ∀ d k, (choiceTurn x s).2 = some (d, k) → A d := by
  have h1 := c.choose (x := x) hp
  unfold Machine.choiceTurn
  split <;> rename_i e <;> rw [e] at h1
  · exact ⟨h1.1, fun _ _ h => by simp at h⟩
  · have hA := h1.2 _ _ rfl
    rename_i d k
    have h2 := c.grantOperation (x := x) hA (k := k) h1.1
    split <;> rename_i g <;> rw [g] at h2
    · exact ⟨h2, fun _ _ h => by simp at h⟩
    · exact ⟨h2, fun _ _ h => by simp at h; exact h.1 ▸ hA⟩

theorem earlyLoop (c : Closed A P) {n : Nat} (hp : P s) : P (earlyLoop x n s) := by
  induction n generalizing s with
  | zero => exact hp
  | succ n ih =>
    have h1 := c.choiceTurn (x := x) hp
    unfold Machine.earlyLoop
    split <;> rename_i e <;> rw [e] at h1
    · exact h1.1
    · exact ih (c.finishOperation .quiet (h1.2 _ _ rfl) h1.1)

theorem earlyChoice (c : Closed A P) (hp : P s) : P (earlyChoice x s) := c.earlyLoop hp

theorem endThen (c : Closed A P) (ha : A b) {n : Nat} {more : State → State} (hm : ∀ {u}, P u → P (more u))
    {k : OpKind} {o : OpOutcome} (hp : P s) : P (endThen x n more b k o s) := by
  unfold Machine.endThen
  dsimp only
  split
  · exact hm (c.finishOperation .quiet ha hp)
  · exact c.earlyLoop (c.finishOperation c.noChoice ha hp)

theorem choiceLoop (c : Closed A P) {n : Nat} (hp : P s) : P (choiceLoop x n s) := by
  induction n generalizing s with
  | zero => exact hp
  | succ n ih =>
    have h1 := c.choiceTurn (x := x) hp
    unfold Machine.choiceLoop
    split <;> rename_i e <;> rw [e] at h1
    · exact h1.1
    · exact c.endThen (h1.2 _ _ rfl) ih h1.1

theorem runChoice (c : Closed A P) (hp : P s) : P (runChoice x s) := c.choiceLoop hp

/-- The choices and passes of an event keep the property. -/
theorem live (c : Closed A P) : HooksClosed P Hooks.live :=
  ⟨fun _ hp => c.runChoice hp, fun _ hp => c.earlyChoice hp, fun hp => c.runPasses hp⟩

theorem endOperation (c : Closed A P) (ha : A b) {k : OpKind} {o : OpOutcome} (hp : P s) :
    P (endOperation b k o s) := c.endThen ha c.runChoice hp

end Closed

end Sys2Proof.Machine
end

