-- ==== Sys2Proof/Laws/ClosedCommands.lean ====
section
/-! SUPPORT. The closure lemmas of `Closed`, for what the requests, the reports, the lines and the expiries do to a
berth. -/

namespace Sys2Proof.Machine

variable {A : BerthId → Prop} {P : State → Prop} {s : State} {b : BerthId} {x : SectionId} {p : Port}

namespace Closed

/-! ## The lines -/

theorem lineEvent (c : Closed A P) (ha : A b) {l : FaultLine} {t : BerthState} (hp : P s) :
    P (lineEventActivation b l t s) := c.noticeBerth ha hp

theorem estopEffect (c : Closed A P) (ha : A b) (hp : P s) : P (estopEffect b s) := by
  unfold Machine.estopEffect
  split
  all_goals with_reducible first
    | exact hp
    | exact c.lineEvent ha hp
    | exact c.trip c.live ha hp

theorem pilotReturn (c : Closed A P) (ha : A b) (hp : P s) : P (pilotReturn b s) := by
  have h2 : P (if (s.berth b).state = .admitted then
      s |> Machine.withdrawRequest b |> Machine.clearInFlight b |> Machine.endHold b |> Machine.releaseGrant b
        |> Hooks.live.passes
      else s) := by
    split
    · exact c.live.passes (c.releaseGrant ha (c.endHold ha (c.clearInFlight ha
        (c.withdrawRequest hp))))
    · exact hp
  unfold Machine.pilotReturn
  exact c.noticeBerth ha (c.startProving ha (c.enterState c.live ha
    (c.berth ha (fun _ => ⟨rfl, rfl, rfl, rfl, rfl, rfl⟩) h2)))

theorem pilotEffect (c : Closed A P) (ha : A b) (hp : P s) : P (pilotEffect b s) := by
  unfold Machine.pilotEffect
  split
  all_goals with_reducible first
    | exact hp
    | exact c.pilotReturn ha hp
    | exact c.trip c.live ha hp

theorem unplug (c : Closed A P) (ha : A b) (hp : P s) : P (unplug b s) :=
  c.enterState c.live ha (c.berth ha (fun _ => ⟨rfl, rfl, rfl, rfl, rfl, rfl⟩)
    (c.unlinkCable (c.clearInFlight ha hp)))

theorem latchLostEffect (c : Closed A P) (ha : A b) (hp : P s) : P (latchLostEffect b s) := by
  unfold Machine.latchLostEffect
  split
  all_goals with_reducible first
    | exact hp
    | exact c.unplug ha hp
    | exact c.trip c.live ha hp
    | exact c.unlinkCable hp
    | exact c.unplug ha (c.live.passes (c.releaseGrant ha (c.berth ha (fun _ => ⟨rfl, rfl, rfl, rfl, rfl, rfl⟩)
        (c.clearInFlight ha (c.withdrawRequest hp)))))

/-! ## Requests -/

theorem askShore (c : Closed A P) (ha : A b) (hp : P s) : P (askShore b s).2 := by
  unfold Machine.askShore
  repeat' split
  all_goals first
    | exact hp
    | exact c.joinQueue ha hp

theorem giveUpPlace (c : Closed A P) (ha : A b) (hp : P s) : P (giveUpPlace b s) :=
  c.enterState c.live ha hp

theorem giveUpAdmission (c : Closed A P) (ha : A b) (hp : P s) : P (giveUpAdmission b s) :=
  c.enterState c.live ha (c.live.passes (c.releaseGrant ha (c.endHold ha (c.clearInFlight ha
    (c.withdrawRequest hp)))))

theorem withdraw (c : Closed A P) (ha : A b) (hp : P s) : P (withdraw b s).2 := by
  unfold Machine.withdraw
  split
  · exact c.giveUpPlace ha hp
  · exact c.giveUpAdmission ha hp
  all_goals exact hp

theorem releaseWanted (c : Closed A P) (ha : A b) (hp : P s) : P (releaseWanted b s).2 := by
  unfold Machine.releaseWanted
  split
  · exact c.morningRelease c.live ha hp
  · exact hp

theorem release (c : Closed A P) (ha : A b) (hp : P s) : P (release b s).2 := by
  unfold Machine.release
  split
  · exact c.morningRelease c.live ha hp
  · exact c.withdraw ha hp

theorem adoptBay (c : Closed A P) (ha : A b) (hp : P s) : P (adoptBay b s) := by
  unfold Machine.adoptBay
  split
  · exact hp
  · exact c.berth ha (fun _ => ⟨rfl, rfl, rfl, rfl, rfl, rfl⟩) (c.bay _ (fun _ => rfl) hp)

theorem adopt (c : Closed A P) (ha : A b) (hp : P s) : P (adopt b s) := by
  unfold Machine.adopt
  extract_lets vessel index profile grant x t
  have ht : P t := c.berth ha (fun _ => ⟨rfl, rfl, rfl, rfl, rfl, rfl⟩)
    (c.adoptBay ha (c.most x grant (c.berth ha (fun _ => ⟨rfl, rfl, rfl, rfl, rfl, rfl⟩) hp)))
  exact c.enterState c.live ha (c.noticeBerth ha ht)

theorem serveLatched (c : Closed A P) (ha : A b) (hp : P s) : P (serveLatched b s) :=
  c.startProving ha (c.enterState c.live ha (c.berth ha (fun _ => ⟨rfl, rfl, rfl, rfl, rfl, rfl⟩) hp))

theorem service (c : Closed A P) (ha : A b) (hp : P s) : P (service b s).2 := by
  unfold Machine.service
  split
  · exact hp
  · repeat' split
    all_goals with_reducible first
      | exact c.adopt ha hp
      | exact c.serveLatched ha hp
      | exact c.enterState c.live ha hp

theorem leaveTripped (c : Closed A P) (ha : A b) (hp : P s) : P (leaveTripped b s) := by
  unfold Machine.leaveTripped
  dsimp only
  split
  · exact c.startProving ha (c.enterState c.live ha (c.berth ha (fun _ => ⟨rfl, rfl, rfl, rfl, rfl, rfl⟩)
      (c.unlinkCable hp)))
  · exact c.enterState c.live ha (c.unlinkCable hp)

theorem clearTrip (c : Closed A P) (ha : A b) (hp : P s) : P (clearTrip b s) := by
  unfold Machine.clearTrip
  exact c.noticeBerth ha (c.leaveTripped ha (c.clearInFlight ha
    (c.berth ha (fun _ => ⟨rfl, rfl, rfl, rfl, rfl, rfl⟩) hp)))

theorem ackTrip (c : Closed A P) (ha : A b) (hp : P s) : P (ackTrip b s).2 := by
  unfold Machine.ackTrip
  repeat' split
  all_goals first
    | exact hp
    | exact c.clearTrip ha hp

/-! ## Reports -/

theorem unaskedPosition (c : Closed A P) (ha : A b) {k : Breaker} (hp : P s) : P (unaskedPosition b k s) := by
  unfold Machine.unaskedPosition
  split
  all_goals with_reducible first
    | exact hp
    | exact c.trip c.live ha hp
    | exact c.tripOpen ha hp

theorem positionAtBerth (c : Closed A P) (ha : A b) {k : Breaker} (hp : P s) : P (positionAtBerth b k s) := by
  unfold Machine.positionAtBerth
  split
  · split
    · exact c.endOperation ha hp
    · exact c.unaskedPosition ha hp
  · split
    · unfold Machine.tripOpenPosition
      split
      · exact c.clearInFlight ha hp
      · exact c.tripOpenFailed ha hp
      · exact c.unaskedPosition ha hp
    · exact c.unaskedPosition ha hp

theorem gensOffSeen (c : Closed A P) (ha : A b) {r : ShipStateReport} (hp : P s) : P (gensOffSeen b r s) := by
  unfold Machine.gensOffSeen
  split
  · exact c.noticeBerth ha (c.clearInFlight ha hp)
  · exact hp

theorem deadBusSeen (c : Closed A P) (ha : A b) {r : ShipStateReport} (hp : P s) : P (deadBusSeen b r s) := by
  unfold Machine.deadBusSeen
  split
  · exact c.enterRequest c.live ha hp
  · exact hp

theorem holdInAdmitted (c : Closed A P) (ha : A b) {a : HoldAnswer} (hp : P s) : P (holdInAdmitted b a s) := by
  unfold Machine.holdInAdmitted
  split
  · exact c.enterRequest c.live ha (c.berth ha (fun _ => ⟨rfl, rfl, rfl, rfl, rfl, rfl⟩) hp)
  · exact c.changeoverFailure c.live ha hp
  · exact c.changeoverFailure c.live ha hp
  all_goals exact hp

theorem rampOutHoldFailed (c : Closed A P) (ha : A b) {k : ReleaseFailure} (hp : P s) : P (rampOutHoldFailed b k s) := by
  unfold Machine.rampOutHoldFailed
  dsimp only
  split
  · exact c.abortRampOut c.live ha (c.clearInFlight ha hp)
  · exact c.releaseFailed c.live ha (c.clearInFlight ha hp)

theorem holdInRampOut (c : Closed A P) (ha : A b) {a : HoldAnswer} (hp : P s) : P (holdInRampOut b a s) := by
  unfold Machine.holdInRampOut
  split
  · exact c.startRamp c.live ha (c.clearInFlight ha (c.berth ha (fun _ => ⟨rfl, rfl, rfl, rfl, rfl, rfl⟩) hp))
  · exact c.rampOutHoldFailed ha hp
  · exact hp

theorem clearHoldOn (c : Closed A P) (ha : A b) {a : HoldAnswer} (hp : P s) : P (clearHoldOn b a s) := by
  unfold Machine.clearHoldOn
  split
  · exact c.berth ha (fun _ => ⟨rfl, rfl, rfl, rfl, rfl, rfl⟩) hp
  · exact hp

theorem holdInClosing (c : Closed A P) (ha : A b) {a : HoldAnswer} (hp : P s) : P (holdInClosing b a s) := by
  unfold Machine.holdInClosing
  split
  · exact c.berth ha (fun _ => ⟨rfl, rfl, rfl, rfl, rfl, rfl⟩) hp
  · exact c.clearHoldOn ha hp

theorem holdInRamp (c : Closed A P) (ha : A b) {a : HoldAnswer} (hp : P s) : P (holdInRamp b a s) := by
  unfold Machine.holdInRamp
  dsimp only
  split
  · split
    · exact c.resumeRamp c.live ha hp
    · exact hp
  · split
    · split
      · exact c.withdrawHold c.live ha hp
      · exact hp
    · split
      · exact c.clearHoldOn ha hp
      · exact hp

theorem holdAtBerth (c : Closed A P) (ha : A b) {a : HoldAnswer} (hp : P s) : P (holdAtBerth b a s) := by
  unfold Machine.holdAtBerth
  split
  · split
    · exact c.holdInAdmitted ha hp
    · exact hp
  · exact c.holdInClosing ha hp
  · exact c.holdInRamp ha hp
  · split
    · exact c.holdInRampOut ha hp
    · exact c.holdInRamp ha hp
  · exact c.clearHoldOn ha hp
  all_goals exact hp

theorem vesselAtBerth (c : Closed A P) (ha : A b) {v : Num32} (hp : P s) : P (vesselAtBerth b v s) := by
  unfold Machine.vesselAtBerth
  dsimp only
  split
  · split
    · exact c.seekProfile ha (c.berth ha (fun _ => ⟨rfl, rfl, rfl, rfl, rfl, rfl⟩) hp)
    · exact c.berth ha (fun _ => ⟨rfl, rfl, rfl, rfl, rfl, rfl⟩) hp
  · split
    · exact hp
    · unfold Machine.newVesselProved
      split
      · exact c.berth ha (fun _ => ⟨rfl, rfl, rfl, rfl, rfl, rfl⟩) hp
      · exact c.noticeBerth ha (c.enterState c.live ha (c.berth ha (fun _ => ⟨rfl, rfl, rfl, rfl, rfl, rfl⟩) hp))
  · split
    · unfold Machine.newVesselAdopted
      exact c.berth ha (fun _ => ⟨rfl, rfl, rfl, rfl, rfl, rfl⟩) hp
    · exact hp
  all_goals exact hp

theorem faultBay (c : Closed (fun _ => True) P) {k : BayId} (hp : P s) : P (faultBay k s) := by
  unfold Machine.faultBay bayFaultedNotice
  cases (s.bay k).berth
  · exact c.noticePlain (c.bay _ (fun _ => rfl) hp)
  · exact c.noticeBerth trivial (c.bay _ (fun _ => rfl) hp)

theorem holderFaulted (c : Closed A P) (ha : A b) (hp : P s) : P (holderFaulted b s) := by
  unfold Machine.holderFaulted
  split
  · exact c.requeue ha hp
  · split
    · exact c.trip c.live ha hp
    · exact hp

theorem converterRunning (c : Closed A P) (ha : A b) (hp : P s) : P (converterRunning b s) := by
  unfold Machine.converterRunning
  split
  · exact c.startMethod c.live ha (c.clearInFlight ha hp)
  · exact hp

theorem converterAtBay (c : Closed (fun _ => True) P) {k : BayId} {r : ConverterReport} (hp : P s) :
    P (converterAtBay k r s) := by
  unfold Machine.converterAtBay
  dsimp only
  split
  · split
    · split
      · exact hp
      · exact c.converterRunning trivial hp
    · exact hp
  · split
    · exact hp
    · exact c.callPass (c.callPass (c.bay _ (fun _ => rfl) hp))
  · exact c.faultBay hp
  · split
    · exact c.holderFaulted trivial (c.faultBay hp)
    · exact c.faultBay hp
  all_goals exact hp

theorem requeueAll (c : Closed (fun _ => True) P) {l : List BerthId} (hp : P s) : P (requeueAll l s) := by
  have hl : ∀ (m : List (BerthId × Nat)) {u}, P u → P (m.foldl (fun t b => Machine.requeue b.1 b.2 t) u) := by
    intro m
    induction m with
    | nil => exact fun h => h
    | cons d m ih => exact fun h => ih (c.requeue trivial h)
  exact hl _ hp

theorem profileRemoved (c : Closed A P) (ha : A b) (hp : P s) : P (profileRemoved b s) := by
  unfold Machine.profileRemoved
  have h1 : P (loseProfile b s) := by
    unfold loseProfile
    exact c.noticeBerth ha (c.enterState c.live ha (c.berth ha (fun _ => ⟨rfl, rfl, rfl, rfl, rfl, rfl⟩) hp))
  split
  · exact h1
  · exact h1
  · split
    · exact c.berth ha (fun _ => ⟨rfl, rfl, rfl, rfl, rfl, rfl⟩) hp
    · exact hp
  all_goals exact hp

/-! ## Timers -/

theorem expireCoreTest (c : Closed A P) (ha : A b) (hp : P s) : P (expireCoreTest b s) := by
  unfold Machine.expireCoreTest
  split
  · exact c.failRun ha hp
  · exact hp

theorem expireTripOpen (c : Closed A P) (ha : A b) (hp : P s) : P (expireTripOpen b s) := by
  unfold Machine.expireTripOpen
  split
  · exact c.tripOpenFailed ha hp
  · exact hp

theorem expireOperation (c : Closed A P) (ha : A b) (hp : P s) : P (expireOperation b s) := by
  unfold Machine.expireOperation
  split
  · split
    · exact c.endOperation ha hp
    · exact hp
  · exact hp

theorem expireConverterStart (c : Closed (fun _ => True) P) (hp : P s) : P (expireConverterStart b s) := by
  unfold Machine.expireConverterStart
  split
  · split
    · exact c.requeue trivial (c.faultBay hp)
    · exact c.clearInFlight trivial hp
  · exact hp

theorem expireHold (c : Closed A P) (ha : A b) (hp : P s) : P (expireHold b s) := by
  unfold Machine.expireHold
  split
  · split
    · exact c.rampOutHoldFailed ha hp
    · exact c.changeoverFailure c.live ha hp
  · exact hp

theorem expireDeadWait (c : Closed A P) (ha : A b) (hp : P s) : P (expireDeadWait b s) := by
  unfold Machine.expireDeadWait
  split
  · exact c.changeoverFailure c.live ha hp
  · exact hp

theorem expireGensOff (c : Closed A P) (ha : A b) (hp : P s) : P (expireGensOff b s) := by
  unfold Machine.expireGensOff
  split
  · exact c.noticeBerth ha (c.clearInFlight ha hp)
  · exact hp

theorem expireGrantWait (c : Closed A P) (ha : A b) (hp : P s) : P (expireGrantWait b s) := by
  unfold Machine.expireGrantWait
  split
  · exact c.stepFailed c.live ha (c.withdrawRequest (c.updRamp ha hp))
  · exact hp

theorem expirePause (c : Closed A P) (ha : A b) (hp : P s) : P (expirePause b s) := by
  unfold Machine.expirePause
  split
  · exact c.abortRamp c.live ha hp
  · exact hp

theorem expireOverdraw (c : Closed A P) (ha : A b) (hp : P s) : P (expireOverdraw b s) := by
  unfold Machine.expireOverdraw
  split
  · split
    · unfold sendShed
      exact c.berth ha (fun _ => ⟨rfl, rfl, rfl, rfl, rfl, rfl⟩) (c.noticeBerth ha (c.send hp))
    · exact c.trip c.live ha hp
  · exact hp

theorem expireSpacing (c : Closed (fun _ => True) P) (hp : P s) : P (expireSpacing x s) := by
  unfold Machine.expireSpacing
  split
  · exact c.runChoice
      (c.sec (fun _ => ⟨rfl, rfl, rfl, rfl, rfl, rfl, rfl, rfl, rfl, fun _ h => h, fun _ => .inr rfl, .inr rfl⟩) hp)
  · exact hp

theorem demote (c : Closed A P) (ha : A b) (hp : P s) : P (demote b s) := by
  unfold Machine.demote
  split <;> exact c.updRamp ha hp

theorem expireLock (c : Closed (fun _ => True) P) (hp : P s) : P (expireLock x s) := by
  unfold Machine.expireLock
  split
  · split
    · exact c.runChoice (c.demote trivial (c.noticeBerth trivial (c.dropLock hp)))
    · exact hp
  · exact hp

theorem startOldest (c : Closed (fun _ => True) P) (hp : P s) : P (startOldest s) := by
  unfold Machine.startOldest
  split
  · exact hp
  · exact c.startChangeover c.live trivial (c.starts _ hp)

end Closed

end Sys2Proof.Machine
end

