-- ==== Sys2Proof/Laws/Frames.lean ====
section
/-! SUPPORT. Frames and the commands that take them: the bytes of a frame that parses, the row of a frame from its
kind, code and destination, and what each taking shape answers for a frame that has arrived and passes its checks. -/

namespace Sys2Proof.Machine

/-! ## Bytes -/

@[simp] theorem idOf_bytesId (i : EquipId) : idOf (i.extractLsb' 8 8) (i.extractLsb' 0 8) = i := by
  unfold idOf
  ext k hk
  simp only [BitVec.getElem_append, BitVec.getElem_extractLsb']
  split
  · simp [BitVec.getLsbD_eq_getElem hk]
  · simp [show 8 + (k - 8) = k by omega, BitVec.getLsbD_eq_getElem hk]

@[simp] theorem bytesId_idOf (a b : Byte) : bytesId (idOf a b) = [a, b] := by
  have g : ∀ k, (idOf a b).getLsbD k = if k < 8 then b.getLsbD k else a.getLsbD (k - 8) := by
    intro k
    have := BitVec.getLsbD_append (x := a) (y := b) (i := k)
    split <;> simp_all [idOf]
  simp only [bytesId, List.cons.injEq, and_true]
  constructor
  · apply BitVec.eq_of_getLsbD_eq
    intro k hk
    simp [g, hk]
  · apply BitVec.eq_of_getLsbD_eq
    intro k hk
    simp [g, hk]

theorem toNat_byte (n : Nat) : (byte n).toNat = n % 256 := BitVec.toNat_ofNat ..

@[simp] theorem length_bytesId (i : EquipId) : (bytesId i).length = 2 := rfl

theorem length_body (f : Frame) : f.body.length = 8 + f.payload.length := by
  simp [Frame.body]; omega

/-! ## Reading back -/

/-- What a frame that parses is made of. -/
theorem encode_of_parse {bytes : List Byte} {f : Frame} (h : parseFrame bytes = some f) : bytes = f.encode := by
  unfold parseFrame at h
  split at h
  · rename_i d1 d0 s1 s0 kind code tag len rest
    dsimp only at h
    split at h
    · rename_i hc
      obtain ⟨h2, hl, hm, hcrc⟩ := hc
      simp only [Option.some.injEq] at h
      subst h
      have hlen : byte (rest.take (rest.length - 2)).length = len := by
        apply BitVec.eq_of_toNat_eq
        rw [toNat_byte, List.length_take]
        simp only [Config.maxPayload] at hm
        omega
      unfold Frame.encode
      rw [← hcrc]
      simp only [Frame.body, bytesId_idOf, hlen]
      simp
    · simp at h
  · simp at h

theorem length_payload_of_parse {bytes : List Byte} {f : Frame} (h : parseFrame bytes = some f) :
    f.payload.length ≤ Config.maxPayload := by
  unfold parseFrame at h
  split at h
  · dsimp only at h
    split at h
    · rename_i hc
      simp only [Option.some.injEq] at h
      subst h
      rw [List.length_take]; omega
    · simp at h
  · simp at h

theorem parse_of_check {own : EquipId} {bytes : List Byte} {f : Frame} (h : checkFrame own bytes = some f) :
    parseFrame bytes = some f ∧ frameOk own f = true := by
  simpa [checkFrame, Option.filter_eq_some_iff] using h

/-- A frame that passes its checks is taken by the command of its kind, code and destination. -/
theorem rowOf_of_check {own : EquipId} {bytes : List Byte} {f : Frame} (h : checkFrame own bytes = some f) :
    rowOf own bytes = f.row own := by
  obtain ⟨hp, hok⟩ := parse_of_check h
  have hb := encode_of_parse hp
  subst hb
  simp only [Frame.encode, Frame.body, bytesId, rowOf, List.cons_append, List.nil_append, idOf_bytesId, Frame.row]
  by_cases h6 : f.kind = 6#8 ∧ f.code = codeWrite
  · have hs : 2 ≤ f.payload.length := by
      simp [frameOk, h6.1, h6.2, kindRequest, sizeOk, payloadSizes, codeWrite] at hok
      exact hok.1.1
    match hq : f.payload with
    | [] => simp [hq] at hs
    | a :: l => simp [h6.1, h6.2, at']
  · have h6' : f.kind.toNat = 6 → f.code ≠ codeWrite := fun h e => h6 ⟨BitVec.eq_of_toNat_eq h, e⟩
    split <;> simp_all

/-- A frame that some other command than GATE_DECISION takes is no ORDER. -/
theorem closingOrder_of_row {own : EquipId} {f : Frame} {row : FrameRow} (h : f.row own = row)
    (hr : row ≠ .gateDecision) : closingOrder f = false := by
  by_cases hk : f.kind = 1#8
  · exact absurd (by rw [← h]; simp [Frame.row, hk]) hr
  · have : (f.kind == kindOrder) = false := by simpa [kindOrder] using hk
    simp [closingOrder, this]

/-! ## Taking a frame -/

variable {s : State} {p : Port} {f : Frame} {e : EquipEntry} {d : Option EquipEntry} {row : FrameRow}

@[simp] theorem dropHead_route : (dropHead p s).route p f = s.route p f := rfl

/-- A frame that waits and passes R124 is taken by the command of its row. -/
theorem takeFrame_waits {act : Frame → State → State} (hw : Waits s p f) (hr : f.row s.ownId = row) :
    takeFrame row p act s = .next (act f (dropHead p s)) := by
  obtain ⟨bytes, rest, h1, h2⟩ := hw
  simp [takeFrame, h1, rowOf_of_check h2, hr, h2]

theorem routed_of_mapped {act : Frame → EquipEntry → Option EquipEntry → State → State}
    (h : s.route p f = some (e, d)) : routed p act f s = act f e d s := by simp [routed, h]

/-- A frame that arrives and passes R124 and R127 is acted on (R127). -/
theorem takeFrame_routed {act : Frame → EquipEntry → Option EquipEntry → State → State} (ha : Arrived s p f e d)
    (hr : f.row s.ownId = row) : takeFrame row p (routed p act) s = .next (act f e d (dropHead p s)) := by
  rw [takeFrame_waits ha.waits hr]
  exact congrArg _ (routed_of_mapped ha.mapped)

/-- A report for the part takes its effect, and is then consumed (R128, R130). -/
theorem takeReport_own {act : Frame → EquipEntry → State → State} (ha : Arrived s p f e none)
    (hr : f.row s.ownId = row) : takeReport row p act s = .next (finishEvent (act f e (dropHead p s))) :=
  takeFrame_routed ha hr

/-- A report for another party takes its effect, and is then forwarded (R130, R132). -/
theorem takeReport_other {act : Frame → EquipEntry → State → State} {g : EquipEntry} (ha : Arrived s p f e (some g))
    (hr : f.row s.ownId = row) :
    takeReport row p act s = .next (forward f p g.port (finishEvent (act f e (dropHead p s)))) :=
  takeFrame_routed ha hr

/-- A request to the part, from the right class and of the right size, is acted on (R129). -/
theorem takeFrame_requested {cls : EquipClass} {size : Nat} {act : Frame → EquipEntry → State → State}
    (ha : Arrived s p f e none) (hr : f.row s.ownId = row) (hc : e.cls = cls) (hs : f.payload.length = size) :
    takeFrame row p (requested cls size p act) s = .next (act f e (dropHead p s)) := by
  rw [requested, takeFrame_routed ha hr]
  simp [hc, hs]

/-- A ship's request acts on the berth of its SHIP_PMS entry and is answered (R4, R129). -/
theorem takeShipRequest_taken {act : BerthId → State → Status × State} {b : BerthId} (ha : Arrived s p f e none)
    (hr : f.row s.ownId = row) (hc : e.cls = .shipPms) (hs : f.payload = []) (hb : e.berth = some b) :
    takeShipRequest row p act s = .next (answer p f (act b (dropHead p s))) := by
  rw [takeShipRequest, takeFrame_requested ha hr hc (by simp [hs])]
  simp [hb]

/-- A control-room request acts on the berth it names and is answered (R4, R129). -/
theorem takeBerthRequest_taken {act : BerthId → State → Status × State} {b : BerthId} {n : Byte}
    (ha : Arrived s p f e none) (hr : f.row s.ownId = row) (hc : e.cls = .supervisor) (hs : f.payload = [n])
    (hb : berthOf n = some b) : takeBerthRequest row p act s = .next (answer p f (act b (dropHead p s))) := by
  rw [takeBerthRequest, takeFrame_requested ha hr hc (by simp [hs])]
  simp [hs, at', hb]

/-- A TABLE frame on SUP for the part is acted on (R128, R159). -/
theorem takeTable_taken {act : Frame → State → State} (ha : Arrived s portSUP f e none) (hr : f.row s.ownId = row) :
    takeTable row portSUP act s = .next (act f (dropHead portSUP s)) := by
  rw [takeTable, takeFrame_waits ha.waits hr]
  unfold managed
  split
  · rfl
  · rw [routed_of_mapped (by simpa using ha.mapped)]
    simp

end Sys2Proof.Machine
end

