-- ==== Sys2Proof/Laws/Commands.lean ====
section
/-! SUPPORT. What one command can do to the state: `CommandClosed` adds to `Closed` the changes that only commands
make, and `CommandClosed.exec` says that a property all of them keep is kept by every command. -/

namespace Sys2Proof.Machine

/-- The next state of an outcome has the property. -/
def Ends (P : State → Prop) (o : Host.Outcome State Fault Refusal) : Prop := ∃ t, o = .next t ∧ P t

/-- An entry that the map may take at a place (R126). -/
def EntryFits (s : State) (n : Fin 64) (e : EquipEntry) : Prop :=
  e.fitsClass = true ∧ e.id ≠ 0#16 ∧ e.id ≠ s.ownId ∧ ∀ m f, s.equipment[m] = some f → m ≠ n → e.clashes f = false

/-- A property that every change a command can make keeps. -/
structure CommandClosed (P : State → Prop) : Prop extends Closed (fun _ => True) P where
  powered : ∀ {s} found, P s → P { State.powerOn found with pending := s.pending }
  cleared : ∀ {s}, P s → P (clearDynamic s)
  silenced : ∀ {s}, P s → P { s with notices := [] }
  dropped : ∀ {s p}, P s → P (dropHead p s)
  received : ∀ {s} p bytes, P s → P (receive p bytes s)
  sending : ∀ {s} p, P s → P (startSending p s)
  offered : ∀ {s n rest}, s.notices = n :: rest → P s → P { s with notices := rest }
  ticked : ∀ {s}, P s → P (tick s)
  clock : ∀ {s} c, (s.clock.sound → c.sound) → P s → P { s with clock := c }
  unnoticed : ∀ {s} b, P s → P (updBerth b (fun r => { r with noticeCount := 0, noticeLimited := false }) s)
  profiles : ∀ {s} v, P s → P { s with profiles := v }
  timings : ∀ {s t}, t.ok = true → P s → P { s with timings := t }
  entered : ∀ {s n e}, (∀ x, e = some x → EntryFits s n x) → P s → P { s with equipment := s.equipment.set n e }
  gate : ∀ {s} g, P s → P { s with gate := g }
  limited : ∀ {s l} x, l ≤ Config.grantCap → P s →
    P (lowerOver x (raiseOver x (updSec x (fun r => { r with limit := l }) s)))
  bypassLimited : ∀ {s l} x, l ≤ Config.bypassMax → P s → P (updSec x (fun r => { r with bypassLimit := l }) s)
  moved : ∀ {s b} x, (s.berth b).state = .outOfService → P s → P (updBerth b (fun r => { r with sec := x }) s)
  reset : ∀ {s b}, (∀ x, b ∉ (s.sec x).queue) → P s → P (updBerth b Berth.resetDynamic s)
  line : ∀ {s} b f, P s → P (updLine b f s)
  observed : ∀ {s} b f, P s → P (observe b f s)
  positioned : ∀ {s} i p, P s → P (storePosition i p s)
  synced : ∀ {s} x v, P s → P (updSec x (fun r => { r with syncResult := v }) s)
  reported : ∀ {s} k v, P s → P (updBay k (fun r => { r with report := v }) s)
  fed : ∀ {s} x v, P s → P (updSec x (fun r => { r with feeder := v }) s)
  moded : ∀ {s} x v, P s → P (updSec x (fun r => { r with mode := v }) s)
  device : ∀ {s i n r}, i ≠ 0#16 → s.entryOf i = none → n ≤ 23 → within 1 60 r = true → P s →
    P { s with ownId := i, clock := { s.clock with boundaryHour := n }, retention := r }

variable {P : State → Prop} {s : State} {b : BerthId} {x : SectionId} {p : Port}

theorem Ends.mono {Q : State → Prop} {o : Host.Outcome State Fault Refusal} (hpq : ∀ t, P t → Q t) (h : Ends P o) :
    Ends Q o := by
  obtain ⟨t, e, ht⟩ := h
  exact ⟨t, e, hpq t ht⟩

namespace CommandClosed

theorem next (hp : P s) : Ends P (.next s) := ⟨s, rfl, hp⟩

theorem forBerths (_c : CommandClosed P) {f : BerthId → State → State} (hf : ∀ b {u}, P u → P (f b u)) (hp : P s) :
    P (forBerths f s) := by
  have hl : ∀ (l : List BerthId) {u}, P u → P (l.foldl (fun t b => f b t) u) := by
    intro l
    induction l with
    | nil => exact fun h => h
    | cons b l ih => exact fun h => ih (hf b h)
  exact hl _ hp

/-! ## Taking frames -/

theorem takeFrame (c : CommandClosed P) {row : FrameRow} {act : Frame → State → State}
    (ha : ∀ f {u}, f.row s.ownId = row → P u → P (act f u)) (hp : P s) : Ends P (takeFrame row p act s) := by
  have hd : P (dropHead p s) := c.dropped hp
  unfold Machine.takeFrame
  split
  · exact next hp
  · split
    · rename_i hr
      split
      · exact next (c.port (fun _ => ⟨rfl, rfl, rfl⟩) hd)
      · rename_i f hf
        exact next (ha f ((rowOf_of_check hf).symm.trans hr) hd)
    · exact next hp

theorem countUnmapped (c : CommandClosed P) (hp : P s) : P (countUnmapped p s) :=
  c.port (fun _ => ⟨rfl, rfl, rfl⟩) hp

theorem routed (c : CommandClosed P) {f : Frame} {act : Frame → EquipEntry → Option EquipEntry → State → State}
    (ha : ∀ e d, P (act f e d s)) (hp : P s) : P (routed p act f s) := by
  unfold Machine.routed
  split
  · exact c.countUnmapped hp
  · exact ha _ _

theorem takeReport (c : CommandClosed P) {row : FrameRow} (hr : row ≠ .gateDecision)
    {act : Frame → EquipEntry → State → State} (ha : ∀ f e {u}, P u → P (act f e u)) (hp : P s) :
    Ends P (takeReport row p act s) := by
  refine c.takeFrame (fun f u hf hu => c.routed (fun e d => ?_) hu) hp
  have h1 := c.finishEvent (ha f e hu)
  cases d
  · exact h1
  · exact c.forward (closingOrder_of_row hf hr) h1

theorem reply (c : CommandClosed P) {f : Frame} {t : Status} (hp : P s) : P (reply p f t s) := c.sendReply hp

theorem answer (c : CommandClosed P) {f : Frame} {r : Status × State} (hp : P r.2) : P (answer p f r) :=
  c.reply (c.finishEvent hp)

theorem requested (c : CommandClosed P) {cls : EquipClass} {n : Nat} {f : Frame}
    {act : Frame → EquipEntry → State → State} (ha : ∀ f e {u}, P u → P (act f e u)) (hp : P s) :
    P (requested cls n p act f s) := by
  refine c.routed (fun e d => ?_) hp
  split
  · exact c.reply hp
  · split
    · exact c.reply hp
    · exact ha _ _ hp

theorem takeShipRequest (c : CommandClosed P) {row : FrameRow} {act : BerthId → State → Status × State}
    (ha : ∀ b {u}, P u → P (act b u).2) (hp : P s) : Ends P (takeShipRequest row p act s) := by
  refine c.takeFrame (fun f u _ hu => c.requested (fun f e u hu => ?_) hu) hp
  split
  · exact c.answer (ha _ hu)
  · exact hu

theorem takeBerthRequest (c : CommandClosed P) {row : FrameRow} {act : BerthId → State → Status × State}
    (ha : ∀ b {u}, P u → P (act b u).2) (hp : P s) : Ends P (takeBerthRequest row p act s) := by
  refine c.takeFrame (fun f u _ hu => c.requested (fun f e u hu => ?_) hu) hp
  split
  · exact c.answer (ha _ hu)
  · exact c.reply hu

theorem tableReply (c : CommandClosed P) {f : Frame} {t : Status} {l : List Byte} (hp : P s) :
    P (tableReply p f t l s) := c.sendReply hp

theorem takeTable (c : CommandClosed P) {row : FrameRow} {act : Frame → State → State}
    (ha : ∀ f {u}, P u → P (act f u)) (hp : P s) : Ends P (takeTable row p act s) := by
  refine c.takeFrame (fun f u _ hu => ?_) hp
  unfold managed
  split
  · exact ha f hu
  · refine c.routed (fun e d => ?_) hu
    split
    · exact ha f hu
    · exact c.tableReply hu

theorem writeAt (c : CommandClosed P) {n size : Nat} {rule : Fin n → List Byte → State → Status × State}
    {body : Fin n → State → List Byte} (hr : ∀ k l {u}, P u → P (rule k l u).2) {f : Frame} (hp : P s) :
    P (writeAt n size rule body p f s) := by
  unfold Machine.writeAt
  extract_lets i
  split
  · extract_lets k
    split
    · exact c.tableReply (c.finishEvent (hr _ _ hp))
    · exact c.tableReply hp
  · exact c.tableReply hp

/-! ## The lines -/

theorem stampFault (c : CommandClosed P) {l : FaultLine} (hp : P s) : P (stampFault b l s) :=
  c.berth trivial (fun _ => ⟨rfl, rfl, rfl, rfl, rfl, rfl⟩) (c.line _ _ hp)

theorem activateFault (c : CommandClosed P) {l : FaultLine} {e : State → State} (he : ∀ {u}, P u → P (e u))
    (hp : P s) : P (activateFault b l e s) := by
  unfold Machine.activateFault
  dsimp only
  split
  · exact hp
  · split
    · exact he (c.stampFault hp)
    · exact c.line _ _ hp

theorem strainEffect (c : CommandClosed P) (hp : P s) : P (strainEffect b s) := c.lineEvent trivial (c.line _ _ hp)

theorem expireStrain (c : CommandClosed P) (hp : P s) : P (expireStrain b s) := by
  unfold Machine.expireStrain
  dsimp only
  split
  · split
    · exact c.trip c.live trivial (c.line _ _ hp)
    · exact c.noticeBerth trivial (c.line _ _ hp)
  · exact hp

theorem activateLatch (c : CommandClosed P) (hp : P s) : P (activateLatch b s) := by
  have h1 : P (stampLatch b s) := c.berth trivial (fun _ => ⟨rfl, rfl, rfl, rfl, rfl, rfl⟩) (c.line _ _ hp)
  unfold Machine.activateLatch
  dsimp only
  split
  · exact hp
  · split
    · exact c.startProving trivial (c.enterState c.live trivial (c.berth trivial (fun _ => ⟨rfl, rfl, rfl, rfl, rfl, rfl⟩) h1))
    · exact h1

theorem deactivateLatch (c : CommandClosed P) (hp : P s) : P (deactivateLatch b s) := by
  unfold Machine.deactivateLatch
  split
  · exact hp
  · exact c.latchLostEffect trivial (c.line _ _ hp)

/-! ## The clock -/

theorem nightSummary (c : CommandClosed P) (hp : P s) : P (nightSummary b s) := by
  have h1 : P (updBerth b (fun r => { r with
      lastNight := some (s.lastNightOf (s.berth b).tally), tally := Tally.cleared }) s) :=
    c.berth trivial (fun _ => ⟨rfl, rfl, rfl, rfl, rfl, rfl⟩) hp
  unfold Machine.nightSummary
  dsimp only
  split
  · exact c.noticeBerth trivial h1
  · exact h1

theorem housekeeping (c : CommandClosed P) (hp : P s) : P (housekeeping s) := by
  have h1 := c.forBerths (f := Machine.nightSummary) (fun _ _ h => c.nightSummary h) hp
  have h2 : ∀ {u}, P u → P (clearNoticeCounts u) := fun h =>
    c.forBerths (f := fun b => Machine.updBerth b fun r => { r with noticeCount := 0, noticeLimited := false })
      (fun b _ h => c.unnoticed b h) h
  unfold Machine.housekeeping
  generalize Machine.forBerths Machine.nightSummary s = t at h1 ⊢
  refine c.cables _ (h2 (c.clock { t.clock with night := (t.clock.night + 1) % Config.nightModulus } (fun h => ?_) h1))
  exact ⟨h.1, Nat.mod_lt _ (by decide), h.2.2⟩

theorem runBoundary (c : CommandClosed P) (hp : P s) : P (runBoundary s) := by
  unfold Machine.runBoundary
  split
  · exact c.housekeeping (c.clock _ (fun h => h) hp)
  · exact hp

theorem setClockTo (c : CommandClosed P) {n : Nat} (hp : P s) : P (setClockTo n s).2 := by
  unfold Machine.setClockTo
  split
  · rename_i hn
    have h1 : P { s with clock := { s.clock with time := n } } := by
      exact c.clock _ (fun h => ⟨hn, h.2⟩) hp
    dsimp only
    split
    · exact c.housekeeping h1
    · exact h1
  · exact hp

/-! ## Start-up -/

theorem restartPart (c : CommandClosed P) {f : Frame} (hp : P s) : P (restartPart p f s) :=
  c.noticePlain (c.silenced (c.reply (c.forBerths (fun _ _ h => c.refuseHeld trivial h) (c.cleared hp))))

/-! ## Requests -/

theorem leaveService (c : CommandClosed P) (hp : P s) : P (leaveService b s) := by
  refine c.reset (fun x => ?_) (c.refuseHeld trivial (c.unlinkCable (c.leaveQueue trivial hp)))
  rw [refuseHeld_sec]
  cases x <;> simp [Machine.leaveQueue, Machine.unlinkCable, SectionRec.without, State.sec, updSec]

theorem outOfService (c : CommandClosed P) (hp : P s) : P (outOfService b s).2 := by
  unfold Machine.outOfService
  repeat' split
  all_goals first
    | exact hp
    | exact c.leaveService hp

/-! ## Reports -/

theorem fromBerth (_c : CommandClosed P) {α : Type} {cls : EquipClass} {read : List Byte → Option α}
    {act : BerthId → α → State → State} (ha : ∀ b a {u}, P u → P (act b a u)) {f : Frame} {e : EquipEntry}
    (hp : P s) : P (fromBerth cls read act f e s) := by
  unfold Machine.fromBerth
  split
  · split
    · exact ha _ _ hp
    · exact hp
  · exact hp

theorem fromSection (_c : CommandClosed P) {α : Type} {cls : EquipClass} {read : List Byte → Option α}
    {act : SectionId → α → State → State} (ha : ∀ x a {u}, P u → P (act x a u)) {f : Frame} {e : EquipEntry}
    (hp : P s) : P (fromSection cls read act f e s) := by
  unfold Machine.fromSection
  split
  · split
    · exact ha _ _ hp
    · exact hp
  · exact hp

theorem takePosition (c : CommandClosed P) {f : Frame} {e : EquipEntry} (hp : P s) : P (takePosition f e s) := by
  unfold Machine.takePosition
  split
  · exact hp
  · split
    · exact hp
    · split
      · exact c.positionAtBerth trivial (c.positioned _ _ hp)
      · exact c.positioned _ _ hp
      · exact hp

theorem takeSyncResult (c : CommandClosed P) {o : SyncOutcome} (hp : P s) : P (takeSyncResult x o s) := by
  have h1 : P (updSec x (fun r => { r with syncResult := some o }) s) :=
    c.synced x (some o) hp
  unfold Machine.takeSyncResult
  dsimp only
  split
  · exact c.endOperation trivial h1
  · exact h1

theorem takeStepDone (c : CommandClosed P) {r : StepDoneReport} (hp : P s) : P (takeStepDone b r s) := by
  unfold Machine.takeStepDone
  dsimp only
  split
  · exact c.endOperation trivial (c.updRamp trivial (c.observed _ _ hp))
  · exact c.observed _ _ hp

theorem takeShipState (c : CommandClosed P) {r : ShipStateReport} (hp : P s) : P (takeShipState b r s) := by
  have h1 := c.updRamp (b := b) trivial (f := fun c => { c with shoreSeen := some r.shoreLoad })
    (c.observed b (fun o => { o with shipState := some r }) hp)
  unfold Machine.takeShipState
  extract_lets t u
  have hu : P u := by
    show P (if _ then _ else _)
    split
    · exact c.compareLoad trivial h1
    · exact h1
  exact c.deadBusSeen trivial (c.gensOffSeen trivial hu)

theorem takeHoldState (c : CommandClosed P) {a : HoldAnswer} (hp : P s) : P (takeHoldState b a s) :=
  c.holdAtBerth trivial (c.observed b (fun o => { o with holdState := some a }) hp)

theorem takeVesselId (c : CommandClosed P) {v : Num32} (hp : P s) : P (takeVesselId b v s) :=
  c.vesselAtBerth trivial (c.observed b (fun o => { o with vesselId := some v }) hp)

theorem takeConverterState (c : CommandClosed P) {f : Frame} {e : EquipEntry} (hp : P s) :
    P (takeConverterState f e s) := by
  unfold Machine.takeConverterState
  split
  · split
    · exact c.converterAtBay (c.reported _ _ hp)
    · exact hp
  · exact hp

theorem feederLost (c : CommandClosed P) (hp : P s) : P (feederLost x s) := by
  have h1 : P (noticeSection x .feederLost [] (updSec x (fun r => { r with feeder := .lost }) s)) :=
    c.noticeSection (c.fed x .lost hp)
  have h2 : ∀ (l : List BerthId) {u}, P u → P (l.foldl (fun u b => Machine.trip .quiet b .feederLost none u) u) := by
    intro l
    induction l with
    | nil => exact fun h => h
    | cons d l ih => exact fun h => ih (c.trip .quiet trivial h)
  unfold Machine.feederLost
  dsimp only
  split
  · exact c.runChoice (c.requeueAll (h2 _ h1))
  · exact c.requeueAll (h2 _ h1)

theorem takeFeederState (c : CommandClosed P) {v : Bool} (hp : P s) : P (takeFeederState x v s) := by
  unfold Machine.takeFeederState
  split
  · have h1 : P (callPass x (updSec x (fun r => { r with feeder := .live }) s)) :=
      c.callPass (c.fed x .live hp)
    unfold Machine.feederLive
    dsimp only
    split
    · exact c.noticeSection h1
    · exact h1
    · exact hp
  · split
    · exact hp
    · exact c.feederLost hp

/-- Two changes of a section's record that agree on it give the same state. -/
theorem updSec_congr {f g : SectionRec → SectionRec} (h : f (s.sec x) = g (s.sec x)) :
    updSec x f s = updSec x g s := by
  cases x <;> simp only [updSec, State.sec] at h ⊢ <;> rw [h]

theorem localClaim (c : CommandClosed P) (hp : P s) : P (localClaim x s) := by
  have hs : P (updSec x (fun r => { r with localPending := true }) s) :=
    c.sec (fun _ => ⟨rfl, rfl, rfl, rfl, rfl, rfl, rfl, rfl, rfl, fun _ h => h, fun _ => .inr rfl, .inr rfl⟩) hp
  unfold Machine.localClaim
  match h1 : (s.sec x).arbiter, h2 : (s.sec x).lock with
  | .partIdle, none =>
    rw [updSec_congr (g := fun r => { r with localPending := (s.sec x).localPending, arbiter := .localPanel })
      (by simp [SectionRec.claim, h1, h2])]
    exact c.panel _ h1 hp
  | .partIdle, some _ => rwa [updSec_congr (g := fun r => { r with localPending := true }) (by simp [SectionRec.claim, h1, h2])]
  | .partBusy, _ => rwa [updSec_congr (g := fun r => { r with localPending := true }) (by simp [SectionRec.claim, h1])]
  | .localPanel, _ =>
    rw [updSec_congr (g := fun r => r) (by simp [SectionRec.claim, h1])]
    cases x <;> exact hp

theorem localRelease (c : CommandClosed P) (hp : P s) : P (localRelease x s) := by
  unfold Machine.localRelease
  split
  · rename_i h; exact c.runChoice (c.unpanel h hp)
  all_goals
    exact c.sec (fun _ => ⟨rfl, rfl, rfl, rfl, rfl, rfl, rfl, rfl, rfl, fun _ h => h, fun _ => .inr rfl, .inr rfl⟩) hp

/-! ## Timers -/

/-! ## Tables -/

theorem replySeries (c : CommandClosed P) {f : Frame} {l : List Byte} (hp : P s) : P (replySeries p f l s) := by
  have hl : ∀ (m : List (List Byte)) {u}, P u → P (m.foldl (fun t body => Machine.tableReply p f .accepted body t) u) := by
    intro m
    induction m with
    | nil => exact fun h => h
    | cons d m ih => exact fun h => ih (c.tableReply h)
  exact hl _ hp

theorem readAt (c : CommandClosed P) {n : Nat} {f : Frame} {entry : Fin n → State → State}
    (he : ∀ k {u}, P u → P (entry k u)) (hp : P s) : P (readAt n p f entry s) := by
  unfold Machine.readAt
  extract_lets i
  split
  · split
    · exact he _ hp
    · exact c.tableReply hp
  · exact c.tableReply hp

theorem readTable (c : CommandClosed P) {f : Frame} (hp : P s) : P (readTable p f s) := by
  have h1 : ∀ {l u}, P u → P (Machine.replyEntry p f l u) := fun h => c.tableReply h
  have h2 : ∀ {l u}, P u → P (Machine.replySeries p f l u) := fun h => c.replySeries h
  unfold Machine.readTable
  split
  all_goals first
    | exact c.readAt (fun _ _ h => h1 h) hp
    | exact c.readAt (fun _ _ h => h2 h) hp
    | exact c.tableReply hp

theorem writeNoTable (c : CommandClosed P) {f : Frame} (hp : P s) : P (writeNoTable p f s) := by
  unfold Machine.writeNoTable
  repeat' split
  all_goals exact c.tableReply hp

theorem forgetEntry (c : CommandClosed P) {e : EquipEntry} (hp : P s) : P (forgetEntry e s) := by
  unfold Machine.forgetEntry
  split
  · exact c.observed _ _ hp
  · exact c.observed _ _ hp
  · exact c.synced _ none hp
  · exact c.reported _ none hp
  · exact hp

theorem putEntry (c : CommandClosed P) {n : Fin 64} {e : Option EquipEntry} (he : ∀ x, e = some x → EntryFits s n x)
    (hp : P s) : P (putEntry n e s) := by
  unfold Machine.putEntry
  split
  · exact c.entered he hp
  · split
    · rename_i x
      split
      · refine c.entered ?_ hp
        intro y hy
        simp only [Option.some.injEq] at hy
        subst hy
        exact he x rfl
      · exact c.forgetEntry (c.entered he hp)
    · exact c.forgetEntry (c.entered (fun _ h => by simp at h) hp)

theorem writeEquipment (c : CommandClosed P) {n : Fin 64} {l : List Byte} (hp : P s) :
    P (writeEquipment n l s).2 := by
  unfold Machine.writeEquipment
  split
  · exact hp
  · rename_i new hw
    dsimp only
    split
    · exact hp
    · rename_i hcl
      split
      · exact hp
      · refine c.putEntry ?_ hp
        intro e he
        subst he
        have hb : e.fitsClass = true ∧ e.id ≠ 0#16 ∧ e.id ≠ s.ownId := by
          unfold equipWanted at hw
          split at hw
          · simp at hw
          · simp at hw
          · simp only [Option.map_eq_some_iff, Option.some.injEq, exists_eq_right, Option.filter_eq_some_iff,
              Bool.and_eq_true, bne_iff_ne] at hw
            exact ⟨hw.2.1.1, hw.2.1.2, hw.2.2⟩
        refine ⟨hb.1, hb.2.1, hb.2.2, fun m f hm hne => ?_⟩
        simp only [Option.map_some, Option.getD_some, Bool.not_eq_true, List.any_eq_false] at hcl
        have := hcl f (by
          simp only [State.otherEntries, List.mem_filterMap, List.mem_filter, List.mem_finRange, true_and]
          exact ⟨m, by simpa using hne, hm⟩)
        simpa using this

theorem writeGate (c : CommandClosed P) {n : Fin 48} {l : List Byte} (hp : P s) : P (writeGate n l s).2 := by
  unfold Machine.writeGate
  split
  · exact hp
  · exact c.forBerths (f := Machine.reevaluate) (fun _ _ h => c.reevaluate trivial h) (c.gate _ hp)

theorem writeBerths (c : CommandClosed P) {l : List Byte} (hp : P s) : P (writeBerths b l s).2 := by
  unfold Machine.writeBerths
  split
  · exact hp
  · split
    · rename_i h; exact c.moved _ h hp
    · exact hp

theorem changeLimit (c : CommandClosed P) {n : Nat} (hn : n ≤ Config.grantCap) (hp : P s) : P (changeLimit x n s) := by
  unfold Machine.changeLimit
  split
  · exact hp
  · exact c.callPass (c.limited x hn hp)

theorem changeBypassLimit (c : CommandClosed P) {n : Nat} (hn : n ≤ Config.bypassMax) (hp : P s) :
    P (changeBypassLimit x n s) := by
  unfold Machine.changeBypassLimit
  split
  · exact hp
  · exact c.callPass (c.bypassLimited x hn hp)

theorem writeSections (c : CommandClosed P) {n : Fin 2} {l : List Byte} (hp : P s) : P (writeSections n l s).2 := by
  unfold Machine.writeSections
  dsimp only
  split
  · exact hp
  · split
    · rename_i hw
      simp only [within, Bool.and_eq_true, decide_eq_true_eq] at hw
      exact c.changeBypassLimit hw.2.2 (c.changeLimit hw.1.2
        (c.moded _ _ hp))
    · exact hp

theorem profileArrived (c : CommandClosed P) {n : Fin 24} {o : Option Profile} {q : Profile} (hp : P s) :
    P (profileArrived n o q b s) := by
  unfold Machine.profileArrived
  dsimp only
  split
  · split
    · exact c.seekProfile trivial hp
    · exact hp
  · split
    · exact c.berth trivial (fun _ => ⟨rfl, rfl, rfl, rfl, rfl, rfl⟩) hp
    · exact hp
  · split
    · exact c.callPass hp
    · exact hp
  all_goals exact hp

theorem profileAtBerth (c : CommandClosed P) {n : Fin 24} {o q : Option Profile} (hp : P s) :
    P (profileAtBerth n o q b s) := by
  have h1 : P (if removesProfile o q = true ∧ (s.berth b).profile = some n then Machine.profileRemoved b s else s) := by
    split
    · exact c.profileRemoved trivial hp
    · exact hp
  unfold Machine.profileAtBerth
  dsimp only
  split
  · exact c.profileArrived h1
  · exact h1

theorem writeProfiles (c : CommandClosed P) {n : Fin 24} {l : List Byte} (hp : P s) : P (writeProfiles n l s).2 := by
  unfold Machine.writeProfiles
  split
  · exact hp
  · rename_i new _
    have h1 := c.forBerths (f := Machine.profileAtBerth n s.profiles[n] new) (fun _ _ h => c.profileAtBerth h)
      (c.profiles (s.profiles.set n new) hp)
    dsimp only
    repeat' split
    all_goals with_reducible first
      | exact hp
      | exact h1

theorem writeCables (c : CommandClosed P) {n : Fin 32} {l : List Byte} (hp : P s) : P (writeCables n l s).2 := by
  unfold Machine.writeCables
  repeat' split
  all_goals first
    | exact hp
    | exact c.updCable hp

theorem writeTimings (c : CommandClosed P) {n : Fin 1} {l : List Byte} (hp : P s) : P (writeTimings n l s).2 := by
  unfold Machine.writeTimings
  dsimp only
  split
  · rename_i h; exact c.timings h hp
  · exact hp

theorem writeLines (c : CommandClosed P) {l : List Byte} (hp : P s) : P (writeLines b l s).2 := by
  unfold Machine.writeLines
  split
  · exact hp
  · exact c.line _ _ hp

theorem writeDevice (c : CommandClosed P) {n : Fin 1} {l : List Byte} (hp : P s) : P (writeDevice n l s).2 := by
  unfold Machine.writeDevice
  dsimp only
  split
  · rename_i h; exact c.device h.1 h.2.1 h.2.2.1 h.2.2.2 hp
  · exact hp

/-! ## Every command -/

theorem offerNotice (c : CommandClosed P) (hp : P s) : P (offerNotice s) := by
  unfold Machine.offerNotice
  split
  · rename_i hn _
    split
    · rename_i hf; exact c.own hf (c.offered hn hp)
    · exact hp
  · exact hp

/-- A command answers a next state, and that state has every property that the changes of a command keep. -/
theorem exec (c : CommandClosed P) (i : Instr) (hp : P s) : Ends P (exec i s) := by
  have fe : ∀ {u}, P u → Ends P (.next (Machine.finishEvent u)) := fun h => next (c.finishEvent h)
  cases i <;> simp only [Machine.exec]
  case powerOn found => exact next (c.powered found hp)
  case restart p => exact c.takeFrame (fun f u _ hu => c.requested (fun f e u hu => c.restartPart hu) hu) hp
  case clockTick => exact next (c.ticked hp)
  case nightBoundary => exact next (c.runBoundary hp)
  case receiveFrame p l => exact next (c.received p l hp)
  case transmitStart p => exact next (c.sending p hp)
  case noticeOffer => exact next (c.offerNotice hp)
  case gateDecision p =>
    refine c.takeFrame (fun f u _ hu => c.routed (fun e d => ?_) hu) hp
    split
    · exact c.gateDecide hu
    · split
      · exact c.refuse hu
      · exact c.reply hu
  case forwardFrame p =>
    refine c.takeFrame (fun f u hf hu => c.routed (fun e d => ?_) hu) hp
    cases d
    · exact hu
    · exact c.forward (closingOrder_of_row hf (by decide)) hu
  case shoreWanted p => exact c.takeShipRequest (fun _ _ h => c.askShore trivial h) hp
  case releaseWanted p => exact c.takeShipRequest (fun _ _ h => c.releaseWanted trivial h) hp
  case withdraw p => exact c.takeShipRequest (fun _ _ h => c.withdraw trivial h) hp
  case service p => exact c.takeBerthRequest (fun _ _ h => c.service trivial h) hp
  case outOfService p => exact c.takeBerthRequest (fun _ _ h => c.outOfService h) hp
  case admitBerth p => exact c.takeBerthRequest (fun _ _ h => c.askShore trivial h) hp
  case release p => exact c.takeBerthRequest (fun _ _ h => c.release trivial h) hp
  case ackTrip p => exact c.takeBerthRequest (fun _ _ h => c.ackTrip trivial h) hp
  case setClock p =>
    exact c.takeFrame (fun f u _ hu => c.requested (fun f e u hu => c.answer (c.setClockTo hu)) hu) hp
  case tableRead p => exact c.takeTable (fun _ _ h => c.readTable h) hp
  case tableWrite p => exact c.takeTable (fun _ _ h => c.writeNoTable h) hp
  case equipmentWrite p => exact c.takeTable (fun _ _ h => c.writeAt (fun _ _ _ h => c.writeEquipment h) h) hp
  case gateWrite p => exact c.takeTable (fun _ _ h => c.writeAt (fun _ _ _ h => c.writeGate h) h) hp
  case berthsWrite p => exact c.takeTable (fun _ _ h => c.writeAt (fun _ _ _ h => c.writeBerths h) h) hp
  case sectionsWrite p => exact c.takeTable (fun _ _ h => c.writeAt (fun _ _ _ h => c.writeSections h) h) hp
  case profilesWrite p => exact c.takeTable (fun _ _ h => c.writeAt (fun _ _ _ h => c.writeProfiles h) h) hp
  case cablesWrite p => exact c.takeTable (fun _ _ h => c.writeAt (fun _ _ _ h => c.writeCables h) h) hp
  case timingsWrite p => exact c.takeTable (fun _ _ h => c.writeAt (fun _ _ _ h => c.writeTimings h) h) hp
  case linesWrite p => exact c.takeTable (fun _ _ h => c.writeAt (fun _ _ _ h => c.writeLines h) h) hp
  case deviceWrite p => exact c.takeTable (fun _ _ h => c.writeAt (fun _ _ _ h => c.writeDevice h) h) hp
  case position p => exact c.takeReport (by decide) (fun _ _ _ h => c.takePosition h) hp
  case syncResult p =>
    exact c.takeReport (by decide) (fun _ _ _ h => c.fromSection (fun _ _ _ h => c.takeSyncResult h) h) hp
  case coreTest p =>
    exact c.takeReport (by decide)
      (fun _ _ _ h => c.fromBerth (fun _ _ _ h => c.takeCoreTest trivial (c.observed _ _ h)) h) hp
  case assignDone p =>
    exact c.takeReport (by decide)
      (fun _ _ _ h => c.fromBerth (fun _ _ _ h => c.takeAssignDone trivial (c.observed _ _ h)) h) hp
  case shipState p =>
    exact c.takeReport (by decide) (fun _ _ _ h => c.fromBerth (fun _ _ _ h => c.takeShipState h) h) hp
  case stepDone p =>
    exact c.takeReport (by decide) (fun _ _ _ h => c.fromBerth (fun _ _ _ h => c.takeStepDone h) h) hp
  case holdState p =>
    exact c.takeReport (by decide) (fun _ _ _ h => c.fromBerth (fun _ _ _ h => c.takeHoldState h) h) hp
  case vesselId p =>
    exact c.takeReport (by decide) (fun _ _ _ h => c.fromBerth (fun _ _ _ h => c.takeVesselId h) h) hp
  case converterState p => exact c.takeReport (by decide) (fun _ _ _ h => c.takeConverterState h) hp
  case feederState p =>
    exact c.takeReport (by decide) (fun _ _ _ h => c.fromSection (fun _ _ _ h => c.takeFeederState h) h) hp
  case localClaim p =>
    exact c.takeReport (by decide) (fun _ _ _ h => c.fromSection (fun _ _ _ h => c.localClaim h) h) hp
  case localRelease p =>
    exact c.takeReport (by decide) (fun _ _ _ h => c.fromSection (fun _ _ _ h => c.localRelease h) h) hp
  case estopActivation b => exact fe (c.activateFault (fun h => c.estopEffect trivial h) hp)
  case pilotActivation b => exact fe (c.activateFault (fun h => c.pilotEffect trivial h) hp)
  case strainActivation b => exact fe (c.activateFault c.strainEffect hp)
  case faultLineDeactivation b l => exact next (c.line _ _ hp)
  case latchActivation b => exact fe (c.activateLatch hp)
  case latchDeactivation b => exact fe (c.deactivateLatch hp)
  case strainGraceExpiry b => exact fe (c.expireStrain hp)
  case tripOpenTimeout b => exact fe (c.expireTripOpen trivial hp)
  case coreTestTimeout b => exact fe (c.expireCoreTest trivial hp)
  case operationTimeout b => exact fe (c.expireOperation trivial hp)
  case stepSpacingExpiry x => exact fe (c.expireSpacing hp)
  case lockTimerExpiry x => exact fe (c.expireLock hp)
  case grantWaitExpiry b => exact fe (c.expireGrantWait trivial hp)
  case pauseExpiry b => exact fe (c.expirePause trivial hp)
  case converterStartTimeout b => exact fe (c.expireConverterStart hp)
  case changeoverStart => exact fe (c.startOldest hp)
  case holdTimeout b => exact fe (c.expireHold trivial hp)
  case deadWaitExpiry b => exact fe (c.expireDeadWait trivial hp)
  case gensOffWaitExpiry b => exact fe (c.expireGensOff trivial hp)
  case overdrawExpiry b => exact fe (c.expireOverdraw trivial hp)
  case holdQueueExpiry b n => exact next (c.expireHeld trivial hp)

/-- A step answers a next state, and that state has every property that the changes of a command keep. -/
theorem step (c : CommandClosed P) (hw : ∀ {s} l, P s → P { s with pending := l }) (hp : P s) : Ends P (step s) := by
  unfold Machine.step
  split
  · exact next hp
  · exact c.exec _ (hw _ hp)

end CommandClosed

end Sys2Proof.Machine
end

