-- ==== Sys2Proof/Laws/Parts.lean ====
section
/-! SUPPORT. Invariants that speak of each port, each berth and each section on its own: such an invariant is kept by
every command as soon as each kind of change to one record keeps it. -/

namespace Sys2Proof.Machine

/-- A property of each port, each berth and each section. -/
structure Parts where
  port : PortRec → Prop
  berth : Berth → Prop
  sec : SectionRec → Prop

/-- Every port, berth and section has its property. -/
def Parts.Hold (Q : Parts) (s : State) : Prop :=
  (∀ p, Q.port (s.port p)) ∧ (∀ b, Q.berth (s.berth b)) ∧ ∀ x, Q.sec (s.sec x)

/-- A section's record with its over flag set if the granted sum exceeds the limit (R63). -/
def SectionRec.raised (r : SectionRec) : SectionRec := if r.limit < r.granted then { r with overFlag := true } else r

/-- A section's record with its over flag clear if the granted sum is within the limit (R63). -/
def SectionRec.lowered (r : SectionRec) : SectionRec := if r.granted ≤ r.limit then { r with overFlag := false } else r

/-- Each kind of change to one record keeps its property. -/
structure Parts.Kept (Q : Parts) : Prop where
  portInitial : Q.port .initial
  portPlain : ∀ {f r}, PortPlain f → Q.port r → Q.port (f r)
  dropped : ∀ {r}, Q.port r → Q.port { r with rx := r.rx.tail }
  portRestart : ∀ {r}, Q.port r → Q.port r.restart
  received : ∀ {r} bytes, r.rx.length < Config.rxDepth → Q.port r → Q.port { r with rx := r.rx ++ [bytes] }
  own : ∀ {r} f n, r.tx.length < Config.txSlots → Q.port r → Q.port { r with tx := r.tx ++ [⟨f, none⟩], tagCount := n }
  forwarded : ∀ {r f} a n, r.tx.length + Config.forwardRoom ≤ Config.txSlots → closingOrder f = false → Q.port r →
    Q.port { r with tx := r.tx ++ [⟨f, some a⟩], tagCount := n }
  displaced : ∀ {r rest g a} f n, takeOldestForwarded r.tx = some (rest, g, a) → Q.port r →
    Q.port { r with tx := rest ++ [⟨f, none⟩], tagCount := n }
  sent : ∀ {r t rest}, r.tx = t :: rest → Q.port r → Q.port { r with tx := rest, onLink := some t }
  berthInitial : ∀ x, Q.berth (.initial x)
  berthPlain : ∀ {f r}, BerthPlain f → Q.berth r → Q.berth (f r)
  went : ∀ {r} t, Q.berth r → Q.berth (Berth.goTo t r)
  observed : ∀ {r} o, Q.berth r → Q.berth { r with obs := o }
  bypass : ∀ {r} n, n ≤ Config.bypassMax → Q.berth r → Q.berth { r with bypass := n }
  noticed : ∀ {r}, r.noticeCount < Config.nightlyAllowance → Q.berth r →
    Q.berth { r with noticeCount := r.noticeCount + 1 }
  unnoticed : ∀ {r}, Q.berth r → Q.berth { r with noticeCount := 0, noticeLimited := false }
  held : ∀ {r h}, r.holdQueue.length < Config.holdPlaces → closingOrder h.frame = false → Q.berth r →
    Q.berth { r with holdQueue := r.holdQueue ++ [h] }
  unheld : ∀ {r l}, l.Sublist r.holdQueue → Q.berth r → Q.berth { r with holdQueue := l }
  moved : ∀ {r} x, Q.berth r → Q.berth { r with sec := x }
  reset : ∀ {r}, Q.berth r → Q.berth r.resetDynamic
  berthTick : ∀ {r}, Q.berth r → Q.berth r.tick
  secInitial : Q.sec .initial
  secPlain : ∀ {f r}, SecPlain f → Q.sec r → Q.sec (f r)
  synced : ∀ {r} v, Q.sec r → Q.sec { r with syncResult := v }
  fed : ∀ {r} v, Q.sec r → Q.sec { r with feeder := v }
  moded : ∀ {r} v, Q.sec r → Q.sec { r with mode := v }
  secRestart : ∀ {r}, Q.sec r → Q.sec r.restart
  secTick : ∀ {r}, Q.sec r → Q.sec r.tick
  less : ∀ {r} n, Q.sec r → Q.sec { r with granted := r.granted - n }
  more : ∀ {r n}, r.granted + n ≤ r.limit → Q.sec r → Q.sec { r with granted := r.granted + n }
  most : ∀ {r} n, Q.sec r → Q.sec (SectionRec.raised { r with granted := r.granted + n })
  lower : ∀ {r}, Q.sec r → Q.sec r.lowered
  limited : ∀ {r n}, n ≤ Config.grantCap → Q.sec r → Q.sec (SectionRec.raised { r with limit := n }).lowered
  bypassLimited : ∀ {r n}, n ≤ Config.bypassMax → Q.sec r → Q.sec { r with bypassLimit := n }
  asked : ∀ {r} (b : BerthId) k, Q.sec r → Q.sec { r with requests := r.requests.set b (some k) }
  queued : ∀ {r} n b, Q.sec r → Q.sec { r with queue := r.queue.insertIdx n b }
  freed : ∀ {r}, Q.sec r → Q.sec { r with arbiter := .partIdle, op := none }
  began : ∀ {r} (b : BerthId) k, Q.sec r → Q.sec { r with
    requests := r.requests.set b none, arbiter := .partBusy, op := some (b, k), lastGranted := some b }
  locked : ∀ {r} l, Q.sec r → Q.sec { r with lock := l }
  panel : ∀ {r} v, r.arbiter = .partIdle → Q.sec r → Q.sec { r with localPending := v, arbiter := .localPanel }
  unpanel : ∀ {r}, r.arbiter = .localPanel → Q.sec r → Q.sec { r with arbiter := .partIdle }

variable {Q : Parts} {s t : State}

/-! ## One record changes -/

theorem Parts.Hold.congr (h : Q.Hold s) (hp : t.ports = s.ports) (hb : t.berths = s.berths)
    (hA : t.sectionA = s.sectionA) (hB : t.sectionB = s.sectionB) : Q.Hold t := by
  refine ⟨fun p => ?_, fun b => ?_, fun x => ?_⟩
  · rw [State.port, hp]; exact h.1 p
  · rw [State.berth, hb]; exact h.2.1 b
  · cases x
    · rw [State.sec, hA]; exact h.2.2 .A
    · rw [State.sec, hB]; exact h.2.2 .B

theorem Parts.Hold.updPort (h : Q.Hold s) {p : Port} {f : PortRec → PortRec} (hf : Q.port (f (s.port p))) :
    Q.Hold (updPort p f s) := by
  refine ⟨fun q => ?_, h.2.1, h.2.2⟩
  rw [updPort_port]
  split
  · exact hf
  · exact h.1 q

theorem Parts.Hold.updBerth (h : Q.Hold s) {b : BerthId} {f : Berth → Berth} (hf : Q.berth (f (s.berth b))) :
    Q.Hold (updBerth b f s) := by
  refine ⟨h.1, fun c => ?_, h.2.2⟩
  rw [updBerth_berth]
  split
  · exact hf
  · exact h.2.1 c

theorem Parts.Hold.updSec (h : Q.Hold s) {x : SectionId} {f : SectionRec → SectionRec} (hf : Q.sec (f (s.sec x))) :
    Q.Hold (updSec x f s) := by
  refine ⟨fun p => by simpa using h.1 p, fun b => by simpa using h.2.1 b, fun y => ?_⟩
  rw [updSec_sec]
  split
  · exact hf
  · exact h.2.2 y

@[simp] theorem joinNotices_ports (n : NoticeRec) : (joinNotices n s).ports = s.ports := by
  unfold joinNotices; split <;> rfl
@[simp] theorem joinNotices_berths (n : NoticeRec) : (joinNotices n s).berths = s.berths := by
  unfold joinNotices; split <;> rfl
@[simp] theorem joinNotices_sectionA (n : NoticeRec) : (joinNotices n s).sectionA = s.sectionA := by
  unfold joinNotices; split <;> rfl
@[simp] theorem joinNotices_sectionB (n : NoticeRec) : (joinNotices n s).sectionB = s.sectionB := by
  unfold joinNotices; split <;> rfl
@[simp] theorem joinNotices_sec (n : NoticeRec) (x : SectionId) : (joinNotices n s).sec x = s.sec x := by
  cases x <;> simp [State.sec]

/-- Setting the over flag, up to the notice it may send, changes one record (R63). -/
theorem raiseOver_parts (x : SectionId) (s : State) :
    (raiseOver x s).ports = s.ports ∧ (raiseOver x s).berths = s.berths ∧
      ∀ y, (raiseOver x s).sec y = (updSec x SectionRec.raised s).sec y := by
  unfold raiseOver
  split
  · rename_i hc
    refine ⟨by simp [noticeSection], by simp [noticeSection], fun y => ?_⟩
    have : (s.sec x).raised = { s.sec x with overFlag := true } := by simp [SectionRec.raised, hc.1]
    simp [noticeSection, updSec_sec, this]
  · rename_i hc
    refine ⟨rfl, rfl, fun y => ?_⟩
    rw [updSec_sec]
    split
    · rename_i e
      subst e
      unfold SectionRec.raised
      split
      · rename_i hl
        have ho : (s.sec y).overFlag = true := by
          cases e : (s.sec y).overFlag
          · exact absurd ⟨hl, e⟩ hc
          · rfl
        rw [← ho]
      · rfl
    · rfl

theorem Parts.Hold.raiseOver (h : Q.Hold s) {x : SectionId} {f : SectionRec → SectionRec}
    (hf : Q.sec (f (s.sec x)).raised) : Q.Hold (raiseOver x (Machine.updSec x f s)) := by
  obtain ⟨hp, hb, hx⟩ := raiseOver_parts x (Machine.updSec x f s)
  refine ⟨fun p => ?_, fun b => ?_, fun y => ?_⟩
  · rw [State.port, hp]; simpa [State.port] using h.1 p
  · rw [State.berth, hb]; simpa [State.berth] using h.2.1 b
  · rw [hx, updSec_sec]
    split
    · simpa using hf
    · rename_i e; rw [updSec_sec_ne e]; exact h.2.2 y

theorem Parts.Hold.lowerOver (h : Q.Hold s) {x : SectionId} {f : SectionRec → SectionRec}
    (hf : Q.sec (f (s.sec x)).raised.lowered) : Q.Hold (lowerOver x (Machine.raiseOver x (Machine.updSec x f s))) := by
  obtain ⟨hp, hb, hx⟩ := raiseOver_parts x (Machine.updSec x f s)
  refine ⟨fun p => ?_, fun b => ?_, fun y => ?_⟩
  · rw [Machine.lowerOver, updSec_port, State.port, hp]; simpa [State.port] using h.1 p
  · rw [Machine.lowerOver, updSec_berth, State.berth, hb]; simpa [State.berth] using h.2.1 b
  · rw [Machine.lowerOver, updSec_sec]
    split
    · rw [hx, updSec_sec_same, updSec_sec_same]; exact hf
    · rename_i e; rw [hx, updSec_sec_ne e, updSec_sec_ne e]; exact h.2.2 y

theorem State.berth_map {f : Berth → Berth} {b : BerthId} (h : t.berths = s.berths.map f) :
    t.berth b = f (s.berth b) := by simp [State.berth, h]

theorem State.port_map {f : PortRec → PortRec} {p : Port} (h : t.ports = s.ports.map f) :
    t.port p = f (s.port p) := by simp [State.port, h]

/-- An invariant of the single records is kept by every command. -/
theorem Parts.Kept.closed (k : Q.Kept) : CommandClosed Q.Hold where
  asks := fun _ _ => trivial
  waits := fun _ _ => trivial
  berth := fun _ hf h => h.updBerth (k.berthPlain hf (h.2.1 _))
  moves := fun {s b} t _ h => by
    have hs : ∀ {u x}, Q.Hold u → Q.Hold (Machine.updSec x (SectionRec.without b) u) := fun h =>
      h.updSec (k.secPlain (fun r => ⟨rfl, rfl, rfl, rfl, rfl, rfl, rfl, rfl, rfl,
        fun d hd => (List.mem_filter.mp hd).1, fun _ => .inr rfl, .inr rfl⟩) (h.2.2 _))
    have hl : Q.Hold (leaveState b s) := by
      unfold leaveState
      split
      · have h1 := hs (x := .B) (hs (x := .A) h)
        exact h1.updBerth (k.bypass 0 (Nat.zero_le _) (h1.2.1 _))
      all_goals exact h.congr rfl rfl rfl rfl
    exact hl.updBerth (k.went t (hl.2.1 _))
  bypass := fun _ hg h => h.updBerth (k.bypass _ (hg _) (h.2.1 _))
  noticed := fun _ hn h => h.updBerth (k.noticed hn (h.2.1 _))
  held := fun _ hl hc h => h.updBerth (k.held hl hc (h.2.1 _))
  unheld := fun _ hl h => h.updBerth (k.unheld hl (h.2.1 _))
  cables := fun _ h => h.congr rfl rfl rfl rfl
  bay := fun j _ _ h => by cases j <;> exact h.congr rfl rfl rfl rfl
  turn := fun _ h => h.congr rfl rfl rfl rfl
  starts := fun _ h => h.congr rfl rfl rfl rfl
  passes := fun _ _ h => h.congr rfl rfl rfl rfl
  hit := fun _ h => h.congr rfl rfl rfl rfl
  joined := fun n h => h.congr (by simp) (by simp) (by simp) (by simp)
  port := fun hf h => h.updPort (k.portPlain hf (h.1 _))
  own := fun {s p f} hf h => h.updPort (k.own f _ (by unfold State.freeSlots at hf; omega) (h.1 p))
  forwarded := fun {s p f a} hf hc h => h.updPort (k.forwarded a _ (by
    unfold State.freeSlots at hf; have : Config.forwardRoom = 3 := rfl; omega) hc (h.1 p))
  displaced := fun {s p f rest g a} ht h => by
    refine Parts.Hold.congr (s := Machine.updPort p (fun r => { r with
      tx := rest ++ [⟨f, none⟩], tagCount := (r.tagCount + 1) % 256 }) s) (h.updPort (k.displaced f _ ht (h.1 p)))
      ?_ rfl rfl rfl
    simp [enqueue, Machine.updPort, State.port, Vector.set_set]
  sec := fun hf h => h.updSec (k.secPlain hf (h.2.2 _))
  less := fun _ n h => h.updSec (k.less n (h.2.2 _))
  more := fun hn h => h.updSec (k.more hn (h.2.2 _))
  most := fun _ n h => h.raiseOver (k.most n (h.2.2 _))
  lower := fun _ h => h.updSec (k.lower (h.2.2 _))
  asked := fun _ _ h => h.updSec (k.asked _ _ (h.2.2 _))
  queued := fun n _ _ h => h.updSec (k.queued n _ (h.2.2 _))
  freed := fun _ h => h.updSec (k.freed (h.2.2 _))
  began := fun _ _ _ h => h.updSec (k.began _ _ (h.2.2 _))
  locked := fun _ _ _ h => h.updSec (k.locked _ (h.2.2 _))
  panel := fun v hi h => h.updSec (k.panel v hi (h.2.2 _))
  unpanel := fun hi h => h.updSec (k.unpanel hi (h.2.2 _))
  powered := fun found _ => by
    refine ⟨fun p => ?_, fun b => ?_, fun x => ?_⟩
    · simpa [State.port, State.powerOn] using k.portInitial
    · fin_cases b <;> exact k.berthInitial _
    · cases x <;> exact k.secInitial
  cleared := fun h => by
    refine ⟨fun p => ?_, fun b => ?_, fun x => ?_⟩
    · rw [State.port_map rfl]; exact k.portRestart (h.1 p)
    · rw [State.berth_map rfl]; exact k.reset (h.2.1 b)
    · cases x
      · exact k.secRestart (h.2.2 .A)
      · exact k.secRestart (h.2.2 .B)
  silenced := fun h => h.congr rfl rfl rfl rfl
  dropped := fun h => h.updPort (k.dropped (h.1 _))
  received := fun p bytes h => h.updPort (by
    split
    · rename_i hl; exact k.received bytes hl (h.1 p)
    · exact k.portPlain (f := fun r => { r with overruns := satInc Config.countMax r.overruns })
        (fun _ => ⟨rfl, rfl, rfl⟩) (h.1 p))
  sending := fun p h => h.updPort (by
    split
    · exact h.1 p
    · rename_i e; exact k.sent e (h.1 p))
  offered := fun _ h => h.congr rfl rfl rfl rfl
  ticked := fun h => by
    refine ⟨h.1, fun b => ?_, fun x => ?_⟩
    · rw [State.berth_map rfl]; exact k.berthTick (h.2.1 b)
    · cases x
      · exact k.secTick (h.2.2 .A)
      · exact k.secTick (h.2.2 .B)
  clock := fun _ _ h => h.congr rfl rfl rfl rfl
  unnoticed := fun _ h => h.updBerth (k.unnoticed (h.2.1 _))
  profiles := fun _ h => h.congr rfl rfl rfl rfl
  timings := fun _ h => h.congr rfl rfl rfl rfl
  entered := fun _ h => h.congr rfl rfl rfl rfl
  gate := fun _ h => h.congr rfl rfl rfl rfl
  limited := fun _ hl h => h.lowerOver (k.limited hl (h.2.2 _))
  bypassLimited := fun _ hl h => h.updSec (k.bypassLimited hl (h.2.2 _))
  moved := fun _ _ h => h.updBerth (k.moved _ (h.2.1 _))
  reset := fun _ h => h.updBerth (k.reset (h.2.1 _))
  line := fun _ _ h => h.congr rfl rfl rfl rfl
  observed := fun _ _ h => h.updBerth (k.observed _ (h.2.1 _))
  positioned := fun _ _ h => h.congr rfl rfl rfl rfl
  synced := fun _ v h => h.updSec (k.synced v (h.2.2 _))
  reported := fun j _ h => by cases j <;> exact h.congr rfl rfl rfl rfl
  fed := fun _ v h => h.updSec (k.fed v (h.2.2 _))
  moded := fun _ v h => h.updSec (k.moded v (h.2.2 _))
  device := fun _ _ _ _ h => h.congr rfl rfl rfl rfl

end Sys2Proof.Machine
end

