-- ==== Sys2Proof/Laws/Untouched.lean ====
section
/-! SUPPORT. What the changes of an event leave alone: `Untouched` is closed under every change of an event, and
`OthersKept` under every change that acts on one berth. A berth that asks no arbiter and waits in no queue keeps its
record through the choices and passes that other berths' events set going. -/

namespace Sys2Proof.Machine

variable {s t u : State} {b : BerthId} {x : SectionId}

theorem Untouched.refl (s : State) : Untouched s s :=
  ⟨rfl, rfl, rfl, rfl, rfl, rfl, rfl, rfl, fun _ => rfl, fun _ => rfl, fun _ => ⟨rfl, rfl, rfl, rfl, rfl⟩,
    fun _ => ⟨rfl, rfl⟩, fun _ => rfl⟩

theorem Untouched.trans (h : Untouched s t) (g : Untouched t u) : Untouched s u where
  lines := g.lines.trans h.lines
  profiles := g.profiles.trans h.profiles
  equipment := g.equipment.trans h.equipment
  ownId := g.ownId.trans h.ownId
  clock := g.clock.trans h.clock
  timings := g.timings.trans h.timings
  retention := g.retention.trans h.retention
  pending := g.pending.trans h.pending
  received := fun p => (g.received p).trans (h.received p)
  gate := fun n => by rw [g.gate n, h.gate n]
  sections := fun x => ⟨(g.sections x).1.trans (h.sections x).1, (g.sections x).2.1.trans (h.sections x).2.1,
    (g.sections x).2.2.1.trans (h.sections x).2.2.1, (g.sections x).2.2.2.1.trans (h.sections x).2.2.2.1,
    (g.sections x).2.2.2.2.trans (h.sections x).2.2.2.2⟩
  berths := fun b => ⟨(g.berths b).1.trans (h.berths b).1, (g.berths b).2.trans (h.berths b).2⟩
  bays := fun k => (g.bays k).trans (h.bays k)

/-- A change of the berths, sections and bays that keeps their settings and observed values, and of nothing else. -/
theorem Untouched.records (h : Untouched s t)
    (hs : ∀ x, (u.sec x).limit = (t.sec x).limit ∧ (u.sec x).bypassLimit = (t.sec x).bypassLimit ∧
      (u.sec x).mode = (t.sec x).mode ∧ (u.sec x).feeder = (t.sec x).feeder ∧
      (u.sec x).syncResult = (t.sec x).syncResult)
    (hb : ∀ b, u.secOf b = t.secOf b ∧ (u.berth b).obs = (t.berth b).obs)
    (hk : ∀ k, (u.bay k).report = (t.bay k).report) (hp : ∀ p, (u.port p).rx = (t.port p).rx)
    (hg : ∀ n, u.gate[(n : Fin 48)] = { t.gate[n] with hits := u.gate[n].hits })
    (h1 : u.lines = t.lines := by first | rfl | simp) (h2 : u.profiles = t.profiles := by first | rfl | simp)
    (h3 : u.equipment = t.equipment := by first | rfl | simp) (h4 : u.ownId = t.ownId := by first | rfl | simp)
    (h5 : u.clock = t.clock := by first | rfl | simp) (h6 : u.timings = t.timings := by first | rfl | simp)
    (h7 : u.retention = t.retention := by first | rfl | simp) (h8 : u.pending = t.pending := by first | rfl | simp) : Untouched s u :=
  h.trans ⟨h1, h2, h3, h4, h5, h6, h7, h8, hp, hg, hs, hb, hk⟩

/-- A change of the berths alone. -/
theorem Untouched.updBerth (h : Untouched s t) {f : Berth → Berth}
    (hf : (f (t.berth b)).sec = (t.berth b).sec ∧ (f (t.berth b)).obs = (t.berth b).obs) :
    Untouched s (updBerth b f t) := by
  refine h.records (fun _ => by simp) (fun c => ?_) (fun _ => by simp) (fun _ => by simp) (fun _ => rfl)
  rw [State.secOf, State.secOf, updBerth_berth]
  split
  · rename_i e; rw [e]; exact hf
  · exact ⟨rfl, rfl⟩

/-- A change of one section that keeps its settings and observed values. -/
theorem Untouched.updSec (h : Untouched s t) {f : SectionRec → SectionRec}
    (hf : ∀ r, (f r).limit = r.limit ∧ (f r).bypassLimit = r.bypassLimit ∧ (f r).mode = r.mode ∧
      (f r).feeder = r.feeder ∧ (f r).syncResult = r.syncResult) : Untouched s (updSec x f t) := by
  refine h.records (fun y => ?_) (fun c => by simp) (fun _ => by simp) (fun _ => by simp) (fun _ => by simp)
  rw [updSec_sec]
  split
  · rename_i e; rw [e]; exact hf _
  · exact ⟨rfl, rfl, rfl, rfl, rfl⟩

theorem Untouched.joinNotices (h : Untouched s t) (n : NoticeRec) : Untouched s (joinNotices n t) := by
  unfold Machine.joinNotices
  split <;> exact h.records (fun x => by cases x <;> simp [State.sec]) (fun _ => ⟨rfl, rfl⟩)
    (fun k => by cases k <;> rfl) (fun _ => rfl) (fun _ => rfl)

theorem Untouched.updPort (h : Untouched s t) {p : Port} {f : PortRec → PortRec} (hf : ∀ r, (f r).rx = r.rx) :
    Untouched s (updPort p f t) := by
  refine h.records (fun x => by simp) (fun _ => by simp) (fun k => by simp) (fun q => ?_) (fun _ => rfl)
  rw [updPort_port]
  split
  · rename_i e; rw [hf, e]
  · rfl

/-- Settings, clock, lines, received frames and observed values outlive every event at a berth or an arbiter. -/
theorem Closed.untouched (s : State) : Closed (fun _ => True) (Untouched s) where
  asks := fun _ _ => trivial
  waits := fun _ _ => trivial
  berth := fun _ hf h => h.updBerth ⟨(hf _).2.1, (hf _).2.2.2.2.2⟩
  moves := fun {t b} st _ h => by
    have hl : Untouched s (leaveState b t) := by
      unfold leaveState leaveQueue
      split
      · exact ((h.updSec (f := SectionRec.without b) fun _ => ⟨rfl, rfl, rfl, rfl, rfl⟩).updSec
          (f := SectionRec.without b) fun _ => ⟨rfl, rfl, rfl, rfl, rfl⟩).updBerth ⟨rfl, rfl⟩
      · exact h.records (fun x => by cases x <;> simp [State.sec]) (fun _ => ⟨rfl, rfl⟩) (fun k => by cases k <;> rfl)
          (fun _ => rfl) (fun _ => rfl)
      all_goals exact h
    exact hl.updBerth ⟨rfl, rfl⟩
  bypass := fun _ _ h => h.updBerth ⟨rfl, rfl⟩
  noticed := fun _ _ h => h.updBerth ⟨rfl, rfl⟩
  held := fun _ _ _ h => h.updBerth ⟨rfl, rfl⟩
  unheld := fun _ _ h => h.updBerth ⟨rfl, rfl⟩
  cables := fun _ h => ⟨h.1, h.2, h.3, h.4, h.5, h.6, h.7, h.8, h.9, h.10, h.11, h.12, h.13⟩
  bay := fun {t} k f hf h => by
    refine h.records (fun x => by simp) (fun _ => by simp) (fun j => ?_) (fun _ => by simp) (fun _ => by simp)
    cases j <;> cases k <;> first | exact hf _ | rfl
  turn := fun _ h => ⟨h.1, h.2, h.3, h.4, h.5, h.6, h.7, h.8, h.9, h.10, h.11, h.12, h.13⟩
  starts := fun _ h => ⟨h.1, h.2, h.3, h.4, h.5, h.6, h.7, h.8, h.9, h.10, h.11, h.12, h.13⟩
  passes := fun _ _ h => ⟨h.1, h.2, h.3, h.4, h.5, h.6, h.7, h.8, h.9, h.10, h.11, h.12, h.13⟩
  hit := fun {t} n h => by
    refine h.records (fun x => by cases x <;> exact ⟨rfl, rfl, rfl, rfl, rfl⟩) (fun _ => ⟨rfl, rfl⟩)
      (fun k => by cases k <;> rfl) (fun _ => rfl) (fun m => ?_)
    simp only [countHit, Fin.getElem_fin, Vector.getElem_set]
    split
    · rename_i e; simp [e]
    · rfl
  joined := fun n h => h.joinNotices n
  port := fun hf h => h.updPort fun r => (hf r).1
  own := fun _ h => h.updPort fun _ => rfl
  forwarded := fun _ _ h => h.updPort fun _ => rfl
  displaced := fun {t p f rest g a} _ h => by
    have h1 : Untouched s (updPort p (fun r => { r with tx := rest }) t) := h.updPort fun _ => rfl
    exact h1.updPort fun _ => rfl
  sec := fun hf h => h.updSec fun r => by
    obtain ⟨_, _, h1, h2, _, _, h3, h4, h5, _⟩ := hf r
    exact ⟨h1, h2, h4, h3, h5⟩
  less := fun _ _ h => h.updSec fun _ => ⟨rfl, rfl, rfl, rfl, rfl⟩
  more := fun _ h => h.updSec fun _ => ⟨rfl, rfl, rfl, rfl, rfl⟩
  most := fun y n h => by
    have h1 : Untouched s (updSec y (fun r => { r with granted := r.granted + n }) _) :=
      h.updSec fun _ => ⟨rfl, rfl, rfl, rfl, rfl⟩
    unfold Machine.raiseOver noticeSection
    split
    · exact (h1.updSec (f := fun r => { r with overFlag := true }) fun _ => ⟨rfl, rfl, rfl, rfl, rfl⟩).joinNotices _
    · exact h1
  lower := fun _ h => h.updSec fun _ => by split <;> exact ⟨rfl, rfl, rfl, rfl, rfl⟩
  asked := fun _ _ h => h.updSec fun _ => ⟨rfl, rfl, rfl, rfl, rfl⟩
  queued := fun _ _ _ h => h.updSec fun _ => ⟨rfl, rfl, rfl, rfl, rfl⟩
  freed := fun _ h => h.updSec fun _ => ⟨rfl, rfl, rfl, rfl, rfl⟩
  began := fun _ _ _ h => h.updSec fun _ => ⟨rfl, rfl, rfl, rfl, rfl⟩
  locked := fun _ _ _ h => h.updSec fun _ => ⟨rfl, rfl, rfl, rfl, rfl⟩
  panel := fun _ _ h => h.updSec fun _ => ⟨rfl, rfl, rfl, rfl, rfl⟩
  unpanel := fun _ h => h.updSec fun _ => ⟨rfl, rfl, rfl, rfl, rfl⟩

/-! ## One berth, and all the others -/

theorem OthersKept.of_berths (h : OthersKept b s t) (e : ∀ c, c ≠ b → u.berth c = t.berth c) : OthersKept b s u :=
  fun c hc => (e c hc).trans (h c hc)

/-- What acts on one berth alone keeps the records of the others. -/
theorem Changes.othersKept (b : BerthId) (s : State) : Changes (· = b) (OthersKept b s) where
  berth := fun ha _ h => by subst ha; exact h.of_berths fun c hc => updBerth_berth_ne hc _ _
  moves := fun {t d} st ha h => by
    subst ha
    refine h.of_berths fun c hc => ?_
    rw [moveTo, updBerth_berth_ne hc, leaveState_berth]
    simp [hc]
  bypass := fun ha _ h => by subst ha; exact h.of_berths fun c hc => updBerth_berth_ne hc _ _
  noticed := fun ha _ h => by subst ha; exact h.of_berths fun c hc => updBerth_berth_ne hc _ _
  held := fun ha _ _ h => by subst ha; exact h.of_berths fun c hc => updBerth_berth_ne hc _ _
  unheld := fun ha _ h => by subst ha; exact h.of_berths fun c hc => updBerth_berth_ne hc _ _
  cables := fun _ h => h
  bay := fun _ _ _ h => h.of_berths fun _ _ => by simp
  turn := fun _ h => h
  starts := fun _ h => h
  passes := fun _ _ h => h
  hit := fun _ h => h
  joined := fun n h => by unfold joinNotices; split <;> exact h
  port := fun _ h => h
  own := fun _ h => h
  forwarded := fun _ _ h => h
  displaced := fun _ h => h
  sec := fun _ h => h.of_berths fun _ _ => by simp
  less := fun _ _ h => h.of_berths fun _ _ => by simp
  more := fun _ h => h.of_berths fun _ _ => by simp
  most := fun x n h => h.of_berths fun _ _ => by
    unfold Machine.raiseOver Machine.noticeSection Machine.joinNotices
    repeat' split
    all_goals simp [State.berth]
  lower := fun _ h => h.of_berths fun _ _ => by simp [lowerOver]
  asked := fun _ _ h => h.of_berths fun _ _ => by simp
  queued := fun _ _ _ h => h.of_berths fun _ _ => by simp
  freed := fun _ h => h.of_berths fun _ _ => by simp
  began := fun _ _ _ h => h.of_berths fun _ _ => by simp
  locked := fun _ _ _ h => h.of_berths fun _ _ => by simp
  panel := fun _ _ h => h.of_berths fun _ _ => by simp
  unpanel := fun _ h => h.of_berths fun _ _ => by simp

/-- The berth asks no arbiter and waits in no queue. -/
def State.idleAt (b : BerthId) (s : State) : Prop := ∀ x, (s.sec x).requests[b] = none ∧ b ∉ (s.sec x).queue

theorem State.idleAt.congr (h : s.idleAt b) (hA : t.sectionA = s.sectionA := by first | rfl | simp)
    (hB : t.sectionB = s.sectionB := by first | rfl | simp) : t.idleAt b := by
  intro x
  cases x
  · rw [State.sec, hA]; exact h .A
  · rw [State.sec, hB]; exact h .B

/-- A berth that asks no arbiter and waits in no queue keeps its record through what events at other berths do. -/
theorem Closed.idle (b : BerthId) (r : Berth) : Closed (· ≠ b) (fun t => t.idleAt b ∧ t.berth b = r) where
  asks := fun {t x c} h hr hc => hr (by subst hc; exact (h.1 x).1)
  waits := fun {t x c} h hq hc => (h.1 x).2 (by subst hc; exact hq)
  berth := fun ha _ h => ⟨h.1, (updBerth_berth_ne (Ne.symm ha) _ _).trans h.2⟩
  moves := fun {t d} st ha h => by
    refine ⟨fun x => ?_, ?_⟩
    · have hx := h.1 x
      rw [moveTo, updBerth_sec]
      unfold leaveState leaveQueue
      split
      · rw [updBerth_sec]
        have hd : b ≠ d := Ne.symm ha
        cases x <;> simpa [SectionRec.without, State.sec, updSec, hd] using hx
      · cases x <;> exact hx
      all_goals exact hx
    · rw [moveTo, updBerth_berth_ne (Ne.symm ha), leaveState_berth]
      simp [Ne.symm ha, h.2]
  bypass := fun ha _ h => ⟨h.1, (updBerth_berth_ne (Ne.symm ha) _ _).trans h.2⟩
  noticed := fun ha _ h => ⟨h.1, (updBerth_berth_ne (Ne.symm ha) _ _).trans h.2⟩
  held := fun ha _ _ h => ⟨h.1, (updBerth_berth_ne (Ne.symm ha) _ _).trans h.2⟩
  unheld := fun ha _ h => ⟨h.1, (updBerth_berth_ne (Ne.symm ha) _ _).trans h.2⟩
  cables := fun _ h => h
  bay := fun _ _ _ h => ⟨fun x => by simpa using h.1 x, by simpa using h.2⟩
  turn := fun _ h => ⟨h.1.congr, h.2⟩
  starts := fun _ h => ⟨h.1.congr, h.2⟩
  passes := fun _ _ h => ⟨h.1.congr, h.2⟩
  hit := fun _ h => ⟨h.1.congr, h.2⟩
  joined := fun n h => by
    unfold joinNotices
    split <;> exact ⟨h.1.congr, h.2⟩
  port := fun _ h => ⟨h.1.congr, h.2⟩
  own := fun _ h => ⟨h.1.congr, h.2⟩
  forwarded := fun _ _ h => ⟨h.1.congr, h.2⟩
  displaced := fun _ h => ⟨h.1.congr, h.2⟩
  sec := fun {t x f} hf h => ⟨fun y => by
    rw [updSec_sec]
    split
    · rename_i e
      subst e
      obtain ⟨_, _, _, _, _, _, _, _, _, hq, hr, _⟩ := hf (t.sec y)
      refine ⟨?_, fun hc => (h.1 y).2 (hq _ hc)⟩
      rcases hr b with hr | hr
      · exact hr
      · rw [hr]; exact (h.1 y).1
    · exact h.1 y, by simpa using h.2⟩
  less := fun x n h => ⟨fun y => by rw [updSec_sec]; split <;> [(rename_i e; subst e; exact h.1 y); exact h.1 y],
    by simpa using h.2⟩
  more := fun _ h => ⟨fun y => by rw [updSec_sec]; split <;> [(rename_i e; subst e; exact h.1 y); exact h.1 y],
    by simpa using h.2⟩
  most := fun {t} x n h => by
    have h1 : (Machine.updSec x (fun r => { r with granted := r.granted + n }) t).idleAt b := fun y => by
      rw [updSec_sec]; split <;> [(rename_i e; subst e; exact h.1 y); exact h.1 y]
    unfold Machine.raiseOver Machine.noticeSection Machine.joinNotices
    repeat' split
    all_goals refine ⟨fun y => ?_, by simpa [State.berth] using h.2⟩
    · have := h1 y
      cases x <;> cases y <;> simpa [State.sec, updSec] using this
    · have := h1 y
      cases x <;> cases y <;> simpa [State.sec, updSec] using this
    · exact h1 y
  lower := fun _ h => ⟨fun y => by
    rw [lowerOver, updSec_sec]
    split
    · rename_i e; subst e; split <;> exact h.1 y
    · exact h.1 y, by simpa [lowerOver] using h.2⟩
  asked := fun {t d} k ha h => ⟨fun y => by
    rw [updSec_sec]
    split
    · rename_i e
      subst e
      refine ⟨?_, (h.1 _).2⟩
      simp only [Fin.getElem_fin]
      rw [Vector.getElem_set_ne _ _ (fun e => ha (Fin.ext e))]
      exact (h.1 _).1
    · exact h.1 y, by simpa using h.2⟩
  queued := fun {t d} n ha _ h => ⟨fun y => by
    rw [updSec_sec]
    split
    · rename_i e
      subst e
      refine ⟨(h.1 _).1, fun hc => ?_⟩
      rcases List.eq_or_mem_of_mem_insertIdx hc with hc | hc
      · exact ha hc.symm
      · exact (h.1 _).2 hc
    · exact h.1 y, by simpa using h.2⟩
  freed := fun _ h => ⟨fun y => by rw [updSec_sec]; split <;> [(rename_i e; subst e; exact h.1 y); exact h.1 y],
    by simpa using h.2⟩
  began := fun {t d} x k ha h => ⟨fun y => by
    rw [updSec_sec]
    split
    · rename_i e
      subst e
      refine ⟨?_, (h.1 _).2⟩
      simp only [Fin.getElem_fin]
      rw [Vector.getElem_set_ne _ _ (fun e => ha (Fin.ext e))]
      exact (h.1 _).1
    · exact h.1 y, by simpa using h.2⟩
  locked := fun _ _ _ h => ⟨fun y => by rw [updSec_sec]; split <;> [(rename_i e; subst e; exact h.1 y); exact h.1 y],
    by simpa using h.2⟩
  panel := fun _ _ h => ⟨fun y => by rw [updSec_sec]; split <;> [(rename_i e; subst e; exact h.1 y); exact h.1 y],
    by simpa using h.2⟩
  unpanel := fun _ h => ⟨fun y => by rw [updSec_sec]; split <;> [(rename_i e; subst e; exact h.1 y); exact h.1 y],
    by simpa using h.2⟩

/-- Two properties that every change keeps are kept together. -/
theorem Changes.and {A : BerthId → Prop} {P Q : State → Prop} (c : Changes A P) (d : Changes A Q) :
    Changes A (fun s => P s ∧ Q s) where
  berth := fun ha hf h => ⟨c.berth ha hf h.1, d.berth ha hf h.2⟩
  moves := fun t ha h => ⟨c.moves t ha h.1, d.moves t ha h.2⟩
  bypass := fun ha hg h => ⟨c.bypass ha hg h.1, d.bypass ha hg h.2⟩
  noticed := fun ha hn h => ⟨c.noticed ha hn h.1, d.noticed ha hn h.2⟩
  held := fun ha hl hc h => ⟨c.held ha hl hc h.1, d.held ha hl hc h.2⟩
  unheld := fun ha hl h => ⟨c.unheld ha hl h.1, d.unheld ha hl h.2⟩
  cables := fun v h => ⟨c.cables v h.1, d.cables v h.2⟩
  bay := fun k _ hf h => ⟨c.bay k hf h.1, d.bay k hf h.2⟩
  turn := fun x h => ⟨c.turn x h.1, d.turn x h.2⟩
  starts := fun l h => ⟨c.starts l h.1, d.starts l h.2⟩
  passes := fun a b h => ⟨c.passes a b h.1, d.passes a b h.2⟩
  hit := fun n h => ⟨c.hit n h.1, d.hit n h.2⟩
  joined := fun n h => ⟨c.joined n h.1, d.joined n h.2⟩
  port := fun hf h => ⟨c.port hf h.1, d.port hf h.2⟩
  own := fun hs h => ⟨c.own hs h.1, d.own hs h.2⟩
  forwarded := fun hs hf h => ⟨c.forwarded hs hf h.1, d.forwarded hs hf h.2⟩
  displaced := fun ht h => ⟨c.displaced ht h.1, d.displaced ht h.2⟩
  sec := fun hf h => ⟨c.sec hf h.1, d.sec hf h.2⟩
  less := fun x n h => ⟨c.less x n h.1, d.less x n h.2⟩
  more := fun hl h => ⟨c.more hl h.1, d.more hl h.2⟩
  most := fun x n h => ⟨c.most x n h.1, d.most x n h.2⟩
  lower := fun x h => ⟨c.lower x h.1, d.lower x h.2⟩
  asked := fun k ha h => ⟨c.asked k ha h.1, d.asked k ha h.2⟩
  queued := fun n ha hb h => ⟨c.queued n ha hb h.1, d.queued n ha hb h.2⟩
  freed := fun x h => ⟨c.freed x h.1, d.freed x h.2⟩
  began := fun x k ha h => ⟨c.began x k ha h.1, d.began x k ha h.2⟩
  locked := fun x f hf h => ⟨c.locked x f hf h.1, d.locked x f hf h.2⟩
  panel := fun v hs h => ⟨c.panel v hs h.1, d.panel v hs h.2⟩
  unpanel := fun hs h => ⟨c.unpanel hs h.1, d.unpanel hs h.2⟩

theorem Closed.and {A : BerthId → Prop} {P Q : State → Prop} (c : Closed A P) (d : Changes A Q) :
    Closed A (fun s => P s ∧ Q s) where
  toChanges := c.toChanges.and d
  asks := fun h hr => c.asks h.1 hr
  waits := fun h hc => c.waits h.1 hc

/-- The section's arbiter has neither an operation nor the lock of the berth. -/
def SectionRec.notOf (b : BerthId) (r : SectionRec) : Prop := r.op.map (·.1) ≠ some b ∧ r.lock.map (·.holder) ≠ some b

/-- A property of one section's operation and lock, kept by a change of a section that keeps it. -/
theorem SectionRec.notOf.updSec {y : SectionId} {f : SectionRec → SectionRec} (h : (t.sec x).notOf b)
    (hf : (f (t.sec y)).notOf b ∨ (f (t.sec y)).op = (t.sec y).op ∧ (f (t.sec y)).lock = (t.sec y).lock) :
    ((updSec y f t).sec x).notOf b := by
  rw [updSec_sec]
  split
  · rename_i e
    subst e
    rcases hf with hf | ⟨h1, h2⟩
    · exact hf
    · rw [notOf, h1, h2]; exact h
  · exact h

/-- What acts on other berths gives the berth neither an operation nor the lock. -/
theorem Changes.notOf (b : BerthId) (x : SectionId) : Changes (· ≠ b) (fun t => (t.sec x).notOf b) where
  berth := fun _ _ h => by simpa using h
  moves := fun {t d} st _ h => by
    rw [moveTo, updBerth_sec]
    unfold Machine.leaveState Machine.leaveQueue
    split
    · rw [updBerth_sec]
      exact (h.updSec (f := SectionRec.without d) (Or.inr ⟨rfl, rfl⟩)).updSec (f := SectionRec.without d) (Or.inr ⟨rfl, rfl⟩)
    · cases x <;> exact h
    all_goals exact h
  bypass := fun _ _ h => by simpa using h
  noticed := fun _ _ h => by simpa using h
  held := fun _ _ _ h => by simpa using h
  unheld := fun _ _ h => by simpa using h
  cables := fun _ h => by cases x <;> exact h
  bay := fun _ _ _ h => by simpa using h
  turn := fun _ h => by cases x <;> exact h
  starts := fun _ h => by cases x <;> exact h
  passes := fun _ _ h => by cases x <;> exact h
  hit := fun _ h => by cases x <;> exact h
  joined := fun n h => by unfold Machine.joinNotices; split <;> cases x <;> exact h
  port := fun _ h => by simpa using h
  own := fun _ h => by cases x <;> exact h
  forwarded := fun _ _ h => by cases x <;> exact h
  displaced := fun _ h => by cases x <;> exact h
  sec := fun {t y f} hf h => by
    rw [updSec_sec]
    split
    · rename_i e
      subst e
      obtain ⟨_, ho, _, _, _, _, _, _, _, _, _, hl⟩ := hf (t.sec x)
      refine ⟨by rw [ho]; exact h.1, ?_⟩
      rcases hl with hl | hl <;> rw [hl]
      · simp
      · exact h.2
    · exact h
  less := fun _ _ h => h.updSec (Or.inr ⟨rfl, rfl⟩)
  more := fun _ h => h.updSec (Or.inr ⟨rfl, rfl⟩)
  most := fun {t} y n h => by
    have h1 : ((Machine.updSec y (fun r => { r with granted := r.granted + n }) t).sec x).notOf b :=
      h.updSec (Or.inr ⟨rfl, rfl⟩)
    have h2 := h1.updSec (y := y) (f := fun r => { r with overFlag := true }) (Or.inr ⟨rfl, rfl⟩)
    unfold Machine.raiseOver Machine.noticeSection Machine.joinNotices
    repeat' split
    · cases x <;> exact h2
    · cases x <;> exact h2
    · exact h1
  lower := fun y h => h.updSec (Or.inr (by split <;> exact ⟨rfl, rfl⟩))
  asked := fun _ _ h => h.updSec (Or.inr ⟨rfl, rfl⟩)
  queued := fun _ _ _ h => h.updSec (Or.inr ⟨rfl, rfl⟩)
  freed := fun {t} y h => by
    rw [updSec_sec]
    split
    · rename_i e; subst e; exact ⟨by simp, h.2⟩
    · exact h
  began := fun {t d} y k ha h => by
    rw [updSec_sec]
    split
    · rename_i e; subst e; exact ⟨by simpa using ha, h.2⟩
    · exact h
  locked := fun {t} y f hf h => by
    rw [updSec_sec]
    split
    · rename_i e
      subst e
      refine ⟨h.1, fun hc => ?_⟩
      simp only [Option.map_eq_some_iff] at hc
      obtain ⟨l, hl, hb⟩ := hc
      rcases hf _ _ hl with ha | ⟨k, hk, he⟩
      · exact ha hb
      · exact h.2 (by rw [hk]; simp [he, hb])
    · exact h
  panel := fun _ _ h => h.updSec (Or.inr ⟨rfl, rfl⟩)
  unpanel := fun _ h => h.updSec (Or.inr ⟨rfl, rfl⟩)

end Sys2Proof.Machine
end

