-- ==== Sys2Proof/Laws/Events.lean ====
section
/-! SUPPORT. Lemmas for statements about whole events: fusing and commuting updates of one record, what the shared steps
do to a berth and to the sections, requests that have arrived, the re-evaluation of a hold queue, the admission queues
under every command, and service passes called for. -/

namespace Sys2Proof.Machine

variable {s t : State} {b c : BerthId} {x : SectionId}

/-! ## Updates of one record -/

theorem updBerth_updBerth {f g : Berth → Berth} : updBerth b g (updBerth b f s) = updBerth b (fun r => g (f r)) s := by
  simp [updBerth, State.berth]
theorem updBerth_congr {f g : Berth → Berth} (h : f (s.berth b) = g (s.berth b)) : updBerth b f s = updBerth b g s := by
  simp [updBerth, h]
theorem updBerth_id {f : Berth → Berth} (h : f (s.berth b) = s.berth b) : updBerth b f s = s := by
  unfold updBerth; rw [h]; cases s; simp [State.berth]
theorem updSec_updSec {x} {f g : SectionRec → SectionRec} : updSec x g (updSec x f s) = updSec x (fun r => g (f r)) s := by
  cases x <;> rfl
theorem updSec_congr {x} {f g : SectionRec → SectionRec} (h : f (s.sec x) = g (s.sec x)) : updSec x f s = updSec x g s := by
  cases x <;> simp_all [updSec, State.sec]
theorem updBerth_updSec {x} {f g} : updBerth b f (updSec x g s) = updSec x g (updBerth b f s) := by cases x <;> rfl


/-! ## What the shared steps do to a berth and to the sections -/

theorem leaveState_berth_record : (leaveState b s).berth b = { s.berth b with bypass := if (s.berth b).state = .queued then 0 else (s.berth b).bypass } := by
  rw [leaveState_berth]; cases h : (s.berth b).state <;> simp
theorem sendTripOpen_berths : (sendTripOpen b s).berths = s.berths := by
  unfold sendTripOpen; split; rfl; dsimp only; split; rfl; split; rfl; simp
@[simp] theorem enqueue_sec {p t x} : (enqueue p t s).sec x = s.sec x := by cases x <;> rfl
theorem rejectForwarded_sec {p f x} : (rejectForwarded f p s).sec x = s.sec x := by unfold rejectForwarded; split <;> simp
theorem sendTripOpen_sec {x} : (sendTripOpen b s).sec x = s.sec x := by
  unfold sendTripOpen; split; rfl; dsimp only; split; simp; split; rfl; rw [rejectForwarded_sec]; simp
theorem send_sec {e k c p x} : (send e k c p s).1.sec x = s.sec x := by unfold send; split; rfl; split <;> simp
theorem send_berths {e k c p} : (send e k c p s).1.berths = s.berths := by unfold send; split; rfl; split <;> rfl
theorem releaseBay_berth : (releaseBay b s).berth b = { s.berth b with bay := none } := by
  unfold releaseBay; split
  · rename_i h; cases hh : s.berth b; simp_all
  · rename_i k _
    have e : ∀ u : State, u.berths = s.berths →
        (updBerth b (fun r => { r with bay := none }) u).berth b = { s.berth b with bay := none } := fun u h => by
      rw [updBerth_berth_same, show u.berth b = s.berth b by simp [State.berth, h]]
    dsimp only
    split
    · rw [callPass_berth, callPass_berth]; exact e _ (by simp [send_berths])
    · exact e _ (by simp [send_berths])
theorem releaseGrant_berth : (releaseGrant b s).berth b = { s.berth b with grant := 0, bay := none, terms := none, overdraw := none, overdrawStage := .first } := by
  unfold releaseGrant
  simp only [callPass_berth, lowerOver, updSec_berth, updBerth_berth_same, releaseBay_berth]
theorem releaseBay_sec {y : SectionId} : ((releaseBay b s).sec y) = s.sec y := by
  unfold releaseBay; split; rfl; dsimp only; split <;> simp [send_sec]
theorem lowerOver_sec {x y : SectionId} {u : State} : ((lowerOver x u).sec y).requests = (u.sec y).requests ∧
    ((lowerOver x u).sec y).queue = (u.sec y).queue ∧ ((lowerOver x u).sec y).op = (u.sec y).op ∧
    ((lowerOver x u).sec y).lock = (u.sec y).lock := by
  unfold lowerOver; rw [updSec_sec]; split
  · rename_i e; subst e; split <;> exact ⟨rfl, rfl, rfl, rfl⟩
  · exact ⟨rfl, rfl, rfl, rfl⟩
theorem releaseGrant_sec {y : SectionId} : ((releaseGrant b s).sec y).requests = (s.sec y).requests ∧
    ((releaseGrant b s).sec y).queue = (s.sec y).queue ∧ ((releaseGrant b s).sec y).op = (s.sec y).op ∧
    ((releaseGrant b s).sec y).lock = (s.sec y).lock := by
  unfold releaseGrant
  rw [callPass_sec]
  obtain ⟨h1, h2, h3, h4⟩ := lowerOver_sec (x := s.secOf b) (y := y)
    (u := updBerth b (fun r => { r with terms := none, overdraw := none, overdrawStage := .first }) (releaseBay b
      (updBerth b (fun r => { r with grant := 0 })
        (updSec (s.secOf b) (fun r => { r with granted := r.granted - (s.berth b).grant }) s))))
  have e : (updBerth b (fun r => { r with terms := none, overdraw := none, overdrawStage := .first }) (releaseBay b
      (updBerth b (fun r => { r with grant := 0 })
        (updSec (s.secOf b) (fun r => { r with granted := r.granted - (s.berth b).grant }) s)))).sec y
      = (updSec (s.secOf b) (fun r => { r with granted := r.granted - (s.berth b).grant }) s).sec y := by
    rw [updBerth_sec, releaseBay_sec, updBerth_sec]
  rw [e, updSec_sec] at h1 h2 h3 h4
  refine ⟨h1.trans ?_, h2.trans ?_, h3.trans ?_, h4.trans ?_⟩ <;> split <;> [subst y; rfl; subst y; rfl; subst y; rfl; subst y; rfl] <;> rfl
theorem refuseHeld_berth {r} : (refuseHeld r b s).berth b = { s.berth b with holdQueue := [] } := by
  have hl : ∀ (l : List HeldFrame) {u : State}, (l.foldl (fun t h => refuse r h.frame h.arrival t) u).berths = u.berths := by
    intro l; induction l with
    | nil => intro u; rfl
    | cons g l ih => intro u; rw [List.foldl_cons, ih, refuse_berths]
  unfold refuseHeld
  rw [updBerth_berth_same]; simp [State.berth, hl]

theorem takeOldestForwarded_some {front back : List TxFrame} {f a} (h : ∀ t ∈ front, t.arrival = none) : takeOldestForwarded (front ++ ⟨f, some a⟩ :: back) = some (front ++ back, f, a) := by
  induction front with
  | nil => rfl
  | cons t l ih => simp [takeOldestForwarded, h t (by simp), ih (fun u hu => h u (by simp [hu]))]
theorem takeOldestForwarded_none {l : List TxFrame} (h : ∀ t ∈ l, t.arrival = none) : takeOldestForwarded l = none := by
  induction l with
  | nil => rfl
  | cons t l ih => simp [takeOldestForwarded, h t (by simp), ih (fun u hu => h u (by simp [hu]))]

/-! ## Requests that have arrived -/

theorem berthOf_berthPayload (b : BerthId) : berthOf (byte (b.val + 1)) = some b := by revert b; decide
theorem row_of_request {f : Frame} {own} (h : f.kind = kindRequest) (hd : f.dst = own) : f.row own = requestRow f.code := by simp [Frame.row, h, hd, kindRequest]
theorem Arrived.dst_own {p f e} (h : Arrived s p f e none) : f.dst = s.ownId := by
  have := h.mapped; unfold State.route at this; split at this; simp at this; split at this; simp at this; split at this; assumption; split at this; simp at this; split at this; simp at this; simp at this
theorem RoomAsks.taken {p f c} {act : BerthId → State → Status × State} {row} (h : RoomAsks s p f c (berthPayload b)) (hr : requestRow c = row) :
   takeBerthRequest row p act s = .next (answer p f (act b (dropHead p s))) := by
  obtain ⟨⟨e, ha, hc⟩, hk, hcode, hp⟩ := h
  exact takeBerthRequest_taken ha (by rw [row_of_request hk (Arrived.dst_own ha), hcode, hr]) hc hp (berthOf_berthPayload b)
theorem ShipAsks.taken {p f c} {act : BerthId → State → Status × State} {row} (h : ShipAsks s p f b c) (hr : requestRow c = row) :
   takeShipRequest row p act s = .next (answer p f (act b (dropHead p s))) := by
  obtain ⟨⟨e, ha, hc, hb⟩, hk, hcode, hp⟩ := h
  exact takeShipRequest_taken ha (by rw [row_of_request hk (Arrived.dst_own ha), hcode, hr]) hc hp hb
@[simp] theorem dropHead_berth {p c} : (dropHead p s).berth c = s.berth c := rfl
@[simp] theorem dropHead_line {p c} : (dropHead p s).line c = s.line c := rfl
@[simp] theorem dropHead_sec {p x} : (dropHead p s).sec x = s.sec x := by simp [dropHead]
@[simp] theorem dropHead_secOf {p c} : (dropHead p s).secOf c = s.secOf c := rfl
@[simp] theorem dropHead_profileOf {p c} : (dropHead p s).profileOf c = s.profileOf c := rfl
@[simp] theorem dropHead_position {p c} : (dropHead p s).position c = s.position c := rfl
@[simp] theorem dropHead_request {p c} : (dropHead p s).request c = s.request c := by simp [State.request]
theorem blocks_iff {r : LineRec} : r.blocks = true ↔ r.enable = .enabled ∧ r.sense = .level ∧ r.level = .active := by simp [LineRec.blocks, and_assoc]
/-- enterState from a state that holds no lock, isn't queued or admitted -/
theorem enterState_plain {h : Hooks} {new : BerthState} (hn : (s.berth b).state ≠ new) (hl : (s.berth b).state.mayLock = false) :
    enterState h b new s = clearInFlight b (reevaluate b (moveTo b new s)) := by
  unfold enterState; rw [if_neg hn]; simp [hl]

/-! ## The re-evaluation of a hold queue (R144) -/

theorem gateJudge_verdict_congr {f sc dc o} (hb : t.berths = s.berths) (hg : ∀ n, t.gate[(n : Fin 48)] = { s.gate[n] with hits := t.gate[n].hits }) :
   (gateJudge f sc dc o t).1 = (gateJudge f sc dc o s).1 := by
  have hm : t.gateMatch f sc dc (o.map fun b => (s.berth b).state) = s.gateMatch f sc dc (o.map fun b => (s.berth b).state) := by
    unfold State.gateMatch; congr 1; funext n; rw [hg n]; rfl
  unfold gateJudge
  have : ∀ c, t.berth c = s.berth c := by intro c; simp [State.berth, hb]
  simp only [this, hm]
  split; rfl
  split; rfl
  cases s.gateMatch f sc dc (o.map fun b => (s.berth b).state) with
  | none => rfl
  | some n => simp only; rw [hg n]; cases s.gate[n].action <;> rfl

theorem forward_sent {f p q} : forward f p q s = { s with ports := (forward f p q s).ports, gate := (forward f p q s).gate } := by
  unfold forward rejectForwarded refuse sendReply; split; rfl; split; rfl; split <;> rfl
theorem refuse_sent {f p r} : refuse r f p s = { s with ports := (refuse r f p s).ports, gate := (refuse r f p s).gate } := by
  unfold refuse sendReply; split <;> rfl
theorem gateJudge_sent {f sc dc o} : (gateJudge f sc dc o s).2 = { s with ports := (gateJudge f sc dc o s).2.ports, gate := (gateJudge f sc dc o s).2.gate } := by
  unfold gateJudge; dsimp only; split; rfl; split; rfl; split; rfl; split <;> rfl
theorem passHeld_sent {h} : passHeld h s = { s with ports := (passHeld h s).ports, gate := (passHeld h s).gate } := by
  unfold passHeld; split; split; rfl; exact forward_sent; rfl
def Sent (s t : State) : Prop := t = { s with ports := t.ports, gate := t.gate }
theorem Sent.trans {u} (h : Sent s t) (g : Sent t u) : Sent s u := by
  unfold Sent at *; rw [h] at g; rw [g]
theorem reJudge_sent {h} : Sent s (reJudge b h s).2 := by
  have hj : Sent s (gateJudge h.frame h.srcClass h.dstClass (some b) s).2 := gateJudge_sent
  unfold reJudge; split <;> rename_i e <;> rw [e] at hj
  · exact hj.trans refuse_sent
  · exact hj.trans passHeld_sent
  · exact hj
  · exact hj
theorem reJudgeAll_spec {l : List HeldFrame} (u : State) (hu : Untouched u s) (hb : s.berths = u.berths) :
   (reJudgeAll b l s).1 = l.filter (fun h => decide ((gateJudge h.frame h.srcClass h.dstClass (some b) u).1 = .hold)) ∧ Sent s (reJudgeAll b l s).2 := by
  induction l generalizing s with
  | nil => exact ⟨rfl, rfl⟩
  | cons h l ih =>
    have hr : Untouched u (reJudge b h s).2 := (Closed.untouched u).reJudge hu
    obtain ⟨i1, i2⟩ := ih hr (by rw [reJudge_berths, hb])
    refine ⟨?_, reJudge_sent.trans i2⟩
    have hf := gateJudge_verdict_congr (f := h.frame) (sc := h.srcClass) (dc := h.dstClass) (o := some b) hb hu.gate
    simp only [reJudgeAll, i1, List.filter_cons]
    have : (reJudge b h s).1 = decide ((gateJudge h.frame h.srcClass h.dstClass (some b) u).1 = .hold) := by
      rw [← hf]; unfold reJudge; split <;> rename_i e <;> rw [e] <;> simp
    rw [this]

/-! ## The admission queues under every command (R68) -/

theorem queuesSound_congr {u t : State} (h : t.queuesSound) (hq : ∀ x, ∀ c ∈ (u.sec x).queue, c ∈ (t.sec x).queue)
   (hb : ∀ c, (t.berth c).state = .queued → (u.berth c).state = .queued) : u.queuesSound :=
  fun x c hc => hb c (h x c (hq x c hc))
theorem queuesSound_updSec {f : SectionRec → SectionRec} (h : t.queuesSound) (hf : ∀ r, (f r).queue = r.queue) : (updSec x f t).queuesSound :=
  queuesSound_congr h (fun y c hc => by rw [updSec_sec] at hc; split at hc <;> [(rename_i e; subst e; rwa [hf] at hc); exact hc]) (fun c h => by simpa using h)
theorem queuesSound_updBerth {f : Berth → Berth} (h : t.queuesSound) (hf : ∀ r, (f r).state = r.state) : (updBerth b f t).queuesSound :=
  queuesSound_congr h (fun y c hc => by simpa using hc) (fun c h => by rw [updBerth_berth]; split <;> [(rename_i e; subst e; rwa [hf]); exact h])
theorem queuesSound_joinNotices {n} (h : t.queuesSound) : (joinNotices n t).queuesSound := by
  refine queuesSound_congr h (fun y c hc => by simpa using hc) (fun c h => by simpa [State.berth] using h)
@[simp] theorem State.sec_notices {l} : ({t with notices := l} : State).sec x = t.sec x := by cases x <;> rfl
theorem CommandClosed.queuesSound : CommandClosed State.queuesSound where
  moves := fun {t d} st _ h => by
    intro y c hc
    rw [moveTo, updBerth_sec] at hc
    have hl : ∀ y, ((leaveState d t).sec y).queue = if (t.berth d).state = .queued then (t.sec y).queue.filter (· ≠ d) else (t.sec y).queue := by
      intro y
      unfold leaveState leaveQueue
      split <;> rename_i e <;> simp [e]
      · cases y <;> simp [SectionRec.without, State.sec, updSec]
      · cases y <;> simp [State.sec]
    rw [hl] at hc
    have hcd : c ≠ d := by
      rintro rfl
      split at hc
      · simp at hc
      · rename_i hn; exact hn (h y c hc)
    have hcm : c ∈ (t.sec y).queue := by split at hc; simp at hc; exact hc.1; exact hc
    rw [moveTo, updBerth_berth_ne hcd, leaveState_berth]
    simp only [hcd, false_and, if_false]
    exact h y c hcm
  dropped := fun h => queuesSound_congr h (fun y c hc => by simpa [dropHead] using hc) (fun c h => by simpa [dropHead] using h)
  observed := fun _ _ h => queuesSound_updBerth h fun _ => rfl
  synced := fun _ _ h => queuesSound_updSec h fun _ => rfl
  reported := fun _ _ h => queuesSound_congr h (fun y c hc => by simpa using hc) (fun c h => by simpa using h)
  fed := fun _ _ h => queuesSound_updSec h fun _ => rfl
  moded := fun _ _ h => queuesSound_updSec h fun _ => rfl
  asks := fun _ _ => trivial
  waits := fun _ _ => trivial
  berth := fun _ hf h => queuesSound_updBerth h fun r => (hf r).1
  bypass := fun _ _ h => queuesSound_updBerth h fun _ => rfl
  noticed := fun _ _ h => queuesSound_updBerth h fun _ => rfl
  held := fun _ _ _ h => queuesSound_updBerth h fun _ => rfl
  unheld := fun _ _ h => queuesSound_updBerth h fun _ => rfl
  cables := fun _ h => queuesSound_congr h (fun y c hc => by cases y <;> exact hc) (fun c h => h)
  bay := fun k _ _ h => queuesSound_congr h (fun y c hc => by simpa using hc) (fun c h => by simpa using h)
  turn := fun _ h => queuesSound_congr h (fun y c hc => by cases y <;> exact hc) (fun c h => h)
  starts := fun _ h => queuesSound_congr h (fun y c hc => by cases y <;> exact hc) (fun c h => h)
  passes := fun _ _ h => queuesSound_congr h (fun y c hc => by cases y <;> exact hc) (fun c h => h)
  hit := fun _ h => queuesSound_congr h (fun y c hc => by cases y <;> exact hc) (fun c h => h)
  positioned := fun _ _ h => queuesSound_congr h (fun y c hc => by cases y <;> exact hc) (fun c h => h)
  joined := fun n h => queuesSound_joinNotices h
  port := fun _ h => queuesSound_congr h (fun y c hc => by simpa using hc) (fun c h => by simpa using h)
  own := fun _ h => queuesSound_congr h (fun y c hc => by cases y <;> exact hc) (fun c h => h)
  forwarded := fun _ _ h => queuesSound_congr h (fun y c hc => by cases y <;> exact hc) (fun c h => h)
  displaced := fun _ h => queuesSound_congr h (fun y c hc => by cases y <;> exact hc) (fun c h => h)
  sec := fun {t x f} hf h => queuesSound_congr h (fun y c hc => by
    rw [updSec_sec] at hc; split at hc
    · rename_i e; subst e; exact (hf _).2.2.2.2.2.2.2.2.2.1 _ hc
    · exact hc) (fun c h => by simpa using h)
  less := fun _ _ h => queuesSound_updSec h fun _ => rfl
  more := fun _ h => queuesSound_updSec h fun _ => rfl
  most := fun x n h => by
    have h1 := queuesSound_updSec (x := x) (f := fun r => { r with granted := r.granted + n }) h fun _ => rfl
    unfold raiseOver; split
    · exact queuesSound_joinNotices (queuesSound_updSec h1 fun _ => rfl)
    · exact h1
  lower := fun _ h => queuesSound_updSec h fun _ => by split <;> rfl
  asked := fun _ _ h => queuesSound_updSec h fun _ => rfl
  queued := fun {t d} n _ hd h => fun y c hc => by
    rw [updSec_berth]
    rw [updSec_sec] at hc; split at hc
    · rcases List.eq_or_mem_of_mem_insertIdx hc with e | hc
      · rw [e]; exact hd
      · rename_i e _; rw [← e] at hc; exact h _ c hc
    · exact h y c hc
  freed := fun _ h => queuesSound_updSec h fun _ => rfl
  began := fun _ _ _ h => queuesSound_updSec h fun _ => rfl
  locked := fun _ _ _ h => queuesSound_updSec h fun _ => rfl
  panel := fun _ _ h => queuesSound_updSec h fun _ => rfl
  unpanel := fun _ h => queuesSound_updSec h fun _ => rfl
  powered := fun _ h => fun y c hc => by cases y <;> simp [State.powerOn, State.sec, SectionRec.initial] at hc
  cleared := fun h => fun y c hc => by cases y <;> simp [clearDynamic, State.sec, SectionRec.restart, SectionRec.initial] at hc
  silenced := fun h => queuesSound_congr h (fun y c hc => by cases y <;> exact hc) (fun c h => h)
  received := fun _ _ h => queuesSound_congr h (fun y c hc => by cases y <;> exact hc) (fun c h => h)
  sending := fun _ h => queuesSound_congr h (fun y c hc => by cases y <;> exact hc) (fun c h => h)
  offered := fun e h => queuesSound_congr h (fun y c hc => by cases y <;> exact hc) (fun c h => h)
  ticked := fun h => queuesSound_congr h (fun y c hc => by cases y <;> exact hc) (fun c h => by simpa [State.berth, tick, Berth.tick] using h)
  clock := fun _ _ h => queuesSound_congr h (fun y c hc => by cases y <;> exact hc) (fun c h => h)
  unnoticed := fun _ h => queuesSound_updBerth h fun _ => rfl
  profiles := fun _ h => queuesSound_congr h (fun y c hc => by cases y <;> exact hc) (fun c h => h)
  timings := fun _ h => queuesSound_congr h (fun y c hc => by cases y <;> exact hc) (fun c h => h)
  entered := fun _ h => queuesSound_congr h (fun y c hc => by cases y <;> exact hc) (fun c h => h)
  gate := fun _ h => queuesSound_congr h (fun y c hc => by cases y <;> exact hc) (fun c h => h)
  limited := fun {s l} x hl h => by
    have h1 : (updSec x (fun r => { r with limit := l }) s).queuesSound := queuesSound_updSec h fun _ => rfl
    refine queuesSound_updSec ?_ fun _ => by split <;> rfl
    unfold raiseOver; split
    · exact queuesSound_joinNotices (queuesSound_updSec h1 fun _ => rfl)
    · exact h1
  bypassLimited := fun _ _ h => queuesSound_updSec h fun _ => rfl
  moved := fun _ _ h => queuesSound_updBerth h fun _ => rfl
  reset := fun {t d} hd h => fun y c hc => by
    rw [updBerth_sec] at hc
    have : c ≠ d := fun e => hd y (e ▸ hc)
    rw [updBerth_berth_ne this]; exact h y c hc
  line := fun _ _ h => queuesSound_congr h (fun y c hc => by cases y <;> exact hc) (fun c h => h)
  device := fun _ _ _ _ h => queuesSound_congr h (fun y c hc => by cases y <;> exact hc) (fun c h => h)

theorem queuesSound_pending {l} (h : s.queuesSound) : State.queuesSound { s with pending := l } := queuesSound_congr h (fun y c hc => by cases y <;> exact hc) (fun c h => h)


/-! ## Service passes called for (R69) -/

/-- The passes called for are the same. -/
def SamePasses (s t : State) : Prop := t.passA = s.passA ∧ t.passB = s.passB
theorem SamePasses.refl : SamePasses s s := ⟨rfl, rfl⟩
theorem SamePasses.trans {u} (h : SamePasses s t) (g : SamePasses t u) : SamePasses s u := ⟨g.1.trans h.1, g.2.trans h.2⟩
theorem samePasses_sendReply {p f} : SamePasses s (sendReply p f s) := by unfold sendReply; split <;> exact ⟨rfl, rfl⟩
theorem samePasses_rejectForwarded {p f} : SamePasses s (rejectForwarded f p s) := by unfold rejectForwarded; split; exact ⟨rfl, rfl⟩; exact samePasses_sendReply
theorem samePasses_forward {p q f} : SamePasses s (forward f p q s) := by unfold forward; split; exact ⟨rfl, rfl⟩; exact samePasses_rejectForwarded
theorem samePasses_gateJudge {f sc dc o} : SamePasses s (gateJudge f sc dc o s).2 := by
  unfold gateJudge; dsimp only; split; exact ⟨rfl, rfl⟩; split; exact ⟨rfl, rfl⟩; split; exact ⟨rfl, rfl⟩
  split <;> exact ⟨rfl, rfl⟩
theorem samePasses_passHeld {h} : SamePasses s (passHeld h s) := by
  unfold passHeld; split
  · split; exact ⟨rfl, rfl⟩; exact samePasses_forward
  · exact ⟨rfl, rfl⟩
theorem samePasses_reJudge {h} : SamePasses s (reJudge b h s).2 := by
  have := samePasses_gateJudge (s := s) (f := h.frame) (sc := h.srcClass) (dc := h.dstClass) (o := some b)
  unfold reJudge; split <;> rename_i e <;> rw [e] at this
  · exact this.trans samePasses_sendReply
  · exact this.trans samePasses_passHeld
  · exact this
  · exact this
theorem samePasses_reJudgeAll {l} : SamePasses s (reJudgeAll b l s).2 := by
  induction l generalizing s with
  | nil => exact ⟨rfl, rfl⟩
  | cons h l ih => exact (samePasses_reJudge).trans ih
theorem samePasses_reevaluate : SamePasses s (reevaluate b s) := samePasses_reJudgeAll (l := (s.berth b).holdQueue)
theorem samePasses_leaveState : SamePasses s (leaveState b s) := by unfold leaveState leaveQueue; split <;> simp [SamePasses]
theorem samePasses_enterState {t} : SamePasses s (enterState .quiet b t s) := by
  unfold enterState; split; exact ⟨rfl, rfl⟩
  have h1 : SamePasses s (clearInFlight b (reevaluate b (moveTo b t s))) := (samePasses_leaveState (b := b)).trans (samePasses_reevaluate (s := moveTo b t s))
  dsimp only; split
  · unfold releaseLock; split
    · refine h1.trans ?_; simp [SamePasses, Hooks.quiet, dropLock]
    · exact h1
  · exact h1
theorem samePasses_joinNotices {n} : SamePasses s (joinNotices n s) := by unfold joinNotices; split <;> exact ⟨rfl, rfl⟩
theorem samePasses_noticeBerth {k d} : SamePasses s (noticeBerth b k d s) := by
  unfold noticeBerth; dsimp only; split; exact samePasses_joinNotices; split; exact samePasses_joinNotices (s := updBerth b _ s); split; exact ⟨rfl, rfl⟩; exact samePasses_joinNotices (s := updBerth b _ s)
theorem samePasses_grantBerth {p} : SamePasses s (grantBerth x b p s) := by
  unfold grantBerth
  refine SamePasses.trans (t := enterState .quiet b .admitted (updRamp b Ramp.onAdmitted (updBerth b (fun r => { r with terms := some p.terms }) (takeBay x b p.frequency (updSec x (fun r => { r with granted := r.granted + p.demand }) (updBerth b (fun r => { r with grant := p.demand }) s)))))) ?_ ?_
  · refine SamePasses.trans ?_ samePasses_enterState
    unfold takeBay; split <;> simp [SamePasses, updRamp]
  · exact SamePasses.trans (by exact ⟨rfl, rfl⟩) samePasses_noticeBerth
theorem samePasses_bumpAhead {l} : SamePasses s (bumpAhead l s) := by
  unfold bumpAhead
  induction l generalizing s with
  | nil => exact ⟨rfl, rfl⟩
  | cons a l ih => exact SamePasses.trans (by exact ⟨rfl, rfl⟩) (ih (s := updBerth a _ s))
theorem samePasses_walkQueue {l a} : SamePasses s (walkQueue x l a s) := by
  induction l generalizing s a with
  | nil => exact ⟨rfl, rfl⟩
  | cons c l ih =>
    unfold walkQueue; split; exact ⟨rfl, rfl⟩
    split
    · exact (samePasses_grantBerth).trans (samePasses_bumpAhead.trans ih)
    · exact ih
theorem samePasses_servicePass : SamePasses s (servicePass x s) := by unfold servicePass; split; exact samePasses_walkQueue; exact ⟨rfl, rfl⟩
theorem runPasses_settled : (runPasses s).settled := by
  have hs : ({ s with passA := false, passB := false } : State).settled := ⟨rfl, rfl⟩
  have g : ∀ {u t : State}, SamePasses u t → u.settled → t.settled := fun h k => ⟨h.1.trans k.1, h.2.trans k.2⟩
  unfold runPasses; split
  · exact hs
  · exact g samePasses_servicePass hs
  · exact g samePasses_servicePass hs
  · exact g samePasses_servicePass (g samePasses_servicePass hs)
theorem settled_runPasses (h : s.settled) : runPasses s = s := by
  obtain ⟨h1, h2⟩ := h; unfold runPasses; rw [h1, h2]; dsimp only; cases s; simp_all
theorem SamePasses.settled (h : SamePasses s t) (k : s.settled) : t.settled := ⟨h.1.trans k.1, h.2.trans k.2⟩

end Sys2Proof.Machine
end

