-- ==== Sys2Proof/Tests/Slice0.lean ====
section
/-! SUPPORT. The model's own tests: ill-formed commands the check refuses, the CRC and the frames, single steps on a
small site, and for every statement with hypotheses a state that meets them (`meets_…`). -/

namespace Sys2Proof.Tests

open Sys2Proof.Machine

set_option Elab.async false

/-! ## WellFormed -/

theorem test_empty_frame_is_refused : Instr.wellFormed (.receiveFrame 0 []) = false := by decide
theorem test_one_byte_frame_is_taken : Instr.wellFormed (.receiveFrame 0 [0x00#8]) = true := by decide
theorem test_third_place_is_refused : Instr.wellFormed (.holdQueueExpiry 0 2) = false := by decide
theorem test_second_place_is_taken : Instr.wellFormed (.holdQueueExpiry 0 1) = true := by decide
theorem test_no_word_is_a_command : decodeTableWord 32 0x12345678 = none := by decide

/-! ## A small site: berth 1 with its equipment, the equipment of section A, converter 1 and the control room -/

def breaker1 : EquipEntry := ⟨0x0101#16, .shoreBreaker, portSA, some 0, none, none, none⟩
def plug1 : EquipEntry := ⟨0x0102#16, .plugStation, 0, some 0, none, none, none⟩
def ship1 : EquipEntry := ⟨0x0103#16, .shipPms, 0, some 0, none, none, none⟩
def earth1 : EquipEntry := ⟨0x0104#16, .earthSwitch, portSA, some 0, none, none, none⟩
def syncA : EquipEntry := ⟨0x0201#16, .synchroniser, portSA, none, some .A, none, none⟩
def feederA : EquipEntry := ⟨0x0202#16, .feederMonitor, portSA, none, some .A, none, none⟩
def panelA : EquipEntry := ⟨0x0203#16, .localPanel, portSA, none, some .A, none, none⟩
def converter1 : EquipEntry := ⟨0x0204#16, .converter, portSA, none, none, some .bay1, none⟩
def room : EquipEntry := ⟨0x0301#16, .supervisor, portSUP, none, none, none, none⟩

/-- The part after power-on with the small site in its EQUIPMENT MAP. -/
def site : State := { State.reset with
  equipment := (Vector.replicate 64 none).set 0 (some breaker1) |>.set 1 (some plug1) |>.set 2 (some ship1)
    |>.set 3 (some earth1) |>.set 4 (some syncA) |>.set 5 (some feederA) |>.set 6 (some panelA)
    |>.set 7 (some converter1) |>.set 8 (some room) }

/-- The frame has arrived on the port. -/
def arriving (p : Port) (f : Frame) (s : State) : State := updPort p (fun r => { r with rx := [f.encode] }) s

/-- Berth 1 changed. -/
def berth1 (f : Berth → Berth) (s : State) : State := updBerth 0 f s

/-- Berth 1 in a state. -/
def inState (st : BerthState) (s : State) : State := berth1 (fun r => { r with state := st }) s

/-- The command in front of the queue, in a state. -/
def with1 (c : Instr) (s : State) : State := { s with pending := [c] }

/-- What the state after a step shows. -/
def after {α : Type} (look : State → α) (s : State) : Option α :=
  match step s with
  | .next t => some (look t)
  | _ => none

/-- `n` frames that wait to be sent, the first of them forwarded from `a` when there is one. -/
def waiting (n : Nat) (a : Option Port) : List TxFrame :=
  (List.range n).map fun i => ⟨⟨0x0103#16, 0x0301#16, 0x04#8, 0x01#8, 0, [1, 0x41]⟩, if i = 0 then a else none⟩

def fill (p : Port) (n : Nat) (a : Option Port) (s : State) : State := updPort p (fun r => { r with tx := waiting n a }) s

/-! Frames to the part. -/

def shipAsks (code : Byte) : Frame := ⟨0x0001#16, 0x0103#16, 0x03#8, code, 7, []⟩
def roomAsks (code : Byte) (payload : List Byte) : Frame := ⟨0x0001#16, 0x0301#16, 0x03#8, code, 7, payload⟩
def report (e : EquipEntry) (code : Byte) (payload : List Byte) : Frame := ⟨0x0001#16, e.id, 0x02#8, code, 7, payload⟩
def tableFrame (code table index : Byte) (body : List Byte) : Frame :=
  ⟨0x0001#16, 0x0301#16, 0x06#8, code, 7, table :: index :: body⟩
/-- An ORDER of the local panel to the plug station of berth 1. -/
def panelOrder (code : Byte) (payload : List Byte) : Frame := ⟨0x0102#16, 0x0203#16, 0x01#8, code, 7, payload⟩

/-! ## When a frame has arrived, as a check -/

theorem arrived_iff {s : State} {p : Port} {f : Frame} {e : EquipEntry} {d : Option EquipEntry} :
    Arrived s p f e d ↔ (s.port p).rx.head?.bind (checkFrame s.ownId) = some f ∧ s.route p f = some (e, d) := by
  constructor
  · rintro ⟨⟨bytes, rest, h, c⟩, r⟩; exact ⟨by rw [h]; exact c, r⟩
  · rintro ⟨c, r⟩
    cases h : (s.port p).rx with
    | nil => rw [h] at c; cases c
    | cons bytes rest => rw [h] at c; exact ⟨⟨bytes, rest, h, c⟩, r⟩

theorem waits_iff {s : State} {p : Port} {f : Frame} :
    Waits s p f ↔ (s.port p).rx.head?.bind (checkFrame s.ownId) = some f := by
  constructor
  · rintro ⟨bytes, rest, h, c⟩; rw [h]; exact c
  · intro c
    cases h : (s.port p).rx with
    | nil => rw [h] at c; cases c
    | cons bytes rest => rw [h] at c; exact ⟨bytes, rest, h, c⟩

theorem shipAsks_of {s : State} {p : Port} {f : Frame} {b : BerthId} {code : Byte} (e : EquipEntry)
    (h : (s.port p).rx.head?.bind (checkFrame s.ownId) = some f ∧ s.route p f = some (e, none) ∧ e.cls = .shipPms ∧
      e.berth = some b ∧ f.kind = kindRequest ∧ f.code = code ∧ f.payload = []) : ShipAsks s p f b code :=
  ⟨⟨e, arrived_iff.2 ⟨h.1, h.2.1⟩, h.2.2.1, h.2.2.2.1⟩, h.2.2.2.2.1, h.2.2.2.2.2.1, h.2.2.2.2.2.2⟩

theorem roomAsks_of {s : State} {p : Port} {f : Frame} {code : Byte} {payload : List Byte} (e : EquipEntry)
    (h : (s.port p).rx.head?.bind (checkFrame s.ownId) = some f ∧ s.route p f = some (e, none) ∧ e.cls = .supervisor ∧
      f.kind = kindRequest ∧ f.code = code ∧ f.payload = payload) : RoomAsks s p f code payload :=
  ⟨⟨e, arrived_iff.2 ⟨h.1, h.2.1⟩, h.2.2.1⟩, h.2.2.2.1, h.2.2.2.2.1, h.2.2.2.2.2⟩

theorem reported_of {s : State} {p : Port} {f : Frame} {e : EquipEntry} {d : Option EquipEntry} {code : Byte}
    (h : (s.port p).rx.head?.bind (checkFrame s.ownId) = some f ∧ s.route p f = some (e, d) ∧ f.kind = kindReport ∧
      f.code = code) : Reported s p f e d code :=
  ⟨arrived_iff.2 ⟨h.1, h.2.1⟩, h.2.2.1, h.2.2.2⟩

theorem tableAsks_of {s : State} {f : Frame} {code table index : Byte} {body : List Byte} (e : EquipEntry)
    (h : (s.port portSUP).rx.head?.bind (checkFrame s.ownId) = some f ∧ s.route portSUP f = some (e, none) ∧
      f.kind = kindTable ∧ f.code = code ∧ f.payload = table :: index :: body) : TableAsks s f code table index body :=
  ⟨waits_iff.2 h.1, .inr ⟨e, h.2.1⟩, h.2.2.1, h.2.2.2.1, h.2.2.2.2⟩

/-! A queue that holds no berth, or only QUEUED ones. -/

theorem queuesSound_of {s : State} (h : (∀ c ∈ s.sectionA.queue, (s.berth c).state = .queued) ∧
    ∀ c ∈ s.sectionB.queue, (s.berth c).state = .queued) : s.queuesSound := by
  intro x; cases x
  · exact h.1
  · exact h.2

/-! ## Frames (7.2) -/

theorem test_crc : crc16 [0x31, 0x32, 0x33, 0x34, 0x35, 0x36, 0x37, 0x38, 0x39] = 0x29B1#16 := by decide +kernel
theorem test_frame_reads_back : parseFrame (panelOrder 0x02 [0x01, 0x01]).encode = some (panelOrder 0x02 [0x01, 0x01]) := by
  decide +kernel
theorem test_largest_frame_reads_back :
    parseFrame (tableFrame 0x02 9 1 (List.replicate 46 0)).encode = some (tableFrame 0x02 9 1 (List.replicate 46 0)) := by
  decide +kernel
theorem test_49_bytes_do_not_read : parseFrame (tableFrame 0x02 9 1 (List.replicate 47 0)).encode = none := by
  decide +kernel

theorem test_site_fits_its_map : ([breaker1, plug1, ship1, earth1, syncA, feederA, panelA, converter1, room].all
    (·.fitsClass)) = true := by decide +kernel

/-! ## Witnesses: the part as a whole -/

theorem meets_StepTakesTheFrontCommand :
    (with1 .clockTick State.reset).pending = .clockTick :: [] ∧ State.reset.pending = [] := ⟨rfl, rfl⟩

/-- The state a witness of an invariant starts from: a command waits, and a step takes it to a next state. -/
theorem test_a_tick_is_a_step : step (with1 .clockTick site) = .next { with1 .clockTick site with
    pending := [], clock := ⟨1, 0, 12, false⟩ } := by
  have h : Host.Outcome.next { with1 .clockTick site with pending := [], clock := ⟨1, 0, 12, false⟩ } =
    step (with1 .clockTick site) := by
    show Host.Outcome.next _ = Host.Outcome.next (tick _)
    congr 1
    decide +kernel
  exact h.symm

theorem meets_StepKeepsBuffersBounded : (with1 .clockTick site).bounded := by
  unfold State.bounded PortRec.bounded; decide +kernel

theorem meets_StepKeepsClosingOrdersOut : (with1 .clockTick site).guarded := by
  refine ⟨?_, ?_, ?_⟩
  · decide +kernel
  · intro p t h
    have : ∀ q : Fin 11, ((with1 .clockTick site).port q).onLink = none := by decide +kernel
    rw [this p] at h; cases h
  · decide +kernel

theorem meets_StepKeepsSectionsConsistent : (with1 .clockTick site).arbitrated ∧ (with1 .clockTick site).withinLimits ∧
    (with1 .clockTick site).queuesSound ∧ (with1 .clockTick site).settled := by
  refine ⟨?_, ?_, queuesSound_of (by decide +kernel), ⟨rfl, rfl⟩⟩
  · intro x; cases x <;> (unfold SectionRec.arbitrated; decide +kernel)
  · intro x; cases x <;> exact .inl (by decide +kernel)

theorem meets_StepKeepsArbitersSound : (with1 .clockTick site).arbitersSound where
  arbitrated x := by cases x <;> (unfold SectionRec.arbitrated; decide +kernel)
  own x := by cases x <;> decide +kernel
  lock x l h := by cases x <;> cases h
  request b k h := by
    have n : ∀ c : BerthId, (with1 .clockTick site).request c = none := by decide +kernel
    rw [n b] at h; cases h
  op b k h := by
    have n : ∀ c : BerthId, (with1 .clockTick site).opOf c = none := by decide +kernel
    rw [n b] at h; cases h
  closing := by decide +kernel
  opening := by decide +kernel
  stepping := by decide +kernel
  started := by decide +kernel
  shaking := by decide +kernel
  grantWait b n h := by
    have m : ∀ c : BerthId, ((with1 .clockTick site).berth c).ramp.pauseTimer = none := by decide +kernel
    rw [m b] at h; cases h
  starts := by decide +kernel
  queues x := by cases x <;> decide +kernel

theorem meets_StepKeepsGrantsAndBays : (with1 .clockTick site).arbitersSound ∧ (with1 .clockTick site).grantsAgree ∧
    (with1 .clockTick site).baysAgree := by
  refine ⟨meets_StepKeepsArbitersSound, ⟨?_, by decide +kernel⟩, ?_⟩
  · intro x; cases x <;> decide +kernel
  · intro k; cases k <;> decide +kernel

theorem meets_StepKeepsSettingsInRange : (with1 .clockTick State.reset).sound ∧ (with1 .clockTick State.reset).mapSound := by
  refine ⟨⟨?_, ?_, ?_, ?_, ?_, ?_⟩, ?_⟩
  · unfold Clock.sound; decide +kernel
  · intro x; cases x <;> (unfold SectionRec.sound; decide +kernel)
  · unfold Berth.bypassSound; decide +kernel
  · decide +kernel
  · decide +kernel
  · decide +kernel
  · have h : ∀ n : Fin 64, (with1 .clockTick State.reset).equipment[n] = none := by decide +kernel
    refine ⟨fun n e he => ?_, fun n m e f he => ?_⟩ <;> rw [h n] at he <;> cases he

/-! ## Witnesses: frames and ports -/

def badCheck : List Byte := [0, 1, 1, 3, 3, 0x31, 7, 0, 0, 0]

theorem meets_FaultyFrameIsDiscardedAndCounted :
    -- A Check that does not match.
    crc16 [0, 1, 1, 3, 3, 0x31, 7, 0] ≠ idOf 0 0 ∧
    -- A Length above 48, and one that is not the payload's.
    48 < (49#8).toNat ∧ (2#8).toNat ≠ [(0#8)].length ∧
    -- Kinds 0 and 8, and a code its kind does not have.
    (0#8).toNat < 1 ∧ 7 < (8#8).toNat ∧ payloadSizes kindRequest 0x26#8 = none ∧
    -- A payload of another size, and a field outside its names: SYNC_RESULT 0 and 3.
    sizeOk kindReport 0x62#8 [] = false ∧ enumsOk kindReport 0x62#8 [0] = false ∧ enumsOk kindReport 0x62#8 [3] = false ∧
    -- The first and the last code of a NOTICE, and one past each; a NOTICE's section byte at its last value and one more.
    (payloadSizes kindNotice 1#8 = some (9, 17) ∧ payloadSizes kindNotice 24#8 = some (9, 17) ∧
      payloadSizes kindNotice 0#8 = none ∧ payloadSizes kindNotice 25#8 = none) ∧
    (enumsOk kindNotice 1#8 [0, 2] = true ∧ enumsOk kindNotice 1#8 [0, 3] = false) ∧
    -- Frames too short for their Check: of nine bytes, of eight, of seven and of one.
    (∀ n ∈ [9, 8, 7, 1], (List.replicate n 0#8).length < 10 ∧
      ((updPort 0 (fun r => { r with rx := [List.replicate n 0#8] }) site).port 0).rx = List.replicate n 0#8 :: []) ∧
    ((List.replicate 7 0#8).length < 8 ∧ ¬(List.replicate 8 0#8).length < 8) ∧
    -- A frame that passes waits.
    Waits (arriving 0 (shipAsks 0x31#8) site) 0 (shipAsks 0x31#8) := by
  simp only [waits_iff]; decide +kernel

/-- The ship of berth 1 sends to the control room. -/
def toRoom : Frame := ⟨0x0301#16, 0x0103#16, 0x04#8, 0x01#8, 7, [1, 0x41]⟩

theorem meets_UnmappedFrameIsDiscardedAndCounted :
    -- An ID no entry has; one whose entry is on another port; a destination without an entry; one on the arrival port.
    (Waits (arriving 0 { toRoom with src := 0x0999#16 } site) 0 { toRoom with src := 0x0999#16 } ∧
      site.entryOf 0x0999#16 = none) ∧
    (Waits (arriving 1 toRoom site) 1 toRoom ∧ site.entryOf 0x0103#16 = some ship1 ∧ ship1.port ≠ 1) ∧
    (Waits (arriving 0 { toRoom with dst := 0x0999#16 } site) 0 { toRoom with dst := 0x0999#16 }) ∧
    (Waits (arriving 0 { toRoom with dst := 0x0102#16 } site) 0 { toRoom with dst := 0x0102#16 } ∧
      site.entryOf 0x0102#16 = some plug1 ∧ plug1.port = 0) ∧
    -- A frame that is found, for another party and for the part.
    (Waits (arriving 0 toRoom site) 0 toRoom ∧ site.entryOf 0x0301#16 = some room ∧ room.port ≠ 0) ∧
    (Waits (arriving 0 (shipAsks 0x31#8) site) 0 (shipAsks 0x31#8)) ∧
    (toRoom.kind ≠ kindTable ∧ State.startUpAccess site 0 toRoom = false) := by
  simp only [waits_iff]; decide +kernel

theorem meets_PortsReceiveAndSendInOrder :
    ((updPort 0 (fun r => { r with rx := List.replicate 3 badCheck }) site).port 0).rx.length < 4 ∧
    4 ≤ ((updPort 0 (fun r => { r with rx := List.replicate 4 badCheck }) site).port 0).rx.length ∧
    ((fill 0 2 none site).port 0).tx = (waiting 2 none).head (by decide) :: (waiting 2 none).tail ∧
    (site.port 0).tx = [] := by decide +kernel

theorem meets_TransmitQueueAdmitsByClass :
    ship1.port = 0 ∧ ((fill 0 7 none site).port 0).tx.length < 8 ∧ 8 ≤ ((fill 0 8 none site).port 0).tx.length ∧
    ((fill 0 5 none site).port 0).tx.length ≤ 5 ∧ 5 < ((fill 0 6 none site).port 0).tx.length := by decide +kernel

theorem meets_TripOpenDisplacesAForwardedFrame :
    site.berthEntry .shoreBreaker 0 = some breaker1 ∧ ((fill portSA 7 none site).port breaker1.port).tx.length < 8 ∧
    8 ≤ ((fill portSA 8 (some 0) site).port breaker1.port).tx.length ∧
    ((fill portSA 8 (some 0) site).port breaker1.port).tx =
      [] ++ ⟨⟨0x0103#16, 0x0301#16, 0x04#8, 0x01#8, 0, [1, 0x41]⟩, some 0⟩ :: (waiting 8 (some 0)).tail ∧
    8 ≤ ((fill portSA 8 none site).port breaker1.port).tx.length ∧
    (∀ t ∈ ((fill portSA 8 none site).port breaker1.port).tx, t.arrival = none) := by decide +kernel

/-- A report of one of the site's equipment that stands on SA. -/
def unobserved (e : EquipEntry) (code : Byte) (payload : List Byte) : State :=
  arriving portSA (report e code payload) site

theorem meets_FramesAreAnsweredAndForwarded :
    Arrived (arriving 0 toRoom site) 0 toRoom ship1 (some room) ∧ toRoom.kind = kindReply ∧
    Arrived (arriving 0 { toRoom with dst := 0x0001#16 } site) 0 { toRoom with dst := 0x0001#16 } ship1 none ∧
    (tableFrame 0x01 9 1 []).payload = 9 :: 1 :: [] ∧
    -- Reports that are not observed: the POSITION of a synchroniser, and the CONVERTER_STATE that converter 1 sends of bay 2.
    (Arrived (unobserved syncA 0x61 [2, 1, 2]) portSA (report syncA 0x61 [2, 1, 2]) syncA none ∧
      syncA.cls ≠ .shoreBreaker ∧ syncA.cls ≠ .earthSwitch) ∧
    (Arrived (unobserved converter1 0x69 [2, 1, 1]) portSA (report converter1 0x69 [2, 1, 1]) converter1 none ∧
      converter1.bay.map (fun k => codeIn bayIds k) = some 1#8) ∧
    (unobserved syncA 0x61 [2, 1, 2]).passA = false ∧ (unobserved syncA 0x61 [2, 1, 2]).passB = false := by
  simp only [arrived_iff]; decide +kernel

theorem meets_ReportPayloadsReadBack : (⟨65535, 65535, true, false⟩ : ShipStateReport).shipLoad < 65536 ∧
    (⟨65535, 65535, true, false⟩ : ShipStateReport).shoreLoad < 65536 ∧
    (⟨true, 65535⟩ : StepDoneReport).shoreLoad < 65536 := by decide

theorem meets_RequestsAreChecked :
    -- A code that is no request to the part; a ship's code from the control room and the reverse.
    Arrived (arriving 0 (shipAsks 0x21#8) site) 0 (shipAsks 0x21#8) ship1 none ∧
    Arrived (arriving portSUP (roomAsks 0x31#8 []) site) portSUP (roomAsks 0x31#8 []) room none ∧
    Arrived (arriving 0 (shipAsks 0x47#8) site) 0 (shipAsks 0x47#8) ship1 none ∧
    -- Payloads of a wrong size, and the berth numbers 0 and 9.
    Arrived (arriving 0 { shipAsks 0x33#8 with payload := [1] } site) 0 { shipAsks 0x33#8 with payload := [1] } ship1 none ∧
    Arrived (arriving portSUP (roomAsks 0x41#8 []) site) portSUP (roomAsks 0x41#8 []) room none ∧
    Arrived (arriving portSUP (roomAsks 0x41#8 [0]) site) portSUP (roomAsks 0x41#8 [0]) room none ∧
    Arrived (arriving portSUP (roomAsks 0x45#8 [9]) site) portSUP (roomAsks 0x45#8 [9]) room none := by
  simp only [arrived_iff]; decide +kernel

/-! ## Witnesses: the GATE -/

/-- A GATE TABLE with this action for the panel's orders to a plug station at entry 3, and one that never matches at 1. -/
def ruled (a : GateAction) (s : State) : State := { s with
  gate := s.gate.set 0 ⟨true, some .supervisor, none, .order, none, .any, .pass, 0⟩
    |>.set 2 ⟨true, some .localPanel, some .plugStation, .order, some 0x05#8, .of 0x004#12, a, 65535⟩ }

/-- The panel's order to test the cores, held for berth 1. -/
def heldOrder : HeldFrame := ⟨panelOrder 0x05 [], portSA, .localPanel, .plugStation, 0, 0, 0⟩

/-- An order of the panel that no rule of `ruled` matches, held for berth 1. -/
def secondOrder : HeldFrame := { heldOrder with frame := panelOrder 0x06 [1, 5] }

/-- Berth 1 in PLUGGED holds the panel's order, under a rule with this action. -/
def holding (a : GateAction) : State :=
  ruled a (berth1 (fun r => { r with state := .plugged, holdQueue := [heldOrder] }) site)

theorem meets_FixedGuardsComeFirst :
    (∀ c ∈ [0x01#8, 0x03#8, 0x07#8, 0x09#8], (panelOrder c []).kind = 0x01#8 ∧ (panelOrder c []).code = c) ∧
    ((inState .tripped site).berth 0).state = .tripped ∧
    (∀ c ∈ [0x01#8, 0x03#8, 0x07#8, 0x09#8, 0x02#8, 0x0A#8], (panelOrder 0x05#8 []).code ≠ c) := by decide +kernel

theorem meets_FirstMatchingEntryDecides :
    closingOrder (panelOrder 0x05 []) = false ∧ ((ruled .hold (inState .plugged site)).berth 0).state ≠ .tripped ∧
    openingOrder (panelOrder 0x0A []) = true ∧
    -- Entry 3 matches: its fields are the frame's, and PLUGGED is bit 2 of its set.
    (ruled .hold site).gate[2].valid = true ∧ (ruled .hold site).gate[2].srcClass = some .localPanel ∧
    (ruled .hold site).gate[2].dstClass = some .plugStation ∧ (ruled .hold site).gate[2].code = some 0x05#8 ∧
    (ruled .hold site).gate[2].states = .of 0x004#12 ∧ (0x004#12).getLsbD BerthState.plugged.bit = true ∧
    -- Entries 1 and 2 do not: another source class, and not valid.
    (ruled .hold site).gate[0].srcClass = some .supervisor ∧ (ruled .hold site).gate[1].valid = false ∧
    -- No entry is valid after power-on.
    (∀ n : Fin 48, site.gate[n].valid = false) := by decide +kernel

theorem meets_GateDecisionIsCarriedOut :
    -- Each action, on a frame that has arrived.
    (∀ a ∈ gateActions, (gateJudge (panelOrder 0x05 []) .localPanel .plugStation (some 0)
      (dropHead portSA (arriving portSA (panelOrder 0x05 []) (ruled a (inState .plugged site))))).1 =
        match a with | .pass => .pass | .hold => .hold | .refuse => .refuse .byRule | .discard => .discard) ∧
    Arrived (arriving portSA (panelOrder 0x05 []) (ruled .hold (inState .plugged site))) portSA (panelOrder 0x05 [])
      panelA (some plug1) ∧
    -- A frame held for no berth; berths that hold nothing; a full and an empty hold queue.
    (gateJudge { panelOrder 0x05 [] with dst := 0x0202#16 } .supervisor .feederMonitor none
      { site with gate := site.gate.set 47 ⟨true, none, none, .order, none, .any, .hold, 0⟩ }).1 = .hold ∧
    ((inState .tripped site).berth 0).state = .tripped ∧ (site.berth 0).state = .outOfService ∧
    ((berth1 (fun r => { r with state := .plugged, holdQueue := [heldOrder, heldOrder] }) site).berth 0).holdQueue.length
      = 2 ∧ ((holding .hold).berth 0).holdQueue.length < 2 ∧
    -- An ORDER to the part.
    Arrived (arriving portSA { panelOrder 0x05 [] with dst := 0x0001#16 } site) portSA
      { panelOrder 0x05 [] with dst := 0x0001#16 } panelA none := by
  simp only [arrived_iff]; decide +kernel

theorem meets_ReevaluationKeepsTheFramesHeldAgain :
    ((holding .hold).berth 0).holdQueue = [heldOrder] ∧ (site.berth 0).holdQueue = [] ∧
    (∀ a ∈ gateActions, (gateJudge heldOrder.frame heldOrder.srcClass heldOrder.dstClass (some 0) (holding a)).1 =
      match a with | .pass => .pass | .hold => .hold | .refuse => .refuse .byRule | .discard => .discard) ∧
    -- A map that still has both parties, on other ports, and one that has lost the source.
    (site.entryOf heldOrder.frame.src = some panelA ∧ site.entryOf heldOrder.frame.dst = some plug1 ∧
      panelA.port = heldOrder.arrival ∧ plug1.port ≠ heldOrder.arrival) ∧
    ({ holding .pass with equipment := (holding .pass).equipment.set 6 none } : State).entryOf heldOrder.frame.src = none ∧
    -- Two held frames, of which the rule holds the second alone.
    ((berth1 (fun r => { r with holdQueue := [secondOrder, heldOrder] }) (holding .hold)).berth 0).holdQueue =
      [secondOrder, heldOrder] ∧
    (gateJudge secondOrder.frame secondOrder.srcClass secondOrder.dstClass (some 0) (holding .hold)).1 = .refuse .noRule
      := by
  decide +kernel

theorem meets_HoldTimerExpiryRefusesItsFrame :
    ((holding .hold).berth 0).holdQueue[0]? = some heldOrder ∧ heldOrder.timer = 0 ∧
    ((berth1 (fun r => { r with holdQueue := [{ heldOrder with timer := 1 }, heldOrder] }) site).berth 0).holdQueue[1]? =
      some heldOrder ∧
    (site.berth 0).holdQueue[0]? = none ∧ ({ heldOrder with timer := 1 } : HeldFrame).timer ≠ 0 := by decide +kernel

/-! ## Witnesses: a berth's state and what it holds -/

/-- Berth 1 holds the lock of section A. -/
def locked (s : State) : State := updSec .A (fun r => { r with lock := some ⟨0, .block, 5, 20⟩ }) s

theorem meets_ChangeOfStateHasItsEffects :
    ((inState .onShore site).berth 0).state = .onShore ∧
    (∀ st ∈ [BerthState.closing, .rampIn, .rampOut], ((locked (inState st site)).berth 0).state = st ∧
      ((locked (inState st site)).sec ((locked (inState st site)).secOf 0)).lock.map (·.holder) = some 0) ∧
    (site.sec (site.secOf 0)).lock.map (·.holder) ≠ some 0 := by decide +kernel

theorem meets_SharedStepsDoWhatTheySay : (site.berth 0).holdGranted = false ∧
    ((berth1 (fun r => { r with holdGranted := true }) site).berth 0).holdGranted = true := by decide +kernel

/-- Berth 1 holds bay 1, which is in this state. -/
def inBay (st : BayState) (s : State) : State :=
  s |> berth1 (fun r => { r with bay := some .bay1, grant := 100 })
    |> updBay .bay1 (fun r => { r with state := st, berth := some 0 })
    |> updSec .A (fun r => { r with granted := 100, limit := 100 })

theorem meets_ReleasedGrantGoesBack : (site.berth 0).bay = none ∧
    ((inBay .granted site).berth 0).bay = some .bay1 ∧ ((inBay .granted site).bay .bay1).state = .granted ∧
    ((inBay .faulted site).berth 0).bay = some .bay1 ∧ ((inBay .faulted site).bay .bay1).state ≠ .granted := by
  decide +kernel

theorem meets_TripPathLeavesNothingHeld :
    ((inState .tripped site).berth 0).state = .tripped ∧ ((inState .onShore site).berth 0).state ≠ .tripped ∧
    (inState .onShore site).queuesSound ∧
    (updSec .A (fun r => { r with queue := [0] }) (inState .queued site)).queuesSound :=
  ⟨by decide +kernel, by decide +kernel, queuesSound_of (by decide +kernel), queuesSound_of (by decide +kernel)⟩

theorem meets_ProvingRunStarts :
    site.berthEntry .plugStation 0 = some plug1 ∧ ((fill 0 7 none site).port plug1.port).tx.length < 8 ∧
    8 ≤ ((fill 0 8 none site).port plug1.port).tx.length ∧ (fill 0 8 none site).berthEntry .plugStation 0 = some plug1 := by
  decide +kernel

/-! ## Witnesses: requests -/

def asking (code : Byte) (s : State) : State := arriving 0 (shipAsks code) s
def ordering (code : Byte) (s : State) : State := arriving portSUP (roomAsks code [1]) s

theorem ship_asks {s : State} {code : Byte}
    (h : (s.port 0).rx.head?.bind (checkFrame s.ownId) = some (shipAsks code) ∧
      s.route 0 (shipAsks code) = some (ship1, none)) : ShipAsks s 0 (shipAsks code) 0 code :=
  shipAsks_of ship1 ⟨h.1, h.2, rfl, rfl, rfl, rfl, rfl⟩

theorem room_asks {s : State} {code : Byte}
    (h : (s.port portSUP).rx.head?.bind (checkFrame s.ownId) = some (roomAsks code [1]) ∧
      s.route portSUP (roomAsks code [1]) = some (room, none)) :
    RoomAsks s portSUP (roomAsks code [1]) code (berthPayload 0) :=
  roomAsks_of room ⟨h.1, h.2, rfl, rfl, rfl, rfl⟩

def liner : Profile := ⟨0x00001234#32, 120, .f60, .live, .block, 20⟩
def linerTerms : Terms := ⟨.f60, .live, .block, 20⟩

/-- The site with the liner's profile in entry 1, the feeder LIVE and the limit 250. -/
def fed : State := { site with profiles := site.profiles.set 0 (some liner) } |> updSec .A fun r =>
  { r with feeder := .live, limit := 250 }

/-- Berth 1 proved for the liner. -/
def proved : State := berth1 (fun r => { r with
  state := .proved, vessel := some 0x00001234#32, profile := some 0, provingPassed := true }) fed

/-- Berth 1 queued, and admitted with a grant and terms. -/
def queued : State := proved |> inState .queued |> updSec .A (fun r => { r with queue := [0] })
def admitted : State := proved |> berth1 (fun r => { r with state := .admitted, grant := 120, terms := some linerTerms })
  |> updSec .A (fun r => { r with granted := 120 })
def onShore : State := admitted |> inState .onShore

theorem meets_ShoreRequestIsCheckedAndQueued :
    ShipAsks (asking 0x31 proved) 0 (shipAsks 0x31) 0 0x31 ∧
    RoomAsks (ordering 0x43 proved) portSUP (roomAsks 0x43 [1]) 0x43 (berthPayload 0) ∧
    ((asking 0x31 proved).berth 0).state = .proved ∧ ((asking 0x31 proved).profileOf 0).isSome ∧
    ((asking 0x31 proved).sec .A).feeder = .live ∧ ((asking 0x31 proved).line 0).strain.level = .inactive ∧
    (asking 0x31 proved).settled ∧
    -- Another state; no profile; a feeder that is not LIVE; a STRAIN line that blocks.
    ((asking 0x31 queued).berth 0).state ≠ .proved ∧
    (berth1 (fun r => { r with profile := none }) proved).profileOf 0 = none ∧
    ((updSec .A (fun r => { r with feeder := .unknown }) proved).sec .A).feeder ≠ .live ∧
    ((updLine 0 (fun r => { r with strain := ⟨.enabled, .level, .active, none, 0⟩ }) proved).line 0).strain =
      ⟨.enabled, .level, .active, none, 0⟩ :=
  ⟨ship_asks (by decide +kernel), room_asks (by decide +kernel), by unfold State.settled; decide +kernel⟩

theorem meets_BerthGivesUpItsPlaceOrAdmission :
    ShipAsks (asking 0x33 queued) 0 (shipAsks 0x33) 0 0x33 ∧
    RoomAsks (ordering 0x44 queued) portSUP (roomAsks 0x44 [1]) 0x44 (berthPayload 0) ∧
    ((asking 0x33 queued).berth 0).state = .queued ∧ (asking 0x33 queued).settled ∧
    ShipAsks (asking 0x33 admitted) 0 (shipAsks 0x33) 0 0x33 ∧
    RoomAsks (ordering 0x44 admitted) portSUP (roomAsks 0x44 [1]) 0x44 (berthPayload 0) ∧
    ((asking 0x33 admitted).berth 0).state = .admitted ∧ (asking 0x33 admitted).queuesSound :=
  ⟨ship_asks (by decide +kernel), room_asks (by decide +kernel), by decide +kernel, ⟨rfl, rfl⟩,
    ship_asks (by decide +kernel), room_asks (by decide +kernel), by decide +kernel,
    queuesSound_of (by decide +kernel)⟩

/-- Berth 1 on shore by this method, its ship's generators running. -/
def leaving (m : Method) : State := onShore |> berth1 fun r => { r with
  terms := some { linerTerms with method := m }
  obs := { r.obs with shipState := some ⟨0, 90, true, false⟩ } }

theorem meets_MorningReleaseStarts :
    ShipAsks (asking 0x32 (leaving .live)) 0 (shipAsks 0x32) 0 0x32 ∧
    RoomAsks (ordering 0x44 (leaving .dead)) portSUP (roomAsks 0x44 [1]) 0x44 (berthPayload 0) ∧
    ((leaving .live).berth 0).state = .onShore ∧ ((leaving .live).berth 0).terms = some linerTerms ∧
    ((leaving .dead).berth 0).terms = some { linerTerms with method := .dead } ∧
    (leaving .live).request 0 ≠ some .openOp ∧
    ((leaving .live).berth 0).obs.shipState = some ⟨0, 90, true, false⟩ ∧
    (leaving .live).berthEntry .shipPms 0 = some ship1 ∧ ((leaving .live).port ship1.port).tx.length < 8 ∧
    8 ≤ ((fill 0 8 none (leaving .live)).port ship1.port).tx.length :=
  ⟨ship_asks (by decide +kernel), room_asks (by decide +kernel), by decide +kernel⟩

theorem meets_UnacceptedRequestsChangeNothing :
    (ShipAsks (asking 0x33 proved) 0 (shipAsks 0x33) 0 0x33 ∧ ShipAsks (asking 0x32 proved) 0 (shipAsks 0x32) 0 0x32 ∧
      RoomAsks (ordering 0x44 proved) portSUP (roomAsks 0x44 [1]) 0x44 (berthPayload 0) ∧
      RoomAsks (ordering 0x45 proved) portSUP (roomAsks 0x45 [1]) 0x45 (berthPayload 0) ∧
      RoomAsks (ordering 0x41 proved) portSUP (roomAsks 0x41 [1]) 0x41 (berthPayload 0) ∧
      RoomAsks (ordering 0x42 site) portSUP (roomAsks 0x42 [1]) 0x42 (berthPayload 0)) ∧
    proved.settled ∧ (proved.berth 0).state = .proved ∧
    -- On shore: without terms, with an OPEN pending, and LIVE with its generators off.
    ((berth1 (fun r => { r with terms := none }) onShore).berth 0).terms = none ∧
    (updSec .A (fun r => { r with requests := r.requests.set 0 (some .openOp) }) onShore).request 0 = some .openOp ∧
    (onShore.berth 0).obs.shipState = none ∧ (onShore.berth 0).terms = some linerTerms ∧
    -- Out of service without a complete map; out of service; with capacity; tripped with its breaker not OPEN.
    State.mapped State.reset 0 = false ∧ (site.berth 0).state = .outOfService ∧
    BerthState.holdsCapacity .opening = true ∧ (inState .tripped site).position 0 ≠ some .opened ∧
    -- Tripped with a line that blocks.
    ((updLine 0 (fun r => { r with pilot := ⟨.enabled, .level, .active, none, 0⟩ }) site).line 0).blocks = true ∧
    (site.line 0).blocks = false :=
  ⟨⟨ship_asks (by decide +kernel), ship_asks (by decide +kernel), room_asks (by decide +kernel),
    room_asks (by decide +kernel), room_asks (by decide +kernel), room_asks (by decide +kernel)⟩, ⟨rfl, rfl⟩,
    by decide +kernel⟩

/-- The breaker of berth 1 has reported this position. -/
def positioned (q : Breaker) (s : State) : State :=
  { s with equipment := s.equipment.set 0 (some { breaker1 with position := some q }) }

/-- The latch of berth 1 is at this level. -/
def latched (l : Level) (s : State) : State := updLine 0 (fun r => { r with latch := { r.latch with level := l } }) s

/-- Converter 1 reports that it runs for berth 1, whose ship has reported its load; and converter 2 alone does. -/
def running : State := site |> positioned .closed
  |> updBay .bay1 (fun r => { r with report := some ⟨.bay1, 1, .running⟩ })
  |> berth1 (fun r => { r with obs := { r.obs with shipState := some ⟨0, 300, false, false⟩ } })
def running2 : State := site |> positioned .closed |> updBay .bay2 (fun r => { r with report := some ⟨.bay2, 1, .running⟩ })

theorem meets_ServiceTakesTheBerthIn :
    RoomAsks (ordering 0x41 site) portSUP (roomAsks 0x41 [1]) 0x41 (berthPayload 0) ∧ (ordering 0x41 site).settled ∧
    (site.berth 0).state = .outOfService ∧ site.mapped 0 = true ∧ site.position 0 ≠ some .closed ∧
    (site.line 0).latch.level = .inactive ∧ ((latched .active site).line 0).latch.level = .active ∧
    -- A closed breaker: bay 1 reported RUNNING for the berth, bay 2, and neither; no bay.
    running.position 0 = some .closed ∧ (ordering 0x41 running).settled ∧
    ((running.bay .bay1).state = .free ∧ (running.bay .bay1).report = some ⟨.bay1, 1, .running⟩ ∧ berthOf 1 = some 0) ∧
    ((running2.bay .bay1).report = none ∧ (running2.bay .bay2).state = .free ∧
      (running2.bay .bay2).report = some ⟨.bay2, 1, .running⟩) ∧
    ((positioned .closed site).bay .bay1).report = none ∧ ((positioned .closed site).bay .bay2).report = none ∧
    -- The load is above the limit, which is 0.
    ((running.sec .A).limit < (running.sec .A).granted + 250 ∧ (running.sec .A).overFlag = false) :=
  ⟨room_asks (by decide +kernel), by unfold State.settled; decide +kernel⟩

theorem meets_OutOfServiceResetsTheBerth :
    (∀ st ∈ [BerthState.vacant, .plugged, .proved, .queued], ((ordering 0x42 (inState st site)).berth 0).state = st) ∧
    RoomAsks (ordering 0x42 (positioned .opened (inState .tripped site))) portSUP (roomAsks 0x42 [1]) 0x42
      (berthPayload 0) ∧
    ((positioned .opened (inState .tripped site)).berth 0).state = .tripped ∧
    (positioned .opened (inState .tripped site)).position 0 = some .opened ∧ (inState .tripped site).settled :=
  ⟨by decide +kernel, room_asks (by decide +kernel), by unfold State.settled; decide +kernel⟩

theorem meets_AcknowledgedTripIsCleared :
    RoomAsks (ordering 0x45 (positioned .opened (inState .tripped site))) portSUP (roomAsks 0x45 [1]) 0x45
      (berthPayload 0) ∧
    ((positioned .opened (inState .tripped site)).berth 0).state = .tripped ∧ (site.line 0).blocks = false ∧
    (positioned .opened (inState .tripped site)).position 0 = some .opened ∧
    ((latched .active site).line 0).latch.level = .active ∧ (site.line 0).latch.level = .inactive :=
  ⟨room_asks (by decide +kernel), by decide +kernel⟩

/-! ## Witnesses: clock, notices, RESTART -/

/-- The clock set. -/
def clockAt (time : Nat) (hour : Nat) (due : Bool) (s : State) : State :=
  { s with clock := { s.clock with time := time, boundaryHour := hour, boundaryDue := due } }

def plainNotice : NoticeRec := ⟨.overdraw, some 0, some .A, 0, 0, [1, 2, 3], false⟩

def noticed (n : Nat) (s : State) : State := { s with notices := List.replicate n plainNotice }

/-- Berth 1's night has an ESTOP to sum up. -/
def tallied (s : State) : State := berth1 (fun r => { r with tally := { r.tally with estop := 1 } }) s

theorem meets_NightBoundaryRunsTheHousekeeping :
    (clockAt 43200 12 true site).clock.boundaryDue = true ∧ site.clock.boundaryDue = false ∧
    -- Just past the day's last second, the last second itself, and moves up to and short of the boundary.
    (∀ n ∈ [86400, 86399, 43200, 43199], n < 16777216) ∧
    RoomAsks (arriving portSUP (roomAsks 0x47 (bytes3 86400)) site) portSUP (roomAsks 0x47 (bytes3 86400)) 0x47
      (bytes3 86400) ∧
    RoomAsks (arriving portSUP (roomAsks 0x47 (bytes3 43199)) site) portSUP (roomAsks 0x47 (bytes3 43199)) 0x47
      (bytes3 43199) ∧
    RoomAsks (arriving portSUP (roomAsks 0x47 (bytes3 43200)) site) portSUP (roomAsks 0x47 (bytes3 43200)) 0x47
      (bytes3 43200) ∧
    -- Notices that fill the queue to its last place, and one more.
    (∀ n ∈ [31, 32], (noticed n (tallied site)).notices.length = n) ∧
    (site.clock.time < 43200 ∧ site.clock.time < site.clock.boundaryHour * 3600 ∧ site.clock.boundaryHour * 3600 ≤ 43200) ∧
    ¬(site.clock.boundaryHour * 3600 ≤ 43199) ∧
    (arriving portSUP (roomAsks 0x47 (bytes3 43200)) site).settled :=
  ⟨by decide +kernel, by decide +kernel, by decide +kernel, roomAsks_of room (by decide +kernel),
    roomAsks_of room (by decide +kernel), roomAsks_of room (by decide +kernel), by unfold State.settled; decide +kernel⟩

theorem meets_NoticesAreLimitedAndQueued :
    (∀ k ∈ [NoticeKind.tripped, .nightSummary, .limitReached], k ∈ noticeKinds) ∧ NoticeKind.admitted ≠ .tripped ∧
    NoticeKind.admitted ≠ .nightSummary ∧ NoticeKind.admitted ≠ .limitReached ∧
    ((berth1 (fun r => { r with noticeCount := 15 }) site).berth 0).noticeCount < 16 ∧
    16 ≤ ((berth1 (fun r => { r with noticeCount := 16 }) site).berth 0).noticeCount ∧
    ((berth1 (fun r => { r with noticeCount := 16 }) site).berth 0).noticeLimited = false ∧
    ((berth1 (fun r => { r with noticeLimited := true }) site).berth 0).noticeLimited = true ∧
    (noticed 31 site).notices.length < 32 ∧ 32 ≤ (noticed 32 site).notices.length ∧
    (noticed 32 site).notices = List.replicate 31 plainNotice ++ [plainNotice] := by decide +kernel

theorem meets_NoticeIsOfferedToTheControlRoom :
    (noticed 1 site).notices = plainNotice :: [] ∧ site.supervisor = some room ∧
    ((fill portSUP 7 none site).port portSUP).tx.length < 8 ∧ site.notices = [] ∧ State.supervisor State.reset = none ∧
    8 ≤ ((fill portSUP 8 none site).port portSUP).tx.length := by decide +kernel

theorem meets_PowerOnAndRestartSetTheState :
    -- RESTART with no frame held, and with one.
    RoomAsks (arriving portSUP (roomAsks 0x46 []) site) portSUP (roomAsks 0x46 []) 0x46 [] ∧
    RoomAsks (arriving portSUP (roomAsks 0x46 []) (holding .hold)) portSUP (roomAsks 0x46 []) 0x46 [] ∧
    (∀ b : Fin 8, (site.berth b).holdQueue = []) ∧ ((holding .hold).berth 0).holdQueue = [heldOrder] :=
  ⟨roomAsks_of room (by decide +kernel), roomAsks_of room (by decide +kernel), by decide +kernel⟩

/-! ## Witnesses: tables -/

/-- The control room's TABLE frame has arrived. -/
def tabling (code table index : Byte) (body : List Byte) (s : State) : State :=
  arriving portSUP (tableFrame code table index body) s

theorem tables {s : State} {code table index : Byte} {body : List Byte}
    (h : (s.port portSUP).rx.head?.bind (checkFrame s.ownId) = some (tableFrame code table index body) ∧
      s.route portSUP (tableFrame code table index body) = some (room, none)) :
    TableAsks s (tableFrame code table index body) code table index body :=
  tableAsks_of room ⟨h.1, h.2, rfl, rfl, rfl⟩

theorem tables_of {s : State} {code : Byte} {l : List (Byte × Byte × List Byte)}
    (h : ∀ q ∈ l, ((tabling code q.1 q.2.1 q.2.2 s).port portSUP).rx.head?.bind
        (checkFrame (tabling code q.1 q.2.1 q.2.2 s).ownId) = some (tableFrame code q.1 q.2.1 q.2.2) ∧
      (tabling code q.1 q.2.1 q.2.2 s).route portSUP (tableFrame code q.1 q.2.1 q.2.2) = some (room, none)) :
    ∀ q ∈ l, TableAsks (tabling code q.1 q.2.1 q.2.2 s) (tableFrame code q.1 q.2.1 q.2.2) code q.1 q.2.1 q.2.2 :=
  fun q hq => tables (h q hq)

/-- The first and the last index of every table. -/
def lastIndex : List (Byte × Nat) :=
  [(1, 10), (2, 63), (3, 47), (4, 7), (5, 1), (6, 23), (7, 31), (8, 0), (9, 7), (10, 0)]

theorem meets_TableReadShowsTheEntry : ∀ r ∈ lastIndex,
    TableAsks (tabling 0x01 r.1 (byte (0 + 1)) [] site) (tableFrame 0x01 r.1 (byte (0 + 1)) []) 0x01 r.1 (byte (0 + 1)) []
      ∧ TableAsks (tabling 0x01 r.1 (byte (r.2 + 1)) [] site) (tableFrame 0x01 r.1 (byte (r.2 + 1)) []) 0x01 r.1
        (byte (r.2 + 1)) [] := by
  intro r hr
  have h : ∀ r ∈ lastIndex, ∀ i ∈ [0, r.2],
      ((tabling 0x01 r.1 (byte (i + 1)) [] site).port portSUP).rx.head?.bind (checkFrame 0x0001#16) =
        some (tableFrame 0x01 r.1 (byte (i + 1)) []) ∧
      (tabling 0x01 r.1 (byte (i + 1)) [] site).route portSUP (tableFrame 0x01 r.1 (byte (i + 1)) []) = some (room, none)
      := by decide +kernel
  exact ⟨tables (h r hr 0 (by simp)), tables (h r hr r.2 (by simp))⟩

theorem meets_TableFramesAreChecked :
    -- Tables 0 and 11; indexes 0 and one past the last; a WRITE to PORTS; a length of one too many.
    (∀ q ∈ [((0 : Byte), (1 : Byte), ([] : List Byte)), (9, 0, []), (9, 9, [])], TableAsks (tabling 0x01 q.1 q.2.1 q.2.2 site)
      (tableFrame 0x01 q.1 q.2.1 q.2.2) 0x01 q.1 q.2.1 q.2.2) ∧
    (∀ q ∈ [((11 : Byte), (1 : Byte), ([] : List Byte)), (1, 11, []), (4, 8, [1, 1])],
      TableAsks (tabling 0x02 q.1 q.2.1 q.2.2 site) (tableFrame 0x02 q.1 q.2.1 q.2.2) 0x02 q.1 q.2.1 q.2.2) ∧
    -- A TABLE frame on another port, and one on SUP that is not for the part.
    (Arrived (arriving 0 { tableFrame 0x01 9 1 [] with src := 0x0103#16 } site) 0
        { tableFrame 0x01 9 1 [] with src := 0x0103#16 } ship1 none ∧
      site.startUpAccess 0 (tableFrame 0x01 9 1 []) = false) ∧
    Arrived (arriving portSUP { tableFrame 0x01 9 1 [] with dst := 0x0103#16 } site) portSUP
      { tableFrame 0x01 9 1 [] with dst := 0x0103#16 } room (some ship1) := by
  refine ⟨tables_of (by decide +kernel), tables_of (by decide +kernel), ?_⟩
  simp only [arrived_iff]; decide +kernel

def slow : Timings := ⟨30, 10, 120, 120, 120, 300, 600, 600, 600, 600, 600, 900, 120, 300⟩

/-- WRITE frames at the ends of what the settings admit, and one past. -/
def settings : List (Byte × Byte × List Byte) :=
  -- TIMINGS: every duration at its last value, and one past it.
  [(8, 1, slow.durations.flatMap bytes2), (8, 1, { slow with holdLimit := 301 }.durations.flatMap bytes2),
    -- DEVICE: a free ID, hour 23 and retention 60; the ID 0.
    (10, 1, [0xFF, 0xFF, 23, 60]), (10, 1, [0, 0, 23, 60]),
    -- LINES of berth 8, ESTOP enabled and disabled, and with a byte that is neither 1 nor 2.
    (9, 8, [1, 1, 1, 2, 2, 1] ++ List.replicate 34 0), (9, 8, [2, 1, 1, 2, 2, 1] ++ List.replicate 34 0),
    (9, 8, [1, 1, 1, 2, 2, 0] ++ List.replicate 34 0), (9, 8, [3, 1, 1, 2, 2, 1] ++ List.replicate 34 0),
    -- BERTHS: section B, and bytes that name none.
    (4, 1, [2]), (4, 1, [0]), (4, 1, [3]),
    -- SECTIONS: the last limit and bypass limit, one past each, and the mode bytes that name no mode.
    (5, 1, [250, 7, 2]), (5, 2, [251, 7, 1]), (5, 2, [0, 8, 1]), (5, 1, [250, 7, 0]), (5, 2, [250, 7, 3])]

theorem meets_SettingsAreWritten :
    (∀ q ∈ settings, TableAsks (tabling 0x02 q.1 q.2.1 q.2.2 site) (tableFrame 0x02 q.1 q.2.1 q.2.2) 0x02 q.1 q.2.1 q.2.2) ∧
    (byte (0 + 1) = 1#8 ∧ byte (1 + 1) = 2#8 ∧ byte (7 + 1) = 8#8) ∧ (∀ n ∈ slow.durations, n < 65536) ∧
    (bytesId 0xFFFF#16 ++ [23, 60] = [0xFF, 0xFF, 23, 60] ∧ site.entryOf 0xFFFF#16 = none) ∧
    (∀ e ∈ enables, ([codeIn enables e, 1, 1, 2, 2, 1] ++ List.replicate 34 0).length = 40) ∧
    ([codeIn enables .enabled, codeIn senses .edge] = [1, 1] ∧ sectionByte (some .B) = 2#8 ∧
      codeIn priorityModes .rotating = 2#8 ∧ codeIn priorityModes .fixed = 1#8) ∧
    (site.berth 0).state = .outOfService ∧ (proved.berth 0).state ≠ .outOfService ∧ site.settled :=
  ⟨tables_of (by decide +kernel), by unfold State.settled; decide +kernel⟩

/-- WRITE frames of EQUIPMENT and of GATE with one byte outside its list: at each end of each list that has one. -/
def badMapAndGate : List (Byte × Byte × List Byte) :=
  ([[0, 8, 4, 9, 11, 0, 0, 0], [3, 8, 4, 9, 11, 0, 0, 0], [1, 8, 4, 0, 11, 0, 0, 0], [1, 8, 4, 10, 11, 0, 0, 0],
    [1, 8, 4, 9, 0, 0, 0, 0], [1, 8, 4, 9, 12, 0, 0, 0], [1, 8, 4, 9, 11, 9, 0, 0], [1, 8, 4, 9, 11, 0, 3, 0],
    [1, 8, 4, 9, 11, 0, 0, 3]].map fun b => (2, 64, b)) ++
  [[0, 0, 0, 1, 0, 0x80, 0, 1], [3, 0, 0, 1, 0, 0x80, 0, 1], [1, 10, 0, 1, 0, 0x80, 0, 1], [1, 0, 10, 1, 0, 0x80, 0, 1],
    [1, 0, 0, 2, 0, 0x80, 0, 1], [1, 0, 0, 1, 0x0B, 0x80, 0, 1], [1, 0, 0, 1, 0, 0, 0, 1], [1, 0, 0, 1, 0, 0x10, 0, 1],
    [1, 0, 0, 1, 0, 0x80, 1, 1], [1, 0, 0, 1, 0, 0x80, 0, 0], [1, 0, 0, 1, 0, 0x80, 0, 5]].map fun b => (3, 48, b)

theorem meets_MapAndGateAreWritten :
    -- Bytes outside their lists.
    (∀ q ∈ badMapAndGate, TableAsks (tabling 0x02 q.1 q.2.1 q.2.2 site) (tableFrame 0x02 q.1 q.2.1 q.2.2) 0x02 q.1 q.2.1 q.2.2) ∧
    -- The earth switch of berth 8 fits and clashes with nothing.
    (let e : EquipEntry := ⟨0x0804#16, .earthSwitch, portSB, some 7, none, none, none⟩;
      TableAsks (tabling 0x02 2 64 e.body site) (tableFrame 0x02 2 64 e.body) 0x02 2 (byte ((63 : Fin 64).val + 1)) e.body ∧
        e.fitsClass = true ∧ e.id ≠ 0#16 ∧ e.id ≠ site.ownId ∧ site.equipment[63] = none ∧ e.position = none) ∧
    -- Removal.
    TableAsks (tabling 0x02 2 1 [2, 0, 0, 0, 0, 0, 0, 0] site) (tableFrame 0x02 2 1 [2, 0, 0, 0, 0, 0, 0, 0]) 0x02 2
      (byte ((0 : Fin 64).val + 1)) [2, 0, 0, 0, 0, 0, 0, 0] ∧
    -- A GATE entry with a code its kind has, one with a code it does not have, and one with no state.
    (let g : GateEntry := ⟨true, none, none, .order, some 0x0A#8, .of 0x800#12, .discard, 0⟩;
      TableAsks (tabling 0x02 3 48 g.body site) (tableFrame 0x02 3 48 g.body) 0x02 3 (byte ((47 : Fin 48).val + 1)) g.body ∧
        payloadSizes g.kind.byte 0x0A#8 ≠ none ∧ g.states ≠ .of 0#12) ∧
    -- One on a berth's port does not fit.
    (⟨0x0804#16, .earthSwitch, 7, some 7, none, none, none⟩ : EquipEntry).fitsClass = false ∧
    -- An ID that entry 1 has; an entry in use, and one that is not.
    ({ breaker1 with id := 0x0102#16 } : EquipEntry).clashes plug1 = true ∧
    (site.equipment[0] = some breaker1 ∧ (proved.berth 0).state ≠ .outOfService ∧ (site.berth 0).state = .outOfService) ∧
    payloadSizes GateKind.order.byte 0x0B#8 = none :=
  ⟨tables_of (by decide +kernel), ⟨tables (by decide +kernel), by decide +kernel⟩, tables (by decide +kernel),
    ⟨tables (by decide +kernel), by decide +kernel⟩, by decide +kernel⟩

def cable1 : CableRec := ⟨0x0000C001#32, .serviceable, some .pilot, ⟨0, 0, 0, 0, 0⟩, 0b00001#5, 3, 0#5, 0b00001#5, 0, none⟩

/-- The site with a cable record in slot 32. -/
def cabled (o : Option BerthId) (s : State) : State := { s with cables := s.cables.set 31 (some { cable1 with berth := o }) }

/-- The written body of a cable record whose map is cleared and whose mark is removed. -/
def cableBody : List Byte := bytes4 0x0000C001#32 ++ [1, 0] ++ List.replicate 5 0 ++ [0] ++ List.replicate 6 0

/-- WRITE frames of PROFILES and of CABLES with one byte outside its range: at each end of each range that has one. -/
def badProfilesAndCables : List (Byte × Byte × List Byte) :=
  ([[0, 0, 0, 0, 9, 1, 1, 1, 1, 1], [3, 0, 0, 0, 9, 1, 1, 1, 1, 1], [1, 0, 0, 0, 9, 0, 1, 1, 1, 1],
    [1, 0, 0, 0, 9, 251, 1, 1, 1, 1], [1, 0, 0, 0, 9, 1, 0, 1, 1, 1], [1, 0, 0, 0, 9, 1, 3, 1, 1, 1],
    [1, 0, 0, 0, 9, 1, 1, 0, 1, 1], [1, 0, 0, 0, 9, 1, 1, 3, 1, 1], [1, 0, 0, 0, 9, 1, 1, 1, 0, 1],
    [1, 0, 0, 0, 9, 1, 1, 1, 4, 1], [1, 0, 0, 0, 9, 1, 1, 1, 1, 0], [1, 0, 0, 0, 9, 1, 1, 1, 1, 51]].map
      fun b => (6, 24, b)) ++
  ([(0, 0, 0), (3, 0, 0), (1, 5, 0), (1, 0, 32)].map fun q => (7, 32, bytes4 0x0000C001#32 ++ [q.1, q.2.1] ++
    [0, 0, 0, 0, 0] ++ [q.2.2] ++ [0, 0, 0, 0, 0, 0]))

theorem meets_ProfilesAndCablesAreWritten :
    -- Bytes outside their ranges, of a profile and of a free record in slot 32.
    (∀ q ∈ badProfilesAndCables, TableAsks (tabling 0x02 q.1 q.2.1 q.2.2 (cabled none site))
      (tableFrame 0x02 q.1 q.2.1 q.2.2) 0x02 q.1 q.2.1 q.2.2) ∧
    -- A profile at its last demand and step, one past, and removal; and a cable record.
    (∀ q ∈ [((6 : Byte), (24 : Byte), { liner with vessel := 0x9#32, demand := 250, step := 50 }.body),
        (6, 24, { liner with demand := 251 }.body), (6, 1, 2 :: List.replicate 9 0)],
      TableAsks (tabling 0x02 q.1 q.2.1 q.2.2 fed) (tableFrame 0x02 q.1 q.2.1 q.2.2) 0x02 q.1 q.2.1 q.2.2) ∧
    TableAsks (tabling 0x02 7 32 cableBody (cabled none site)) (tableFrame 0x02 7 32 cableBody) 0x02 7
      (byte ((31 : Fin 32).val + 1)) cableBody ∧
    (byte ((23 : Fin 24).val + 1) = 24#8 ∧ byte ((0 : Fin 24).val + 1) = 1#8) ∧
    -- A vessel that another entry names. The profile is in use; it is not; the states by which a stored change acts.
    fed.profiles[0] = some liner ∧
    ((onShore.berth 0).state.holdsCapacity = true ∧ (onShore.berth 0).profile = some 0 ∧
      (onShore.berth 0).adopted = false) ∧ (proved.berth 0).state.holdsCapacity = false ∧
    ((proved.berth 0).state = .proved ∧ (proved.berth 0).profile = some 0 ∧ (queued.berth 0).state = .queued) ∧
    ((berth1 (fun r => { r with adopted := true }) onShore).berth 0).adopted = true ∧
    (site.berth 0).profile ≠ some 0 ∧ ({ liner with vessel := 0x9#32 } : Profile).vessel ≠ liner.vessel ∧
    -- A cable record: none; one in use; one that is free.
    site.cables[(31 : Fin 32)] = none ∧ (cabled none site).cables[(31 : Fin 32)] = some cable1 ∧
    { cable1 with berth := some 0 }.berth ≠ none ∧ (0#5 : CoreSet) &&& ~~~cable1.hard = 0#5 ∧
    (0b00010#5 : CoreSet) &&& ~~~cable1.hard ≠ 0#5 :=
  ⟨tables_of (by decide +kernel), tables_of (by decide +kernel), tables (by decide +kernel), by decide +kernel⟩

/-! ## Witnesses: the ADMISSION UNIT and the arbiters -/

/-- Berths 1 and 2 queued in section A, berth 2 for the liner. -/
def two : State := queued |> updBerth 1 (fun r => { r with state := .queued, profile := some 0 })
  |> updSec .A (fun r => { r with queue := [0, 1], limit := 120 })

theorem meets_ServicePassGrantsWhatFits :
    (site.sec .A).feeder ≠ .live ∧ ((updSec .A (fun r => { r with overFlag := true }) two).sec .A).overFlag = true ∧
    (two.sec .A).feeder = .live ∧ (two.sec .A).overFlag = false ∧ (two.sec .A).queue = 0 :: [1] ∧
    -- A head that has been passed over as often as the limit, and one short of it.
    (two.sec .A).bypassLimit ≤ ((berth1 (fun r => { r with bypass := 3 }) two).berth 0).bypass ∧
    ¬((two.sec .A).bypassLimit ≤ ((berth1 (fun r => { r with bypass := 2 }) two).berth 0).bypass) ∧
    -- A demand that just fits, one that does not, a free bay, and none.
    two.profileOf 0 = some liner ∧ (two.sec .A).granted + liner.demand ≤ (two.sec .A).limit ∧
    ¬((two.sec .A).granted + 121 ≤ (two.sec .A).limit) ∧
    ((two.bay .bay1).state = .free ∧ two.converterEntry .bay1 ≠ none) ∧ two.converterEntry .bay2 = none ∧
    (inBay .granted two).bay .bay1 = ⟨.granted, some 0, none⟩ ∧
    (two.berth 0).state = .queued ∧ two.settled ∧ ({ two with passA := true } : State).passB = false ∧
    ({ two with passB := true } : State).passA = false := by unfold State.settled; decide +kernel

/-- Berths 1 and 2 ask the local panel's section A for an OPEN, with a full transmit queue on SA: each will end with
PORT_FULL and give its 120 units back. Berth 3 waits for 200 of the 250 units and stands before berth 4, which waits for
100. -/
def chained : State :=
  let p : Profile := ⟨0x1#32, 200, .f50, .dead, .single, 20⟩
  { fed with profiles := fed.profiles.set 1 (some p) |>.set 2 (some { p with demand := 100 }) }
    |> updBerth 0 (fun r => { r with state := .onShore, grant := 120 })
    |> updBerth 1 (fun r => { r with state := .onShore, grant := 120 })
    |> updBerth 2 (fun r => { r with state := .queued, profile := some 1 })
    |> updBerth 3 (fun r => { r with state := .queued, profile := some 2 })
    |> updSec .A (fun r => { r with
        granted := 240, queue := [2, 3], arbiter := .localPanel
        requests := r.requests.set 0 (some .openOp) |>.set 1 (some .openOp) })
    |> fill portSA 8 none

/-- Berth 1 asks section A for an operation. -/
def asks (k : OpKind) (s : State) : State := updSec .A (fun r => { r with requests := r.requests.set 0 (some k) }) s

theorem meets_ArbiterChoosesAndGrants :
    ((updSec .A (fun r => { r with arbiter := .partBusy }) site).sec .A).arbiter ≠ .partIdle ∧
    ((updSec .A (fun r => { r with localPending := true }) site).sec .A).localPending = true ∧
    (site.sec .A).arbiter = .partIdle ∧ (site.sec .A).lock = none ∧ (site.sec .A).localPending = false ∧
    (∀ b : Fin 8, (site.sec .A).requests[b] = none) ∧
    -- Each operation, alone before an idle arbiter; a STEP that waits; a lock's holder; the berth after the last granted.
    (∀ k ∈ opKinds, ((asks k onShore).sec .A).requests[0] = some k) ∧
    ((updSec .A (fun r => { r with spacing := some 1 }) (asks .step onShore)).sec .A).spacing ≠ none ∧
    ((locked (asks .step onShore)).sec .A).lock.map (·.holder) = some 0 ∧
    List.rotate [0, 1, 2, 3, 4, 5, 6, 7] ((7 : Fin 8).val + 1) = [] ++ 0 :: [1, 2, 3, 4, 5, 6, 7] ∧
    List.rotate [0, 1, 2, 3, 4, 5, 6, 7] ((0 : Fin 8).val + 1) = [1, 2, 3, 4, 5, 6, 7] ++ 0 :: [] ∧
    -- A DEAD bus, and a LIVE one; a full transmit queue.
    ((berth1 (fun r => { r with obs := { r.obs with shipState := some ⟨0, 0, false, true⟩ } }) admitted).berth 0).obs.shipState
      = some ⟨0, 0, false, true⟩ ∧ (admitted.berth 0).obs.shipState = none ∧
    (send (site.berthEntry .shipPms 0) kindRequest 0x23#8 [] (fill 0 7 none site)).2 = true ∧
    (send (site.berthEntry .shipPms 0) kindRequest 0x23#8 [] (fill 0 8 none site)).2 = false ∧
    -- After the first end of a chain of PORT_FULL ends, a second one calls for a pass; after that, none does.
    ((grantOperation .A 0 .openOp chained).2 = false ∧
      (earlyLoop .A 63 (finishOperation .noChoice .A 0 .openOp (.failed .portFull)
        (grantOperation .A 0 .openOp (updSec .A (fun r => { r with arbiter := .partIdle }) chained)).1)).passA = true) ∧
    (earlyLoop .A 63 (finishOperation .noChoice .A 0 .openOp (.failed .portFull)
      (grantOperation .A 0 .openOp (updSec .A (fun r => { r with
        arbiter := .partIdle, requests := r.requests.set 1 none }) chained)).1)).passA = false := by decide +kernel

/-- A report of one of the site's equipment has arrived at the part. -/
def reporting (e : EquipEntry) (code : Byte) (payload : List Byte) (s : State) : State :=
  arriving e.port (report e code payload) s

theorem reports {s : State} {e : EquipEntry} {code : Byte} {payload : List Byte}
    (h : (s.port e.port).rx.head?.bind (checkFrame s.ownId) = some (report e code payload) ∧
      s.route e.port (report e code payload) = some (e, none)) :
    Reported s e.port (report e code payload) e none code :=
  reported_of ⟨h.1, h.2, rfl, rfl⟩

theorem meets_LocalPanelAndSectionTimers :
    Reported (reporting panelA 0x6B [] site) panelA.port (report panelA 0x6B []) panelA none 0x6B ∧
    Reported (reporting panelA 0x6C [] site) panelA.port (report panelA 0x6C []) panelA none 0x6C ∧
    panelA.cls = .localPanel ∧ panelA.sec = some .A ∧ (reporting panelA 0x6B [] site).settled ∧
    ((updSec .A (fun r => { r with arbiter := .localPanel }) site).sec .A).arbiter = .localPanel ∧
    (site.sec .A).arbiter ≠ .localPanel ∧
    ((updSec .A (fun r => { r with spacing := some 0 }) site).sec .A).spacing = some 0 ∧ (site.sec .A).spacing ≠ some 0 ∧
    ((updSec .A (fun r => { r with lock := some ⟨0, .close, 0, 20⟩ }) site).sec .A).lock = some ⟨0, .close, 0, 20⟩ ∧
    ((locked site).sec .A).lock = some ⟨0, .block, 5, 20⟩ ∧ (site.sec .A).lock = none :=
  ⟨reports (by decide +kernel), reports (by decide +kernel), by unfold State.settled; decide +kernel⟩

/-- Berth 1 has this operation in flight, with these seconds left. -/
def inOp (k : OpKind) (i : InFlightKind) (left : Nat) (s : State) : State :=
  s |> berth1 (fun r => { r with inFlight := some ⟨i, 0, left⟩ })
    |> updSec .A (fun r => { r with arbiter := .partBusy, op := some (0, k) })

def closing : State := admitted |> inState .closing |> inOp .syncClose .syncClose 0

theorem meets_OperationsEnd :
    -- The breaker's POSITION, by each value and each operation it ends.
    (∀ q ∈ breakers, Reported (reporting breaker1 0x61 (bytesId breaker1.id ++ [codeIn breakers q]) closing) breaker1.port
        (report breaker1 0x61 (bytesId breaker1.id ++ [codeIn breakers q])) breaker1 none 0x61 ∧
      positionOf (bytesId breaker1.id ++ [codeIn breakers q]) = some (breaker1.id, q)) ∧
    -- SYNC_RESULT FAILED and MATCHED.
    (∀ q ∈ syncOutcomes, Reported (reporting syncA 0x62 [codeIn syncOutcomes q] closing) syncA.port
      (report syncA 0x62 [codeIn syncOutcomes q]) syncA none 0x62) ∧
    -- STEP_DONE, for the STEP in flight and without one.
    Reported (reporting ship1 0x66 [1, 0, 90] (inOp .step .step 0 onShore)) ship1.port (report ship1 0x66 [1, 0, 90]) ship1
      none 0x66 ∧
    closing.opOf 0 = some .syncClose ∧ (inOp .deadClose .deadClose 0 closing).opOf 0 = some .deadClose ∧
    (inOp .openOp .openOp 0 (inState .opening admitted)).opOf 0 = some .openOp ∧
    (closing.sec .A).op = some (0, .syncClose) ∧ (site.sec .A).op = none ∧ stepDoneOf [1, 0, 90] = some ⟨true, 90⟩ ∧ stepDoneOf [2, 0, 90] = some ⟨false, 90⟩ ∧
    (inOp .step .step 0 onShore).opOf 0 = some .step ∧ site.opOf 0 = none ∧
    -- The timer, due and not yet.
    (closing.berth 0).inFlight = some ⟨.syncClose, 0, 0⟩ ∧
    ((inOp .step .step 1 onShore).berth 0).inFlight = some ⟨.step, 0, 1⟩ := by
  refine ⟨?_, ?_, reports (by decide +kernel), by decide +kernel⟩
  · intro q hq; exact ⟨reports (by revert q; decide +kernel), by revert q; decide +kernel⟩
  · intro q hq; exact reports (by revert q; decide +kernel)

/-! ## Witnesses: the CHANGEOVER UNIT -/

theorem meets_OperationOutcomesActOnTheBerth :
    (admitted.berth 0).state = .admitted ∧ (closing.berth 0).state = .closing ∧
    (∀ k ∈ opKinds, k = .syncClose ∨ k = .deadClose ∨ k = .step ∨ k = .openOp) := by decide +kernel

/-- Berth 1 on its ramp, in this state and with this channel. -/
def ramping (st : BerthState) (f : Ramp → Ramp) : State := admitted |> berth1 fun r => { r with
  state := st
  holdGranted := true
  ramp := f { r.ramp with masked := false, stepUnits := 20, baseCount := 6, currentCount := 6, shoreSeen := some 21 } }

def onRamp : State := ramping .rampIn id

theorem meets_RampsMoveTheLoadInSteps :
    -- A channel that asks, and the three that do not; loads of 0, and of more than 64 steps; no load known.
    ((onRamp.berth 0).ramp.masked = false ∧ (onRamp.berth 0).ramp.terminal = false ∧ (onRamp.berth 0).ramp.paused = false) ∧
    (site.berth 0).ramp.masked = true ∧
    ((ramping .rampIn fun r => { r with terminal := true }).berth 0).ramp.terminal = true ∧
    ((ramping .rampIn fun r => { r with paused := true }).berth 0).ramp.paused = true ∧
    (onRamp.berth 0).terms = some linerTerms ∧
    ((onRamp.berth 0).ramp.direction = .inward ∧ (onRamp.berth 0).ramp.aborting = false) ∧
    ((ramping .rampOut fun r => { r with direction := .outward }).berth 0).ramp.direction = .outward ∧
    ((ramping .rampIn fun r => { r with pauseTimer := some (.grantWait, 0) }).berth 0).ramp.pauseTimer = some (.grantWait, 0)
    ∧ ((ramping .rampIn fun r => { r with pauseTimer := some (.grantWait, 1) }).berth 0).ramp.pauseTimer ≠
      some (.grantWait, 0) ∧ onRamp.settled := by unfold State.settled; decide +kernel

theorem meets_RampsPauseAndAbort :
    ((onRamp.berth 0).state = .rampIn ∧ (onRamp.berth 0).ramp.mode ≠ .demand) ∧
    ((ramping .rampOut fun r => { r with mode := .demand }).berth 0).ramp.mode = .demand ∧
    ¬((site.berth 0).state = .rampIn ∨ (site.berth 0).state = .rampOut) ∧
    ((ramping .rampIn fun r => { r with pauseTimer := some (.pause, 0) }).berth 0).ramp.pauseTimer = some (.pause, 0) ∧
    (onRamp.berth 0).ramp.pauseTimer ≠ some (.pause, 0) ∧ onRamp.settled ∧
    onRamp.berthEntry .shipPms 0 = some ship1 ∧ (onRamp.port ship1.port).tx.length < 8 ∧
    8 ≤ ((fill 0 8 none onRamp).port ship1.port).tx.length ∧
    -- A shore load one above the step, one at it, and none seen; a ramp out.
    ((onRamp.berth 0).ramp.shoreSeen = some 21 ∧ (onRamp.berth 0).ramp.stepUnits < 21) ∧
    ¬((onRamp.berth 0).ramp.stepUnits < 20) ∧ (site.berth 0).ramp.shoreSeen = none ∧
    ((ramping .rampOut id).berth 0).state = .rampOut := by unfold State.settled; decide +kernel

/-- Berth 1 waits for the answer to its HOLD_PARALLEL. -/
def shaking (st : BerthState) (left : Nat) : State := admitted |> berth1 fun r => { r with
  state := st, inFlight := some ⟨.holdHandshake, 0, left⟩ }

/-- The states in which a HOLD_STATE may find berth 1. -/
def held : List State :=
  [shaking .admitted 5, asks .syncClose (shaking .admitted 5), admitted, closing,
    ramping .rampIn (fun r => { r with paused := true }), onRamp, ramping .rampIn (fun r => { r with terminal := true }),
    ramping .rampIn (fun r => { r with masked := true }), shaking .rampOut 5, inState .opening admitted, site]

theorem meets_HoldAnswersAreActedOn :
    (∀ s ∈ held, ∀ a ∈ holdAnswers, Reported (reporting ship1 0x67 [codeIn holdAnswers a] s) ship1.port
      (report ship1 0x67 [codeIn holdAnswers a]) ship1 none 0x67) ∧
    ((shaking .admitted 5).request 0 ≠ some .syncClose ∧ (asks .syncClose (shaking .admitted 5)).request 0 = some .syncClose) ∧
    ((shaking .rampOut 0).berth 0).inFlight = some ⟨.holdHandshake, 0, 0⟩ ∧
    ((shaking .admitted 0).berth 0).inFlight = some ⟨.holdHandshake, 0, 0⟩ ∧
    ((berth1 (fun r => { r with inFlight := some ⟨.deadWait, 0, 0⟩ }) admitted).berth 0).inFlight = some ⟨.deadWait, 0, 0⟩ ∧
    (admitted.berth 0).inFlight = none ∧ admitted.settled := by
  refine ⟨?_, by unfold State.settled; decide +kernel⟩
  have h : ∀ s ∈ held, ∀ a ∈ holdAnswers,
      ((reporting ship1 0x67 [codeIn holdAnswers a] s).port ship1.port).rx.head?.bind
        (checkFrame (reporting ship1 0x67 [codeIn holdAnswers a] s).ownId) = some (report ship1 0x67 [codeIn holdAnswers a])
      ∧ (reporting ship1 0x67 [codeIn holdAnswers a] s).route ship1.port (report ship1 0x67 [codeIn holdAnswers a]) =
        some (ship1, none) := by decide +kernel
  exact fun s hs a ha => reports (h s hs a ha)

/-- Berth 1 is granted and not yet started, with a bay or without, and by this method. -/
def granted1 (k : Option BayId) (m : Method) : State := { admitted with startQueue := [0] } |> berth1 fun r => { r with
  bay := k, terms := some { linerTerms with method := m } }

/-- Berth 1 in a state and bay 1 in a state that names it. -/
def bayed (b : BayState) (st : BerthState) : State := admitted
  |> berth1 (fun r => { r with state := st, bay := some .bay1, inFlight := some ⟨.converterStart, 0, 0⟩ })
  |> updBay .bay1 (fun r => { r with state := b, berth := some 0 })

theorem meets_ConvertersAreStartedAndWatched :
    ((granted1 (some .bay1) .live).startQueue = 0 :: [] ∧ (granted1 (some .bay1) .live).converterEntry .bay1 = some converter1
      ∧ ((granted1 (some .bay1) .live).berth 0).bay = some .bay1) ∧
    (∀ m ∈ methods, ((granted1 none m).berth 0).bay = none ∧
      ((granted1 none m).berth 0).terms = some { linerTerms with method := m } ∧
      (granted1 none m).berthEntry .shipPms 0 = some ship1 ∧ ((granted1 none m).port ship1.port).tx.length < 8) ∧
    (site.startQueue = [] ∧ site.settled) ∧
    -- Every run a converter reports, to a bay in every state; and for another berth.
    (∀ run ∈ converterRuns, ∀ b ∈ bayStates, Reported (reporting converter1 0x69 [1, 1, codeIn converterRuns run]
        (bayed b .admitted)) converter1.port (report converter1 0x69 [1, 1, codeIn converterRuns run]) converter1 none 0x69 ∧
      converterStateOf [1, 1, codeIn converterRuns run] = some ⟨.bay1, 1, run⟩ ∧ ((bayed b .admitted).bay .bay1).state = b) ∧
    berthOf 2 ≠ some 0 ∧ (∀ st ∈ [BerthState.closing, .rampIn, .onShore, .rampOut, .opening],
      ((bayed .granted st).berth 0).state.closingToOpening = true) ∧
    -- The start's timer, due and not; a bay that names no berth.
    ((bayed .granted .admitted).berth 0).inFlight = some ⟨.converterStart, 0, 0⟩ ∧ (admitted.berth 0).inFlight = none ∧
    (site.bay .bay1).berth = none := by
  refine ⟨by decide +kernel, by decide +kernel, ⟨by decide +kernel, ⟨rfl, rfl⟩⟩, ?_, by decide +kernel⟩
  have h : ∀ run ∈ converterRuns, ∀ b ∈ bayStates,
      ((reporting converter1 0x69 [1, 1, codeIn converterRuns run] (bayed b .admitted)).port converter1.port).rx.head?.bind
        (checkFrame (reporting converter1 0x69 [1, 1, codeIn converterRuns run] (bayed b .admitted)).ownId) =
          some (report converter1 0x69 [1, 1, codeIn converterRuns run]) ∧
      (reporting converter1 0x69 [1, 1, codeIn converterRuns run] (bayed b .admitted)).route converter1.port
        (report converter1 0x69 [1, 1, codeIn converterRuns run]) = some (converter1, none) := by decide +kernel
  exact fun run hr b hb => ⟨reports (h run hr b hb), by revert run; decide +kernel, by revert b; decide +kernel⟩

/-- The payload of a SHIP_STATE: 0 on the ship, `n` from the shore, no generator running, the bus DEAD. -/
def load (n : Byte) : List Byte := [0, 0, 0, n, 2, 2]

theorem meets_ShipLoadsAreWatched :
    -- A load at the grant, one above it where the section has just room, and one more.
    (∀ n ∈ [120#8, 250#8, 251#8], Reported (reporting ship1 0x65 (load n) onShore) ship1.port (report ship1 0x65 (load n))
        ship1 none 0x65 ∧ shipStateOf (load n) = some ⟨0, n.toNat, false, true⟩) ∧
    ((onShore.berth 0).state = .onShore ∧ (onShore.berth 0).grant = 120 ∧ (onShore.sec .A).granted = 120 ∧
      (onShore.sec .A).limit = 250) ∧
    -- The waits it ends.
    (berth1 (fun r => { r with inFlight := some ⟨.gensOffWait, 0, 0⟩ }) onShore).flying 0 = some .gensOffWait ∧
    (berth1 (fun r => { r with inFlight := some ⟨.deadWait, 0, 0⟩ }) admitted).flying 0 = some .deadWait ∧
    admitted.request 0 = none ∧
    -- The overdraw timer in both stages, and stopped.
    ((berth1 (fun r => { r with overdraw := some 0 }) onShore).berth 0).overdraw = some 0 ∧
    ((berth1 (fun r => { r with overdraw := some 0 }) onShore).berth 0).overdrawStage = .first ∧
    ((berth1 (fun r => { r with overdrawStage := .shedSent }) onShore).berth 0).overdrawStage = .shedSent ∧
    (onShore.berth 0).overdraw ≠ some 0 ∧ (onShore.berth 0).inFlight = none ∧ onShore.settled ∧
    ((berth1 (fun r => { r with inFlight := some ⟨.gensOffWait, 0, 0⟩ }) onShore).berth 0).inFlight =
      some ⟨.gensOffWait, 0, 0⟩ := by
  refine ⟨?_, by unfold State.settled; decide +kernel⟩
  intro n hn; exact ⟨reports (by revert n; decide +kernel), by revert n; decide +kernel⟩

theorem meets_FeederLossAndReturn :
    (∀ q ∈ [1#8, 2#8], ∀ x ∈ feederStates,
      Reported (reporting feederA 0x6A [q] (updSec .A (fun r => { r with feeder := x }) admitted)) feederA.port
        (report feederA 0x6A [q]) feederA none 0x6A ∧
      ((updSec .A (fun r => { r with feeder := x }) admitted).sec .A).feeder = x) ∧
    ((closing.sec .A).op ≠ none ∧ ((locked site).sec .A).lock ≠ none) ∧
    ((admitted.sec .A).op = none ∧ (admitted.sec .A).lock = none) ∧ admitted.settled := by
  refine ⟨?_, by unfold State.settled; decide +kernel⟩
  have h : ∀ q ∈ [1#8, 2#8], ∀ x ∈ feederStates,
      ((reporting feederA 0x6A [q] (updSec .A (fun r => { r with feeder := x }) admitted)).port feederA.port).rx.head?.bind
        (checkFrame (reporting feederA 0x6A [q] (updSec .A (fun r => { r with feeder := x }) admitted)).ownId) =
          some (report feederA 0x6A [q]) ∧
      (reporting feederA 0x6A [q] (updSec .A (fun r => { r with feeder := x }) admitted)).route feederA.port
        (report feederA 0x6A [q]) = some (feederA, none) := by decide +kernel
  exact fun q hq x hx => ⟨reports (h q hq x hx), by revert x; decide +kernel⟩

/-! ## Witnesses: POSITION, proving and lines -/

/-- Berth 1 tripped with its OPEN in flight. -/
def tripping (left : Nat) : State := site |> berth1 fun r => { r with
  state := .tripped, tripCause := some .estop, inFlight := some ⟨.tripOpen, 0, left⟩ }

theorem meets_UnaskedPositionsActOnTheBerth :
    (∀ st ∈ berthStates, ∀ q ∈ breakers,
      Reported (reporting breaker1 0x61 (bytesId breaker1.id ++ [codeIn breakers q]) (inState st site)) breaker1.port
        (report breaker1 0x61 (bytesId breaker1.id ++ [codeIn breakers q])) breaker1 none 0x61 ∧
      ((inState st site).berth 0).state = st) ∧
    (∀ q ∈ breakers, positionOf (bytesId breaker1.id ++ [codeIn breakers q]) = some (breaker1.id, q)) ∧
    (site.opOf 0 = none ∧ site.flying 0 ≠ some .tripOpen) ∧
    -- The earth switch; a POSITION that names another ID.
    Reported (reporting earth1 0x61 (bytesId earth1.id ++ [1]) site) earth1.port (report earth1 0x61 (bytesId earth1.id ++ [1]))
      earth1 none 0x61 ∧
    Reported (reporting breaker1 0x61 (bytesId earth1.id ++ [1]) site) breaker1.port
      (report breaker1 0x61 (bytesId earth1.id ++ [1])) breaker1 none 0x61 ∧
    (positionOf (bytesId earth1.id ++ [1]) = some (earth1.id, .opened) ∧ earth1.id ≠ breaker1.id ∧ site.settled) ∧
    -- Operations in flight; a trip OPEN in flight, its timer due and not.
    (inOp .step .step 5 onRamp).opOf 0 = some .step ∧ (inOp .openOp .openOp 5 (inState .opening site)).opOf 0 = some .openOp ∧
    (tripping 0).flying 0 = some .tripOpen ∧ ((tripping 0).berth 0).inFlight = some ⟨.tripOpen, 0, 0⟩ ∧
    ((tripping 1).berth 0).inFlight = some ⟨.tripOpen, 0, 1⟩ := by
  refine ⟨?_, by decide +kernel, by decide +kernel, reports (by decide +kernel), reports (by decide +kernel),
    by unfold State.settled; decide +kernel⟩
  have h : ∀ st ∈ berthStates, ∀ q ∈ breakers,
      ((reporting breaker1 0x61 (bytesId breaker1.id ++ [codeIn breakers q]) (inState st site)).port
        breaker1.port).rx.head?.bind (checkFrame
          (reporting breaker1 0x61 (bytesId breaker1.id ++ [codeIn breakers q]) (inState st site)).ownId) =
        some (report breaker1 0x61 (bytesId breaker1.id ++ [codeIn breakers q])) ∧
      (reporting breaker1 0x61 (bytesId breaker1.id ++ [codeIn breakers q]) (inState st site)).route breaker1.port
        (report breaker1 0x61 (bytesId breaker1.id ++ [codeIn breakers q])) = some (breaker1, none) := by decide +kernel
  exact fun st hs q hq => ⟨reports (h st hs q hq), by revert st; decide +kernel⟩

/-- A CORE_TEST of cable C001 with this result for P1, and an ASSIGN_DONE of this outcome. -/
def tested (p1 : Byte) : List Byte := bytes4 0x0000C001#32 ++ [p1, 1, 1, 1, 1]
def assigned (ok : Byte) : List Byte := [1, 5, ok]

/-- Berth 1 in PLUGGED, at this step of its proving run. -/
def proving (p : ProvingStep) (s : State) : State := s |> berth1 fun r => { r with
  state := .plugged, provingStep := p, cable := some 0x0000C001#32, assignOrder := some .pilot
  inFlight := some ⟨.coreTest, 0, 0⟩ }

theorem meets_ProvingReportsAreTaken :
    -- A first test, a retest and a third test of the cable in slot 32, free, in use, or with no map.
    (∀ p ∈ [ProvingStep.test1, .retest, .test3, .idle, .assign], ∀ o ∈ [none, some (0 : BerthId), some 1],
      Reported (reporting plug1 0x63 (tested 1) (proving p (cabled o site))) plug1.port (report plug1 0x63 (tested 1)) plug1
        none 0x63 ∧
      ((proving p (cabled o site)).berth 0).provingStep = p ∧
      (proving p (cabled o site)).cableSlotOf 0x0000C001#32 = some 31 ∧
      (proving p (cabled o site)).cables[(31 : Fin 32)] = some { cable1 with berth := o }) ∧
    (∃ q, coreTestOf (tested 1) = some q ∧ q.cable = 0x0000C001#32) ∧
    -- A cable without a record: the first slot is empty.
    ((proving .test1 site).cableSlotOf 0x0000C001#32 = none ∧ (proving .test1 site).cables[(0 : Fin 32)] = none) ∧
    -- An assignment done as ordered, and one that is not.
    Reported (reporting plug1 0x64 (assigned 1) (proving .assign (cabled (some 0) site))) plug1.port
      (report plug1 0x64 (assigned 1)) plug1 none 0x64 ∧
    (assignDoneOf (assigned 1) = some ⟨.pilot, .sp, true⟩ ∧ assignDoneOf (assigned 2) = some ⟨.pilot, .sp, false⟩) ∧
    ((proving .assign site).berth 0).assignOrder = some .pilot ∧
    -- The timer, due and stopped.
    ((proving .test1 site).berth 0).inFlight = some ⟨.coreTest, 0, 0⟩ ∧ (site.berth 0).inFlight = none ∧ site.settled := by
  refine ⟨?_, ⟨⟨0x0000C001#32, .ok, .ok, .ok, .ok, .ok⟩, by decide +kernel⟩, by decide +kernel, reports (by decide +kernel),
    by unfold State.settled; decide +kernel⟩
  have h : ∀ p ∈ [ProvingStep.test1, .retest, .test3, .idle, .assign], ∀ o ∈ [none, some (0 : BerthId), some 1],
      (((reporting plug1 0x63 (tested 1) (proving p (cabled o site))).port plug1.port).rx.head?.bind
        (checkFrame (reporting plug1 0x63 (tested 1) (proving p (cabled o site))).ownId) = some (report plug1 0x63 (tested 1)) ∧
      (reporting plug1 0x63 (tested 1) (proving p (cabled o site))).route plug1.port (report plug1 0x63 (tested 1)) =
        some (plug1, none)) ∧
      ((proving p (cabled o site)).berth 0).provingStep = p ∧
      (proving p (cabled o site)).cableSlotOf 0x0000C001#32 = some 31 ∧
      (proving p (cabled o site)).cables[(31 : Fin 32)] = some { cable1 with berth := o } := by decide +kernel
  exact fun p hp o ho => ⟨reports (h p hp o ho).1, (h p hp o ho).2⟩

/-- Whether a report has arrived rests on the buffer, the own ID and the map alone. -/
theorem reported_like {s t : State} {p : Port} {f : Frame} {e : EquipEntry} {d : Option EquipEntry} {code : Byte}
    (h : Reported s p f e d code) (hp : (t.port p).rx = (s.port p).rx) (ho : t.ownId = s.ownId)
    (he : t.equipment = s.equipment) : Reported t p f e d code := by
  obtain ⟨⟨⟨bytes, rest, h1, h2⟩, h3⟩, h4, h5⟩ := h
  refine ⟨⟨⟨bytes, rest, hp ▸ h1, ho ▸ h2⟩, ?_⟩, h4, h5⟩
  rw [← h3]; unfold State.route State.entryOf State.entries; rw [ho, he]

theorem meets_CablesAreJudgedAndVesselsNamed :
    (∀ s ∈ [inState .plugged proved, proved, berth1 (fun r => { r with adopted := true, vessel := none }) onShore, onShore,
        inState .plugged fed, site],
      (Reported (reporting ship1 0x68 (bytes4 0x00001234#32) s) ship1.port (report ship1 0x68 (bytes4 0x00001234#32)) ship1
        none 0x68) ∧
      (Reported (reporting ship1 0x68 (bytes4 0x00001235#32) s) ship1.port (report ship1 0x68 (bytes4 0x00001235#32)) ship1
        none 0x68)) ∧
    -- The map PILOT leaves P1 out; a mark on P2 is judged.
    (0b00001#5 : CoreSet) &&& 0b11110#5 = 0#5 ∧ (0b00010#5 : CoreSet) &&& 0b11110#5 ≠ 0#5 ∧
    (cabled none site).cables[(31 : Fin 32)] = some cable1 ∧
    site.berthEntry .plugStation 0 = some plug1 ∧ ((fill 0 7 none site).port plug1.port).tx.length < 8 ∧
    8 ≤ ((fill 0 8 none site).port plug1.port).tx.length ∧
    (site.berth 0).vessel = none ∧ (proved.berth 0).vessel = some 0x00001234#32 ∧
    fed.profileIndexOf 0x00001234#32 = some 0 ∧ fed.profileIndexOf 0x00001235#32 = none ∧ fed.profiles[0] = some liner := by
  refine ⟨?_, by decide +kernel⟩
  have h4 : Reported (reporting ship1 0x68 (bytes4 0x00001234#32) site) ship1.port
      (report ship1 0x68 (bytes4 0x00001234#32)) ship1 none 0x68 := reports (by decide +kernel)
  have h5 : Reported (reporting ship1 0x68 (bytes4 0x00001235#32) site) ship1.port
      (report ship1 0x68 (bytes4 0x00001235#32)) ship1 none 0x68 := reports (by decide +kernel)
  intro s hs
  simp only [List.mem_cons, List.not_mem_nil, or_false] at hs
  rcases hs with rfl | rfl | rfl | rfl | rfl | rfl <;>
    exact ⟨reported_like h4 rfl rfl rfl, reported_like h5 rfl rfl rfl⟩

theorem meets_LinesActOnTheBerth :
    (∀ st ∈ berthStates, ((inState st site).berth 0).state = st) ∧
    -- Every line inactive and enabled; each active; STRAIN disabled; the strain timer due and not.
    ((site.line 0).estop = ⟨.enabled, .edge, .inactive, none, 0⟩ ∧ (site.line 0).pilot = ⟨.enabled, .edge, .inactive, none, 0⟩ ∧
      (site.line 0).strain = ⟨.enabled, .edge, .inactive, none, 0⟩ ∧ (site.line 0).latch.level = .inactive) ∧
    (let u := updLine 0 (fun r => { r with
        estop := { r.estop with level := .active }, pilot := { r.pilot with level := .active }
        strain := { r.strain with level := .active, enable := .disabled }, latch := { r.latch with level := .active }
        strainTimer := some 0 }) site;
      (u.line 0).estop.level = .active ∧ (u.line 0).pilot.level = .active ∧ (u.line 0).strain.level = .active ∧
        (u.line 0).strain.enable = .disabled ∧ (u.line 0).latch.level = .active ∧ (u.line 0).strainTimer = some 0) ∧
    (site.line 0).strainTimer ≠ some 0 ∧ site.settled := by unfold State.settled; decide +kernel

/-! ## Single steps -/

/-- The state of berth 1, what waits on a port to be sent, and the notices. -/
def state1 (s : State) : BerthState := (s.berth 0).state
def sent (p : Port) (s : State) : List (List Byte) :=
  (s.port p).tx.map fun t => t.frame.kind :: t.frame.code :: t.frame.payload
def kinds (s : State) : List NoticeKind := s.notices.map (·.kind)

/-- A command before a state: what the step shows. -/
def shows {α : Type} (c : Instr) (look : State → α) (s : State) : Option α := after look (with1 c s)

theorem test_power_on : shows (.powerOn (Vector.replicate 8 ⟨.inactive, .inactive, .inactive, .active⟩))
    (fun s => (state1 s, (s.line 0).latch.level, s.pending)) onShore = some (.outOfService, .active, []) := by decide +kernel
theorem test_restart_refuses_held_frames : shows (.restart portSUP) (sent portSA)
    (arriving portSUP (roomAsks 0x46 []) (holding .hold)) = some [[5, 1, 9, 1, 5]] := by decide +kernel
theorem test_restart : shows (.restart portSUP) (fun s => (state1 s, sent portSUP s, kinds s))
    (arriving portSUP (roomAsks 0x46 []) onShore) = some (.outOfService, [[4, 1, 1, 0x46]], [.restarted]) := by
  decide +kernel
theorem test_tick_after_midnight : shows .clockTick (fun s => (s.clock.time, s.clock.night)) (clockAt 86399 12 false site) =
    some (0, 0) := by decide +kernel
theorem test_tick_to_the_boundary : shows .clockTick (·.clock) (clockAt 43199 12 false site) =
    some ⟨43200, 0, 12, true⟩ := by decide +kernel
theorem test_night_number_returns_to_zero : shows .nightBoundary (·.clock)
    { site with clock := ⟨43200, 65535, 12, true⟩ } = some ⟨43200, 0, 12, false⟩ := by decide +kernel
theorem test_fifth_frame_is_lost : shows (.receiveFrame 0 [1]) (fun s => ((s.port 0).rx.length, (s.port 0).overruns))
    (updPort 0 (fun r => { r with rx := List.replicate 4 badCheck }) site) = some (4, 1) := by decide +kernel
theorem test_sending_starts : shows (.transmitStart 0) (fun s => ((s.port 0).tx.length, (s.port 0).onLink.isSome))
    (fill 0 2 none site) = some (1, true) := by decide +kernel
theorem test_notice_frame : shows .noticeOffer (sent portSUP) (noticed 1 site) =
    some [[7, 9, 1, 1, 0, 0, 0, 0, 0, 0, 3, 1, 2, 3]] := by decide +kernel
theorem test_order_without_rule : shows (.gateDecision portSA) (sent portSA)
    (arriving portSA (panelOrder 0x05 []) site) = some [[5, 1, 1, 1, 5]] := by decide +kernel
theorem test_order_passes : shows (.gateDecision portSA) (fun s => (sent 0 s, s.gate[2].hits))
    (arriving portSA (panelOrder 0x05 []) (ruled .pass (inState .plugged site))) = some ([[1, 5]], 65535) := by
  decide +kernel
theorem test_reply_is_forwarded : shows (.forwardFrame 0) (sent portSUP) (arriving 0 toRoom site) =
    some [[4, 1, 1, 0x41]] := by decide +kernel
theorem test_shore_wanted_is_granted : shows (.shoreWanted 0) (fun s => (state1 s, (s.berth 0).bay, (s.sec .A).granted,
    sent 0 s)) (asking 0x31 proved) = some (.admitted, some .bay1, 120, [[4, 1, 1, 0x31]]) := by decide +kernel
theorem test_admit_of_another_state : shows (.admitBerth portSUP) (sent portSUP) (ordering 0x43 queued) =
    some [[4, 1, 2, 0x43]] := by decide +kernel
theorem test_withdraw : shows (.withdraw 0) (fun s => (state1 s, (s.sec .A).queue)) (asking 0x33 queued) =
    some (.proved, []) := by decide +kernel
theorem test_release_wanted_live : shows (.releaseWanted 0) (fun s => (state1 s, sent 0 s)) (asking 0x32 (leaving .live)) =
    some (.rampOut, [[3, 0x21], [4, 1, 1, 0x32]]) := by decide +kernel
theorem test_release_dead_opens : shows (.release portSUP) (fun s => (state1 s, sent portSA s))
    (ordering 0x44 (leaving .dead)) = some (.opening, [[1, 2, 0x01, 0x01]]) := by decide +kernel
theorem test_service : shows (.service portSUP) state1 (ordering 0x41 site) = some .vacant := by decide +kernel
theorem test_adoption : shows (.service portSUP) (fun s => (state1 s, (s.berth 0).grant, (s.berth 0).bay, (s.sec .A).overFlag,
    kinds s)) (ordering 0x41 running) = some (.onShore, 250, some .bay1, true, [.sectionOver, .adopted]) := by decide +kernel
theorem test_out_of_service_is_busy : shows (.outOfService portSUP) (sent portSUP) (ordering 0x42 onShore) =
    some [[4, 1, 11, 0x42]] := by decide +kernel
theorem test_trip_is_acknowledged : shows (.ackTrip portSUP) (fun s => (state1 s, s.notices.map (·.detail)))
    (ordering 0x45 (positioned .opened (tripping 1))) = some (.vacant, [[1, 2]]) := by decide +kernel
theorem test_set_clock_past_the_boundary : shows (.setClock portSUP) (fun s => (s.clock.time, s.clock.night))
    (arriving portSUP (roomAsks 0x47 (bytes3 43200)) site) = some (43200, 1) := by decide +kernel
theorem test_read_of_timings : shows (.tableRead portSUP) (fun s => ((sent portSUP s).map (·.length)))
    (tabling 0x01 8 1 [] site) = some [33] := by decide +kernel
theorem test_read_series : shows (.tableRead portSUP) (fun s => (sent portSUP s).map (fun f => (f.take 7, f.length)))
    (tabling 0x01 4 1 [] site) = some [([6, 1, 4, 1, 1, 1, 3], 50), ([6, 1, 4, 1, 1, 2, 3], 50), ([6, 1, 4, 1, 1, 3, 3], 47)] := by
  decide +kernel
/-- A BERTHS entry is the section, then the state, then the vessel (R161). -/
theorem test_read_of_a_berth : shows (.tableRead portSUP) (fun s => (sent portSUP s).head?.map (fun f => (f.drop 7).take 6))
    (tabling 0x01 4 1 [] proved) = some (some [1, 4, 0, 0, 0x12, 0x34]) := by decide +kernel
theorem test_night_summary_is_lost : shows .nightBoundary (fun s => (s.notices.length, (s.notices.getLast?.map (·.lostAfter)),
    kinds s == List.replicate 32 .overdraw)) (clockAt 43200 12 true (noticed 32 (tallied site))) = some (32, some true, true) := by
  decide +kernel
theorem test_night_summary_takes_the_last_place : shows .nightBoundary (fun s => s.notices.getLast?)
    (clockAt 43200 12 true (noticed 31 (tallied site))) =
    some (some ⟨.nightSummary, some 0, some .A, 0, 43200, [0, 0, 0, 0, 0, 0, 0, 1], false⟩) := by decide +kernel
theorem test_write_to_ports : shows (.tableWrite portSUP) (sent portSUP) (tabling 0x02 1 1 [] site) =
    some [[6, 2, 1, 1, 10]] := by decide +kernel
theorem test_map_entry_in_use : shows (.equipmentWrite portSUP) (sent portSUP)
    (tabling 0x02 2 1 [2, 0, 0, 0, 0, 0, 0, 0] proved) = some [[6, 2, 2, 1, 6]] := by decide +kernel
theorem test_gate_write_drops_a_held_frame : shows (.gateWrite portSUP) (fun s => (s.berth 0).holdQueue.length)
    (tabling 0x02 3 3 (GateEntry.body ⟨true, none, none, .order, none, .any, .discard, 0⟩) (holding .hold)) = some 0 := by
  decide +kernel
theorem test_section_of_a_berth_in_service : shows (.berthsWrite portSUP) (sent portSUP) (tabling 0x02 4 1 [2] proved) =
    some [[6, 2, 4, 1, 6]] := by decide +kernel
theorem test_limit_below_the_grants : shows (.sectionsWrite portSUP) (fun s => ((s.sec .A).overFlag, kinds s))
    (tabling 0x02 5 1 [119, 3, 2] onShore) = some (true, [.sectionOver]) := by decide +kernel
theorem test_profile_in_use : shows (.profilesWrite portSUP) (sent portSUP) (tabling 0x02 6 1 (2 :: List.replicate 9 0) onShore)
    = some [[6, 2, 6, 1, 6]] := by decide +kernel
theorem test_cable_slot_is_empty : shows (.cablesWrite portSUP) (sent portSUP)
    (tabling 0x02 7 1 (bytes4 0x0000C001#32 ++ [1, 0] ++ List.replicate 12 0) site) = some [[6, 2, 7, 1, 2]] := by
  decide +kernel
theorem test_timings_are_written : shows (.timingsWrite portSUP) (·.timings)
    (tabling 0x02 8 1 (slow.durations.flatMap bytes2) site) = some slow := by decide +kernel
theorem test_estop_cannot_be_disabled : shows (.linesWrite portSUP) (sent portSUP)
    (tabling 0x02 9 1 ([2, 1, 1, 2, 2, 1] ++ List.replicate 34 0) site) = some [[6, 2, 9, 1, 9]] := by decide +kernel
theorem test_own_id_is_written : shows (.deviceWrite portSUP) (·.ownId) (tabling 0x02 10 1 [0xFF, 0xFF, 23, 60] site) =
    some 0xFFFF#16 := by decide +kernel
theorem test_breaker_opens_on_shore : shows (.position portSA) (fun s => (state1 s, (s.berth 0).tripCause, sent portSA s))
    (reporting breaker1 0x61 [1, 1, 1] onShore) = some (.tripped, some .breakerOpened, []) := by decide +kernel
theorem test_breaker_closes : shows (.position portSA) (fun s => (state1 s, (s.sec .A).op, (s.sec .A).lock.map (·.source)))
    (reporting breaker1 0x61 [1, 1, 2] (berth1 (fun r => { r with holdGranted := true })
      (updSec .A (fun r => { r with lock := some ⟨0, .close, 9, 20⟩ }) closing))) =
    some (.rampIn, some (0, .step), some .block) := by decide +kernel
theorem test_passes_run_before_the_release_is_reported : shows (.position portSA) (fun s => (state1 s, (s.berth 1).state, kinds s))
    (reporting breaker1 0x61 [1, 1, 1] (inOp .openOp .openOp 5 (inState .opening admitted)
      |> updBerth 1 (fun r => { r with state := .queued, profile := some 0 })
      |> updSec .A (fun r => { r with queue := [1], limit := 120 }))) =
    some (.vacant, .admitted, [.admitted, .releaseDone]) := by decide +kernel
theorem test_synchronising_fails : shows (.syncResult portSA) (fun s => (state1 s, kinds s)) (reporting syncA 0x62 [2] closing)
    = some (.proved, [.changeoverFailed]) := by decide +kernel
theorem test_clean_cable_proves : shows (.coreTest 0) (fun s => (state1 s, (s.berth 0).cable))
    (reporting plug1 0x63 (tested 1) (berth1 (fun r => { r with state := .plugged, provingStep := .test1, cable := none })
      proved)) = some (.proved, some 0x0000C001#32) := by decide +kernel
theorem test_bad_core_is_retested : shows (.coreTest 0) (fun s => (state1 s, (s.berth 0).provingStep, (s.berth 0).comparison))
    (reporting plug1 0x63 (tested 2) (proving .test1 site)) = some (.plugged, .retest, 0b00001#5) := by decide +kernel
theorem test_substitution : shows (.assignDone 0) (fun s => ((s.berth 0).provingStep, s.cables[(31 : Fin 32)].bind (·.map), kinds s))
    (reporting plug1 0x64 (assigned 1) (proving .assign { cabled (some 0) site with
      cables := site.cables.set 31 (some { cable1 with map := none, berth := some 0 }) })) =
    some (.test3, some .pilot, [.cableSubstituted]) := by decide +kernel
theorem test_hard_path_takes_the_last_test : shows (.coreTest 0) (fun s => ((s.berth 0).provingStep, (s.berth 0).comparison))
    (reporting plug1 0x63 (tested 2) (berth1 (fun r => { r with comparison := 0b00011#5 }) (proving .retest { site with
      cables := site.cables.set 31 (some { cable1 with map := none, hard := 0#5, berth := some 0 }) }))) =
    some (.assign, 0b00001#5) := by decide +kernel
theorem test_grant_grows : shows (.shipState 0) (fun s => ((s.berth 0).grant, (s.sec .A).granted, kinds s))
    (reporting ship1 0x65 (load 250) onShore) = some (250, 250, [.grantGrown]) := by decide +kernel
theorem test_overdraw : shows (.shipState 0) (fun s => ((s.berth 0).grant, (s.berth 0).overdraw, kinds s))
    (reporting ship1 0x65 (load 251) onShore) = some (120, some 120, [.overdraw]) := by decide +kernel
theorem test_last_step : shows (.stepDone 0) (fun s => (state1 s, (s.berth 0).holdGranted, sent 0 s))
    (reporting ship1 0x66 [1, 0, 90] (inOp .step .step 5 (ramping .rampIn fun r => { r with currentCount := 1 }))) =
    some (.onShore, false, [[3, 0x22]]) := by decide +kernel
theorem test_hold_is_granted : shows (.holdState 0) (fun s => (state1 s, sent portSA s)) (reporting ship1 0x67 [1]
    (shaking .admitted 5)) = some (.closing, [[1, 3, 0x01, 0x01]]) := by decide +kernel
theorem test_hold_is_withdrawn : shows (.holdState 0) (fun s => (state1 s, (s.berth 0).ramp.aborting)) (reporting ship1 0x67 [3]
    onRamp) = some (.rampOut, true) := by decide +kernel
theorem test_vessel_is_unknown : shows (.vesselId 0) (fun s => (state1 s, kinds s)) (reporting ship1 0x68 [0, 0, 0x12, 0x35] proved)
    = some (.plugged, [.unknownVessel]) := by decide +kernel
theorem test_bay_faults_under_load : shows (.converterState portSA) (fun s => (state1 s, (s.bay .bay1).state, (s.bay .bay1).berth))
    (reporting converter1 0x69 [1, 1, 3] (bayed .granted .onShore)) = some (.tripped, .faulted, none) := by decide +kernel
theorem test_feeder_is_lost : shows (.feederState portSA) (fun s => (state1 s, (s.sec .A).queue, kinds s))
    (reporting feederA 0x6A [2] admitted) = some (.queued, [0], [.feederLost]) := by decide +kernel
theorem test_local_claim : shows (.localClaim portSA) (fun s => (s.sec .A).arbiter) (reporting panelA 0x6B [] site) =
    some .localPanel := by decide +kernel
theorem test_local_release : shows (.localRelease portSA) (fun s => (s.sec .A).arbiter)
    (reporting panelA 0x6C [] (updSec .A (fun r => { r with arbiter := .localPanel }) site)) = some .partIdle := by decide +kernel
theorem test_estop_trips : shows (.estopActivation 0) (fun s => (state1 s, (s.line 0).estop.count, s.notices.map (·.detail)))
    (inState .proved site) = some (.tripped, 1, [[1, 4, 2, 0]]) := by decide +kernel
theorem test_pilot_lost_in_proved : shows (.pilotActivation 0) (fun s => (state1 s, (s.berth 0).provingStep, sent 0 s)) proved =
    some (.plugged, .test1, [[1, 5]]) := by decide +kernel
theorem test_strain_starts_its_grace : shows (.strainActivation 0) (fun s => (s.line 0).strainTimer) onShore = some (some 60) := by
  decide +kernel
theorem test_strain_clears : shows (.faultLineDeactivation 0 .strain) (fun s => (s.line 0).strainTimer)
    (updLine 0 (fun r => { r with strainTimer := some 5 }) site) = some none := by decide +kernel
theorem test_latch_in : shows (.latchActivation 0) (fun s => (state1 s, sent 0 s)) (inState .vacant site) =
    some (.plugged, [[1, 5]]) := by decide +kernel
theorem test_latch_out : shows (.latchDeactivation 0) (fun s => (state1 s, (s.berth 0).vessel)) (latched .active proved) =
    some (.vacant, none) := by decide +kernel
theorem test_strain_trips : shows (.strainGraceExpiry 0) (fun s => (state1 s, (s.berth 0).tripCause))
    (updLine 0 (fun r => { r with strainTimer := some 0 }) onShore) = some (.tripped, some .strain) := by decide +kernel
theorem test_trip_open_times_out : shows (.tripOpenTimeout 0) (fun s => ((s.berth 0).breakerFail, s.notices.map (·.detail)))
    (tripping 0) = some (true, [[1, 12, 1, 0]]) := by decide +kernel
theorem test_core_test_times_out : shows (.coreTestTimeout 0) (fun s => (state1 s, (s.berth 0).tripCause)) (proving .test1 site) =
    some (.tripped, some .cableFault) := by decide +kernel
theorem test_close_times_out : shows (.operationTimeout 0) (fun s => (state1 s, (s.sec .A).arbiter)) closing =
    some (.proved, .partIdle) := by decide +kernel
theorem test_spacing_ends : shows (.stepSpacingExpiry .A) (fun s => (s.sec .A).op)
    (updSec .A (fun r => { r with spacing := some 0 }) (asks .step onRamp)) = some (some (0, .step)) := by decide +kernel
theorem test_lock_breaks : shows (.lockTimerExpiry .A) (fun s => ((s.sec .A).lock, (s.berth 0).ramp.effMode, kinds s))
    (updSec .A (fun r => { r with lock := some ⟨0, .block, 0, 20⟩ }) onRamp) = some (none, .single, [.lockBroken]) := by
  decide +kernel
/-- One pass follows both releases of the chain (R69): berth 3, the head, fits where after the first release only berth 4
would have. -/
theorem test_one_pass_follows_a_chain_of_releases : shows (.localRelease portSA)
    (fun s => (allBerths.map (fun b => (s.berth b).state)).take 4) (reporting panelA 0x6C [] chained) =
    some [.tripped, .tripped, .admitted, .queued] := by decide +kernel
theorem test_the_pass_stands_at_the_last_release : shows (.localRelease portSA)
    (fun s => (kinds s, (s.sec .A).granted, (s.berth 3).bypass)) (reporting panelA 0x6C [] chained) =
    some ([.tripped, .admitted, .tripped], 200, 0) := by decide +kernel
theorem test_grant_wait_asks_again : shows (.grantWaitExpiry 0) (fun s => ((s.berth 0).ramp.failures, (s.sec .A).op))
    (asks .step (ramping .rampIn fun r => { r with pauseTimer := some (.grantWait, 0) })) = some (1, some (0, .step)) := by
  decide +kernel
theorem test_pause_aborts : shows (.pauseExpiry 0) (fun s => (state1 s, (s.berth 0).ramp.abortCause))
    (ramping .rampIn fun r => { r with paused := true, pauseTimer := some (.pause, 0) }) = some (.rampOut, some .pauseExpired) :=
  by decide +kernel
theorem test_converter_start_times_out : shows (.converterStartTimeout 0) (fun s => (state1 s, (s.bay .bay1).state, kinds s))
    (bayed .granted .admitted) = some (.queued, .faulted, [.bayFaulted]) := by decide +kernel
theorem test_changeover_starts : shows .changeoverStart (fun s => (sent portSA s, s.flying 0)) (granted1 (some .bay1) .live) =
    some ([[1, 7, 1, 1]], some .converterStart) := by decide +kernel
theorem test_hold_times_out : shows (.holdTimeout 0) (fun s => (state1 s, s.notices.map (·.detail))) (shaking .admitted 0) =
    some (.proved, [[1, 2, 0]]) := by decide +kernel
theorem test_failed_release_masks_the_channel : shows (.holdTimeout 0) (fun s => (state1 s, (s.berth 0).ramp.masked, kinds s))
    (berth1 (fun r => { r with ramp := { r.ramp with masked := false, terminal := true } }) (shaking .rampOut 0)) =
    some (.onShore, true, [.releaseFailed]) := by decide +kernel
theorem test_dead_wait_ends : shows (.deadWaitExpiry 0) (fun s => (state1 s, kinds s))
    (berth1 (fun r => { r with inFlight := some ⟨.deadWait, 0, 0⟩ }) admitted) = some (.proved, [.changeoverFailed]) := by
  decide +kernel
theorem test_generators_stay_on : shows (.gensOffWaitExpiry 0) (fun s => s.notices.map (fun n => (n.kind, n.detail)))
    (berth1 (fun r => { r with inFlight := some ⟨.gensOffWait, 0, 0⟩ }) onShore) = some [(.gensNotOff, [1])] := by decide +kernel
theorem test_overdraw_sheds : shows (.overdrawExpiry 0) (fun s => (state1 s, sent 0 s, (s.berth 0).overdraw))
    (berth1 (fun r => { r with overdraw := some 0 }) onShore) = some (.onShore, [[3, 0x25, 0, 120]], some 120) := by
  decide +kernel
theorem test_hold_timer_ends : shows (.holdQueueExpiry 0 0) (sent portSA) (holding .hold) = some [[5, 1, 6, 1, 5]] := by
  decide +kernel

end Sys2Proof.Tests
end

-- ==== Requests for shore power ====
section
/-! PROOFS. What a request for shore power answers and does (R5, R67): the status by the first admission check that
fails, and how a PROVED berth joins its section's queue. -/

namespace Sys2Proof.Machine

variable {s : State} {b : BerthId} {p : Port} {f : Frame} {c : Instr}

/-! ## The re-evaluation and the sections -/

/-- A re-evaluation forwards and refuses held frames; it leaves the sections, their queues with them (R144). -/
@[simp] theorem reevaluate_sec {x : SectionId} : (reevaluate b s).sec x = s.sec x := by
  have hsent : Sent s (reJudgeAll b (s.berth b).holdQueue s).2 := (reJudgeAll_spec s (.refl s) rfl).2
  rw [reevaluate, updBerth_sec, hsent]
  cases x <;> rfl

/-! ## Joining the queue (R67, R68) -/

/-- A PROVED berth that goes to QUEUED changes nothing of its record but the state (R2, R3). -/
theorem moveTo_queued_of_proved (h : (s.berth b).state = .proved) :
    moveTo b .queued s = updBerth b (fun r => { r with state := .queued }) s := by
  have hleave : leaveState b s = s := by simp [leaveState, h]
  rw [moveTo, hleave]
  exact updBerth_congr (by simp [Berth.goTo, h])

/-- A PROVED berth that joins its queue at the tail (R67, R68). -/
theorem joinQueue_tail_of_proved (h : (s.berth b).state = .proved) :
    joinQueue b (s.sec (s.secOf b)).queue.length s = (s
      |> updBerth b (fun r => { r with state := .queued })
      |> reevaluate b
      |> updBerth b (fun r => { r with inFlight := none, bypass := 0 })
      |> updSec (s.secOf b) (fun r => { r with queue := r.queue ++ [b] })
      |> callPass (s.secOf b)) := by
  have henter : enterState .quiet b .queued s =
      (s |> updBerth b (fun r => { r with state := .queued }) |> reevaluate b |> clearInFlight b) := by
    rw [enterState_plain (by simp [h]) (by simp [h, BerthState.mayLock]), moveTo_queued_of_proved h]
  rw [joinQueue, henter, updBerth_updSec, clearInFlight, updBerth_updBerth]
  congr 1
  -- The queue's length is still the one found before the berth's state changed.
  exact updSec_congr (by simp)

/-! ## The admission checks, by the first that fails (R5) -/

theorem askShore_of_not_proved (h : (s.berth b).state ≠ .proved) : askShore b s = (.badState, s) := by
  simp [askShore, h]

theorem askShore_of_no_profile (h : (s.berth b).state = .proved) (hp : s.profileOf b = none) :
    askShore b s = (.noProfile, s) := by simp [askShore, h, hp]

theorem askShore_of_feeder_down (h : (s.berth b).state = .proved) (hp : (s.profileOf b).isSome)
    (hf : (s.sec (s.secOf b)).feeder ≠ .live) : askShore b s = (.feederDown, s) := by
  simp [askShore, h, Option.ne_none_iff_isSome.mpr hp, hf]

theorem askShore_of_strain (h : (s.berth b).state = .proved) (hp : (s.profileOf b).isSome)
    (hf : (s.sec (s.secOf b)).feeder = .live) (hl : (s.line b).strain.blocks = true) :
    askShore b s = (.lineActive, s) := by
  simp [askShore, h, Option.ne_none_iff_isSome.mpr hp, hf, hl]

theorem askShore_of_checked (h : (s.berth b).state = .proved) (hp : (s.profileOf b).isSome)
    (hf : (s.sec (s.secOf b)).feeder = .live) (hl : ¬(s.line b).strain.blocks = true) :
    askShore b s = (.accepted, joinQueue b (s.sec (s.secOf b)).queue.length s) := by
  simp [askShore, h, Option.ne_none_iff_isSome.mpr hp, hf, hl]

/-! ## The two requests (R5, R67) -/

theorem exec_shoreWanted : exec (.shoreWanted p) s = takeShipRequest .shoreWanted p askShore s := rfl

theorem exec_admitBerth : exec (.admitBerth p) s = takeBerthRequest .admitBerth p askShore s := rfl

/-- The command `c` takes a request for shore power at the berth: SHORE_WANTED of its ship, or ADMIT of the control room
(R4, R5). -/
def AsksForShore (c : Instr) (s : State) (p : Port) (f : Frame) (b : BerthId) : Prop :=
  (c = .shoreWanted p ∧ ShipAsks s p f b 0x31#8) ∨ (c = .admitBerth p ∧ RoomAsks s p f 0x43#8 (berthPayload b))

/-- SHORE_WANTED of the ship and ADMIT of the control room make the same request for the berth (R5). -/
theorem exec_shoreRequest (h : AsksForShore c s p f b) :
    exec c s = .next (answer p f (askShore b (dropHead p s))) := by
  obtain ⟨rfl, hship⟩ | ⟨rfl, hroom⟩ := h
  · exact exec_shoreWanted.trans (hship.taken rfl)
  · exact exec_admitBerth.trans (hroom.taken rfl)

/-- Between events a request that an admission check turns away is answered with its status and changes nothing else (R5, R69). -/
theorem exec_shoreRequest_turned_away {st : Status} (h : AsksForShore c s p f b) (hs : s.settled)
    (hr : askShore b (dropHead p s) = (st, dropHead p s)) :
    exec c s = .next (reply p f st (dropHead p s)) := by
  have hdrop : (dropHead p s).settled := hs
  rw [exec_shoreRequest h, hr, answer, finishEvent, settled_runPasses hdrop]

/-- Settles O27: both requests ask the same of the berth, and the first admission check that fails fixes the answer. -/
theorem shoreRequestIsCheckedAndQueued : Obligations.ShoreRequestIsCheckedAndQueued := by
  intro c p f b s (hasks : AsksForShore c s p f b)
  have hsec : (dropHead p s).sec ((dropHead p s).secOf b) = s.sec (s.secOf b) := dropHead_sec
  refine ⟨fun hstate hprofile hfeeder hstrain => ?accepted,
    fun hs => ⟨fun hstate => ?badState, fun hstate hprofile => ?noProfile, fun hstate hprofile hfeeder => ?feederDown,
      fun hstate hprofile hfeeder henable hsense hlevel => ?lineActive⟩⟩
  case accepted =>
    have hline : ¬((dropHead p s).line b).strain.blocks = true := fun hl => hstrain (blocks_iff.mp hl)
    rw [exec_shoreRequest hasks, askShore_of_checked (s := dropHead p s) hstate hprofile (hsec ▸ hfeeder) hline,
      joinQueue_tail_of_proved (s := dropHead p s) hstate]
    rfl
  case badState => exact exec_shoreRequest_turned_away hasks hs (askShore_of_not_proved hstate)
  case noProfile => exact exec_shoreRequest_turned_away hasks hs (askShore_of_no_profile hstate hprofile)
  case feederDown =>
    exact exec_shoreRequest_turned_away hasks hs (askShore_of_feeder_down hstate hprofile (hsec ▸ hfeeder))
  case lineActive =>
    have hline : ((dropHead p s).line b).strain.blocks = true := blocks_iff.mpr ⟨henable, hsense, hlevel⟩
    exact exec_shoreRequest_turned_away hasks hs (askShore_of_strain hstate hprofile (hsec ▸ hfeeder) hline)

end Sys2Proof.Machine
end

-- ==== Frames the EQUIPMENT MAP does not have ====
section
/-! PROOFS. What the checks of R127 find and what becomes of a frame that fails them: every command that takes a frame
discards and counts it, a TABLE frame under start-up access excepted (R127, R160). -/

namespace Sys2Proof.Machine

variable {s : State} {p : Port} {f : Frame} {e : EquipEntry} {d : Option EquipEntry} {row : FrameRow}

/-! ## The checks of R127 -/

/-- One of the four conditions of R127: the source is not in the map, or on another port; the destination is another
party not in the map, or on the arrival port. -/
def State.unmapped (s : State) (p : Port) (f : Frame) : Prop :=
  s.entryOf f.src = none ∨ (∃ e, s.entryOf f.src = some e ∧ e.port ≠ p) ∨
    (f.dst ≠ s.ownId ∧ s.entryOf f.dst = none) ∨ (f.dst ≠ s.ownId ∧ ∃ d, s.entryOf f.dst = some d ∧ d.port = p)

/-- The checks find no entries exactly for an unmapped frame (R127). -/
theorem route_eq_none_iff : s.route p f = none ↔ s.unmapped p f := by
  unfold State.route State.unmapped
  cases hsrc : s.entryOf f.src with
  | none => simp
  | some e =>
    by_cases hport : e.port = p
    · by_cases hown : f.dst = s.ownId
      · simp [hport, hown]
      · cases hdst : s.entryOf f.dst <;> simp [hport, hown]
    · simp [hport]

/-- The entries the checks find are those of the frame's IDs, and the part itself has none (R127). -/
theorem entries_of_route (h : s.route p f = some (e, d)) :
    s.entryOf f.src = some e ∧ (f.dst = s.ownId → d = none) ∧ (f.dst ≠ s.ownId → d = s.entryOf f.dst) := by
  unfold State.route at h
  cases hsrc : s.entryOf f.src with
  | none => simp [hsrc] at h
  | some src =>
    by_cases hport : src.port = p
    · by_cases hown : f.dst = s.ownId
      · simp_all
      · cases hdst : s.entryOf f.dst <;> simp_all
    · simp [hsrc, hport] at h

/-- A frame that waits and is not unmapped has arrived (R127). -/
theorem Waits.arrived (hw : Waits s p f) (hm : ¬s.unmapped p f) : ∃ e d, Arrived s p f e d := by
  obtain ⟨⟨e, d⟩, hroute⟩ := Option.ne_none_iff_exists'.mp (mt route_eq_none_iff.mp hm)
  exact ⟨e, d, hw, hroute⟩

/-! ## The two shapes of a command that takes a frame -/

theorem routed_of_unmapped {act : Frame → EquipEntry → Option EquipEntry → State → State} (h : s.unmapped p f) :
    routed p act f s = countUnmapped p s := by simp [routed, route_eq_none_iff.mpr h]

/-- Without start-up access a TABLE frame is under the map checks like any other (R128, R160). -/
theorem managed_of_unmapped {act : Frame → State → State} (ha : s.startUpAccess p f = false) (h : s.unmapped p f) :
    managed p act f s = countUnmapped p s := by simp [managed, ha, routed_of_unmapped h]

/-- The rows whose commands take TABLE frames (10.2). -/
def FrameRow.isTable : FrameRow → Bool
  | .tableRead | .tableWrite | .equipmentWrite | .gateWrite | .berthsWrite | .sectionsWrite | .profilesWrite
  | .cablesWrite | .timingsWrite | .linesWrite | .deviceWrite => true
  | _ => false

/-- The command of a row that is not for TABLE frames makes the map checks first (R127). -/
theorem exec_command_routed (h : row.isTable = false) :
    ∃ act, exec (row.command p) s = takeFrame row p (routed p act) s := by
  cases row <;> cases h <;> exact ⟨_, rfl⟩

/-- The command of a row for TABLE frames hands its frame to the MANAGEMENT UNIT (R128). -/
theorem exec_command_managed (h : row.isTable = true) :
    ∃ act, exec (row.command p) s = takeFrame row p (managed p act) s := by
  cases row <;> cases h <;> exact ⟨_, rfl⟩

theorem reportRow_isTable {code : Byte} : (reportRow code).isTable = false := by unfold reportRow; split <;> rfl

theorem requestRow_isTable {code : Byte} : (requestRow code).isTable = false := by unfold requestRow; split <;> rfl

/-- Only a TABLE frame goes with a row for TABLE frames. -/
theorem row_isTable_of_ne {own : EquipId} (h : f.kind ≠ kindTable) : (f.row own).isTable = false := by
  unfold Frame.row
  split
  case h_1 => rfl
  case h_2 => exact reportRow_isTable
  case h_3 =>
    split
    · exact requestRow_isTable
    · rfl
  case h_4 hkind => exact absurd (BitVec.eq_of_toNat_eq hkind) h
  case h_5 => rfl

/-! ## An unmapped frame is discarded and counted -/

theorem satInc_eq_min {top n : Nat} : satInc top n = min top (n + 1) := by unfold satInc; split <;> omega

/-- The frame leaves the buffer and the port's unmapped count goes up by one, to 65535 at most (R123, R127). -/
theorem countUnmapped_dropHead : countUnmapped p (dropHead p s) =
    updPort p (fun r => { r with rx := r.rx.tail, unmapped := min 65535 (r.unmapped + 1) }) s := by
  simp [countUnmapped, dropHead, updPort, State.port, satInc_eq_min, Config.countMax]

/-- The command that takes an unmapped frame counts it, unless start-up access lets a TABLE frame by (R127, R160). -/
theorem exec_unmapped (hw : Waits s p f) (hu : s.unmapped p f)
    (ha : f.kind ≠ kindTable ∨ s.startUpAccess p f = false) :
    exec ((f.row s.ownId).command p) s = .next (countUnmapped p (dropHead p s)) := by
  have hdrop : (dropHead p s).unmapped p f := hu
  cases hrow : (f.row s.ownId).isTable with
  | false =>
    obtain ⟨act, hexec⟩ := exec_command_routed (p := p) (s := s) hrow
    rw [hexec, takeFrame_waits hw rfl, routed_of_unmapped hdrop]
  | true =>
    have haccess : (dropHead p s).startUpAccess p f = false :=
      ha.resolve_left fun hkind => by simp [row_isTable_of_ne hkind] at hrow
    obtain ⟨act, hexec⟩ := exec_command_managed (p := p) (s := s) hrow
    rw [hexec, takeFrame_waits hw rfl, managed_of_unmapped haccess hdrop]

/-- Settles O10, by the two shapes of a command that takes a frame: both discard what the checks of R127 do not find. -/
theorem unmappedFrameIsDiscardedAndCounted : Obligations.UnmappedFrameIsDiscardedAndCounted := by
  intro p f s _ hw
  refine ⟨fun hu ha => ?discarded, fun hm => ?found⟩
  case discarded => rw [exec_unmapped hw hu ha, countUnmapped_dropHead]
  case found =>
    obtain ⟨e, d, harr⟩ := hw.arrived hm
    exact ⟨e, d, harr, entries_of_route harr.mapped⟩

end Sys2Proof.Machine
end

-- ==== The GATE TABLE ====
section
/-! PROOFS. How the GATE TABLE decides a frame that the fixed guards let through: when an entry matches, that the first
that matches gives the verdict and alone has its hit count raised, and what a frame that none matches gets (R139). -/

namespace Sys2Proof.Machine

variable {s : State} {f : Frame} {src dst : EquipClass} {b : Option BerthId} {n : Fin 48}

/-! ## When an entry matches (R139) -/

/-- The six conditions under which an entry matches a frame with these classes and this associated berth (R139). -/
def GateEntry.Matches (e : GateEntry) (s : State) (f : Frame) (src dst : EquipClass) (b : Option BerthId) : Prop :=
  e.valid = true ∧ (e.srcClass = none ∨ e.srcClass = some src) ∧ (e.dstClass = none ∨ e.dstClass = some dst) ∧
    (match e.kind with | .order => f.kind = 0x01#8 | .request => f.kind = 0x03#8) ∧
    (e.code = none ∨ e.code = some f.code) ∧
    (e.states = .any ∨ ∃ c m, b = some c ∧ e.states = .of m ∧ m.getLsbD (s.berth c).state.bit = true)

/-- The state of a frame's associated berth, if it has one (R136). -/
def State.stateAt (s : State) (b : Option BerthId) : Option BerthState := b.map fun c => (s.berth c).state

theorem GateKind.byte_eq_iff {k : GateKind} {x : Byte} :
    k.byte = x ↔ (match k with | .order => x = 0x01#8 | .request => x = 0x03#8) := by
  cases k <;> exact eq_comm

/-- A state set other than ANY admits no frame without a berth (R139). -/
theorem StateSet.admits_iff {ss : StateSet} : ss.admits (s.stateAt b) = true ↔
    ss = .any ∨ ∃ c m, b = some c ∧ ss = .of m ∧ m.getLsbD (s.berth c).state.bit = true := by
  cases ss with
  | any => simp [admits]
  | of m => cases b <;> simp [admits, State.stateAt]

theorem GateEntry.accepts_iff {e : GateEntry} :
    e.accepts f src dst (s.stateAt b) = true ↔ e.Matches s f src dst b := by
  simp only [accepts, Matches, Bool.and_eq_true, Bool.or_eq_true, beq_iff_eq, StateSet.admits_iff,
    GateKind.byte_eq_iff, and_assoc]

/-! ## The first entry that matches (R139) -/

/-- The entries are tried from entry 1 upward: the one found matches and none before it does (R139). -/
theorem gateMatch_eq_some_iff : s.gateMatch f src dst (s.stateAt b) = some n ↔
    s.gate[n].Matches s f src dst b ∧ ∀ m, m < n → ¬s.gate[m].Matches s f src dst b := by
  simp only [State.gateMatch, ← Fin.find?_eq_find?_finRange, Fin.find?_eq_some_iff, ← GateEntry.accepts_iff,
    Bool.not_eq_true]

theorem gateMatch_eq_none_iff : s.gateMatch f src dst (s.stateAt b) = none ↔
    ∀ n : Fin 48, ¬s.gate[n].Matches s f src dst b := by
  simp only [State.gateMatch, ← Fin.find?_eq_find?_finRange, Fin.find?_eq_none_iff, ← GateEntry.accepts_iff,
    Bool.not_eq_true]

/-! ## The decision of the table (R135, R139, R141) -/

/-- What the action of the entry that decides gives a frame (R135, R141). -/
def GateAction.verdict : GateAction → Verdict
  | .pass => .pass
  | .hold => .hold
  | .refuse => .refuse .byRule
  | .discard => .discard

/-- A hit count rises to 65535 and stays there (R139). -/
theorem countHit_eq : countHit n s =
    { s with gate := s.gate.set n { s.gate[n] with hits := min 65535 (s.gate[n].hits + 1) } } := by
  simp only [countHit, satInc_eq_min, Config.countMax]

/-- Neither fixed guard stops the frame: no closing order, and for a TRIPPED berth an opening order only (R137). -/
def State.Unguarded (s : State) (f : Frame) (b : Option BerthId) : Prop :=
  closingOrder f = false ∧ ∀ c, b = some c → (s.berth c).state ≠ .tripped ∨ openingOrder f = true

theorem State.Unguarded.not_tripped_guard (h : s.Unguarded f b) :
    ¬(s.stateAt b == some .tripped && !openingOrder f) = true := by
  obtain ⟨-, hberth⟩ := h
  cases b with
  | none => simp [State.stateAt]
  | some c => obtain hstate | hopening := hberth c rfl <;> simp [State.stateAt, *]

/-- Past the guards the table decides: the action of the entry found is the verdict and its hit is counted; where none is
found the frame is refused with NO_RULE and the state left as it is (R135, R139). -/
theorem gateJudge_of_unguarded (h : s.Unguarded f b) : gateJudge f src dst b s =
    (s.gateMatch f src dst (s.stateAt b)).elim (.refuse .noRule, s)
      fun n => (s.gate[n].action.verdict, countHit n s) := by
  have hclosing : closingOrder f = false := h.1
  have htripped := h.not_tripped_guard
  unfold State.stateAt at htripped ⊢
  simp only [gateJudge, hclosing, htripped, Bool.false_eq_true, if_false]
  cases s.gateMatch f src dst (b.map fun c => (s.berth c).state) with
  | none => rfl
  | some n =>
    simp only [Option.elim_some]
    cases s.gate[n].action <;> rfl

/-- Settles O18: past the fixed guards the search of the table finds exactly the first entry that matches, and what it
finds is all that decides and counts. -/
theorem firstMatchingEntryDecides : Obligations.FirstMatchingEntryDecides := by
  intro f src dst b s matched verdict hclosing htripped
  have hunguarded : s.Unguarded f b := ⟨hclosing, htripped⟩
  refine ⟨fun n hmatched hfirst => ?decided, fun hnone => ?noRule⟩
  case decided =>
    rw [gateJudge_of_unguarded hunguarded, gateMatch_eq_some_iff.mpr ⟨hmatched, hfirst⟩, Option.elim_some, countHit_eq]
    rfl
  case noRule => rw [gateJudge_of_unguarded hunguarded, gateMatch_eq_none_iff.mpr hnone, Option.elim_none]

end Sys2Proof.Machine
end

-- ==== What every step keeps ====
section
/-! PROOFS. The bounds, the closing orders, the sections, the settings: an invariant of the single records is kept by
every step once each kind of change to one record keeps it (`Parts.Kept`), one of the whole state once each kind of
change to the state does (`CommandClosed`). -/

namespace Sys2Proof.Machine

variable {s t : State} {P : State → Prop}

/-- A step is a function: what `CommandClosed.step` says of some next state holds of the one it answers. -/
theorem CommandClosed.of_step (c : CommandClosed P) (hw : ∀ {s} l, P s → P { s with pending := l }) (hp : P s)
    (h : Machine.step s = .next t) : P t := by
  obtain ⟨u, hu, hP⟩ := c.step hw hp
  obtain rfl : u = t := by simpa using hu.symm.trans h
  exact hP

/-- An invariant of the single records is kept by every step. -/
theorem Parts.Kept.of_step {Q : Parts} (k : Q.Kept) (hp : Q.Hold s) (h : Machine.step s = .next t) : Q.Hold t :=
  k.closed.of_step (fun _ h => h.congr rfl rfl rfl rfl) hp h

/-- What the oldest forwarded frame of a queue is: the queue splits at it (R134). -/
theorem split_of_takeOldestForwarded {l rest : List TxFrame} {g : Frame} {a : Port}
    (h : takeOldestForwarded l = some (rest, g, a)) :
    ∃ front back, l = front ++ ⟨g, some a⟩ :: back ∧ rest = front ++ back := by
  induction l generalizing rest with
  | nil => simp [takeOldestForwarded] at h
  | cons u l ih =>
    obtain ⟨f, _ | b⟩ := u
    · obtain ⟨⟨r, g', a'⟩, hr, he⟩ := Option.map_eq_some_iff.mp h
      obtain ⟨rfl, rfl, rfl⟩ : _ ∧ _ ∧ _ := by simpa using he
      obtain ⟨front, back, rfl, rfl⟩ := ih hr
      exact ⟨⟨f, none⟩ :: front, back, rfl, rfl⟩
    · obtain ⟨rfl, rfl, rfl⟩ : _ ∧ _ ∧ _ := by simpa [takeOldestForwarded] using h
      exact ⟨[], l, rfl, rfl⟩

/-! ## Closing orders (R137, guard 1) -/

/-- No closing order of another party in a port or a hold queue. -/
def guardedParts : Parts where
  port r := (∀ t ∈ r.tx, t.guarded) ∧ ∀ t, r.onLink = some t → t.guarded
  berth r := ∀ h ∈ r.holdQueue, closingOrder h.frame = false
  sec _ := True

theorem guardedParts_kept : guardedParts.Kept := by
  -- A frame that joins a queue is the part's own, or was judged to be no closing order.
  have join : ∀ {r : PortRec} {u n}, guardedParts.port r → u.guarded = true →
      guardedParts.port { r with tx := r.tx ++ [u], tagCount := n } := fun h hu =>
    ⟨fun t ht => (List.mem_append.mp ht).elim (h.1 t) fun ht => List.mem_singleton.mp ht ▸ hu, h.2⟩
  constructor
  case portInitial => exact ⟨by simp [PortRec.initial], by simp [PortRec.initial]⟩
  case portPlain =>
    intro f r hf h
    obtain ⟨-, htx, hlink⟩ := hf r
    exact ⟨htx ▸ h.1, hlink ▸ h.2⟩
  case dropped => exact fun h => h
  case portRestart => exact fun h => ⟨by simp [PortRec.restart, PortRec.initial], h.2⟩
  case received => exact fun _ _ h => h
  case own => exact fun _ _ _ h => join h rfl
  case forwarded => exact fun _ _ _ hc h => join h (by simp [TxFrame.guarded, hc])
  case displaced =>
    intro r rest g a f n ht h
    obtain ⟨front, back, hl, rfl⟩ := split_of_takeOldestForwarded ht
    refine join (r := { r with tx := front ++ back }) ⟨fun t ht => h.1 t ?_, h.2⟩ rfl
    rw [hl]
    simp only [List.mem_append, List.mem_cons] at ht ⊢
    tauto
  case sent =>
    intro r t rest ht h
    refine ⟨fun u hu => h.1 u (by simp [ht, hu]), fun u hu => h.1 u ?_⟩
    obtain rfl : t = u := by simpa using hu
    simp [ht]
  case berthInitial => intro x h hh; simp [Berth.initial] at hh
  case berthPlain =>
    intro f r hf h
    obtain ⟨-, -, hq, -⟩ := hf r
    exact (show ∀ g ∈ (f r).holdQueue, _ by rw [hq]; exact h)
  case held => exact fun _ hc h g hg => (List.mem_append.mp hg).elim (h g) fun hg => List.mem_singleton.mp hg ▸ hc
  case unheld => exact fun hl h g hg => h g (hl.subset hg)
  case went => exact fun _ h => h
  case observed => exact fun _ h => h
  case bypass => exact fun _ _ h => h
  case noticed => exact fun _ h => h
  case unnoticed => exact fun h => h
  case moved => exact fun _ h => h
  case reset => exact fun h => h
  case berthTick =>
    intro r h g hg
    obtain ⟨g', hg', rfl⟩ := List.mem_map.mp hg
    exact h g' hg'
  all_goals intros; trivial

theorem guarded_iff_hold : s.guarded ↔ guardedParts.Hold s := by
  refine ⟨fun ⟨hq, hl, hb⟩ => ⟨fun p => ⟨hq p, hl p⟩, hb, fun _ => trivial⟩, fun ⟨hp, hb, _⟩ => ⟨?_, ?_, hb⟩⟩
  · exact fun p => (hp p).1
  · exact fun p => (hp p).2

/-- Settles O5: each kind of change to a port or a berth keeps closing orders of other parties out. -/
theorem stepKeepsClosingOrdersOut : Obligations.StepKeepsClosingOrdersOut := fun _ _ hs h =>
  guarded_iff_hold.mpr (guardedParts_kept.of_step (guarded_iff_hold.mp hs) h)


/-! ## Buffers and queues (R122, R133, R143, R156, R157) -/

/-- The ports, hold queues and notice counts are within their bounds. -/
def boundedParts : Parts where
  port := PortRec.bounded
  berth r := r.holdQueue.length ≤ Config.holdPlaces ∧ r.noticeCount ≤ Config.nightlyAllowance
  sec _ := True

theorem PortRec.bounded_initial : PortRec.initial.bounded := ⟨by decide, by decide, by decide⟩

theorem boundedParts_kept : boundedParts.Kept := by
  -- Leaving a queue makes it no longer, and no more of it forwarded.
  have shrink : ∀ {r : PortRec} {l n}, l.Sublist r.tx → r.bounded →
      PortRec.bounded { r with tx := l, onLink := n } := fun hl ⟨hrx, htx, hf⟩ =>
    ⟨hrx, hl.length_le.trans htx, (Nat.add_le_add_right hl.countP_le _).trans hf⟩
  constructor
  case portInitial => exact PortRec.bounded_initial
  case portPlain =>
    intro f r hf h
    obtain ⟨hrx, htx, -⟩ := hf r
    simpa only [boundedParts, PortRec.bounded, hrx, htx] using h
  case dropped => exact fun ⟨hrx, htx, hf⟩ => ⟨by simp; omega, htx, hf⟩
  case portRestart => exact fun _ => PortRec.bounded_initial
  case received => exact fun _ hl ⟨_, htx, hf⟩ => ⟨by simp; omega, htx, hf⟩
  case own =>
    exact fun _ _ hl ⟨hrx, _, hf⟩ => ⟨hrx, by simp; omega, by simpa using hf⟩
  case forwarded =>
    intro r f a n hl hc ⟨hrx, htx, hf⟩
    have := List.countP_le_length (p := fun t : TxFrame => t.arrival.isSome) (l := r.tx)
    have : Config.forwardRoom = 3 := rfl
    exact ⟨hrx, by simp; omega, by simp; omega⟩
  case displaced =>
    intro r rest g a f n ht ⟨hrx, htx, hf⟩
    obtain ⟨front, back, hl, rfl⟩ := split_of_takeOldestForwarded ht
    rw [hl] at htx hf
    simp at htx hf
    exact ⟨hrx, by simp; omega, by simp; omega⟩
  case sent => exact fun ht h => shrink (ht ▸ List.sublist_cons_self ..) h
  case berthInitial => exact fun _ => ⟨by simp [Berth.initial], by simp [Berth.initial]⟩
  case berthPlain =>
    intro f r hf h
    obtain ⟨-, -, hq, hn, -⟩ := hf r
    simpa only [boundedParts, hq, hn] using h
  case went => exact fun _ h => h
  case observed => exact fun _ h => h
  case bypass => exact fun _ _ h => h
  case noticed => exact fun hn h => ⟨h.1, hn⟩
  case unnoticed => exact fun h => ⟨h.1, Nat.zero_le _⟩
  case held => exact fun hl _ h => ⟨by simp; omega, h.2⟩
  case unheld => exact fun hl h => ⟨hl.length_le.trans h.1, h.2⟩
  case moved => exact fun _ h => h
  case reset => exact fun h => h
  case berthTick => exact fun h => ⟨by simpa [Berth.tick] using h.1, h.2⟩
  all_goals intros; trivial

@[simp] theorem length_markNewestLost (l : List NoticeRec) : (markNewestLost l).length = l.length := by
  induction l using markNewestLost.induct with
  | case1 => rfl
  | case2 => rfl
  | case3 _ _ _ ih => simpa [markNewestLost] using ih

@[simp] theorem leaveState_notices (b : BerthId) (s : State) : (leaveState b s).notices = s.notices := by
  unfold leaveState; split <;> simp [leaveQueue]

@[simp] theorem moveTo_notices (b : BerthId) (t : BerthState) (s : State) : (moveTo b t s).notices = s.notices := by
  simp [moveTo]

/-- The NOTICE QUEUE is within its depth (R157). -/
def State.noticesBounded (s : State) : Prop := s.notices.length ≤ Config.noticeDepth

theorem noticesBounded_joinNotices (n : NoticeRec) (h : s.noticesBounded) : (joinNotices n s).noticesBounded := by
  unfold joinNotices State.noticesBounded
  split
  · simp; omega
  · rw [length_markNewestLost]; exact h

theorem noticesBounded_raiseOver (x : SectionId) (h : s.noticesBounded) : (raiseOver x s).noticesBounded := by
  unfold raiseOver
  split
  · exact noticesBounded_joinNotices _ (by simpa [State.noticesBounded] using h)
  · exact h

theorem noticesBounded_closed : CommandClosed State.noticesBounded := by
  constructor
  case toClosed =>
    refine ⟨?_, fun _ _ => trivial, fun _ _ => trivial⟩
    constructor
    case joined => exact fun n h => noticesBounded_joinNotices n h
    case most => exact fun x n h => noticesBounded_raiseOver x (by simpa [State.noticesBounded] using h)
    all_goals
      intros
      rename_i h
      simpa [State.noticesBounded, lowerOver, countHit, enqueue] using h
  case limited =>
    intro s l x _ h
    have := noticesBounded_raiseOver x (s := updSec x (fun r => { r with limit := l }) s)
      (by simpa [State.noticesBounded] using h)
    simpa [State.noticesBounded, lowerOver] using this
  case offered =>
    intro s n rest hn h
    rw [State.noticesBounded, hn] at h
    exact (Nat.le_succ _).trans h
  case powered => exact fun _ _ => Nat.zero_le _
  case silenced => exact fun _ => Nat.zero_le _
  all_goals
    intros
    rename_i h
    simpa [State.noticesBounded, clearDynamic, dropHead, receive, startSending, tick, observe,
      storePosition] using h

theorem bounded_iff : s.bounded ↔ boundedParts.Hold s ∧ s.noticesBounded :=
  ⟨fun ⟨hp, hb, hn⟩ => ⟨⟨hp, hb, fun _ => trivial⟩, hn⟩, fun ⟨⟨hp, hb, _⟩, hn⟩ => ⟨hp, hb, hn⟩⟩

/-- Settles O4: the bounds of the ports and berths hold record by record, that of the NOTICE QUEUE on its own. -/
theorem stepKeepsBuffersBounded : Obligations.StepKeepsBuffersBounded := by
  intro s t hs h
  obtain ⟨hparts, hnotices⟩ := bounded_iff.mp hs
  exact bounded_iff.mpr ⟨boundedParts_kept.of_step hparts h, noticesBounded_closed.of_step (fun _ h => h) hnotices h⟩

/-! ## What no event changes: the queue of commands, the settings, the map -/

/-- What depends only on what events leave alone is kept by every event. -/
theorem Closed.of_untouched (h : ∀ {s t}, Untouched s t → P s → P t) : Closed (fun _ => True) P :=
  have u : ∀ {s}, Closed (fun _ => True) (Untouched s) := fun {s} => .untouched s
  { berth := fun ha hf => h (u.berth ha hf (.refl _))
    moves := fun t ha => h (u.moves t ha (.refl _))
    bypass := fun ha hg => h (u.bypass ha hg (.refl _))
    noticed := fun ha hn => h (u.noticed ha hn (.refl _))
    held := fun ha hl hc => h (u.held ha hl hc (.refl _))
    unheld := fun ha hl => h (u.unheld ha hl (.refl _))
    cables := fun c => h (u.cables c (.refl _))
    bay := fun k _ hf => h (u.bay k hf (.refl _))
    turn := fun x => h (u.turn x (.refl _))
    starts := fun l => h (u.starts l (.refl _))
    passes := fun a b => h (u.passes a b (.refl _))
    hit := fun n => h (u.hit n (.refl _))
    joined := fun n => h (u.joined n (.refl _))
    port := fun hf => h (u.port hf (.refl _))
    own := fun hf => h (u.own hf (.refl _))
    forwarded := fun hf hc => h (u.forwarded hf hc (.refl _))
    displaced := fun ht => h (u.displaced ht (.refl _))
    sec := fun hf => h (u.sec hf (.refl _))
    less := fun x n => h (u.less x n (.refl _))
    more := fun hn => h (u.more hn (.refl _))
    most := fun x n => h (u.most x n (.refl _))
    lower := fun x => h (u.lower x (.refl _))
    asked := fun k ha => h (u.asked k ha (.refl _))
    queued := fun n ha hq => h (u.queued n ha hq (.refl _))
    freed := fun x => h (u.freed x (.refl _))
    began := fun x k ha => h (u.began x k ha (.refl _))
    locked := fun x f hf => h (u.locked x f hf (.refl _))
    panel := fun v hi => h (u.panel v hi (.refl _))
    unpanel := fun hi => h (u.unpanel hi (.refl _))
    asks := fun _ _ => trivial
    waits := fun _ _ => trivial }

/-- A property of what no command changes but the queue's own steps. -/
theorem pending_closed (q : List Instr) : CommandClosed fun s => s.pending = q := by
  have c : Closed (fun _ => True) fun s : State => s.pending = q := .of_untouched fun u hp => u.pending.trans hp
  constructor
  case toClosed => exact c
  case limited => exact fun x _ h => c.lower x (c.raiseOver (by simpa using h))
  all_goals
    intros
    rename_i h
    simpa [clearDynamic, dropHead, receive, startSending, tick, observe, storePosition] using h

/-- Settles O2: every change that a command can make leaves the queue of commands alone. -/
theorem everyCommandAnswersNext : Obligations.EveryCommandAnswersNext := fun c s =>
  (pending_closed s.pending).exec c rfl

/-! ## The settings in their ranges (R148, R162, R163) -/

/-- The clock, the durations, the part's ID and the retention are in their ranges. -/
def State.configured (s : State) : Prop :=
  s.clock.sound ∧ s.timings.ok = true ∧ s.ownId ≠ 0#16 ∧ within 1 60 s.retention = true

/-- What is configured depends on four fields. -/
theorem configured_congr (hc : t.clock = s.clock) (ht : t.timings = s.timings) (hi : t.ownId = s.ownId)
    (hr : t.retention = s.retention) (h : s.configured) : t.configured := by
  rwa [State.configured, hc, ht, hi, hr]

theorem Clock.sound_tick {c : Clock} (h : c.sound) : c.tick.sound := by
  obtain ⟨ht, hn, hb⟩ := h
  refine ⟨?_, hn, hb⟩
  unfold Clock.tick
  dsimp only
  split
  · assumption
  · decide

theorem configured_reset : State.reset.configured := by
  refine ⟨⟨?_, ?_, ?_⟩, ?_, ?_, ?_⟩ <;> decide

theorem configured_closed : CommandClosed State.configured := by
  have c : Closed (fun _ => True) State.configured :=
    .of_untouched fun u => configured_congr u.clock u.timings u.ownId u.retention
  constructor
  case toClosed => exact c
  case limited =>
    exact fun x _ h => c.lower x (c.raiseOver (configured_congr (by simp) (by simp) (by simp) (by simp) h))
  case powered => exact fun _ _ => configured_congr rfl rfl rfl rfl configured_reset
  case ticked => exact fun ⟨hc, h⟩ => ⟨Clock.sound_tick hc, h⟩
  case clock => exact fun c hc h => ⟨hc h.1, h.2⟩
  case timings => exact fun ht ⟨hc, _, h⟩ => ⟨hc, ht, h⟩
  case device => exact fun hi _ hn hr ⟨⟨ht, hm, _⟩, hT, _⟩ => ⟨⟨ht, hm, hn⟩, hT, hi, hr⟩
  all_goals
    intros
    rename_i h
    simpa [State.configured, clearDynamic, dropHead, receive, startSending, observe, storePosition] using h

/-- The limits and the bypass counts are in their ranges. -/
def rangedParts : Parts where
  port _ := True
  berth := Berth.bypassSound
  sec := SectionRec.sound

theorem SectionRec.sound_raised {r : SectionRec} (h : r.sound) : r.raised.sound := by
  unfold SectionRec.raised; split <;> exact h

theorem SectionRec.sound_lowered {r : SectionRec} (h : r.sound) : r.lowered.sound := by
  unfold SectionRec.lowered; split <;> exact h

theorem rangedParts_kept : rangedParts.Kept := by
  constructor
  case berthInitial => exact fun _ => Nat.zero_le _
  case berthPlain =>
    intro f r hf h
    obtain ⟨-, -, -, -, hb, -⟩ := hf r
    exact (show (f r).bypass ≤ _ by rw [hb]; exact h)
  case bypass => exact fun _ hn _ => hn
  case reset => exact fun _ => Nat.zero_le _
  case secInitial => exact ⟨by decide, by decide⟩
  case secPlain =>
    intro f r hf h
    obtain ⟨-, -, hl, hb, -⟩ := hf r
    exact (show (f r).limit ≤ _ ∧ (f r).bypassLimit ≤ _ by rw [hl, hb]; exact h)
  case most => exact fun _ h => SectionRec.sound_raised h
  case lower => exact fun h => SectionRec.sound_lowered h
  case limited => exact fun hl h => SectionRec.sound_lowered (SectionRec.sound_raised ⟨hl, h.2⟩)
  case bypassLimited => exact fun hl h => ⟨h.1, hl⟩
  all_goals intros; trivial

theorem sound_iff : s.sound ↔ s.configured ∧ rangedParts.Hold s :=
  ⟨fun ⟨hc, hx, hb, ht, hi, hr⟩ => ⟨⟨hc, ht, hi, hr⟩, fun _ => trivial, hb, hx⟩,
    fun ⟨⟨hc, ht, hi, hr⟩, _, hb, hx⟩ => ⟨hc, hx, hb, ht, hi, hr⟩⟩

/-! ## The EQUIPMENT MAP (R125, R126) -/

/-- The map depends on the entries and the part's own ID only. -/
theorem mapSound_congr (he : t.equipment = s.equipment) (hi : t.ownId = s.ownId) (h : s.mapSound) : t.mapSound := by
  rwa [State.mapSound, he, hi]

theorem EquipEntry.clashes_comm (e f : EquipEntry) : e.clashes f = f.clashes e := by
  simp only [EquipEntry.clashes, BEq.comm]

/-- An entry that fits its place joins a sound map (R126). -/
theorem mapSound_entered {n : Fin 64} {e : Option EquipEntry} (he : ∀ x, e = some x → EntryFits s n x)
    (h : s.mapSound) : State.mapSound { s with equipment := s.equipment.set n e } := by
  obtain ⟨hfit, hclash⟩ := h
  have get : ∀ {m : Fin 64} {x}, (s.equipment.set n e)[m] = some x →
      (m = n ∧ e = some x) ∨ (m ≠ n ∧ s.equipment[m] = some x) := by
    intro m x hx
    by_cases hm : m = n
    · subst hm; exact .inl ⟨rfl, by simpa using hx⟩
    · have hn : (n : Nat) ≠ m := fun e => hm (Fin.ext e.symm)
      exact .inr ⟨hm, by simpa [Vector.getElem_set, hn] using hx⟩
  refine ⟨fun m x hx => ?_, fun m k x y hx hy hmk => ?_⟩
  · obtain ⟨-, hx⟩ | ⟨-, hx⟩ := get hx
    · obtain ⟨hf, h0, hown, -⟩ := he x hx
      exact ⟨hf, h0, hown⟩
    · exact hfit m x hx
  · obtain ⟨rfl, hx'⟩ | ⟨hm, hx'⟩ := get hx <;> obtain ⟨rfl, hy'⟩ | ⟨hk, hy'⟩ := get hy
    · exact absurd rfl hmk
    · exact (he x hx').2.2.2 k y hy' hk
    · exact (x.clashes_comm y).trans ((he y hy').2.2.2 m x hx' hm)
    · exact hclash m k x y hx' hy' hmk

/-- A POSITION stored with an entry changes no field that the map's rules read (R131). -/
theorem mapSound_storePosition (i : EquipId) (p : Breaker) (h : s.mapSound) : (storePosition i p s).mapSound := by
  obtain ⟨hfit, hclash⟩ := h
  have get : ∀ {m : Fin 64} {x}, (storePosition i p s).equipment[m] = some x → ∃ y, s.equipment[m] = some y ∧
      x.id = y.id ∧ x.fitsClass = y.fitsClass ∧ ∀ z : EquipEntry, x.clashes z = y.clashes z := by
    intro m x hx
    obtain ⟨y, hy, rfl⟩ := Option.map_eq_some_iff.mp (show (s.equipment[m]).map _ = some x by simpa [storePosition] using hx)
    refine ⟨y, hy, ?_⟩
    split <;> exact ⟨rfl, rfl, fun _ => rfl⟩
  refine ⟨fun m x hx => ?_, fun m k x y hx hy hmk => ?_⟩
  · obtain ⟨y, hy, hid, hfc, -⟩ := get hx
    rw [hid, hfc]
    exact hfit m y hy
  · obtain ⟨x', hx', -, -, hcx⟩ := get hx
    obtain ⟨y', hy', -, -, hcy⟩ := get hy
    rw [hcx, EquipEntry.clashes_comm, hcy, EquipEntry.clashes_comm]
    exact hclash m k x' y' hx' hy' hmk

theorem mem_entries {e : EquipEntry} : e ∈ s.entries ↔ ∃ n : Fin 64, s.equipment[n] = some e := by
  simp only [State.entries, List.mem_filterMap, id, exists_eq_right, Vector.mem_toList_iff, Vector.mem_iff_getElem]
  exact ⟨fun ⟨n, hn, h⟩ => ⟨⟨n, hn⟩, h⟩, fun ⟨n, h⟩ => ⟨n, n.isLt, h⟩⟩

/-- An empty map is sound (R125). -/
theorem mapSound_of_empty (h : ∀ n : Fin 64, s.equipment[n] = none) : s.mapSound :=
  ⟨fun n e he => by simp [h n] at he, fun n _ e _ he => by simp [h n] at he⟩

theorem mapSound_closed : CommandClosed State.mapSound := by
  have c : Closed (fun _ => True) State.mapSound := .of_untouched fun u => mapSound_congr u.equipment u.ownId
  constructor
  case toClosed => exact c
  case limited => exact fun x _ h => c.lower x (c.raiseOver (mapSound_congr (by simp) (by simp) h))
  case entered => exact mapSound_entered
  case positioned => exact fun i p h => mapSound_storePosition i p h
  case powered => exact fun found _ => mapSound_of_empty fun n => by simp [State.powerOn]
  case device => 
    intro s i n r hi hnew _ _ ⟨hfit, hclash⟩
    refine ⟨fun m e he => ?_, hclash⟩
    obtain ⟨hf, h0, -⟩ := hfit m e he
    exact ⟨hf, h0, fun hid => by simpa [hid] using List.find?_eq_none.mp hnew e (mem_entries.mpr ⟨m, he⟩)⟩
  all_goals
    intros
    rename_i h
    refine mapSound_congr ?_ ?_ h <;> simp [clearDynamic, dropHead, receive, startSending, observe, tick]

/-- Settles O7: the settings and the map are kept as a whole, the limits and the bypass counts record by record. -/
theorem stepKeepsSettingsInRange : Obligations.StepKeepsSettingsInRange := by
  refine fun s t h => ⟨fun hs => ?_, fun hm => mapSound_closed.of_step (fun _ h => h) hm h⟩
  obtain ⟨hc, hr⟩ := sound_iff.mp hs
  exact sound_iff.mpr ⟨configured_closed.of_step (fun _ h => h) hc h, rangedParts_kept.of_step hr h⟩

/-! ## The arbiters and the sums (R63, R82) -/

/-- Every arbiter is busy exactly while an operation is in flight. -/
def arbitratedParts : Parts where
  port _ := True
  berth _ := True
  sec := SectionRec.arbitrated

theorem SectionRec.arbitrated_initial : SectionRec.initial.arbitrated := by
  simp [SectionRec.arbitrated, SectionRec.initial]

theorem arbitratedParts_kept : arbitratedParts.Kept := by
  -- An arbiter that is not busy has no operation, whichever of the other two states it goes to.
  have idle : ∀ {r : SectionRec} {a v}, r.arbiter ≠ .partBusy → a ≠ .partBusy → r.arbitrated →
      SectionRec.arbitrated { r with arbiter := a, localPending := v } := fun hr ha h =>
    ⟨fun e => absurd e ha, fun e => absurd (h.mpr e) hr⟩
  constructor
  case secInitial => exact SectionRec.arbitrated_initial
  case secPlain =>
    intro f r hf h
    obtain ⟨ha, ho, -⟩ := hf r
    exact (show _ ↔ _ by rw [ha, ho]; exact h)
  case secRestart => exact fun _ => SectionRec.arbitrated_initial
  case most => intro r n h; unfold SectionRec.raised; split <;> exact h
  case lower => intro r h; unfold SectionRec.lowered; split <;> exact h
  case limited => intro r n _ h; unfold SectionRec.raised SectionRec.lowered; split <;> split <;> exact h
  case freed => exact fun _ => by simp [arbitratedParts, SectionRec.arbitrated]
  case began => exact fun _ _ _ => by simp [arbitratedParts, SectionRec.arbitrated]
  case panel => exact fun _ hi h => idle (by simp [hi]) (by simp) h
  case unpanel => exact fun hi h => idle (by simp [hi]) (by simp) h
  all_goals intros; trivial

/-- Every granted sum is within its limit unless its over flag is set. -/
def withinLimitParts : Parts where
  port _ := True
  berth _ := True
  sec := SectionRec.withinLimit

theorem SectionRec.withinLimit_raised (r : SectionRec) : r.raised.withinLimit := by
  unfold SectionRec.raised
  split
  · exact .inr rfl
  · exact .inl (Nat.le_of_not_lt ‹_›)

theorem SectionRec.withinLimit_lowered {r : SectionRec} (h : r.withinLimit) : r.lowered.withinLimit := by
  unfold SectionRec.lowered
  split
  · exact .inl ‹_›
  · exact h

theorem withinLimitParts_kept : withinLimitParts.Kept := by
  constructor
  case secInitial => exact .inl (Nat.zero_le _)
  case secPlain =>
    intro f r hf h
    obtain ⟨-, -, hl, -, hg, ho, -⟩ := hf r
    exact (show _ ∨ _ by rw [hl, hg, ho]; exact h)
  case secRestart => exact fun _ => .inl (Nat.zero_le _)
  case less => exact fun n h => h.imp_left (Nat.sub_le _ n).trans
  case more => exact fun hn _ => .inl hn
  case most => exact fun _ _ => SectionRec.withinLimit_raised _
  case lower => exact SectionRec.withinLimit_lowered
  case limited => exact fun _ _ => SectionRec.withinLimit_lowered (SectionRec.withinLimit_raised _)
  all_goals intros; trivial

end Sys2Proof.Machine
end

-- ==== Commands and their events ====
section
/-! PROOFS. The shape that the commands share: a frame is taken, an event is carried out, the passes it calls for run,
and an answer or the frame itself is sent. `EventsKeep P Q` says that between events `P` holds and that each event takes
`P` to `Q`, from which the passes at its end come back to `P`; then every command keeps `P`. -/

namespace Sys2Proof.Machine

/-- Each event takes `P` to `Q`, its end takes `Q` back to `P`, and what runs no passes keeps `P`. -/
structure EventsKeep (P Q : State → Prop) : Prop where
  sent : ∀ {s t}, Sent s t → P s → P t
  finish : ∀ {s}, Q s → P (finishEvent s)
  idle : ∀ {s}, P s → Q s
  powered : ∀ {s} found, P s → P { State.powerOn found with pending := s.pending }
  restarted : ∀ {s} p f, P s → P (restartPart p f s)
  ticked : ∀ {s}, P s → P (tick s)
  boundary : ∀ {s}, P s → P (runBoundary s)
  offered : ∀ {s}, P s → P (offerNotice s)
  gated : ∀ {s} f p e d, P s → P (gateDecide f p e d s)
  faultCleared : ∀ {s} b l, P s → P (deactivateFault b l s)
  heldExpired : ∀ {s} b n, P s → P (expireHeld b n s)
  askShore : ∀ {s} b, P s → Q (askShore b s).2
  releaseWanted : ∀ {s} b, P s → Q (releaseWanted b s).2
  withdraw : ∀ {s} b, P s → Q (withdraw b s).2
  service : ∀ {s} b, P s → Q (service b s).2
  outOfService : ∀ {s} b, P s → Q (outOfService b s).2
  release : ∀ {s} b, P s → Q (release b s).2
  ackTrip : ∀ {s} b, P s → Q (ackTrip b s).2
  setClock : ∀ {s} n, P s → Q (setClockTo n s).2
  writeEquipment : ∀ {s} n l, P s → Q (writeEquipment n l s).2
  writeGate : ∀ {s} n l, P s → Q (writeGate n l s).2
  writeBerths : ∀ {s} b l, P s → Q (writeBerths b l s).2
  writeSections : ∀ {s} n l, P s → Q (writeSections n l s).2
  writeProfiles : ∀ {s} n l, P s → Q (writeProfiles n l s).2
  writeCables : ∀ {s} n l, P s → Q (writeCables n l s).2
  writeTimings : ∀ {s} n l, P s → Q (writeTimings n l s).2
  writeLines : ∀ {s} b l, P s → Q (writeLines b l s).2
  writeDevice : ∀ {s} n l, P s → Q (writeDevice n l s).2
  position : ∀ {s} f e, P s → Q (takePosition f e s)
  syncResult : ∀ {s} x o, P s → Q (takeSyncResult x o s)
  coreTest : ∀ {s} b r, P s → Q (takeCoreTest b r (observe b (fun o => { o with coreTest := some r }) s))
  assignDone : ∀ {s} b r, P s → Q (takeAssignDone b r (observe b (fun o => { o with assignDone := some r }) s))
  shipState : ∀ {s} b r, P s → Q (takeShipState b r s)
  stepDone : ∀ {s} b r, P s → Q (takeStepDone b r s)
  holdState : ∀ {s} b a, P s → Q (takeHoldState b a s)
  vesselId : ∀ {s} b v, P s → Q (takeVesselId b v s)
  converterState : ∀ {s} f e, P s → Q (takeConverterState f e s)
  feederState : ∀ {s} x v, P s → Q (takeFeederState x v s)
  localClaim : ∀ {s} x, P s → Q (localClaim x s)
  localRelease : ∀ {s} x, P s → Q (localRelease x s)
  estop : ∀ {s} b, P s → Q (activateFault b .estop (estopEffect b) s)
  pilot : ∀ {s} b, P s → Q (activateFault b .pilot (pilotEffect b) s)
  strain : ∀ {s} b, P s → Q (activateFault b .strain (strainEffect b) s)
  latched : ∀ {s} b, P s → Q (activateLatch b s)
  unlatched : ∀ {s} b, P s → Q (deactivateLatch b s)
  strainGrace : ∀ {s} b, P s → Q (expireStrain b s)
  tripOpen : ∀ {s} b, P s → Q (expireTripOpen b s)
  testTimeout : ∀ {s} b, P s → Q (expireCoreTest b s)
  operation : ∀ {s} b, P s → Q (expireOperation b s)
  spacing : ∀ {s} x, P s → Q (expireSpacing x s)
  lock : ∀ {s} x, P s → Q (expireLock x s)
  grantWait : ∀ {s} b, P s → Q (expireGrantWait b s)
  pause : ∀ {s} b, P s → Q (expirePause b s)
  converterStart : ∀ {s} b, P s → Q (expireConverterStart b s)
  oldest : ∀ {s}, P s → Q (startOldest s)
  hold : ∀ {s} b, P s → Q (expireHold b s)
  deadWait : ∀ {s} b, P s → Q (expireDeadWait b s)
  gensOff : ∀ {s} b, P s → Q (expireGensOff b s)
  overdraw : ∀ {s} b, P s → Q (expireOverdraw b s)

/-! ## What only sends and counts -/

section
variable {s : State} {p : Port} {f : Frame}

theorem sent_refl : Sent s s := rfl

theorem sent_sendReply : Sent s (sendReply p f s) := by unfold sendReply; split <;> rfl

theorem sent_forward {q : Port} : Sent s (forward f p q s) := forward_sent

theorem sent_refuse {r : Reason} : Sent s (refuse r f p s) := refuse_sent

theorem sent_countUnmapped : Sent s (countUnmapped p s) := rfl

theorem sent_replySeries {l : List Byte} : Sent s (replySeries p f l s) := by
  unfold replySeries
  generalize seriesBodies l = bodies
  induction bodies generalizing s with
  | nil => exact sent_refl
  | cons m bodies ih => exact sent_sendReply.trans ih

theorem sent_readAt {n : Nat} {entry : Fin n → State → State} (h : ∀ k, Sent s (entry k s)) :
    Sent s (readAt n p f entry s) := by
  unfold readAt
  extract_lets i
  split
  · split
    · exact h _
    · exact sent_sendReply
  · exact sent_sendReply

theorem sent_readTable : Sent s (readTable p f s) := by
  unfold readTable
  split
  all_goals first
    | exact sent_readAt fun _ => sent_sendReply
    | exact sent_readAt fun _ => sent_replySeries
    | exact sent_sendReply

theorem sent_writeNoTable : Sent s (writeNoTable p f s) := by
  unfold writeNoTable
  repeat' split
  all_goals exact sent_sendReply

end

namespace EventsKeep

variable {P Q : State → Prop} {s : State} {p : Port} {f : Frame} {row : FrameRow}

/-! ## Taking frames -/

theorem takeFrame (k : EventsKeep P Q) {act : Frame → State → State} (ha : ∀ f {u}, P u → P (act f u)) (hp : P s) :
    Ends P (takeFrame row p act s) := by
  have hd : P (dropHead p s) := k.sent rfl hp
  unfold Machine.takeFrame
  split
  · exact CommandClosed.next hp
  · split
    · split
      · exact CommandClosed.next (k.sent (t := countCheckError p (dropHead p s)) rfl hd)
      · exact CommandClosed.next (ha _ hd)
    · exact CommandClosed.next hp

theorem routed (k : EventsKeep P Q) {act : Frame → EquipEntry → Option EquipEntry → State → State}
    (ha : ∀ e d, P (act f e d s)) (hp : P s) : P (routed p act f s) := by
  unfold Machine.routed
  split
  · exact k.sent sent_countUnmapped hp
  · exact ha _ _

theorem takeReport (k : EventsKeep P Q) {act : Frame → EquipEntry → State → State}
    (ha : ∀ f e {u}, P u → Q (act f e u)) (hp : P s) : Ends P (takeReport row p act s) := by
  refine k.takeFrame (fun f u hu => k.routed (fun e d => ?_) hu) hp
  have h1 := k.finish (ha f e hu)
  cases d
  · exact h1
  · exact k.sent sent_forward h1

theorem answer (k : EventsKeep P Q) {r : Status × State} (hq : Q r.2) : P (answer p f r) :=
  k.sent sent_sendReply (k.finish hq)

theorem requested (k : EventsKeep P Q) {cls : EquipClass} {n : Nat} {act : Frame → EquipEntry → State → State}
    (ha : ∀ f e {u}, P u → P (act f e u)) (hp : P s) : P (requested cls n p act f s) := by
  refine k.routed (fun e d => ?_) hp
  split
  · exact k.sent sent_sendReply hp
  · split
    · exact k.sent sent_sendReply hp
    · exact ha _ _ hp

theorem takeShipRequest (k : EventsKeep P Q) {act : BerthId → State → Status × State}
    (ha : ∀ b {u}, P u → Q (act b u).2) (hp : P s) : Ends P (takeShipRequest row p act s) := by
  refine k.takeFrame (fun f u hu => k.requested (fun f e u hu => ?_) hu) hp
  split
  · exact k.answer (ha _ hu)
  · exact hu

theorem takeBerthRequest (k : EventsKeep P Q) {act : BerthId → State → Status × State}
    (ha : ∀ b {u}, P u → Q (act b u).2) (hp : P s) : Ends P (takeBerthRequest row p act s) := by
  refine k.takeFrame (fun f u hu => k.requested (fun f e u hu => ?_) hu) hp
  split
  · exact k.answer (ha _ hu)
  · exact k.sent sent_sendReply hu

theorem takeTable (k : EventsKeep P Q) {act : Frame → State → State} (ha : ∀ f {u}, P u → P (act f u)) (hp : P s) :
    Ends P (takeTable row p act s) := by
  refine k.takeFrame (fun f u hu => ?_) hp
  unfold managed
  split
  · exact ha f hu
  · refine k.routed (fun e d => ?_) hu
    split
    · exact ha f hu
    · exact k.sent sent_sendReply hu

theorem writeAt (k : EventsKeep P Q) {n size : Nat} {rule : Fin n → List Byte → State → Status × State}
    {body : Fin n → State → List Byte} (hr : ∀ i l {u}, P u → Q (rule i l u).2) (hp : P s) :
    P (writeAt n size rule body p f s) := by
  unfold Machine.writeAt
  extract_lets i
  split
  · extract_lets j
    split
    · exact k.sent sent_sendReply (k.finish (hr _ _ hp))
    · exact k.sent sent_sendReply hp
  · exact k.sent sent_sendReply hp

theorem fromBerth (k : EventsKeep P Q) {α : Type} {cls : EquipClass} {read : List Byte → Option α}
    {act : BerthId → α → State → State} (ha : ∀ b a {u}, P u → Q (act b a u)) {e : EquipEntry} (hp : P s) :
    Q (fromBerth cls read act f e s) := by
  unfold Machine.fromBerth
  split
  · split
    · exact ha _ _ hp
    · exact k.idle hp
  · exact k.idle hp

theorem fromSection (k : EventsKeep P Q) {α : Type} {cls : EquipClass} {read : List Byte → Option α}
    {act : SectionId → α → State → State} (ha : ∀ x a {u}, P u → Q (act x a u)) {e : EquipEntry} (hp : P s) :
    Q (fromSection cls read act f e s) := by
  unfold Machine.fromSection
  split
  · split
    · exact ha _ _ hp
    · exact k.idle hp
  · exact k.idle hp

/-! ## Every command -/

theorem exec (k : EventsKeep P Q) (i : Instr) (hp : P s) : Ends P (exec i s) := by
  have event : ∀ {u}, Q u → Ends P (.next (Machine.finishEvent u)) := fun h => CommandClosed.next (k.finish h)
  have plain : ∀ {u}, P u → Ends P (.next u) := CommandClosed.next
  cases i <;> simp only [Machine.exec]
  case powerOn found => exact plain (k.powered found hp)
  case restart p => exact k.takeFrame (fun f u hu => k.requested (fun f e u hu => k.restarted p f hu) hu) hp
  case clockTick => exact plain (k.ticked hp)
  case nightBoundary => exact plain (k.boundary hp)
  case receiveFrame p l => exact plain (k.sent rfl hp)
  case transmitStart p => exact plain (k.sent rfl hp)
  case noticeOffer => exact plain (k.offered hp)
  case gateDecision p =>
    refine k.takeFrame (fun f u hu => k.routed (fun e d => ?_) hu) hp
    split
    · exact k.gated _ _ _ _ hu
    · split
      · exact k.sent sent_refuse hu
      · exact k.sent sent_sendReply hu
  case forwardFrame p =>
    refine k.takeFrame (fun f u hu => k.routed (fun e d => ?_) hu) hp
    cases d
    · exact hu
    · exact k.sent sent_forward hu
  case shoreWanted p => exact k.takeShipRequest (fun b _ h => k.askShore b h) hp
  case releaseWanted p => exact k.takeShipRequest (fun b _ h => k.releaseWanted b h) hp
  case withdraw p => exact k.takeShipRequest (fun b _ h => k.withdraw b h) hp
  case service p => exact k.takeBerthRequest (fun b _ h => k.service b h) hp
  case outOfService p => exact k.takeBerthRequest (fun b _ h => k.outOfService b h) hp
  case admitBerth p => exact k.takeBerthRequest (fun b _ h => k.askShore b h) hp
  case release p => exact k.takeBerthRequest (fun b _ h => k.release b h) hp
  case ackTrip p => exact k.takeBerthRequest (fun b _ h => k.ackTrip b h) hp
  case setClock p =>
    exact k.takeFrame (fun f u hu => k.requested (fun f e u hu => k.answer (k.setClock _ hu)) hu) hp
  case tableRead p => exact k.takeTable (fun _ _ h => k.sent sent_readTable h) hp
  case tableWrite p => exact k.takeTable (fun _ _ h => k.sent sent_writeNoTable h) hp
  case equipmentWrite p => exact k.takeTable (fun _ _ h => k.writeAt (fun n l _ h => k.writeEquipment n l h) h) hp
  case gateWrite p => exact k.takeTable (fun _ _ h => k.writeAt (fun n l _ h => k.writeGate n l h) h) hp
  case berthsWrite p => exact k.takeTable (fun _ _ h => k.writeAt (fun n l _ h => k.writeBerths n l h) h) hp
  case sectionsWrite p => exact k.takeTable (fun _ _ h => k.writeAt (fun n l _ h => k.writeSections n l h) h) hp
  case profilesWrite p => exact k.takeTable (fun _ _ h => k.writeAt (fun n l _ h => k.writeProfiles n l h) h) hp
  case cablesWrite p => exact k.takeTable (fun _ _ h => k.writeAt (fun n l _ h => k.writeCables n l h) h) hp
  case timingsWrite p => exact k.takeTable (fun _ _ h => k.writeAt (fun n l _ h => k.writeTimings n l h) h) hp
  case linesWrite p => exact k.takeTable (fun _ _ h => k.writeAt (fun n l _ h => k.writeLines n l h) h) hp
  case deviceWrite p => exact k.takeTable (fun _ _ h => k.writeAt (fun n l _ h => k.writeDevice n l h) h) hp
  case position p => exact k.takeReport (fun f e _ h => k.position f e h) hp
  case syncResult p => exact k.takeReport (fun _ _ _ h => k.fromSection (fun x o _ h => k.syncResult x o h) h) hp
  case coreTest p => exact k.takeReport (fun _ _ _ h => k.fromBerth (fun b r _ h => k.coreTest b r h) h) hp
  case assignDone p => exact k.takeReport (fun _ _ _ h => k.fromBerth (fun b r _ h => k.assignDone b r h) h) hp
  case shipState p => exact k.takeReport (fun _ _ _ h => k.fromBerth (fun b r _ h => k.shipState b r h) h) hp
  case stepDone p => exact k.takeReport (fun _ _ _ h => k.fromBerth (fun b r _ h => k.stepDone b r h) h) hp
  case holdState p => exact k.takeReport (fun _ _ _ h => k.fromBerth (fun b a _ h => k.holdState b a h) h) hp
  case vesselId p => exact k.takeReport (fun _ _ _ h => k.fromBerth (fun b v _ h => k.vesselId b v h) h) hp
  case converterState p => exact k.takeReport (fun f e _ h => k.converterState f e h) hp
  case feederState p => exact k.takeReport (fun _ _ _ h => k.fromSection (fun x v _ h => k.feederState x v h) h) hp
  case localClaim p => exact k.takeReport (fun _ _ _ h => k.fromSection (fun x _ _ h => k.localClaim x h) h) hp
  case localRelease p => exact k.takeReport (fun _ _ _ h => k.fromSection (fun x _ _ h => k.localRelease x h) h) hp
  case estopActivation b => exact event (k.estop b hp)
  case pilotActivation b => exact event (k.pilot b hp)
  case strainActivation b => exact event (k.strain b hp)
  case faultLineDeactivation b l => exact plain (k.faultCleared b l hp)
  case latchActivation b => exact event (k.latched b hp)
  case latchDeactivation b => exact event (k.unlatched b hp)
  case strainGraceExpiry b => exact event (k.strainGrace b hp)
  case tripOpenTimeout b => exact event (k.tripOpen b hp)
  case coreTestTimeout b => exact event (k.testTimeout b hp)
  case operationTimeout b => exact event (k.operation b hp)
  case stepSpacingExpiry x => exact event (k.spacing x hp)
  case lockTimerExpiry x => exact event (k.lock x hp)
  case grantWaitExpiry b => exact event (k.grantWait b hp)
  case pauseExpiry b => exact event (k.pause b hp)
  case converterStartTimeout b => exact event (k.converterStart b hp)
  case changeoverStart => exact event (k.oldest hp)
  case holdTimeout b => exact event (k.hold b hp)
  case deadWaitExpiry b => exact event (k.deadWait b hp)
  case gensOffWaitExpiry b => exact event (k.gensOff b hp)
  case overdrawExpiry b => exact event (k.overdraw b hp)
  case holdQueueExpiry b n => exact plain (k.heldExpired b n hp)

theorem of_step (k : EventsKeep P Q) (hw : ∀ {s} l, P s → P { s with pending := l }) {t : State} (hp : P s)
    (h : step s = .next t) : P t := by
  have hends : Ends P (step s) := by
    unfold step
    split
    · exact CommandClosed.next hp
    · exact k.exec _ (hw _ hp)
  obtain ⟨u, hu, hP⟩ := hends
  obtain rfl : u = t := by simpa using hu.symm.trans h
  exact hP

end EventsKeep

/-! ## No pass is left to run (R69) -/

section
variable {s t : State}

theorem samePasses_of_sent (h : Sent s t) : SamePasses s t := by
  rw [Sent] at h; rw [h]; exact ⟨rfl, rfl⟩

theorem samePasses_updBerth {b : BerthId} {f : Berth → Berth} : SamePasses s (updBerth b f s) := ⟨rfl, rfl⟩

theorem samePasses_forBerths {f : BerthId → State → State} (hf : ∀ b s, SamePasses s (f b s)) :
    SamePasses s (forBerths f s) := by
  unfold forBerths
  generalize allBerths = l
  induction l generalizing s with
  | nil => exact .refl
  | cons b l ih => exact (hf b s).trans ih

theorem samePasses_refuseHeld {r : Reason} {b : BerthId} : SamePasses s (refuseHeld r b s) := by
  have hl : ∀ (l : List HeldFrame) {u : State},
      SamePasses u (l.foldl (fun t h => refuse r h.frame h.arrival t) u) := by
    intro l
    induction l with
    | nil => exact .refl
    | cons g l ih => exact (samePasses_of_sent sent_refuse).trans ih
  exact (hl (s.berth b).holdQueue (u := s)).trans ⟨rfl, rfl⟩

theorem samePasses_housekeeping : SamePasses s (housekeeping s) := by
  have hsum : ∀ b u, SamePasses u (nightSummary b u) := by
    intro b u
    unfold nightSummary
    dsimp only
    split
    · exact SamePasses.trans ⟨rfl, rfl⟩ samePasses_noticeBerth
    · exact ⟨rfl, rfl⟩
  have hclear : ∀ u, SamePasses u (clearNoticeCounts u) := fun u => samePasses_forBerths fun _ _ => ⟨rfl, rfl⟩
  have h1 : SamePasses s (forBerths nightSummary s) := samePasses_forBerths hsum
  unfold housekeeping
  generalize forBerths nightSummary s = t at h1 ⊢
  obtain ⟨ha, hb⟩ := hclear { t with clock := { t.clock with night := (t.clock.night + 1) % Config.nightModulus } }
  exact ⟨ha.trans h1.1, hb.trans h1.2⟩

theorem samePasses_offerNotice : SamePasses s (offerNotice s) := by
  unfold offerNotice
  split
  · split <;> exact ⟨rfl, rfl⟩
  · exact .refl

theorem samePasses_gateDecide {f : Frame} {p : Port} {e d : EquipEntry} : SamePasses s (gateDecide f p e d s) := by
  have hj := samePasses_gateJudge (s := s) (f := f) (sc := e.cls) (dc := d.cls) (o := associatedBerth e d)
  unfold gateDecide
  split <;> rename_i hv <;> rw [hv] at hj
  · exact hj.trans (samePasses_of_sent sent_refuse)
  · exact hj.trans samePasses_forward
  · refine hj.trans ?_
    unfold holdFrame
    split
    · exact samePasses_of_sent sent_refuse
    · repeat' split
      all_goals first
        | exact samePasses_of_sent sent_refuse
        | exact ⟨rfl, rfl⟩
  · exact hj

theorem samePasses_expireHeld {b : BerthId} {n : Nat} : SamePasses s (expireHeld b n s) := by
  unfold expireHeld
  split
  · exact .refl
  · split
    · exact samePasses_updBerth.trans (samePasses_of_sent sent_refuse)
    · exact .refl

theorem settled_restartPart {p : Port} {f : Frame} : (restartPart p f s).settled := by
  have h0 : (clearDynamic s).settled := ⟨rfl, rfl⟩
  have h1 := (samePasses_forBerths (f := refuseHeld .restart) fun _ _ => samePasses_refuseHeld).settled h0
  unfold restartPart
  generalize forBerths (refuseHeld .restart) (clearDynamic s) = t at h1 ⊢
  have h2 : (reply p f .accepted t).settled := (samePasses_of_sent sent_sendReply).settled h1
  exact samePasses_joinNotices.settled (s := { reply p f .accepted t with notices := [] }) h2

end

/-- An event may call for passes; its end has run them. -/
theorem settled_events : EventsKeep State.settled fun _ => True := by
  have same : ∀ {s t}, SamePasses s t → s.settled → t.settled := fun h k => h.settled k
  constructor
  case sent => exact fun h => same (samePasses_of_sent h)
  case finish => exact fun _ => runPasses_settled
  case powered => exact fun _ _ => ⟨rfl, rfl⟩
  case restarted => exact fun _ _ _ => settled_restartPart
  case ticked => exact fun h => h
  case boundary =>
    intro s h
    unfold runBoundary
    split
    · exact same samePasses_housekeeping h
    · exact h
  case offered => exact same samePasses_offerNotice
  case gated => exact fun _ _ _ _ => same samePasses_gateDecide
  case faultCleared => exact fun _ _ h => h
  case heldExpired => exact fun _ _ => same samePasses_expireHeld
  all_goals intros; trivial

/-- Settles O6: arbiters and sums record by record, the queues by the changes of every command, the passes by the end of
every event. -/
theorem stepKeepsSectionsConsistent : Obligations.StepKeepsSectionsConsistent := by
  intro s t h
  have only : ∀ {Q : SectionRec → Prop} {u : State},
      (∀ x, Q (u.sec x)) ↔ Parts.Hold ⟨fun _ => True, fun _ => True, Q⟩ u := fun {Q u} =>
    ⟨fun h => ⟨fun _ => trivial, fun _ => trivial, h⟩, fun ⟨_, _, h⟩ => h⟩
  exact ⟨fun hs => only.mpr (arbitratedParts_kept.of_step (only.mp hs) h),
    fun hs => only.mpr (withinLimitParts_kept.of_step (only.mp hs) h),
    fun hs => CommandClosed.queuesSound.of_step (fun _ h => queuesSound_pending h) hs h,
    fun hs => settled_events.of_step (fun _ h => h) hs h⟩

/-! ## One step (log entries 9 and 25) -/

/-- Settles O1. -/
theorem stepTakesTheFrontCommand : Obligations.StepTakesTheFrontCommand := by
  refine fun s => ⟨fun c rest h => ?_, fun h => ?_⟩ <;> simp only [step, h]


/-! ## After power-on (R1, R62, R81, R164) -/

theorem reset_sec (x : SectionId) : State.reset.sec x = SectionRec.initial := by cases x <;> rfl

theorem reset_berth (b : BerthId) : ∃ x, State.reset.berth b = Berth.initial x := by
  fin_cases b <;> exact ⟨_, rfl⟩

theorem reset_bay (k : BayId) : State.reset.bay k = BayRec.initial := by cases k <;> rfl

theorem reset_port (p : Port) : State.reset.port p = PortRec.initial := by simp [State.reset, State.powerOn, State.port]

@[simp] theorem reset_state (b : BerthId) : (State.reset.berth b).state = .outOfService := by
  obtain ⟨x, hx⟩ := reset_berth b; rw [hx]; rfl

@[simp] theorem reset_request (b : BerthId) : State.reset.request b = none := by
  simp [State.request, reset_sec, SectionRec.initial]

@[simp] theorem reset_opOf (b : BerthId) : State.reset.opOf b = none := by
  simp [State.opOf, reset_sec, SectionRec.initial]

@[simp] theorem reset_flying (b : BerthId) : State.reset.flying b = none := by
  obtain ⟨x, hx⟩ := reset_berth b; simp [State.flying, hx, Berth.initial]

/-- After power-on no arbiter holds anything and no berth is in service. -/
theorem arbitersSound_reset : State.reset.arbitersSound where
  arbitrated := fun x => reset_sec x ▸ SectionRec.arbitrated_initial
  own := fun x b _ => by simp [reset_sec, SectionRec.initial]
  lock := fun x l h => by simp [reset_sec, SectionRec.initial] at h
  request := fun b k h => by simp at h
  op := fun b k h => by simp at h
  closing := fun b => by simp
  opening := fun b => by simp
  stepping := fun b h => by simp at h
  started := fun b h => by simp at h
  shaking := fun b h => by simp at h
  grantWait := fun b n h => by
    obtain ⟨x, hx⟩ := reset_berth b
    simp [hx, Berth.initial, Ramp.initial] at h
  starts := ⟨List.nodup_nil, fun b h => by simp [State.reset, State.powerOn] at h⟩
  queues := fun x => by simp [reset_sec, SectionRec.initial]

/-- An invariant of the single records that each record has at power-on holds after power-on. -/
theorem Parts.Kept.hold_reset {Q : Parts} (k : Q.Kept) : Q.Hold State.reset := by
  refine ⟨fun p => reset_port p ▸ k.portInitial, fun b => ?_, fun x => reset_sec x ▸ k.secInitial⟩
  obtain ⟨x, hx⟩ := reset_berth b
  exact hx ▸ k.berthInitial x

theorem grantsAgree_reset : State.reset.grantsAgree := by
  have none : ∀ b, (State.reset.berth b).grant = 0 ∧ (State.reset.berth b).bay = none := fun b => by
    obtain ⟨x, hx⟩ := reset_berth b
    simp [hx, Berth.initial]
  exact ⟨fun x => by simp [reset_sec, SectionRec.initial, none], fun b _ => none b⟩

theorem baysAgree_reset : State.reset.baysAgree := by
  intro k
  simp only [reset_bay, BayRec.initial]
  refine ⟨by simp, fun b => ?_⟩
  obtain ⟨x, hx⟩ := reset_berth b
  simp [hx, Berth.initial]

/-- Settles O3: the invariants of the single records hold of each record at power-on; the others hold with every berth
out of service and every arbiter, queue and bay empty. -/
theorem resetMeetsTheInvariants : Obligations.ResetMeetsTheInvariants :=
  ⟨bounded_iff.mpr ⟨boundedParts_kept.hold_reset, Nat.zero_le _⟩, guarded_iff_hold.mpr guardedParts_kept.hold_reset,
    arbitratedParts_kept.hold_reset.2.2, withinLimitParts_kept.hold_reset.2.2,
    fun x c hc => by simp [reset_sec, SectionRec.initial] at hc,
    sound_iff.mpr ⟨configured_reset, rangedParts_kept.hold_reset⟩,
    mapSound_of_empty fun n => by simp [State.reset, State.powerOn], ⟨rfl, rfl⟩, arbitersSound_reset,
    grantsAgree_reset, baysAgree_reset⟩

end Sys2Proof.Machine
end

-- ==== Ports and the GATE ====
section
/-! PROOFS. What the ports receive and send (R122, R132 to R134), the bytes of frames and reports, the gate's guards and
decisions, and the hold queue (chapter 8). -/

namespace Sys2Proof.Machine

variable {s : State} {p : Port} {f : Frame} {b : BerthId}

/-- A counter that stops at its maximum (R123). -/
theorem satInc_countMax (n : Nat) : satInc Config.countMax n = min 65535 (n + 1) := satInc_eq_min

theorem updPort_congr {g h : PortRec → PortRec} (e : g (s.port p) = h (s.port p)) : updPort p g s = updPort p h s := by
  simp [updPort, e]

theorem updPort_id {g : PortRec → PortRec} (h : g (s.port p) = s.port p) : updPort p g s = s := by
  unfold updPort; rw [h]; cases s; simp [State.port]

theorem updPort_updPort {g h : PortRec → PortRec} : updPort p h (updPort p g s) = updPort p (fun r => h (g r)) s := by
  simp [updPort, State.port]

/-! ## Receiving and sending (R122, R133) -/

/-- Settles O11: a received frame joins a buffer with room, and sending takes the head of a queue that has one. -/
theorem portsReceiveAndSendInOrder : Obligations.PortsReceiveAndSendInOrder := by
  intro p bytes s
  have hrx : exec (.receiveFrame p bytes) s = .next (receive p bytes s) := rfl
  have htx : exec (.transmitStart p) s = .next (startSending p s) := rfl
  refine ⟨fun h => ?_, fun h => ?_, fun t rest h => ?_, fun h => ?_⟩
  · have hroom : (s.port p).rx.length < Config.rxDepth := h
    exact hrx.trans (congrArg _ (updPort_congr (if_pos hroom)))
  · have hfull : ¬(s.port p).rx.length < Config.rxDepth := Nat.not_lt.mpr h
    refine hrx.trans (congrArg _ (updPort_congr ?_))
    simp only [if_neg hfull, satInc_countMax]
  · rw [htx, startSending, updPort_congr]
    rw [h]
  · rw [htx, startSending, updPort_id]
    rw [h]

/-- A queue of eight slots has one free exactly while it holds fewer than eight frames (R133). -/
theorem one_le_freeSlots : 1 ≤ s.freeSlots p ↔ (s.port p).tx.length < 8 := by
  unfold State.freeSlots; simp only [Config.txSlots]; omega

/-- Three slots are free exactly while a queue holds at most five frames (R133). -/
theorem forwardRoom_le_freeSlots : Config.forwardRoom ≤ s.freeSlots p ↔ (s.port p).tx.length ≤ 5 := by
  unfold State.freeSlots; simp only [Config.txSlots, Config.forwardRoom]; omega

theorem send_some_of_free {e : EquipEntry} {k c : Byte} {l : List Byte} (h : (s.port e.port).tx.length < 8) :
    send (some e) k c l s = (enqueue e.port ⟨s.build e.port e.id k c l, none⟩ s, true) :=
  if_pos (one_le_freeSlots.mpr h)

theorem send_some_of_full {e : EquipEntry} {k c : Byte} {l : List Byte} (h : 8 ≤ (s.port e.port).tx.length) :
    send (some e) k c l s = (s, false) :=
  if_neg fun hf => absurd (one_le_freeSlots.mp hf) (Nat.not_lt.mpr h)

theorem sendReply_of_free (h : (s.port p).tx.length < 8) : sendReply p f s = enqueue p ⟨f, none⟩ s :=
  if_pos (one_le_freeSlots.mpr h)

theorem sendReply_of_full (h : 8 ≤ (s.port p).tx.length) : sendReply p f s = s :=
  if_neg fun hf => absurd (one_le_freeSlots.mp hf) (Nat.not_lt.mpr h)

theorem rejectForwarded_eq : rejectForwarded f p s = if f.kind = kindRefusal then s else refuse .congested f p s := by
  unfold rejectForwarded; simp only [beq_iff_eq]

theorem forward_of_room {a : Port} (h : (s.port p).tx.length ≤ 5) : forward f a p s = enqueue p ⟨f, some a⟩ s :=
  if_pos (forwardRoom_le_freeSlots.mpr h)

theorem forward_of_no_room {a : Port} (h : 5 < (s.port p).tx.length) :
    forward f a p s = if f.kind = kindRefusal then s else refuse .congested f a s :=
  (if_neg fun hf => absurd (forwardRoom_le_freeSlots.mp hf) (Nat.not_le.mpr h)).trans rejectForwarded_eq

/-- Settles O12: each class of frame by the free slots it needs. -/
theorem transmitQueueAdmitsByClass : Obligations.TransmitQueueAdmitsByClass := by
  intro p e kind code payload f a s joins he
  subst he
  exact ⟨send_some_of_free, send_some_of_full, rfl, sendReply_of_free, sendReply_of_full, forward_of_room,
    forward_of_no_room⟩

/-- Settles O13: a free slot, the place of the oldest forwarded frame, or none. -/
theorem tripOpenDisplacesAForwardedFrame : Obligations.TripOpenDisplacesAForwardedFrame := by
  intro b e s order he
  refine ⟨fun hfree => ?_, fun hfull front f a back hq hown => ?_, fun hfull hown => ?_⟩
  · simp only [sendTripOpen, he, if_pos (one_le_freeSlots.mpr hfree)]
    rfl
  · have hno : ¬1 ≤ s.freeSlots e.port := fun h => absurd (one_le_freeSlots.mp h) (Nat.not_lt.mpr hfull)
    simp only [sendTripOpen, he, if_neg hno, hq, takeOldestForwarded_some hown, rejectForwarded_eq, enqueue,
      updPort_updPort]
    rfl
  · have hno : ¬1 ≤ s.freeSlots e.port := fun h => absurd (one_le_freeSlots.mp h) (Nat.not_lt.mpr hfull)
    simp only [sendTripOpen, he, if_neg hno, takeOldestForwarded_none hown]

/-! ## The bytes of reports (7.2.1, 7.2.2) -/

/-- A name of a list reads back from its byte (7.2). -/
theorem nameIn_codeIn {α : Type} [DecidableEq α] {names : List α} {a : α} (h : a ∈ names) (hl : names.length < 256) :
    nameIn names (codeIn names a) = some a := by
  have hi : names.idxOf a < names.length := List.idxOf_lt_length_of_mem h
  have hb : (codeIn names a).toNat = names.idxOf a + 1 := by
    rw [codeIn, toNat_byte, Nat.mod_eq_of_lt (by omega)]
  simp only [nameIn, hb]
  rw [List.getElem?_eq_getElem hi, List.getElem_idxOf]

theorem num2_bytes2 {n : Nat} (h : n < 65536) : num2 (byte (n / 256)) (byte n) = n := by
  simp only [num2, toNat_byte]; omega

theorem num4_bytes4 (v : Num32) :
    num4 (v.extractLsb' 24 8) (v.extractLsb' 16 8) (v.extractLsb' 8 8) (v.extractLsb' 0 8) = v := by
  unfold num4
  ext k hk
  simp only [BitVec.getElem_append, BitVec.getElem_extractLsb']
  repeat' split
  all_goals
    rw [← BitVec.getLsbD_eq_getElem hk]
    congr 1
    omega

/-- Settles O15: each field of a payload reads back. -/
theorem reportPayloadsReadBack : Obligations.ReportPayloadsReadBack := by
  have result : ∀ r, nameIn coreResults (codeIn coreResults r) = some r := by rintro (_ | _) <;> decide
  have yes : ∀ y, nameIn yesNo (codeIn yesNo y) = some y := by decide
  refine ⟨fun i b => ?_, fun r => ?_, fun r => ?_, fun r h1 h2 => ?_, fun r h => ?_, fun v => ?_, fun r => ?_,
    fun q => by cases q <;> decide, fun a => by cases a <;> decide, by decide, by decide⟩
  · have : nameIn breakers (codeIn breakers b) = some b := by cases b <;> decide
    simp [positionOf, positionBytes, bytesId, at', this]
  · simp [coreTestOf, coreTestBytes, bytes4, at', result, num4_bytes4]
  · have hf : nameIn funcs (codeIn funcs r.func) = some r.func := nameIn_codeIn (by cases r.func <;> decide) (by decide)
    have hc : nameIn cores (codeIn cores r.core) = some r.core := nameIn_codeIn (by cases r.core <;> decide) (by decide)
    simp [assignDoneOf, assignDoneBytes, at', hf, hc, yes]
  · simp [shipStateOf, shipStateBytes, bytes2, at', yes, num2_bytes2 h1, num2_bytes2 h2]
  · simp [stepDoneOf, stepDoneBytes, bytes2, at', yes, num2_bytes2 h]
  · simp [vesselIdOf, vesselBytes, bytes4, at', num4_bytes4]
  · have hb : nameIn bayIds (codeIn bayIds r.bay) = some r.bay := nameIn_codeIn (by cases r.bay <;> decide) (by decide)
    have hr : nameIn converterRuns (codeIn converterRuns r.run) = some r.run :=
      nameIn_codeIn (by cases r.run <;> decide) (by decide)
    simp [converterStateOf, converterBytes, at', hb, hr]

/-! ## The bytes of frames (7.2, R124) -/

/-- The bytes of a frame: its header, its payload and its Check. -/
theorem encode_eq (f : Frame) : f.encode = f.dst.extractLsb' 8 8 :: f.dst.extractLsb' 0 8 :: f.src.extractLsb' 8 8 ::
    f.src.extractLsb' 0 8 :: f.kind :: f.code :: f.tag :: byte f.payload.length ::
      (f.payload ++ bytesId (crc16 f.body)) := by
  simp [Frame.encode, Frame.body, bytesId]

theorem parse_encode (h : f.payload.length ≤ 48) : parseFrame f.encode = some f := by
  have hn : (f.payload ++ bytesId (crc16 f.body)).length - 2 = f.payload.length := by simp
  have hlen : (byte f.payload.length).toNat = f.payload.length := by rw [toNat_byte]; omega
  rw [encode_eq]
  simp only [parseFrame, hn, idOf_bytesId, List.take_left, List.drop_left]
  rw [if_pos ⟨by simp, hlen, h, trivial⟩]

/-- Settles O8: a frame is read from its own bytes alone. -/
theorem frameBytesReadBack : Obligations.FrameBytesReadBack := fun _ _ =>
  ⟨fun h => ⟨length_payload_of_parse h, encode_of_parse h⟩, fun ⟨hl, hb⟩ => hb ▸ parse_encode hl⟩

/-! ## The guards and the decision (R135, R137, R139, R142) -/

/-- Settles O17: guard 1 by the closing orders, guard 2 by the berth's state. -/
theorem fixedGuardsComeFirst : Obligations.FixedGuardsComeFirst := by
  intro f src dst b s closing opening
  have hclosing : closingOrder f = true ↔ closing := by
    simp [closingOrder, closing, kindOrder, codeClose, codeSyncClose, codeConverterStart, codeEarthClose, or_assoc]
  have hopening : openingOrder f = true ↔ opening := by
    simp [openingOrder, opening, kindOrder, codeOpen, codeEarthOpen]
  refine ⟨fun h => gateJudge_closingOrder (hclosing.mpr h), fun hc ht ho => ?_⟩
  obtain ⟨c, rfl, htripped⟩ := ht
  have hc' : closingOrder f = false := by simpa using mt hclosing.mp hc
  have ho' : openingOrder f = false := by simpa using mt hopening.mp ho
  simp [gateJudge, hc', ho', htripped]

theorem exec_gateDecision : exec (.gateDecision p) s = takeFrame .gateDecision p
    (routed p fun f e d s =>
      match d with
      | some d => gateDecide f p e d s
      | none => if f.kind = kindOrder then refuse .noRule f p s else reply p f .badValue s) s := rfl

/-- A frame of another party that is an ORDER or a REQUEST is the gate's (R135). -/
theorem row_of_order_or_request {own : EquipId} (h : f.kind = kindOrder ∨ f.kind = kindRequest) (hd : f.dst ≠ own) :
    f.row own = .gateDecision := by
  obtain h | h := h <;> simp [Frame.row, h, hd, kindOrder, kindRequest]

theorem row_of_order {own : EquipId} (h : f.kind = kindOrder) : f.row own = .gateDecision := by
  simp [Frame.row, h, kindOrder]

/-- A frame with a destination entry is not for the part itself (R127). -/
theorem Arrived.dst_ne_own {e d : EquipEntry} (h : Arrived s p f e (some d)) : f.dst ≠ s.ownId := fun hd => by
  have := h.mapped
  unfold State.route at this
  split at this
  · simp at this
  · split at this
    · simp at this
    · simp at this

theorem associatedBerth_eq {e d : EquipEntry} :
    associatedBerth e d = if d.berth.isSome then d.berth else e.berth := by
  unfold associatedBerth; cases d.berth <;> rfl

@[simp] theorem gateJudge_berth {sc dc : EquipClass} {o : Option BerthId} {c : BerthId} :
    (gateJudge f sc dc o s).2.berth c = s.berth c := by simp [State.berth]

theorem gateJudge_clock {sc dc : EquipClass} {o : Option BerthId} :
    (gateJudge f sc dc o s).2.clock = s.clock ∧ (gateJudge f sc dc o s).2.timings = s.timings := by
  rw [gateJudge_sent]; exact ⟨rfl, rfl⟩

/-- A first decision by its verdict (R135). -/
theorem gateDecide_eq {e d : EquipEntry} :
    gateDecide f p e d s =
      let v := gateJudge f e.cls d.cls (associatedBerth e d) s
      match v.1 with
      | .refuse r => refuse r f p v.2
      | .pass => forward f p d.port v.2
      | .hold => holdFrame f p e.cls d.cls (associatedBerth e d) v.2
      | .discard => v.2 := by
  unfold gateDecide
  dsimp only
  split <;> rename_i h <;> rw [h]

/-! HOLD as the outcome of a first decision, for a frame with a berth (R142). -/

section
variable {sc dc : EquipClass}

theorem holdFrame_of_barred (h : (s.berth b).state = .tripped ∨ (s.berth b).state = .outOfService) :
    holdFrame f p sc dc (some b) s = refuse .berthTripped f p s := by
  simp only [holdFrame, Bool.or_eq_true, beq_iff_eq, if_pos h]

theorem holdFrame_of_full (h1 : (s.berth b).state ≠ .tripped) (h2 : (s.berth b).state ≠ .outOfService)
    (hq : 2 ≤ (s.berth b).holdQueue.length) : holdFrame f p sc dc (some b) s = refuse .holdFull f p s := by
  simp only [holdFrame, Bool.or_eq_true, beq_iff_eq, h1, h2, or_self, if_false]
  exact if_pos hq

theorem holdFrame_of_room (h1 : (s.berth b).state ≠ .tripped) (h2 : (s.berth b).state ≠ .outOfService)
    (hq : (s.berth b).holdQueue.length < 2) : holdFrame f p sc dc (some b) s =
      updBerth b (fun r => { r with holdQueue :=
        r.holdQueue ++ [⟨f, p, sc, dc, s.clock.time, s.clock.night, s.timings.holdLimit⟩] }) s := by
  simp only [holdFrame, Bool.or_eq_true, beq_iff_eq, h1, h2, or_self, if_false]
  exact if_neg (Nat.not_le.mpr hq)

end

/-- Settles O19: the decision by its verdict; a frame to be held by its berth's state and queue. -/
theorem gateDecisionIsCarriedOut : Obligations.GateDecisionIsCarriedOut := by
  intro p f e d s
  dsimp only
  rw [← associatedBerth_eq]
  refine ⟨fun ha hk => ?_, fun ha hk => ?_⟩
  · have hx : exec (.gateDecision p) s = .next (gateDecide f p e d (dropHead p s)) :=
      takeFrame_routed ha (row_of_order_or_request hk ha.dst_ne_own)
    rw [hx, gateDecide_eq]
    generalize hv : gateJudge f e.cls d.cls (associatedBerth e d) (dropHead p s) = v
    obtain ⟨hclock, htimings⟩ : v.2.clock = s.clock ∧ v.2.timings = s.timings := hv ▸ gateJudge_clock
    have hberth : ∀ c, v.2.berth c = s.berth c := fun c => hv ▸ gateJudge_berth
    refine ⟨fun r h => ?_, fun h => ?_, fun h => ?_, fun h hb => ?_, fun h c hb => ⟨fun hs => ?_, fun h1 h2 hq => ?_, fun h1 h2 hq => ?_⟩⟩
    all_goals simp only [h]
    · rw [hb]; rfl
    · rw [hb, holdFrame_of_barred (by rwa [hberth])]
    · rw [hb, holdFrame_of_full (by rwa [hberth]) (by rwa [hberth]) (by rwa [hberth])]
    · rw [hb, holdFrame_of_room (by rwa [hberth]) (by rwa [hberth]) (by rwa [hberth]), hclock, htimings]
  · rw [exec_gateDecision, takeFrame_routed ha (row_of_order hk)]
    simp only [hk, if_true]

/-! ## The hold queue (R144, R146) -/

/-- Settles O21: the frame at a place with its timer run out, or none. -/
theorem holdTimerExpiryRefusesItsFrame : Obligations.HoldTimerExpiryRefusesItsFrame := by
  intro b place s
  have hx : exec (.holdQueueExpiry b place) s = .next (expireHeld b place s) := rfl
  rw [hx]
  refine ⟨fun h hh h0 => by simp only [expireHeld, hh, h0, if_true], fun hno => ?_⟩
  cases hh : (s.berth b).holdQueue[place]? with
  | none => simp only [expireHeld, hh]
  | some h => simp only [expireHeld, hh, if_neg (hno h hh)]

@[simp] theorem entryOf_updPort {g : PortRec → PortRec} {i : EquipId} : (updPort p g s).entryOf i = s.entryOf i := rfl

theorem entryOf_of_sent {t : State} {i : EquipId} (h : Sent s t) : t.entryOf i = s.entryOf i := by
  rw [Sent] at h; rw [h]; rfl

/-- A held frame stays held exactly when it is judged HOLD again (R144). -/
theorem reJudge_fst {h : HeldFrame} :
    (reJudge b h s).1 = decide ((gateJudge h.frame h.srcClass h.dstClass (some b) s).1 = .hold) := by
  unfold reJudge
  split <;> rename_i hv <;> rw [hv] <;> rfl

/-- A held frame that passes goes where the map sends it now, or is counted as unmapped (R141). -/
theorem passHeld_eq {h : HeldFrame} : passHeld h s =
    match s.entryOf h.frame.src, s.entryOf h.frame.dst with
    | some e, some d =>
      if e.port = h.arrival ∧ d.port ≠ h.arrival then forward h.frame h.arrival d.port s
      else countUnmapped h.arrival s
    | _, _ => countUnmapped h.arrival s := by
  unfold passHeld
  cases s.entryOf h.frame.src <;> cases s.entryOf h.frame.dst <;> try rfl
  rename_i e d
  by_cases hd : d.port = h.arrival <;> by_cases he : e.port = h.arrival <;> simp [hd, he]

/-- Settles O20: the frames held again are those judged HOLD, and each outcome is carried out in its turn. -/
theorem reevaluationKeepsTheFramesHeldAgain : Obligations.ReevaluationKeepsTheFramesHeldAgain := by
  intro b s u judged
  obtain ⟨hkept, hsent⟩ := reJudgeAll_spec (b := b) (l := (s.berth b).holdQueue) s (.refl s) rfl
  have hu : u = updBerth b (fun r => { r with holdQueue := (reJudgeAll b (s.berth b).holdQueue s).1 })
      (reJudgeAll b (s.berth b).holdQueue s).2 := rfl
  refine ⟨?_, (Closed.untouched s).reevaluate trivial (.refl s),
    (Changes.othersKept b s).reevaluate rfl fun _ _ => rfl, ?_, fun h => ?_, ?_⟩
  · rw [hu, hsent]; rfl
  · rw [← hkept]
    simpa using reevaluate_berth (b := b) (s := s) (d := b)
  · rw [hu, h]
    exact updBerth_id (by simp only [reJudgeAll]; rw [← h])
  · intro carriedOut kept
    have hout : ∀ {t} h, Sent s t → (reJudge b h t).2 = carriedOut t h := by
      intro t h ht
      have hv : Sent s (gateJudge h.frame h.srcClass h.dstClass (some b) t).2 := ht.trans gateJudge_sent
      simp only [carriedOut, ← entryOf_of_sent hv]
      rcases hj : gateJudge h.frame h.srcClass h.dstClass (some b) t with ⟨v, w⟩
      simp only [reJudge, hj]
      cases v with
      | pass =>
        refine passHeld_eq.trans ?_
        cases w.entryOf h.frame.src <;> cases w.entryOf h.frame.dst <;> rfl
      | refuse | hold | discard => rfl
    refine ⟨fun h hq => ?_, fun h g hq => ?_⟩
    · rw [hu, hq]
      simp only [reJudgeAll, reJudge_fst, hout h sent_refl, decide_eq_true_eq]
      rfl
    · have h1 : Sent s (reJudge b h s).2 := reJudge_sent
      rw [hout h sent_refl] at h1
      rw [hu, hq]
      simp only [reJudgeAll, reJudge_fst, hout h sent_refl, hout g h1, decide_eq_true_eq]
      split <;> rfl

/-! ## Requests to the part (R129) -/

/-- A request from the wrong class is answered NOT_PERMITTED (R129). -/
theorem requested_of_cls {cls : EquipClass} {n : Nat} {act : Frame → EquipEntry → State → State} {e : EquipEntry}
    (hm : s.route p f = some (e, none)) (hc : e.cls ≠ cls) :
    requested cls n p act f s = reply p f .notPermitted s := by
  rw [requested, routed_of_mapped hm, if_pos hc]

/-- A request with a payload of the wrong size is answered BAD_VALUE (R129). -/
theorem requested_of_size {cls : EquipClass} {n : Nat} {act : Frame → EquipEntry → State → State} {e : EquipEntry}
    (hm : s.route p f = some (e, none)) (hc : e.cls = cls) (hs : f.payload.length ≠ n) :
    requested cls n p act f s = reply p f .badValue s := by
  rw [requested, routed_of_mapped hm, if_neg (not_not_intro hc), if_pos hs]

/-- A control-room request about no berth of 1 to 8 is answered BAD_VALUE (R4). -/
theorem takeBerthRequest_of_no_berth {row : FrameRow} {act : BerthId → State → Status × State} {e : EquipEntry}
    {n : Byte} (ha : Arrived s p f e none) (hr : f.row s.ownId = row) (hc : e.cls = .supervisor)
    (hs : f.payload = [n]) (hb : berthOf n = none) :
    takeBerthRequest row p act s = .next (reply p f .badValue (dropHead p s)) := by
  rw [takeBerthRequest, takeFrame_requested ha hr hc (by simp [hs])]
  simp [hs, at', hb]

/-- The codes 0x31 to 0x33 are the ships' (R4, R129). -/
theorem exec_shipRow {code : Byte} (h : 0x31 ≤ code.toNat ∧ code.toNat ≤ 0x33) : ∃ act,
    exec ((requestRow code).command p) s = takeFrame (requestRow code) p (requested .shipPms 0 p act) s := by
  obtain hc | hc | hc : code.toNat = 0x31 ∨ code.toNat = 0x32 ∨ code.toNat = 0x33 := by omega
  all_goals
    simp only [requestRow, hc]
    exact ⟨_, rfl⟩

/-- The codes 0x41 to 0x45 are the control room's about a berth (R4, R129). -/
theorem exec_berthRow {code : Byte} (h : 0x41 ≤ code.toNat ∧ code.toNat ≤ 0x45) : ∃ act,
    exec ((requestRow code).command p) s = takeBerthRequest (requestRow code) p act s := by
  obtain hc | hc | hc | hc | hc : code.toNat = 0x41 ∨ code.toNat = 0x42 ∨ code.toNat = 0x43 ∨ code.toNat = 0x44 ∨
    code.toNat = 0x45 := by omega
  all_goals
    simp only [requestRow, hc]
    exact ⟨_, rfl⟩

/-- The codes 0x41 to 0x47 are the control room's (R4, R129). -/
theorem exec_roomRow {code : Byte} (h : 0x41 ≤ code.toNat ∧ code.toNat ≤ 0x47) : ∃ act,
    exec ((requestRow code).command p) s = takeFrame (requestRow code) p
      (requested .supervisor (if code.toNat = 0x46 then 0 else if code.toNat = 0x47 then 3 else 1) p act) s := by
  by_cases h5 : code.toNat ≤ 0x45
  · obtain ⟨act, hact⟩ := exec_berthRow (p := p) (s := s) ⟨h.1, h5⟩
    rw [if_neg (by omega), if_neg (by omega)]
    exact ⟨_, hact⟩
  · obtain hc | hc : code.toNat = 0x46 ∨ code.toNat = 0x47 := by omega
    all_goals
      simp only [requestRow, hc]
      exact ⟨_, rfl⟩

/-- Any other code is no request the part takes (log entry 20). -/
theorem requestRow_of_other {code : Byte} (hs : ¬(0x31 ≤ code.toNat ∧ code.toNat ≤ 0x33))
    (hr : ¬(0x41 ≤ code.toNat ∧ code.toNat ≤ 0x47)) : requestRow code = .gateDecision := by
  unfold requestRow
  split
  all_goals first
    | omega
    | rfl

/-- The command of a REQUEST's code makes its checks in their order (R129). -/
theorem exec_requested {cls : EquipClass} {n : Nat} {act : Frame → EquipEntry → State → State} {e : EquipEntry}
    (ha : Arrived s p f e none)
    (hx : exec ((f.row s.ownId).command p) s = takeFrame (f.row s.ownId) p (requested cls n p act) s) :
    (e.cls ≠ cls → exec ((f.row s.ownId).command p) s = .next (reply p f .notPermitted (dropHead p s))) ∧
    (e.cls = cls → f.payload.length ≠ n →
      exec ((f.row s.ownId).command p) s = .next (reply p f .badValue (dropHead p s))) := by
  have hm : (dropHead p s).route p f = some (e, none) := ha.mapped
  rw [hx, takeFrame_waits ha.waits rfl]
  exact ⟨fun hc => congrArg _ (requested_of_cls hm hc), fun hc hn => congrArg _ (requested_of_size hm hc hn)⟩

/-- Settles O16: the checks in their order, by the request's code. -/
theorem requestsAreChecked : Obligations.RequestsAreChecked := by
  intro p f e s c ship room size origin answered ha hk
  have hrow : f.row s.ownId = requestRow f.code := row_of_request hk ha.dst_own
  have hship : ship → size = 0 := fun h => if_pos h
  have hroom : room → size = if f.code.toNat = 0x46 then 0 else if f.code.toNat = 0x47 then 3 else 1 := fun h =>
    if_neg fun hs : ship => by have := hs.2; have := h.1; omega
  have disjoint : ship → ¬room := fun hs hr => by have := hs.2; have := hr.1; omega
  have checks : ship ∨ room → ∃ cls, (e.cls = cls ↔ origin) ∧ (e.cls ≠ cls → answered .notPermitted) ∧
      (e.cls = cls → f.payload.length ≠ size → answered .badValue) := by
    rintro (h | h)
    · obtain ⟨act, hact⟩ := exec_shipRow (p := p) (s := s) h
      rw [hship h]
      exact ⟨.shipPms, ⟨fun hc => ⟨fun _ => hc, fun hr => absurd hr (disjoint h)⟩, fun ho => ho.1 h⟩,
        exec_requested ha (hrow ▸ hact)⟩
    · obtain ⟨act, hact⟩ := exec_roomRow (p := p) (s := s) h
      rw [hroom h]
      exact ⟨.supervisor, ⟨fun hc => ⟨fun hs => absurd h (disjoint hs), fun _ => hc⟩, fun ho => ho.2 h⟩,
        exec_requested ha (hrow ▸ hact)⟩
  refine ⟨fun hs hr => ?_, fun h ho => ?_, fun h ho hn => ?_, fun hr h5 ho n hn hrange => ?_⟩
  · have hg : f.row s.ownId = .gateDecision := hrow.trans (requestRow_of_other hs hr)
    refine ⟨hg, ?_⟩
    have hx := takeFrame_routed (act := fun f e d s =>
      match d with
      | some d => gateDecide f p e d s
      | none => if f.kind = kindOrder then refuse .noRule f p s else reply p f .badValue s) ha hg
    have hno : ¬f.kind = kindOrder := by rw [hk]; decide
    simp only [hno, if_false] at hx
    show exec _ s = _
    rw [hg]
    exact hx
  · obtain ⟨cls, hcls, hwrong, -⟩ := checks h
    exact hwrong (mt hcls.mp ho)
  · obtain ⟨cls, hcls, -, hsize⟩ := checks h
    exact hsize (hcls.mpr ho) hn
  · have hb : berthOf n = none := dif_neg (by omega)
    obtain ⟨act, hact⟩ := exec_berthRow (p := p) (s := s) ⟨hr.1, h5⟩
    show exec _ s = _
    rw [hrow, hact]
    exact takeBerthRequest_of_no_berth ha hrow (ho.2 hr) hn hb

end Sys2Proof.Machine
end

-- ==== Frames that fail their checks ====
section
/-! PROOFS. The conditions a received frame must meet and what becomes of one that fails them (R124, 7.2.1, 7.2.2). -/

namespace Sys2Proof.Machine

variable {s : State} {p : Port}

/-! ## The codes, their payloads and their enumerated fields (7.2.1, 7.2.2) -/

/-- The payload sizes of each kind and code but for the notices', which are one row (7.2.1). -/
def sizeTable : List ((Nat × Nat) × Nat × Nat) :=
  [((1, 0x01), 2, 2), ((1, 0x02), 2, 2), ((1, 0x03), 2, 2), ((1, 0x05), 0, 0), ((1, 0x06), 2, 2), ((1, 0x07), 2, 2),
    ((1, 0x08), 1, 1), ((1, 0x09), 0, 0), ((1, 0x0A), 0, 0)] ++
  [((2, 0x61), 3, 3), ((2, 0x62), 1, 1), ((2, 0x63), 9, 9), ((2, 0x64), 3, 3), ((2, 0x65), 6, 6), ((2, 0x66), 3, 3),
    ((2, 0x67), 1, 1), ((2, 0x68), 4, 4), ((2, 0x69), 3, 3), ((2, 0x6A), 1, 1), ((2, 0x6B), 0, 0), ((2, 0x6C), 0, 0)] ++
  [((3, 0x21), 0, 0), ((3, 0x22), 0, 0), ((3, 0x23), 3, 3), ((3, 0x24), 0, 0), ((3, 0x25), 2, 2)] ++
  ([0x31, 0x32, 0x33, 0x46].map fun c => ((3, c), 0, 0)) ++
  ([0x41, 0x42, 0x43, 0x44, 0x45].map fun c => ((3, c), 1, 1)) ++
  [((3, 0x47), 3, 3), ((4, 0x01), 2, 2), ((5, 0x01), 3, 3), ((6, 0x01), 2, 48), ((6, 0x02), 2, 48)]

/-- Where a payload names one of a list, and how many its list has, but for the notices' section (7.2.2). -/
def nameTable : List ((Nat × Nat) × List (Nat × Nat)) :=
  [((1, 0x06), [(0, 4), (1, 5)]), ((2, 0x61), [(2, 3)]), ((2, 0x62), [(0, 2)]),
    ((2, 0x63), [4, 5, 6, 7, 8].map fun n => (n, 4)), ((2, 0x64), [(0, 4), (1, 5), (2, 2)]),
    ((2, 0x65), [(4, 2), (5, 2)]), ((2, 0x66), [(0, 2)]), ((2, 0x67), [(0, 3)]), ((2, 0x69), [(2, 3)]),
    ((2, 0x6A), [(0, 2)]), ((3, 0x23), [(0, 2)]), ((4, 0x01), [(0, 11)]), ((5, 0x01), [(0, 9), (1, 7)])]

theorem kind_eq_seven (kind : Byte) : kind = 7#8 ↔ kind.toNat = 7 :=
  ⟨fun h => by rw [h]; rfl, fun h => BitVec.eq_of_toNat_eq h⟩

theorem payloadSizes_eq (kind code : Byte) : payloadSizes kind code =
    if kind = 7#8 then (if 1 ≤ code.toNat ∧ code.toNat ≤ 24 then some (9, 17) else none)
    else sizeTable.lookup (kind.toNat, code.toNat) := by
  simp only [kind_eq_seven]
  unfold payloadSizes
  generalize kind.toNat = k, code.toNat = c
  split
  case h_42 =>
    -- No row: the table has no key that one of the rows would have taken.
    rw [if_neg ‹k = 7 → False›, eq_comm, List.lookup_eq_none_iff]
    simp_all [sizeTable]
  all_goals rfl

theorem enumFields_eq (kind code : Byte) : enumFields kind code =
    if kind = 7#8 then [(1, 0, 2)]
    else ((nameTable.lookup (kind.toNat, code.toNat)).getD []).map fun f => (f.1, 1, f.2) := by
  simp only [kind_eq_seven]
  unfold enumFields
  generalize kind.toNat = k, code.toNat = c
  split
  case h_15 =>
    have : nameTable.lookup (k, c) = none := by
      rw [List.lookup_eq_none_iff]
      simp_all [nameTable]
    rw [if_neg ‹k = 7 → False›, this]
    rfl
  all_goals rfl

theorem sizeOk_iff (kind code : Byte) (payload : List Byte) : sizeOk kind code payload = true ↔
    ∃ least most, payloadSizes kind code = some (least, most) ∧ least ≤ payload.length ∧ payload.length ≤ most := by
  unfold sizeOk
  cases payloadSizes kind code with
  | none => simp
  | some q => obtain ⟨lo, hi⟩ := q; simp

theorem nameTable_lookup_notice (c : Nat) : nameTable.lookup (7, c) = none := by
  simp [List.lookup_eq_none_iff, nameTable]

theorem enumsOk_iff (kind code : Byte) (payload : List Byte) : enumsOk kind code payload = true ↔
    (∀ f ∈ (nameTable.lookup (kind.toNat, code.toNat)).getD [],
      1 ≤ (payload.getD f.1 0#8).toNat ∧ (payload.getD f.1 0#8).toNat ≤ f.2) ∧
    (kind = 7#8 → (payload.getD 1 0#8).toNat ≤ 2) := by
  unfold enumsOk
  rw [enumFields_eq]
  split
  · rename_i h
    rw [kind_eq_seven] at h
    simp [h, nameTable_lookup_notice, at', kind_eq_seven]
  · rename_i h
    simp [h, at']

/-! ## The checks (R124) -/

/-- A frame that fails its checks is discarded and counted by its command, whatever its row (R124). -/
theorem exec_faulty {bytes : List Byte} {rest : List (List Byte)} (hrx : (s.port p).rx = bytes :: rest)
    (hc : checkFrame s.ownId bytes = none) : exec ((rowOf s.ownId bytes).command p) s =
      .next (updPort p (fun r => { r with rx := rest, checkErrors := min 65535 (r.checkErrors + 1) }) s) := by
  have taken : ∀ act, takeFrame (rowOf s.ownId bytes) p act s =
      .next (updPort p (fun r => { r with rx := rest, checkErrors := min 65535 (r.checkErrors + 1) }) s) := by
    intro act
    simp only [takeFrame, hrx, if_true, hc, countCheckError, dropHead, updPort_updPort, satInc_countMax]
    exact congrArg _ (updPort_congr (by rw [hrx]; rfl))
  cases htable : (rowOf s.ownId bytes).isTable with
  | false =>
    obtain ⟨act, hact⟩ := exec_command_routed (p := p) (s := s) htable
    rw [hact, taken]
  | true =>
    obtain ⟨act, hact⟩ := exec_command_managed (p := p) (s := s) htable
    rw [hact, taken]

theorem parseFrame_of_short {bytes : List Byte} (h : bytes.length < 10) : parseFrame bytes = none := by
  unfold parseFrame
  split
  · simp only [List.length_cons] at h
    exact if_neg fun hc => by omega
  · rfl

theorem rowOf_of_short {own : EquipId} {bytes : List Byte} (h : bytes.length < 8) : rowOf own bytes = .forwardFrame := by
  unfold rowOf
  split
  · simp only [List.length_cons] at h
    omega
  · rfl

theorem bytesId_inj {i j : EquipId} : bytesId i = bytesId j ↔ i = j := by
  refine ⟨fun h => ?_, fun h => h ▸ rfl⟩
  obtain ⟨h1, h0⟩ : _ ∧ _ := by simpa [bytesId] using h
  rw [← idOf_bytesId i, h1, h0, idOf_bytesId]

/-- The first two conditions on the bytes of a frame: its Check and its Length (R124). -/
theorem parseFrame_bytes (d1 d0 s1 s0 kind code tag len c1 c0 : Byte) (payload : List Byte) :
    parseFrame (([d1, d0, s1, s0, kind, code, tag, len] ++ payload) ++ [c1, c0]) =
      if crc16 ([d1, d0, s1, s0, kind, code, tag, len] ++ payload) = idOf c1 c0 ∧ len.toNat = payload.length ∧
          payload.length ≤ 48 then
        some ⟨idOf d1 d0, idOf s1 s0, kind, code, tag, payload⟩
      else none := by
  have hn : (payload ++ [c1, c0]).length - 2 = payload.length := by simp
  simp only [List.cons_append, List.nil_append, parseFrame, hn, List.take_left, List.drop_left]
  refine if_congr ?_ rfl rfl
  by_cases hl : len.toNat = payload.length
  · have hb : byte payload.length = len := BitVec.eq_of_toNat_eq (by rw [toNat_byte]; have := len.isLt; omega)
    have hbody : Frame.body ⟨idOf d1 d0, idOf s1 s0, kind, code, tag, payload⟩ =
        [d1, d0, s1, s0, kind, code, tag, len] ++ payload := by
      simp only [Frame.body, bytesId_idOf, hb]
      rfl
    have hcrc : [c1, c0] = bytesId (crc16 ([d1, d0, s1, s0, kind, code, tag, len] ++ payload)) ↔
        crc16 ([d1, d0, s1, s0, kind, code, tag, len] ++ payload) = idOf c1 c0 := by
      rw [← bytesId_idOf, bytesId_inj, eq_comm]
    rw [hbody, hcrc]
    simp only [List.length_append, List.length_cons, List.length_nil, Config.maxPayload, hl]
    exact ⟨fun ⟨_, _, hm, hc⟩ => ⟨hc, trivial, hm⟩, fun ⟨hc, _, hm⟩ => ⟨by omega, trivial, hm, hc⟩⟩
  · simp [hl]

/-- A kind and code outside the tables have no payload sizes (7.2.1). -/
theorem payloadSizes_of_kind {kind code : Byte} (h : kind.toNat < 1 ∨ 7 < kind.toNat) :
    payloadSizes kind code = none := by
  unfold payloadSizes
  split <;> first | omega | rfl

/-- The checks that a frame fails: its Check, its Length, its kind and code, or, unless it is a REQUEST to the part, its
payload (R124). -/
theorem checkFrame_bytes (own : EquipId) (d1 d0 s1 s0 kind code tag len c1 c0 : Byte) (payload : List Byte) :
    let head := [d1, d0, s1, s0, kind, code, tag, len] ++ payload
    let faulty := crc16 head ≠ idOf c1 c0 ∨ 48 < len.toNat ∨ len.toNat ≠ payload.length ∨ kind.toNat < 1 ∨
      7 < kind.toNat ∨ payloadSizes kind code = none ∨
      (¬(kind = kindRequest ∧ idOf d1 d0 = own) ∧
        (sizeOk kind code payload = false ∨ enumsOk kind code payload = false))
    (faulty → checkFrame own (head ++ [c1, c0]) = none) ∧
      (¬faulty → checkFrame own (head ++ [c1, c0]) = some ⟨idOf d1 d0, idOf s1 s0, kind, code, tag, payload⟩) := by
  intro head faulty
  have hok : frameOk own ⟨idOf d1 d0, idOf s1 s0, kind, code, tag, payload⟩ = true ↔
      payloadSizes kind code ≠ none ∧ ((kind = kindRequest ∧ idOf d1 d0 = own) ∨
        (sizeOk kind code payload = true ∧ enumsOk kind code payload = true)) := by
    simp [frameOk, Option.isSome_iff_ne_none]
  have hkind : kind.toNat < 1 ∨ 7 < kind.toNat → payloadSizes kind code = none := payloadSizes_of_kind
  have hparsed : checkFrame own (head ++ [c1, c0]) = if ¬faulty then
      some ⟨idOf d1 d0, idOf s1 s0, kind, code, tag, payload⟩ else none := by
    simp only [checkFrame, head, parseFrame_bytes]
    by_cases hp : crc16 ([d1, d0, s1, s0, kind, code, tag, len] ++ payload) = idOf c1 c0 ∧ len.toNat = payload.length ∧
        payload.length ≤ 48
    · have hf : ¬faulty ↔ frameOk own ⟨idOf d1 d0, idOf s1 s0, kind, code, tag, payload⟩ = true := by
        obtain ⟨hcrc, hlen, hmax⟩ := hp
        rw [hok]
        simp only [faulty, head, hcrc, hlen, ne_eq, not_true, false_or, Nat.not_lt.mpr hmax, ← Bool.not_eq_true]
        tauto
      simp only [if_pos hp, Option.filter_some, hf]
    · have hf : faulty := by
        simp only [faulty, head]
        by_contra h
        simp only [not_or, not_not, Nat.not_lt] at h
        obtain ⟨hcrc, hmax, hlen, -⟩ := h
        exact hp ⟨hcrc, hlen, hlen ▸ hmax⟩
      rw [if_neg hp, if_neg (not_not_intro hf)]
      rfl
  exact ⟨fun h => hparsed.trans (if_neg (not_not_intro h)), fun h => hparsed.trans (if_pos h)⟩

/-- Settles O9: the tables of codes and fields, a frame too short for its parts, and the conditions one by one. -/
theorem faultyFrameIsDiscardedAndCounted : Obligations.FaultyFrameIsDiscardedAndCounted := by
  refine ⟨payloadSizes_eq, fun kind code payload => ⟨sizeOk_iff kind code payload, enumsOk_iff kind code payload⟩,
    fun p bytes rest s hl hrx => ⟨fun h => ?_, ?_⟩, fun p d1 d0 s1 s0 kind code tag len c1 c0 payload rest s => ?_⟩
  · rw [rowOf_of_short h]; rfl
  · exact exec_faulty hrx (by rw [checkFrame, parseFrame_of_short hl]; rfl)
  · intro head toPart faulty hrx
    obtain ⟨hbad, hgood⟩ := checkFrame_bytes s.ownId d1 d0 s1 s0 kind code tag len c1 c0 payload
    exact ⟨fun h => exec_faulty hrx (hbad h), fun h => ⟨_, rest, hrx, hgood h⟩⟩

end Sys2Proof.Machine
end

-- ==== A berth's state and what it holds ====
section
/-! PROOFS. A change of a berth's state with its effects (R2, R3), the small steps that many rules take, the release of a
grant (R72), and what a berth holds. -/

namespace Sys2Proof.Machine

variable {s t : State} {b : BerthId} {x : SectionId}

/-! ## A change of state (R3) -/

@[simp] theorem reevaluate_secOf {c : BerthId} : (reevaluate b s).secOf c = s.secOf c := by
  rw [State.secOf, reevaluate_berth]
  split
  · rename_i h; subst h; rfl
  · rfl

theorem leaveState_of_plain (hq : (s.berth b).state ≠ .queued) (ha : (s.berth b).state ≠ .admitted) :
    leaveState b s = s := by
  unfold leaveState
  split
  · rename_i h; exact absurd h hq
  · rename_i h; exact absurd h ha
  all_goals rfl

theorem leaveState_of_mayLock (h : (s.berth b).state.mayLock = true) : leaveState b s = s :=
  leaveState_of_plain (fun e => by simp [e, BerthState.mayLock] at h) fun e => by simp [e, BerthState.mayLock] at h

theorem holdsLock_iff : s.holdsLock b = true ↔ (s.sec (s.secOf b)).lock.map (·.holder) = some b := by
  simp [State.holdsLock]

theorem mayLock_iff {st : BerthState} : st.mayLock = true ↔ st = .closing ∨ st = .rampIn ∨ st = .rampOut := by
  cases st <;> simp [BerthState.mayLock]

@[simp] theorem leaveState_secOf {c : BerthId} : (leaveState b s).secOf c = s.secOf c := by
  rw [State.secOf, leaveState_berth]
  split
  · rename_i h; rw [h.1]; rfl
  · rfl

@[simp] theorem moveTo_secOf {new : BerthState} {c : BerthId} : (moveTo b new s).secOf c = s.secOf c := by
  rw [moveTo, updBerth_secOf _ _ _ _ rfl, leaveState_secOf]

@[simp] theorem clearInFlight_secOf {c : BerthId} : (clearInFlight b s).secOf c = s.secOf c :=
  updBerth_secOf _ _ _ _ rfl

@[simp] theorem clearInFlight_sec : (clearInFlight b s).sec x = s.sec x := rfl

theorem moveTo_sec_of_mayLock {new : BerthState} (h : (s.berth b).state.mayLock = true) :
    (moveTo b new s).sec x = s.sec x := by rw [moveTo, leaveState_of_mayLock h, updBerth_sec]

/-- The berth's change of state itself takes no lock from it (R98). -/
theorem holdsLock_moveTo {new : BerthState} (h : (s.berth b).state.mayLock = true) :
    (clearInFlight b (reevaluate b (moveTo b new s))).holdsLock b = s.holdsLock b := by
  simp only [State.holdsLock, clearInFlight_secOf, reevaluate_secOf, moveTo_secOf, clearInFlight_sec, reevaluate_sec,
    moveTo_sec_of_mayLock h]

/-- A change of state that leaves CLOSING, RAMP_IN and RAMP_OUT with the section's lock held gives the lock up (R98). -/
theorem enterState_of_lock {h : Hooks} {new : BerthState} (hn : (s.berth b).state ≠ new)
    (ho : (s.berth b).state.mayLock = true) (hnew : new.mayLock = false) (hl : s.holdsLock b = true) :
    enterState h b new s = h.choice (s.secOf b) (dropLock (s.secOf b)
      (clearInFlight b (reevaluate b (moveTo b new s)))) := by
  unfold enterState
  rw [if_neg hn]
  dsimp only
  rw [if_pos (by simp [ho, hnew]), releaseLock, if_pos ((holdsLock_moveTo ho).trans hl)]
  simp only [clearInFlight_secOf, reevaluate_secOf, moveTo_secOf]

/-- A change of state that gives no lock up (R3). -/
theorem enterState_of_no_lock {h : Hooks} {new : BerthState} (hn : (s.berth b).state ≠ new)
    (hl : (s.berth b).state.mayLock = true → new.mayLock = false → s.holdsLock b = false) :
    enterState h b new s = clearInFlight b (reevaluate b (moveTo b new s)) := by
  unfold enterState
  rw [if_neg hn]
  dsimp only
  split
  · rename_i hm
    obtain ⟨ho, hnew⟩ : _ ∧ _ := by simpa using hm
    have hno := (holdsLock_moveTo (new := new) ho).trans (hl ho hnew)
    exact if_neg (by simp [hno])
  · rfl

/-- Settles O22: the old state's leavings, the record, the hold queue, the timed activity and the lock. -/
theorem changeOfStateHasItsEffects : Obligations.ChangeOfStateHasItsEffects := by
  intro h b new s old bare left t givesUpLock
  have hleft : left = leaveState b s := by
    simp only [left, old, leaveState]
    cases (s.berth b).state <;> rfl
  have ht : t = clearInFlight b (reevaluate b (moveTo b new s)) := by
    simp only [t, hleft]
    rfl
  have hgives : givesUpLock ↔ old.mayLock = true ∧ new.mayLock = false ∧ s.holdsLock b = true := by
    rw [holdsLock_iff, mayLock_iff, ← Bool.not_eq_true, mayLock_iff, not_or, not_or, and_assoc, and_assoc]
  refine ⟨fun he => if_pos he, fun hn hg => ?_, fun hn hg => ?_⟩
  · rw [ht]
    refine enterState_of_no_lock hn fun ho hnew => ?_
    by_contra hl
    exact hg (hgives.mpr ⟨ho, hnew, by simpa using hl⟩)
  · obtain ⟨ho, hnew, hl⟩ := hgives.mp hg
    rw [ht, enterState_of_lock hn ho hnew hl]
    rfl

/-! ## The small steps (R6, R7, R14, R43, R60, R84) -/

@[simp] theorem withdrawRequest_sec : (withdrawRequest b s).sec x = (s.sec x).unasked b := by
  unfold withdrawRequest
  cases x
  · rw [updSec_sec_ne (by decide), updSec_sec_same]
  · rw [updSec_sec_same, updSec_sec_ne (by decide)]

@[simp] theorem withdrawRequest_berths : (withdrawRequest b s).berths = s.berths := by simp [withdrawRequest]

@[simp] theorem leaveQueue_sec : (leaveQueue b s).sec x = (s.sec x).without b := by
  unfold leaveQueue
  rw [updBerth_sec]
  cases x
  · rw [updSec_sec_ne (by decide), updSec_sec_same]
  · rw [updSec_sec_same, updSec_sec_ne (by decide)]

theorem leaveQueue_berth : (leaveQueue b s).berth b = { s.berth b with bypass := 0 } := by simp [leaveQueue]

theorem unlinkCable_eq : unlinkCable b s = { s with cables := s.cables.map (fun c =>
    c.map (fun r => if r.berth = some b then { r with berth := none } else r)) } := by
  simp only [unlinkCable, beq_iff_eq]

/-- The entries are tried from entry 1 upward: the one found names the vessel and none before it does (R60). -/
theorem profileIndexOf_eq_some_iff {v : Num32} {n : Fin 24} : s.profileIndexOf v = some n ↔
    (∃ q, s.profiles[n] = some q ∧ q.vessel = v) ∧ ∀ m : Fin 24, m < n → ¬∃ q, s.profiles[m] = some q ∧ q.vessel = v := by
  simp only [State.profileIndexOf, ← Fin.find?_eq_find?_finRange, Fin.find?_eq_some_iff, ← Option.map_eq_some_iff,
    beq_iff_eq, Bool.eq_false_iff, ne_eq]

theorem profileIndexOf_eq_none_iff {v : Num32} : s.profileIndexOf v = none ↔
    ∀ n : Fin 24, ¬∃ q, s.profiles[n] = some q ∧ q.vessel = v := by
  simp only [State.profileIndexOf, ← Fin.find?_eq_find?_finRange, Fin.find?_eq_none_iff, ← Option.map_eq_some_iff,
    beq_iff_eq, Bool.eq_false_iff, ne_eq]

/-- Settles O23, step by step. -/
theorem sharedStepsDoWhatTheySay : Obligations.SharedStepsDoWhatTheySay := fun b s =>
  have hu := Closed.untouched s
  ⟨fun _ => withdrawRequest_sec, fun _ => leaveQueue_sec, leaveQueue_berth, hu.withdrawRequest (.refl s),
    withdrawRequest_berths, hu.leaveQueue trivial (.refl s), (Changes.othersKept b s).leaveQueue rfl fun _ _ => rfl,
    fun h => by simp [endHold, h], fun h => by simp [endHold, h, sendHoldEnd, codeHoldEnd], unlinkCable_eq, fun _ => rfl,
    fun _ => ⟨fun _ => profileIndexOf_eq_some_iff, profileIndexOf_eq_none_iff⟩⟩

/-! ## The release of a grant (R72) -/

section
variable {k : BayId} {f : Berth → Berth} {g : SectionRec → SectionRec} {u : BayRec → BayRec} {y : SectionId}

theorem updBerth_callPass : updBerth b f (callPass x s) = callPass x (updBerth b f s) := by cases x <;> rfl

theorem updSec_callPass : updSec y g (callPass x s) = callPass x (updSec y g s) := by cases x <;> cases y <;> rfl

theorem callPass_comm : callPass y (callPass x s) = callPass x (callPass y s) := by cases x <;> cases y <;> rfl

theorem updBay_updBerth : updBay k u (updBerth b f s) = updBerth b f (updBay k u s) := by cases k <;> rfl

theorem updBay_updSec : updBay k u (updSec x g s) = updSec x g (updBay k u s) := by cases k <;> cases x <;> rfl

theorem send_updBerth {e : Option EquipEntry} {kd c : Byte} {l : List Byte} :
    (send e kd c l (updBerth b f s)).1 = updBerth b f (send e kd c l s).1 := by
  unfold send
  split
  · rfl
  · rw [updBerth_freeSlots]; split <;> rfl

theorem send_updSec {e : Option EquipEntry} {kd c : Byte} {l : List Byte} :
    (send e kd c l (updSec x g s)).1 = updSec x g (send e kd c l s).1 := by
  unfold send
  split
  · rfl
  · rw [updSec_freeSlots]; split <;> cases x <;> rfl

theorem converterEntry_congr (h : t.equipment = s.equipment) : t.converterEntry k = s.converterEntry k := by
  simp only [State.converterEntry, State.entries, h]

theorem updBay_congr {v : BayRec → BayRec} (h : u (s.bay k) = v (s.bay k)) : updBay k u s = updBay k v s := by
  cases k <;> simp only [updBay, State.bay] at h ⊢ <;> rw [h]

end

theorem send_bay {e : Option EquipEntry} {kd c : Byte} {l : List Byte} {k : BayId} :
    (send e kd c l s).1.bay k = s.bay k := by
  unfold send
  split
  · rfl
  · split <;> cases k <;> rfl

/-- What a released grant takes from the berth and its section, in one update each. -/
def giveBack (b : BerthId) (x : SectionId) (sum : Nat) (s : State) : State := s
  |> updBerth b (fun r => { r with grant := 0, bay := none, terms := none, overdraw := none, overdrawStage := .first })
  |> updSec x (fun r => { r with granted := sum, overFlag := if sum ≤ r.limit then false else r.overFlag })
  |> callPass x

theorem releaseGrant_of_no_bay (h : (s.berth b).bay = none) :
    releaseGrant b s = giveBack b (s.secOf b) ((s.sec (s.secOf b)).granted - (s.berth b).grant) s := by
  have hbay : ∀ {u : State}, (u.berth b).bay = none → releaseBay b u = u := fun h => by simp [releaseBay, h]
  unfold releaseGrant giveBack
  dsimp only
  rw [hbay (by simpa using h), lowerOver, updBerth_updSec, updBerth_updSec, updSec_updSec, updBerth_updBerth]
  congr 1
  rw [updBerth_congr (g := fun r => { r with
    grant := 0, bay := none, terms := none, overdraw := none, overdrawStage := .first }) (by rw [← h])]
  refine updSec_congr ?_
  dsimp only [updBerth_sec]
  split <;> rfl

/-- A held bay is sent CONVERTER_STOP and drops the berth; a GRANTED one becomes FREE and calls for passes (R72). -/
theorem releaseBay_of_bay {k : BayId} (h : (s.berth b).bay = some k) :
    let t := (send (s.converterEntry k) kindOrder codeConverterStop [bayByte (some k)] s).1
    releaseBay b s =
      if (s.bay k).state = .granted then
        updBay k (fun r => { r with state := .free, berth := none }) t
          |> updBerth b (fun r => { r with bay := none }) |> callPass .A |> callPass .B
      else updBay k (fun r => { r with berth := none }) t |> updBerth b (fun r => { r with bay := none }) := by
  intro t
  unfold releaseBay
  simp only [h]
  split
  · rename_i hg
    rw [updBay_congr (v := fun r => { r with state := .free, berth := none }) (by rw [send_bay, hg]; rfl)]
  · rename_i hg
    rw [updBay_congr (v := fun r => { r with berth := none }) (by rw [send_bay, if_neg hg])]

/-- A release with a bay: the bay's part first, then what every release gives back (R72). -/
theorem releaseGrant_of_bay {k : BayId} (h : (s.berth b).bay = some k) :
    let t := (send (s.converterEntry k) kindOrder codeConverterStop [bayByte (some k)] s).1
    let given := giveBack b (s.secOf b) ((s.sec (s.secOf b)).granted - (s.berth b).grant)
    releaseGrant b s =
      if (s.bay k).state = .granted then
        given (updBay k (fun r => { r with state := .free, berth := none }) t) |> callPass .A |> callPass .B
      else given (updBay k (fun r => { r with berth := none }) t) := by
  intro t given
  have hsec : ∀ x, t.sec x = s.sec x := fun x => send_sec
  have hgive : ∀ (u : State), (∀ x, u.sec x = s.sec x) →
      callPass (s.secOf b) (lowerOver (s.secOf b) (updBerth b (fun r => { r with
        terms := none, overdraw := none, overdrawStage := .first }) (updBerth b (fun r => { r with bay := none })
          (updBerth b (fun r => { r with grant := 0 }) (updSec (s.secOf b)
            (fun r => { r with granted := r.granted - (s.berth b).grant }) u))))) = given u := by
    intro u hu
    simp only [given, giveBack, lowerOver, updBerth_updSec, updSec_updSec, updBerth_updBerth]
    congr 1
    refine updSec_congr ?_
    dsimp only [updBerth_sec]
    rw [hu]
    split <;> rfl
  unfold releaseGrant
  dsimp only
  rw [releaseBay_of_bay (k := k) (by simpa using h)]
  simp only [updBerth_bay, updSec_bay, send_updBerth, send_updSec, updBay_updBerth, updBay_updSec,
    converterEntry_congr (updBerth_equipment b _ _), converterEntry_congr (updSec_equipment (s.secOf b) _ _)]
  split
  · simp only [updBerth_callPass, lowerOver, updSec_callPass, callPass_comm (y := s.secOf b)]
    rw [← lowerOver, hgive _ fun x => by rw [updBay_sec, hsec]]
  · rw [hgive _ fun x => by rw [updBay_sec, hsec]]

/-- Settles O24, by whether the berth holds a bay. -/
theorem releasedGrantGoesBack : Obligations.ReleasedGrantGoesBack := by
  intro b s x sum given
  refine ⟨fun h => releaseGrant_of_no_bay h, fun k hk => ?_⟩
  have h := releaseGrant_of_bay hk
  dsimp only at h ⊢
  exact ⟨fun hg => h.trans (if_pos hg), fun hg => h.trans (if_neg hg)⟩

end Sys2Proof.Machine
end

-- ==== Requests at a berth ====
section
/-! PROOFS. What the requests of a ship and of the control room do to a berth (R4 to R12, R22, R38), and how a proving
run starts (R44, R45). -/

namespace Sys2Proof.Machine

variable {s t : State} {b : BerthId} {x : SectionId} {p : Port} {f : Frame}

/-! ## Requests that have arrived (R4) -/

/-- The command `c` takes a request at the berth with the code of the ship's, or of the control room's (R4). -/
theorem exec_asked {c i j : Instr} {code code' : Byte} {row row' : FrameRow} {act act' : BerthId → State → Status × State}
    (hship : exec i s = takeShipRequest row p act s) (hroom : exec j s = takeBerthRequest row' p act' s)
    (hr : requestRow code = row) (hr' : requestRow code' = row')
    (h : (c = i ∧ ShipAsks s p f b code) ∨ (c = j ∧ RoomAsks s p f code' (berthPayload b)))
    (hact : act b (dropHead p s) = act' b (dropHead p s)) :
    exec c s = .next (answer p f (act b (dropHead p s))) := by
  obtain ⟨rfl, h⟩ | ⟨rfl, h⟩ := h
  · rw [hship, h.taken hr]
  · rw [hroom, h.taken hr', hact]

/-- An answer where no pass is called for is a reply alone (R4). -/
theorem answer_of_settled {st : Status} (h : t.settled) : answer p f (st, t) = reply p f st t := by
  rw [answer, finishEvent, settled_runPasses h]

theorem settled_dropHead (h : s.settled) : (dropHead p s).settled := h

/-! ## Plain changes of state -/

/-- A record that leaves and enters states with nothing of their own takes the state alone (R2). -/
theorem goTo_of_plain {r : Berth} {st : BerthState} (h1 : r.state ≠ .onShore) (h2 : r.state ≠ .plugged)
    (h3 : st ≠ .vacant) (h4 : st ≠ .outOfService) : Berth.goTo st r = { r with state := st } := by
  simp [Berth.goTo, h1, h2, h3, h4]

theorem samePasses_changed {st : BerthState} : SamePasses s (clearInFlight b (reevaluate b (moveTo b st s))) :=
  (samePasses_leaveState (b := b)).trans (samePasses_reevaluate (s := moveTo b st s))

/-- A QUEUED berth leaves its queue and takes the state alone (R6). -/
theorem moveTo_of_queued {st : BerthState} (h : (s.berth b).state = .queued) (h3 : st ≠ .vacant)
    (h4 : st ≠ .outOfService) : moveTo b st s = updBerth b (fun r => { r with state := st }) (leaveQueue b s) := by
  have hleave : leaveState b s = leaveQueue b s := by simp [leaveState, h]
  rw [moveTo, hleave]
  refine updBerth_congr (goTo_of_plain ?_ ?_ h3 h4) <;> simp [leaveQueue_berth, h]

/-- An ADMITTED berth is no longer to be started and takes the state alone (R7; log entry 6). -/
theorem moveTo_of_admitted {st : BerthState} (h : (s.berth b).state = .admitted) (h3 : st ≠ .vacant)
    (h4 : st ≠ .outOfService) : moveTo b st s =
      updBerth b (fun r => { r with state := st }) { s with startQueue := s.startQueue.erase b } := by
  have hleave : leaveState b s = { s with startQueue := s.startQueue.erase b } := by simp [leaveState, h]
  rw [moveTo, hleave]
  exact updBerth_congr (goTo_of_plain (by simpa [State.berth] using (by simp [h] : (s.berth b).state ≠ .onShore))
    (by simpa [State.berth] using (by simp [h] : (s.berth b).state ≠ .plugged)) h3 h4)

/-! ## Giving up an admission (R7, R73, R109) -/

theorem endHold_berth : (endHold b s).berth b = { s.berth b with holdGranted := false } := by
  unfold endHold
  split
  · rw [updBerth_berth_same, sendHoldEnd, State.berth, send_berths]; rfl
  · rename_i h
    rw [Bool.not_eq_true] at h
    rw [← h]

theorem endHold_sec : (endHold b s).sec x = s.sec x := by
  unfold endHold
  split
  · rw [updBerth_sec, sendHoldEnd, send_sec]
  · rfl

/-- What an ADMITTED berth gives up, before the passes run. -/
def giveUp (b : BerthId) (s : State) : State := s |> withdrawRequest b |> clearInFlight b |> endHold b |> releaseGrant b

theorem giveUp_state : ((giveUp b s).berth b).state = (s.berth b).state := by
  rw [giveUp, releaseGrant_berth]
  simp only [endHold_berth, clearInFlight, updBerth_berth_same]
  rw [State.berth, withdrawRequest_berths]
  rfl

/-- Having given up, a berth that stands in no queue waits for nothing (R68, R84). -/
theorem giveUp_idleAt (h : ∀ y, b ∉ (s.sec y).queue) : (giveUp b s).idleAt b := by
  intro y
  obtain ⟨hr, hq, -⟩ := releaseGrant_sec (b := b) (s := endHold b (clearInFlight b (withdrawRequest b s))) (y := y)
  rw [giveUp, hr, hq, endHold_sec, clearInFlight_sec, withdrawRequest_sec]
  exact ⟨by simp [SectionRec.unasked], h y⟩

/-- A berth that waits for nothing keeps its record through the passes of an event (R69). -/
theorem runPasses_berth_of_idle (h : s.idleAt b) : (runPasses s).berth b = s.berth b :=
  ((Closed.idle b (s.berth b)).runPasses ⟨h, rfl⟩).2

theorem exec_withdraw : exec (.withdraw p) s = takeShipRequest .withdraw p withdraw s := rfl

theorem exec_release : exec (.release p) s = takeBerthRequest .release p release s := rfl

/-- WITHDRAW, and RELEASE of a berth that is not in ON_SHORE, are one request (R6 to R8). -/
theorem exec_withdrawing {c : Instr} (h : (c = .withdraw p ∧ ShipAsks s p f b 0x33#8) ∨
    (c = .release p ∧ RoomAsks s p f 0x44#8 (berthPayload b))) (hs : (s.berth b).state ≠ .onShore) :
    exec c s = .next (answer p f (withdraw b (dropHead p s))) :=
  exec_asked exec_withdraw exec_release rfl rfl h (by simp [release, hs])

theorem giveUpPlace_of_queued (h : (s.berth b).state = .queued) :
    giveUpPlace b s = clearInFlight b (reevaluate b (moveTo b .proved s)) :=
  enterState_plain (by simp [h]) (by simp [h, BerthState.mayLock])

/-- The passes that an ADMITTED berth's release calls for leave it in ADMITTED (R7). -/
theorem giveUp_passes_state (h : (s.berth b).state = .admitted) (hq : ∀ y, b ∉ (s.sec y).queue) :
    ((runPasses (giveUp b s)).berth b).state = .admitted := by
  rw [runPasses_berth_of_idle (giveUp_idleAt hq), giveUp_state, h]

theorem giveUpAdmission_of_admitted (h : (s.berth b).state = .admitted) (hq : ∀ y, b ∉ (s.sec y).queue) :
    giveUpAdmission b s = clearInFlight b (reevaluate b (moveTo b .proved (runPasses (giveUp b s)))) := by
  have hstill := giveUp_passes_state h hq
  exact enterState_plain (s := runPasses (giveUp b s)) (by simp [hstill]) (by simp [hstill, BerthState.mayLock])

/-- Settles O28: the queue place goes back without a pass, the admission with the passes its release calls for. -/
theorem berthGivesUpItsPlaceOrAdmission : Obligations.BerthGivesUpItsPlaceOrAdmission := by
  intro c p f b s hc
  refine ⟨fun hst hset => ?queued, fun hst hq => ?admitted⟩
  case queued =>
    have hst' : ((dropHead p s).berth b).state = .queued := hst
    have hw : withdraw b (dropHead p s) = (.accepted, giveUpPlace b (dropHead p s)) := by
      simp only [withdraw, hst']
    rw [exec_withdrawing hc (by simp [hst]), hw, giveUpPlace_of_queued hst',
      answer_of_settled (samePasses_changed.settled (settled_dropHead hset)), moveTo_of_queued hst' (by decide) (by decide)]
    rfl
  case admitted =>
    have hst' : ((dropHead p s).berth b).state = .admitted := hst
    have hq' : ∀ y, b ∉ ((dropHead p s).sec y).queue := fun y hb => by
      have := hq y b (by simpa using hb)
      simp [hst] at this
    have hw : withdraw b (dropHead p s) = (.accepted, giveUpAdmission b (dropHead p s)) := by
      simp only [withdraw, hst']
    rw [exec_withdrawing hc (by simp [hst]), hw, giveUpAdmission_of_admitted hst' hq',
      answer_of_settled (samePasses_changed.settled runPasses_settled),
      moveTo_of_admitted (giveUp_passes_state hst' hq') (by decide) (by decide)]
    rfl

/-! ## Requests that are not accepted (R4 to R12, R22, R38) -/

theorem BerthLines.blocks_iff {r : BerthLines} :
    r.blocks = true ↔ r.estop.blocks = true ∨ r.pilot.blocks = true ∨ r.strain.blocks = true := by
  simp [BerthLines.blocks, or_assoc]

theorem berthEntry_isSome_iff {c : EquipClass} : (s.berthEntry c b).isSome = true ↔
    ∃ (n : Fin 64) (e : EquipEntry), s.equipment[n] = some e ∧ e.cls = c ∧ e.berth = some b := by
  simp only [State.berthEntry, List.find?_isSome, mem_entries, Bool.and_eq_true, beq_iff_eq]
  exact ⟨fun ⟨e, ⟨n, hn⟩, h⟩ => ⟨n, e, hn, h⟩, fun ⟨n, e, hn, h⟩ => ⟨e, ⟨n, hn⟩, h⟩⟩

theorem secEntry_isSome_iff {c : EquipClass} : (s.secEntry c x).isSome = true ↔
    ∃ (n : Fin 64) (e : EquipEntry), s.equipment[n] = some e ∧ e.cls = c ∧ e.sec = some x := by
  simp only [State.secEntry, List.find?_isSome, mem_entries, Bool.and_eq_true, beq_iff_eq]
  exact ⟨fun ⟨e, ⟨n, hn⟩, h⟩ => ⟨n, e, hn, h⟩, fun ⟨n, e, hn, h⟩ => ⟨e, ⟨n, hn⟩, h⟩⟩

theorem exec_service : exec (.service p) s = takeBerthRequest .service p service s := rfl

theorem exec_outOfService : exec (.outOfService p) s = takeBerthRequest .outOfService p outOfService s := rfl

theorem exec_ackTrip : exec (.ackTrip p) s = takeBerthRequest .ackTrip p ackTrip s := rfl

theorem exec_releaseWanted : exec (.releaseWanted p) s = takeShipRequest .releaseWanted p releaseWanted s := rfl

/-- RELEASE_WANTED, and RELEASE in ON_SHORE, are one request (R8). -/
theorem exec_releasing {c : Instr} (h : (c = .releaseWanted p ∧ ShipAsks s p f b 0x32#8) ∨
    (c = .release p ∧ RoomAsks s p f 0x44#8 (berthPayload b))) (hs : (s.berth b).state = .onShore) :
    exec c s = .next (answer p f (morningRelease .live b (dropHead p s))) := by
  have hw : releaseWanted b (dropHead p s) = morningRelease .live b (dropHead p s) := if_pos hs
  rw [exec_asked exec_releaseWanted exec_release rfl rfl h (hw.trans (if_pos hs).symm), hw]

/-- Without generators running a LIVE release is not accepted (R113). -/
theorem gensRun_eq_false (h : ∀ r, (s.berth b).obs.shipState = some r → r.gensRunning = false) :
    (s.berth b).gensRun = false := by
  unfold Berth.gensRun
  cases hr : (s.berth b).obs.shipState with
  | none => rfl
  | some r => exact h r hr

/-- A berth in a state with capacity does not go out of service (R12). -/
theorem outOfService_of_capacity (h : (s.berth b).state.holdsCapacity = true) : outOfService b s = (.busy, s) := by
  unfold outOfService
  cases hs : (s.berth b).state <;> first | rfl | simp [hs, BerthState.holdsCapacity] at h

/-- Settles O30: what the checks look at, then each request that fails one. -/
theorem unacceptedRequestsChangeNothing : Obligations.UnacceptedRequestsChangeNothing := by
  refine ⟨fun b s => ⟨?_, ?_⟩, ?_⟩
  · simp only [BerthLines.blocks_iff, blocks_iff]
  · simp only [State.mapped, Bool.and_eq_true, berthEntry_isSome_iff, secEntry_isSome_iff, and_assoc]
  intro p f b s hset st answered
  have refused : ∀ {act : BerthId → State → Status × State} {a}, act b (dropHead p s) = (a, dropHead p s) →
      answer p f (act b (dropHead p s)) = reply p f a (dropHead p s) := by
    intro act a h
    rw [h, answer_of_settled (settled_dropHead hset)]
  have withdrawal : st ≠ .queued → st ≠ .admitted → withdraw b (dropHead p s) = (.badState, dropHead p s) := by
    intro h1 h2
    unfold withdraw
    split
    · exact absurd ‹_› h1
    · exact absurd ‹_› h2
    all_goals rfl
  refine ⟨fun ha h1 h2 => ?_, fun ha h => ?_, fun ha h1 h2 h3 => ?_,
    fun c hc h => ⟨fun ht => ?_, fun m ht ho => ?_, fun m ht hm hg => ?_⟩, fun ha h => ?_,
    fun ha => ⟨fun h => ?_, fun h => ?_, fun h hp => ?_⟩, fun ha => ⟨fun h => ?_, fun h hl => ?_, fun h hl hp => ?_⟩⟩
  · exact (ha.taken rfl).trans (congrArg _ (refused (withdrawal h1 h2)))
  · exact (ha.taken rfl).trans (congrArg _ (refused (if_neg h)))
  · exact (ha.taken rfl).trans (congrArg _ (refused (act := release) ((if_neg h3).trans (withdrawal h1 h2))))
  · exact (exec_releasing hc h).trans (congrArg _ (refused (by simp [morningRelease, ht])))
  · exact (exec_releasing hc h).trans (congrArg _ (refused (by simp [morningRelease, ht, ho])))
  · exact (exec_releasing hc h).trans (congrArg _ (refused (by simp [morningRelease, ht, hm, gensRun_eq_false hg])))
  · exact (ha.taken rfl).trans (congrArg _ (refused (if_pos h)))
  · have hst : (s.berth b).state = .outOfService := h
    exact (ha.taken rfl).trans (congrArg _ (refused (by simp [outOfService, hst])))
  · exact (ha.taken rfl).trans (congrArg _ (refused (outOfService_of_capacity h)))
  · have hst : (s.berth b).state = .tripped := h
    exact (ha.taken rfl).trans (congrArg _ (refused (by simp [outOfService, hst, hp])))
  · exact (ha.taken rfl).trans (congrArg _ (refused (if_pos h)))
  · have hst : (s.berth b).state = .tripped := h
    exact (ha.taken rfl).trans (congrArg _ (refused (by simp [ackTrip, hst, hl])))
  · have hst : (s.berth b).state = .tripped := h
    exact (ha.taken rfl).trans (congrArg _ (refused (by simp [ackTrip, hst, hl, hp])))

/-! ## Entering a state from one that holds nothing (R2, R3) -/

/-- The state alone is entered: the record takes it, the hold queue is decided again, a timed activity ends (R3). -/
def entered (b : BerthId) (st : BerthState) (s : State) : State := s
  |> updBerth b (fun r => { r with state := st })
  |> reevaluate b
  |> updBerth b (fun r => { r with inFlight := none })

/-- OUT_OF_SERVICE, VACANT, PROVED and TRIPPED hold nothing that leaving them ends (R2). -/
def BerthState.holdsNothing (st : BerthState) : Prop :=
  st = .outOfService ∨ st = .vacant ∨ st = .proved ∨ st = .tripped

theorem BerthState.holdsNothing.ne {st : BerthState} (h : st.holdsNothing) :
    st ≠ .queued ∧ st ≠ .admitted ∧ st ≠ .onShore ∧ st ≠ .plugged ∧ st.mayLock = false := by
  obtain rfl | rfl | rfl | rfl := h <;> decide

theorem enterState_of_holdsNothing {h : Hooks} {st : BerthState} (ho : (s.berth b).state.holdsNothing)
    (hn : (s.berth b).state ≠ st) (hv : st ≠ .vacant) (hs : st ≠ .outOfService) :
    enterState h b st s = entered b st s := by
  obtain ⟨h1, h2, h3, h4, h5⟩ := ho.ne
  rw [enterState_plain hn h5, moveTo, leaveState_of_plain h1 h2, updBerth_congr (g := fun r => { r with state := st })
    (goTo_of_plain h3 h4 hv hs)]
  rfl

/-- VACANT holds no vessel, profile or cable (R2). -/
theorem enterState_vacant {h : Hooks} (ho : (s.berth b).state.holdsNothing) (hn : (s.berth b).state ≠ .vacant) :
    enterState h b .vacant s =
      entered b .vacant (updBerth b (fun r => { r with vessel := none, profile := none, cable := none }) s) := by
  obtain ⟨h1, h2, h3, h4, h5⟩ := ho.ne
  rw [enterState_plain hn h5, moveTo, leaveState_of_plain h1 h2, entered, updBerth_updBerth,
    updBerth_congr (g := fun r => { r with state := .vacant, vessel := none, profile := none, cable := none })
      (by simp [Berth.goTo, h3, h4])]
  rfl

theorem samePasses_entered {st : BerthState} : SamePasses s (entered b st s) :=
  samePasses_reevaluate (s := updBerth b (fun r => { r with state := st }) s)

/-! ## OUT_OF_SERVICE (R12) -/

theorem outOfService_accepted (h : (s.berth b).state = .vacant ∨ (s.berth b).state = .plugged ∨
    (s.berth b).state = .proved ∨ (s.berth b).state = .queued ∨
      ((s.berth b).state = .tripped ∧ s.position b = some .opened)) :
    outOfService b s = (.accepted, leaveService b s) := by
  unfold outOfService
  obtain h | h | h | h | ⟨h, hp⟩ := h <;> simp [*]

theorem samePasses_leaveQueue : SamePasses s (leaveQueue b s) := by simp [SamePasses, leaveQueue]

theorem samePasses_leaveService : SamePasses s (leaveService b s) := by
  have h1 : SamePasses s (unlinkCable b (leaveQueue b s)) := samePasses_leaveQueue (s := s) (b := b)
  exact h1.trans (samePasses_refuseHeld.trans samePasses_updBerth)

/-- The berth that goes out of service finds its hold queue empty (R12). -/
theorem leaveService_eq : leaveService b s = (s |> leaveQueue b |> unlinkCable b |> refuseHeld .berthTripped b
    |> updBerth b (fun r => { Berth.initial r.sec with
        noticeCount := r.noticeCount, noticeLimited := r.noticeLimited, tally := r.tally, lastNight := r.lastNight,
        obs := r.obs })) := by
  unfold leaveService
  refine updBerth_congr ?_
  rw [refuseHeld_berth]
  rfl

/-- Settles O33. -/
theorem outOfServiceResetsTheBerth : Obligations.OutOfServiceResetsTheBerth := by
  intro p f b s ha hset h
  have hx : exec (.outOfService p) s = .next (answer p f (outOfService b (dropHead p s))) := ha.taken rfl
  rw [hx, outOfService_accepted (s := dropHead p s) h, answer_of_settled (samePasses_leaveService.settled (settled_dropHead hset)),
    leaveService_eq]

/-! ## ACK_TRIP (R22) -/

theorem ackTrip_accepted (h : (s.berth b).state = .tripped) (hl : (s.line b).blocks = false)
    (hp : s.position b = some .opened) : ackTrip b s = (.accepted, clearTrip b s) := by
  simp [ackTrip, h, hl, hp]

/-- A tripped berth whose plug is latched is proved afresh (R22, step 3). -/
theorem leaveTripped_of_latched (h : (s.berth b).state = .tripped) (hl : (s.line b).latch.level = .active) :
    leaveTripped b s = (unlinkCable b s
      |> updBerth b (fun r => { r with profile := none, cable := none, provingPassed := false })
      |> entered b .plugged |> startProving b) := by
  have ha : afterTrip b s = .plugged := if_pos hl
  have hst : ((updBerth b (fun r => { r with profile := none, cable := none, provingPassed := false })
      (unlinkCable b s)).berth b).state = .tripped := by rw [updBerth_berth_same]; exact h
  unfold leaveTripped
  rw [if_pos ha, enterState_of_holdsNothing (by rw [hst]; exact .inr (.inr (.inr rfl))) (by rw [hst]; decide) (by decide) (by decide)]

theorem leaveTripped_of_unlatched (h : (s.berth b).state = .tripped) (hl : (s.line b).latch.level = .inactive) :
    leaveTripped b s = (unlinkCable b s
      |> updBerth b (fun r => { r with vessel := none, profile := none, cable := none }) |> entered b .vacant) := by
  have ha : ¬afterTrip b s = .plugged := by simp [afterTrip, hl]
  have hst : ((unlinkCable b s).berth b).state = .tripped := h
  unfold leaveTripped
  rw [if_neg ha, enterState_vacant (by rw [hst]; exact .inr (.inr (.inr rfl))) (by rw [hst]; decide)]

/-- Settles O34, by whether the plug is latched. -/
theorem acknowledgedTripIsCleared : Obligations.AcknowledgedTripIsCleared := by
  intro p f b s ha hst hl hp cause cleared enters
  have hx : exec (.ackTrip p) s = .next (answer p f (ackTrip b (dropHead p s))) := ha.taken rfl
  have hcleared : cleared = unlinkCable b (clearInFlight b (updBerth b (fun r => { r with
      tripCause := none, breakerFail := false }) (dropHead p s))) := by
    rw [clearInFlight, updBerth_updBerth]
  have htripped : ((clearInFlight b (updBerth b (fun r => { r with
      tripCause := none, breakerFail := false }) (dropHead p s))).berth b).state = .tripped := by
    rw [clearInFlight, updBerth_updBerth, updBerth_berth_same]
    exact hst
  rw [hx, ackTrip_accepted (s := dropHead p s) hst hl hp]
  refine ⟨fun hlatch => ?_, fun hlatch => ?_⟩
  · have hafter : afterTrip b (dropHead p s) = .plugged := if_pos hlatch
    have hbyte : codeIn berthStates .plugged = 3#8 := by decide
    simp only [clearTrip, hafter, hbyte, dropHead_berth, answer, finishEvent]
    rw [leaveTripped_of_latched htripped hlatch, hcleared]
    rfl
  · have hafter : afterTrip b (dropHead p s) = .vacant := if_neg (by simp [hlatch])
    have hbyte : codeIn berthStates .vacant = 2#8 := by decide
    simp only [clearTrip, hafter, hbyte, dropHead_berth, answer, finishEvent]
    rw [leaveTripped_of_unlatched htripped hlatch, hcleared]
    rfl

end Sys2Proof.Machine
end

-- ==== Orders sent at the start of a run, a release or a service ====
section
/-! PROOFS. How a proving run starts (R44, R45), how the morning release starts (R8, R113), and how SERVICE takes a berth
in (R9, R10). -/

namespace Sys2Proof.Machine

variable {s t : State} {b : BerthId} {x : SectionId} {p : Port} {f : Frame}

/-! ## Orders and their tags (R133) -/

/-- A frame the part builds joins its queue with the tag of the port's count (R133; log entry 33). -/
theorem send_of_free {e : EquipEntry} {k c : Byte} {l : List Byte} (h : (s.port e.port).tx.length < 8) :
    send (some e) k c l s = (updPort e.port (fun r => { r with
      tx := r.tx ++ [⟨⟨e.id, s.ownId, k, c, byte r.tagCount, l⟩, none⟩], tagCount := (r.tagCount + 1) % 256 }) s, true) := by
  rw [send_some_of_free h]
  rfl

theorem updBerth_updPort {g : PortRec → PortRec} {h : Berth → Berth} :
    updBerth b h (updPort p g s) = updPort p g (updBerth b h s) := rfl

/-! ## A proving run (R44, R45) -/

/-- A test's frame finds a slot: it is sent and its timer started (R45). -/
theorem sendTest_of_free {e : EquipEntry} {step : ProvingStep} (he : s.berthEntry .plugStation b = some e)
    (h : (s.port e.port).tx.length < 8) : sendTest b step s =
      (s |> updPort e.port (fun r => { r with
              tx := r.tx ++ [⟨⟨e.id, s.ownId, 0x01#8, 0x05#8, byte r.tagCount, []⟩, none⟩]
              tagCount := (r.tagCount + 1) % 256 })
        |> updBerth b (fun r => { r with
              assignOrder := none
              provingStep := step
              inFlight := some ⟨.coreTest, s.clock.time, s.timings.coreTest⟩ })) := by
  have he' : (updBerth b (fun r => { r with provingStep := step, assignOrder := none }) s).berthEntry .plugStation b =
      some e := he
  simp only [sendTest, he', send_of_free (s := updBerth b _ s) h, startInFlight, updBerth_updPort, updBerth_updBerth]
  rfl

/-- A test's frame finds no slot: the run fails (R45). -/
theorem sendTest_of_full {e : EquipEntry} {step : ProvingStep} (he : s.berthEntry .plugStation b = some e)
    (h : 8 ≤ (s.port e.port).tx.length) : sendTest b step s =
      (s |> updBerth b (fun r => { r with
              comparison := 0#5, assignOrder := none, provingStep := .idle, inFlight := none })
        |> trip .quiet b .cableFault (some .portFull)) := by
  have he' : (updBerth b (fun r => { r with provingStep := step, assignOrder := none }) s).berthEntry .plugStation b =
      some e := he
  simp only [sendTest, he', send_some_of_full (s := updBerth b _ s) h, failRun, clearInFlight, updBerth_updBerth]

/-- Settles O26: the run's first test, with what a new run forgets; then every test. -/
theorem provingRunStarts : Obligations.ProvingRunStarts := by
  intro b e s he
  refine ⟨fun h => ?_, fun h => ?_, fun step => ⟨sendTest_of_free he, sendTest_of_full he⟩⟩
  · rw [startProving, sendTest_of_free (s := updBerth b _ s) he h, updBerth_updPort, updBerth_updBerth, updBerth_updPort]
    rfl
  · rw [startProving, sendTest_of_full (s := updBerth b _ s) he h, updBerth_updBerth]

/-! ## Notices leave the rest alone (R155) -/

theorem joinNotices_berth {n : NoticeRec} {c : BerthId} : (joinNotices n s).berth c = s.berth c := by
  simp [State.berth]

/-- A notice about a berth raises its nightly count or sets its flag, and no more (R156). -/
theorem noticeBerth_berth {k : NoticeKind} {l : List Byte} : ∃ n v, (noticeBerth b k l s).berth b =
    { s.berth b with noticeCount := n, noticeLimited := v } := by
  unfold noticeBerth
  dsimp only
  split
  · exact ⟨_, _, joinNotices_berth⟩
  · split
    · exact ⟨_, _, joinNotices_berth.trans (updBerth_berth_same b _ s)⟩
    · split
      · exact ⟨_, _, rfl⟩
      · exact ⟨_, _, joinNotices_berth.trans (updBerth_berth_same b _ s)⟩

@[simp] theorem noticeBerth_sec {k : NoticeKind} {l : List Byte} : (noticeBerth b k l s).sec x = s.sec x := by
  unfold noticeBerth
  dsimp only
  repeat' split
  all_goals simp

@[simp] theorem noticeBerth_state {k : NoticeKind} {l : List Byte} :
    ((noticeBerth b k l s).berth b).state = (s.berth b).state := by
  obtain ⟨n, v, h⟩ := noticeBerth_berth (s := s) (b := b) (k := k) (l := l)
  rw [h]

@[simp] theorem noticeBerth_secOf {k : NoticeKind} {l : List Byte} : (noticeBerth b k l s).secOf b = s.secOf b := by
  obtain ⟨n, v, h⟩ := noticeBerth_berth (s := s) (b := b) (k := k) (l := l)
  rw [State.secOf, h]
  rfl

/-! ## The morning release (R8, R113) -/

theorem endGensOffWait_state : ((endGensOffWait b s).berth b).state = (s.berth b).state := by
  unfold endGensOffWait
  split
  · rw [noticeBerth_state, clearInFlight, updBerth_berth_same]
  · rfl

theorem endGensOffWait_sec : (endGensOffWait b s).sec x = s.sec x := by
  unfold endGensOffWait
  split
  · rw [noticeBerth_sec, clearInFlight_sec]
  · rfl

theorem endGensOffWait_secOf : (endGensOffWait b s).secOf b = s.secOf b := by
  unfold endGensOffWait
  split
  · rw [noticeBerth_secOf, clearInFlight_secOf]
  · rfl

theorem untouched_endGensOffWait : Untouched s (endGensOffWait b s) := by
  have u := Closed.untouched s
  unfold endGensOffWait
  split
  · exact u.noticeBerth trivial (u.clearInFlight trivial (.refl s))
  · exact .refl s

/-- ON_SHORE is left for RAMP_OUT with the adoption and the overdraw (R11, R77). -/
theorem enterState_rampOut {h : Hooks} (hs : (s.berth b).state = .onShore) : enterState h b .rampOut s =
    (s |> updBerth b (fun r => { r with state := .rampOut, adopted := false, overdraw := none, overdrawStage := .first })
      |> reevaluate b |> updBerth b (fun r => { r with inFlight := none })) := by
  rw [enterState_plain (by simp [hs]) (by simp [hs, BerthState.mayLock]), moveTo,
    leaveState_of_plain (by simp [hs]) (by simp [hs]),
    updBerth_congr (g := fun r => { r with
      state := .rampOut, adopted := false, overdraw := none, overdrawStage := .first }) (by simp [Berth.goTo, hs])]
  rfl

/-- The ship is asked for its hold and the handshake timed (R107, R113). -/
theorem startHandshake_of_free {onFull : State → State} {e : EquipEntry} (he : s.berthEntry .shipPms b = some e)
    (h : (s.port e.port).tx.length < 8) : startHandshake onFull b s =
      (s |> updPort e.port (fun r => { r with
              tx := r.tx ++ [⟨⟨e.id, s.ownId, 0x03#8, 0x21#8, byte r.tagCount, []⟩, none⟩]
              tagCount := (r.tagCount + 1) % 256 })
        |> updBerth b (fun r => { r with inFlight := some ⟨.holdHandshake, s.clock.time, s.timings.hold⟩ })) := by
  simp only [startHandshake, he, send_of_free h]
  rfl

theorem startHandshake_of_full {onFull : State → State} {e : EquipEntry} (he : s.berthEntry .shipPms b = some e)
    (h : 8 ≤ (s.port e.port).tx.length) : startHandshake onFull b s = onFull s := by
  simp only [startHandshake, he, send_some_of_full h]

theorem berthEntry_congr {c : EquipClass} (h : t.equipment = s.equipment) : t.berthEntry c b = s.berthEntry c b := by
  simp only [State.berthEntry, State.entries, h]

/-- The first answers of the morning release, where it is accepted (R8, R113). -/
theorem morningRelease_of_dead {h : Hooks} {m : Terms} (ht : (s.berth b).terms = some m)
    (ho : s.request b ≠ some .openOp) (hm : m.method = .dead) :
    morningRelease h b s = (.accepted, enterRequest h b .openOp (endGensOffWait b s)) := by
  simp only [morningRelease, ht, if_neg ho, hm]

theorem morningRelease_of_live {h : Hooks} {m : Terms} (ht : (s.berth b).terms = some m)
    (ho : s.request b ≠ some .openOp) (hm : m.method = .live) (hg : (s.berth b).gensRun = true) :
    morningRelease h b s = (.accepted,
      startHandshake (releaseFailed h b .portFull) b (enterState h b .rampOut (endGensOffWait b s))) := by
  simp only [morningRelease, ht, if_neg ho, hm, if_pos hg]

/-- Settles O29: the gens-off wait, then by the method the OPEN's request or the ship's hold. -/
theorem morningReleaseStarts : Obligations.MorningReleaseStarts := by
  intro c p f b m s hc hst hterms hreq x t
  have ht : t = endGensOffWait b (dropHead p s) := rfl
  have hx := exec_releasing hc hst
  have hu : Untouched (dropHead p s) t := ht ▸ untouched_endGensOffWait
  refine ⟨fun hm => ?_, fun hm r hr hg => ?_⟩
  · intro u
    have hsecOf : t.secOf b = x := ht ▸ endGensOffWait_secOf
    have harb : (t.sec x).arbiter = (s.sec x).arbiter := by rw [ht, endGensOffWait_sec, dropHead_sec]
    rw [hx, morningRelease_of_dead (s := dropHead p s) hterms (by simpa using hreq) hm, ← ht, answer, finishEvent]
    simp only [enterRequest, hsecOf, harb]
    rfl
  · intro u e he
    have hgr : ((dropHead p s).berth b).gensRun = true := by simp [Berth.gensRun, hr, hg]
    have hstate : (t.berth b).state = .onShore := ht ▸ endGensOffWait_state.trans hst
    have hentered : enterState .live b .rampOut t = u := enterState_rampOut hstate
    have huu : Untouched (dropHead p s) u := by
      rw [← hentered, enterState_plain (by simp [hstate]) (by simp [hstate, BerthState.mayLock])]
      have c := Closed.untouched (dropHead p s)
      exact c.clearInFlight trivial (c.reevaluate trivial (c.moves .rampOut trivial hu))
    have heu : u.berthEntry .shipPms b = some e := (berthEntry_congr huu.equipment).trans he
    rw [hx, morningRelease_of_live (s := dropHead p s) hterms (by simpa using hreq) hm hgr, ← ht, hentered]
    refine ⟨fun hfree => ?_, fun hfull => ?_⟩
    · have howns : u.ownId = s.ownId := huu.ownId
      have hclock : u.clock = s.clock := huu.clock
      have htimings : u.timings = s.timings := huu.timings
      rw [startHandshake_of_free heu hfree, howns, hclock, htimings, answer, finishEvent]
    · rw [startHandshake_of_full heu hfull, answer, finishEvent]

/-! ## SERVICE (R9, R10) -/

theorem holdsNothing_of_outOfService (h : (s.berth b).state = .outOfService) : (s.berth b).state.holdsNothing :=
  .inl h

/-- A berth out of service with its plug not latched enters VACANT (R9). -/
theorem service_of_unlatched (hst : (s.berth b).state = .outOfService) (hm : s.mapped b = true)
    (hp : s.position b ≠ some .closed) (hl : (s.line b).latch.level = .inactive) : service b s = (.accepted,
      entered b .vacant (updBerth b (fun r => { r with vessel := none, profile := none, cable := none }) s)) := by
  have hs : service b s = (.accepted, enterState .live b .vacant s) := by simp [service, hst, hm, hp, hl]
  rw [hs, enterState_vacant (.inl hst) (by simp [hst])]

/-- With its plug latched it enters PLUGGED, to be proved (R9). -/
theorem service_of_latched (hst : (s.berth b).state = .outOfService) (hm : s.mapped b = true)
    (hp : s.position b ≠ some .closed) (hl : (s.line b).latch.level = .active) : service b s = (.accepted,
      startProving b (entered b .plugged (updBerth b (fun r => { r with vessel := none }) s))) := by
  have hs : service b s = (.accepted, serveLatched b s) := by simp [service, hst, hm, hp, hl]
  have hst' : ((updBerth b (fun r => { r with vessel := none }) s).berth b).state = .outOfService := by
    rw [updBerth_berth_same, hst]
  rw [hs, serveLatched, enterState_of_holdsNothing (.inl hst') (by rw [hst']; decide) (by decide) (by decide)]

/-- With its breaker closed it is adopted (R9, R10). -/
theorem service_of_closed (hst : (s.berth b).state = .outOfService) (hm : s.mapped b = true)
    (hp : s.position b = some .closed) : service b s = (.accepted, adopt b s) := by
  simp [service, hst, hm, hp]

/-- A bay that an adoption may take is FREE and reports RUNNING for the berth (R10, step 5). -/
def State.runsFor (s : State) (b : BerthId) (k : BayId) : Prop :=
  (s.bay k).state = .free ∧ ∃ r, (s.bay k).report = some r ∧ r.run = .running ∧ berthOf r.berth = some b

theorem runsFor_iff {k : BayId} : ((s.bay k).state == .free &&
    ((s.bay k).report.map fun r => r.run == .running && berthOf r.berth == some b).getD false) = true ↔ s.runsFor b k := by
  unfold State.runsFor
  cases (s.bay k).report <;> simp

theorem runningBay_eq : (s.runsFor b .bay1 → s.runningBay b = some .bay1) ∧
    (¬s.runsFor b .bay1 → s.runsFor b .bay2 → s.runningBay b = some .bay2) ∧
    (¬s.runsFor b .bay1 → ¬s.runsFor b .bay2 → s.runningBay b = none) := by
  simp only [← runsFor_iff, State.runningBay, bayIds, List.find?_cons, List.find?_nil, Bool.not_eq_true]
  refine ⟨fun h => ?_, fun h1 h2 => ?_, fun h1 h2 => ?_⟩ <;> simp only [*]

/-! ## Adoption (R10) -/

theorem bay_noticeSection {k : NoticeKind} {l : List Byte} {j : BayId} : (noticeSection x k l s).bay j = s.bay j := by
  unfold noticeSection joinNotices
  split <;> cases j <;> rfl

theorem samePasses_raiseOver : SamePasses s (raiseOver x s) := by
  unfold raiseOver noticeSection
  split
  · exact SamePasses.trans ⟨by cases x <;> rfl, by cases x <;> rfl⟩ samePasses_joinNotices
  · exact .refl

theorem raiseOver_berth : (raiseOver x s).berth b = s.berth b := by
  rw [State.berth, (raiseOver_parts x s).2.1]
  rfl

theorem raiseOver_bay {k : BayId} : (raiseOver x s).bay k = s.bay k := by
  unfold raiseOver
  split
  · rw [bay_noticeSection]
    cases x <;> rfl
  · rfl

/-- Only the bays say which of them runs for a berth. -/
theorem runningBay_congr (h : ∀ k, t.bay k = s.bay k) : t.runningBay b = s.runningBay b := by
  simp only [State.runningBay, h]

theorem adoptedGrant_eq {r : BerthObserved} {q : Option Profile} : adoptedGrant r q =
    min 250 (match r.shipState, q with
      | some t, _ => t.shoreLoad
      | none, some p => p.demand
      | none, none => 0) := by
  unfold adoptedGrant
  cases r.shipState <;> cases q <;> rfl

/-- What an adoption does before it looks for the bay: the berth's record, and its grant in the section (R10). -/
def adoptGrant (b : BerthId) (s : State) : State :=
  let o := (s.berth b).obs
  let index := o.vesselId.bind s.profileIndexOf
  let grant := adoptedGrant o (index.bind fun n => s.profiles[n])
  s |> updBerth b (fun r => { r with vessel := o.vesselId, profile := index, grant := grant, cable := none })
    |> updSec (s.secOf b) (fun r => { r with granted := r.granted + grant })
    |> raiseOver (s.secOf b)

/-- The section's granted sum is raised past any limit, with a SECTION_OVER notice where it passes it (R10, R63). -/
theorem adoptGrant_eq {grant sum : Nat} {x : SectionId} {index : Option (Fin 24)} {v : Option Num32}
    (hv : v = (s.berth b).obs.vesselId) (hi : index = v.bind s.profileIndexOf)
    (hg : grant = adoptedGrant (s.berth b).obs (index.bind fun n => s.profiles[n]))
    (hx : x = s.secOf b) (hs : sum = (s.sec x).granted + grant) : adoptGrant b s =
      (let t := s
        |> updBerth b (fun r => { r with vessel := v, profile := index, cable := none, grant := grant })
        |> updSec x (fun r => { r with granted := sum })
      if (s.sec x).limit < sum ∧ (s.sec x).overFlag = false then
        t |> updSec x (fun r => { r with overFlag := true })
          |> noticeSection x .sectionOver ([sectionByte (some x), byte (s.sec x).limit] ++ bytes2 sum)
      else t) := by
  subst hs hx hg hi hv
  unfold adoptGrant raiseOver
  dsimp only
  simp only [updSec_sec_same, updBerth_sec]
  rw [updSec_congr (f := fun r => { r with granted := r.granted + adoptedGrant (s.berth b).obs _ })
    (g := fun r => { r with granted := (s.sec (s.secOf b)).granted + adoptedGrant (s.berth b).obs _ })
    (by rw [updBerth_sec])]

theorem adoptGrant_berth : ((adoptGrant b s).berth b).bay = (s.berth b).bay ∧
    ((adoptGrant b s).berth b).state = (s.berth b).state := by
  unfold adoptGrant
  rw [raiseOver_berth, updSec_berth, updBerth_berth_same]
  exact ⟨rfl, rfl⟩

theorem adoptGrant_bay {k : BayId} : (adoptGrant b s).bay k = s.bay k := by
  unfold adoptGrant
  rw [raiseOver_bay]
  cases s.secOf b <;> cases k <;> rfl

theorem samePasses_adoptGrant : SamePasses s (adoptGrant b s) :=
  SamePasses.trans ⟨by cases s.secOf b <;> rfl, by cases s.secOf b <;> rfl⟩ samePasses_raiseOver

/-- What an adoption does once its bay is known to be `k` (R10). -/
def adoptInto (b : BerthId) (k : Option BayId) (s t : State) : State :=
  let profile := ((s.berth b).obs.vesselId.bind s.profileIndexOf).bind fun n => s.profiles[n]
  t |> updBerth b (fun r => { r with
        bay := k, adopted := true, holdGranted := false, ramp := Ramp.initial, terms := profile.map Profile.terms })
    |> noticeBerth b .adopted [byte (adoptedGrant (s.berth b).obs profile), bayByte k]
    |> entered b .onShore

/-- The bay found is taken, or the berth keeps the bay it had (R10, step 5). -/
theorem adoptBay_eq : adoptBay b s = ((match s.runningBay b with
    | none => s
    | some k => updBay k (fun r => { r with state := .granted, berth := some b }) s) |> updBerth b (fun r => { r with
      bay := (s.runningBay b).or (s.berth b).bay })) := by
  unfold adoptBay
  cases s.runningBay b with
  | none => exact (updBerth_id rfl).symm
  | some k => rfl

theorem adopt_eq (hst : (s.berth b).state = .outOfService) : adopt b s =
    adoptInto b ((s.runningBay b).or (s.berth b).bay) s (match s.runningBay b with
      | none => adoptGrant b s
      | some k => updBay k (fun r => { r with state := .granted, berth := some b }) (adoptGrant b s)) := by
  have hbay : (adoptGrant b s).runningBay b = s.runningBay b := runningBay_congr fun _ => adoptGrant_bay
  obtain ⟨hkept, hstate⟩ := adoptGrant_berth (b := b) (s := s)
  have hadopt : adopt b s = (let t := adoptBay b (adoptGrant b s) |> updBerth b (fun r => { r with
        adopted := true, holdGranted := false, ramp := Ramp.initial,
        terms := (((s.berth b).obs.vesselId.bind s.profileIndexOf).bind fun n => s.profiles[n]).map Profile.terms })
      t |> noticeBerth b .adopted [byte (adoptedGrant (s.berth b).obs
              (((s.berth b).obs.vesselId.bind s.profileIndexOf).bind fun n => s.profiles[n])), bayByte (t.berth b).bay]
        |> enterState .live b .onShore) := rfl
  rw [hadopt, adoptBay_eq, hbay, hkept, updBerth_updBerth]
  dsimp only
  rw [updBerth_berth_same]
  have hentered : ∀ u : State, (u.berth b).state = .outOfService → enterState .live b .onShore u = entered b .onShore u :=
    fun u hu => enterState_of_holdsNothing (.inl hu) (by rw [hu]; decide) (by decide) (by decide)
  rw [hentered _ (by
    rw [noticeBerth_state, updBerth_berth_same]
    cases s.runningBay b <;> simp [hstate, hst])]
  rfl

theorem samePasses_adoptInto {k : Option BayId} : SamePasses t (adoptInto b k s t) :=
  (samePasses_updBerth.trans samePasses_noticeBerth).trans samePasses_entered

/-- Settles O31, by the breaker and the latch; an adoption by the bay that runs for the berth. -/
theorem serviceTakesTheBerthIn : Obligations.ServiceTakesTheBerthIn := by
  intro p f b s ha hset hst hm enters
  have hx : exec (.service p) s = .next (answer p f (service b (dropHead p s))) := ha.taken rfl
  have hst' : ((dropHead p s).berth b).state = .outOfService := hst
  refine ⟨fun hp hl => ?_, fun hp hl => ?_, fun hp => ?_⟩
  · rw [hx, service_of_unlatched hst' hm hp hl, answer_of_settled
      ((samePasses_updBerth.trans samePasses_entered).settled (settled_dropHead hset))]
    rfl
  · rw [hx, service_of_latched hst' hm hp hl, answer, finishEvent]
    rfl
  · intro o x index profile grant sum overLimit take runs adopts
    have hgrant : grant = adoptedGrant o profile := adoptedGrant_eq.symm
    have hgranted := adoptGrant_eq (s := dropHead p s) (b := b) (v := o.vesselId) (index := index) (grant := grant)
      (sum := sum) (x := x) rfl rfl hgrant rfl rfl
    have adopted : ∀ k u, (∀ t, SamePasses t (u t)) → (s.runningBay b).or (s.berth b).bay = k →
        (match s.runningBay b with
          | none => adoptGrant b (dropHead p s)
          | some k => take k (adoptGrant b (dropHead p s))) = u (adoptGrant b (dropHead p s)) → adopts k u := by
      intro k u hsame hk hu
      have hadopt : adopt b (dropHead p s) = adoptInto b k (dropHead p s) (u (adoptGrant b (dropHead p s))) := by
        rw [adopt_eq hst', ← hk, ← hu]
        rfl
      have hsettled := (((samePasses_adoptGrant (b := b)).trans (hsame _)).trans (samePasses_adoptInto (b := b) (k := k)
        (s := dropHead p s))).settled (settled_dropHead (p := p) hset)
      refine hx.trans (congrArg _ ?_)
      rw [service_of_closed hst' hm hp, hadopt, answer_of_settled hsettled, hgranted, hgrant]
      rfl
    refine ⟨fun h => ?_, fun h1 h2 => ?_, fun h1 h2 => ?_⟩
    · have hk := runningBay_eq.1 h
      exact adopted _ _ (fun _ => ⟨rfl, rfl⟩) (by rw [hk]; rfl) (by rw [hk])
    · have hk := runningBay_eq.2.1 h1 h2
      exact adopted _ _ (fun _ => ⟨rfl, rfl⟩) (by rw [hk]; rfl) (by rw [hk])
    · have hk := runningBay_eq.2.2 h1 h2
      exact adopted _ (fun t => t) (fun _ => .refl) (by rw [hk]; rfl) (by rw [hk])

end Sys2Proof.Machine
end

-- ==== Clock, notices, power-on and RESTART ====
section
/-! PROOFS. The tick and the night boundary (R148 to R154), the NOTICE QUEUE (R155 to R158), power-on and RESTART (R164,
R165). -/

namespace Sys2Proof.Machine

variable {s t : State} {b : BerthId} {x : SectionId} {p : Port} {f : Frame} {n : Nat}

/-! ## The tick (R148, R149) -/

theorem clock_tick_eq (c : Clock) : c.tick = { c with
    time := if c.time < 86399 then c.time + 1 else 0
    boundaryDue := c.boundaryDue || decide ((if c.time < 86399 then c.time + 1 else 0) = c.boundaryHour * 3600) } := by
  have h : c.time + 1 < Config.daySeconds ↔ c.time < 86399 := by simp only [Config.daySeconds]; omega
  simp only [Clock.tick, h, Clock.boundary, Config.hourSeconds, beq_eq_decide]

/-- Settles O35. -/
theorem tickAdvancesTheClockAndTheTimers : Obligations.TickAdvancesTheClockAndTheTimers := by
  intro s time second
  show Host.Outcome.next (tick s) = _
  rw [tick, clock_tick_eq]
  rfl

/-! ## The NOTICE QUEUE (R155 to R158) -/

theorem unlimited_iff {k : NoticeKind} :
    k.unlimited = true ↔ k = .tripped ∨ k = .nightSummary ∨ k = .limitReached := by
  cases k <;> simp [NoticeKind.unlimited]

theorem joinNotices_of_room {n : NoticeRec} (h : s.notices.length < 32) :
    joinNotices n s = { s with notices := s.notices ++ [n] } := if_pos h

theorem joinNotices_of_full {n : NoticeRec} (h : 32 ≤ s.notices.length) :
    joinNotices n s = { s with notices := markNewestLost s.notices } := if_neg (Nat.not_lt.mpr h)

theorem markNewestLost_concat (l : List NoticeRec) (n : NoticeRec) :
    markNewestLost (l ++ [n]) = l ++ [{ n with lostAfter := true }] := by
  induction l with
  | nil => rfl
  | cons m l ih =>
    cases l with
    | nil => rfl
    | cons k l => exact congrArg (m :: ·) ih

/-- Settles O37: the nightly limit by the kind and the count, and then the queue by its length. -/
theorem noticesAreLimitedAndQueued : Obligations.NoticesAreLimitedAndQueued := by
  intro b k detail s record unlimited count
  have hu : k.unlimited = true ↔ unlimited := unlimited_iff
  refine ⟨fun h => ?_, fun h hc => ?_, fun h hc hl => ?_, fun h hc hl => ?_, fun n => ⟨joinNotices_of_room,
    fun hf l m hs => ?_, fun x => rfl, rfl⟩⟩
  · exact if_pos (hu.mpr h)
  · exact (if_neg (mt hu.mp h)).trans (if_pos hc)
  · exact (if_neg (mt hu.mp h)).trans ((if_neg (Nat.not_lt.mpr hc)).trans (if_neg (by simp [hl])))
  · exact (if_neg (mt hu.mp h)).trans ((if_neg (Nat.not_lt.mpr hc)).trans (if_pos hl))
  · rw [joinNotices_of_full hf, hs, markNewestLost_concat]

/-- Settles O38: a record, an entry and a slot, or one of them missing. -/
theorem noticeIsOfferedToTheControlRoom : Obligations.NoticeIsOfferedToTheControlRoom := by
  refine fun s => ⟨fun n rest e hn he hfree => ?_, fun h => ?_⟩
  · show Host.Outcome.next (offerNotice s) = _
    simp only [offerNotice, hn, he, if_pos (one_le_freeSlots.mpr hfree)]
    rfl
  · refine congrArg Host.Outcome.next (?_ : offerNotice s = s)
    unfold offerNotice
    split
    next n rest e hn he =>
      refine if_neg fun hfree => ?_
      have := one_le_freeSlots.mp hfree
      simp [hn, he] at h
      omega
    next => rfl

/-! ## Operations on every berth -/

theorem mem_allBerths : b ∈ allBerths := by revert b; decide

theorem nodup_allBerths : allBerths.Nodup := by decide

theorem berths_eq_ofFn : s.berths = Vector.ofFn s.berth := by
  ext i hi
  simp [State.berth]

theorem updBerth_berths_ofFn {g : Berth → Berth} (l : List BerthId) (hb : b ∉ l) :
    (fun c => if c ∈ l then g ((updBerth b g s).berth c) else (updBerth b g s).berth c) =
      fun c => if c ∈ b :: l then g (s.berth c) else s.berth c := by
  funext c
  by_cases hc : c = b
  · subst hc
    simp [hb]
  · simp [updBerth_berth_ne hc, hc]

/-- One update of each berth of a list, in its order. -/
theorem foldl_updBerth {g : Berth → Berth} {l : List BerthId} (hl : l.Nodup) :
    l.foldl (fun t b => updBerth b g t) s =
      { s with berths := Vector.ofFn fun c => if c ∈ l then g (s.berth c) else s.berth c } := by
  induction l generalizing s with
  | nil => simp [← berths_eq_ofFn]
  | cons b l ih =>
    obtain ⟨hb, hl⟩ := List.nodup_cons.mp hl
    rw [List.foldl_cons, ih hl]
    rw [updBerth_berths_ofFn l hb]
    rfl

/-- One update of each berth is one map over the berths. -/
theorem forBerths_updBerth {g : Berth → Berth} :
    forBerths (fun b => updBerth b g) s = { s with berths := s.berths.map g } := by
  rw [forBerths, foldl_updBerth nodup_allBerths]
  simp only [mem_allBerths, if_true]
  congr 1
  ext i hi
  simp [State.berth]

/-! ## Notices that join the queue one after another (R157) -/

/-- The NOTICE QUEUE once these records have joined it, or been lost. -/
def joined (q l : List NoticeRec) : List NoticeRec :=
  l.foldl (fun q n => if q.length < 32 then q ++ [n] else markNewestLost q) q

theorem joinNotices_eq {n : NoticeRec} : joinNotices n s = { s with notices := joined s.notices [n] } := by
  obtain h | h := lt_or_ge s.notices.length 32
  · rw [joinNotices_of_room h, joined, List.foldl_cons, List.foldl_nil, if_pos h]
  · rw [joinNotices_of_full h, joined, List.foldl_cons, List.foldl_nil, if_neg (Nat.not_lt.mpr h)]

theorem markNewestLost_eq (l : List NoticeRec) : markNewestLost l =
    l.dropLast ++ (l.getLast?.map fun m => { m with lostAfter := true }).toList := by
  obtain rfl | ⟨l, n, rfl⟩ := l.eq_nil_or_concat
  · rfl
  · rw [List.concat_eq_append, markNewestLost_concat]
    simp

theorem markNewestLost_idem (l : List NoticeRec) : markNewestLost (markNewestLost l) = markNewestLost l := by
  obtain rfl | ⟨l, n, rfl⟩ := l.eq_nil_or_concat
  · rfl
  · rw [List.concat_eq_append, markNewestLost_concat, markNewestLost_concat]

/-- Past the 32 places a record is lost, and the newest of the queue is marked (R157). -/
theorem joined_eq (q l : List NoticeRec) : joined q l = if l.length ≤ 32 - q.length then q ++ l.take (32 - q.length)
    else markNewestLost (q ++ l.take (32 - q.length)) := by
  induction l generalizing q with
  | nil => simp [joined]
  | cons n l ih =>
    rw [joined, List.foldl_cons, ← joined, ih]
    obtain h | h := lt_or_ge q.length 32
    · obtain ⟨m, hm⟩ : ∃ m, 32 - q.length = m + 1 := ⟨31 - q.length, by omega⟩
      have hm' : 32 - (q ++ [n]).length = m := by simp; omega
      rw [if_pos h, hm, hm']
      simp
    · have h0 : 32 - q.length = 0 := by omega
      have h0' : 32 - (markNewestLost q).length = 0 := by rw [length_markNewestLost]; omega
      rw [if_neg (Nat.not_lt.mpr h), h0, h0']
      cases l <;> simp [markNewestLost_idem]

/-! ## The night's record and its summary (R154) -/

/-- The first of a list's places that has an entry which answers to `q`, and the first such entry. -/
theorem findSome?_filter_eq {α β : Type} {l : List α} {v : α → Option β} {q : β → Bool} :
    l.findSome? (fun i => (v i).filter q) = (l.find? fun i => (v i).any q).bind v := by
  induction l with
  | nil => rfl
  | cons i l ih =>
    rw [List.findSome?_cons, List.find?_cons, ih]
    cases h : v i with
    | none => simp [Option.any]
    | some r => cases hq : q r <;> simp [Option.any, Option.filter, hq, h]

/-- The first record of the CABLE TABLE with a cable's identity is the one in the slot that names it (R41). -/
theorem findSome?_cables {v : Num32} : (s.cables.toList.findSome? fun o => o.filter fun c => c.cable = v) =
    (s.cableSlotOf v).bind fun n => s.cables[n] := by
  have hl : s.cables.toList = (List.finRange 32).map fun n => s.cables[n] := by
    apply List.ext_getElem <;> simp
  have hq : ∀ n : Fin 32, ((s.cables[n].map (·.cable)) == some v) = s.cables[n].any fun c => decide (c.cable = v) := by
    intro n
    cases s.cables[n] <;> simp [Option.any, beq_eq_decide]
  rw [hl, List.findSome?_map, State.cableSlotOf]
  simp only [hq]
  exact findSome?_filter_eq

/-- The berth's record once its night has ended, before the notices are counted afresh (R154). -/
def State.endedNight (s : State) (r : Berth) : Berth :=
  { r with lastNight := some (s.lastNightOf r.tally), tally := Tally.cleared }

/-- The NIGHT_SUMMARY notice of a berth whose tally is active (R154, step 2). -/
def State.summaryOf (s : State) (b : BerthId) : Option NoticeRec :=
  if (s.berth b).tally.active then
    some (s.notice .nightSummary (some b) (some (s.secOf b)) (s.lastNightOf (s.berth b).tally).detail)
  else none

theorem nightSummary_eq : nightSummary b s =
    { updBerth b s.endedNight s with notices := joined s.notices (s.summaryOf b).toList } := by
  unfold nightSummary State.summaryOf
  dsimp only
  have hsec : (updBerth b s.endedNight s).secOf b = s.secOf b := by simp [State.secOf, State.endedNight]
  split
  · have hn : noticeBerth b .nightSummary (s.lastNightOf (s.berth b).tally).detail (updBerth b s.endedNight s) =
        joinNotices (s.notice .nightSummary (some b) (some ((updBerth b s.endedNight s).secOf b))
          (s.lastNightOf (s.berth b).tally).detail) (updBerth b s.endedNight s) := rfl
    exact hn.trans (by rw [joinNotices_eq, hsec]; rfl)
  · rfl

/-- The summaries of a list of berths join the queue in the list's order. -/
theorem foldl_nightSummary {l : List BerthId} (hl : l.Nodup) : l.foldl (fun t b => nightSummary b t) s = { s with
    berths := Vector.ofFn fun c => if c ∈ l then s.endedNight (s.berth c) else s.berth c
    notices := joined s.notices (l.filterMap s.summaryOf) } := by
  induction l generalizing s with
  | nil => simp [← berths_eq_ofFn, joined]
  | cons b l ih =>
    obtain ⟨hb, hl⟩ := List.nodup_cons.mp hl
    have hsum : l.filterMap (State.summaryOf (nightSummary b s)) = l.filterMap s.summaryOf := by
      refine List.filterMap_congr fun c hc => ?_
      have hcb : c ≠ b := fun h => hb (h ▸ hc)
      have hrec : ((nightSummary b s).berth c) = s.berth c := by
        rw [nightSummary_eq]
        exact updBerth_berth_ne hcb _ s
      have hnight : (nightSummary b s).lastNightOf = s.lastNightOf := by
        rw [nightSummary_eq]
        rfl
      have hclock : (nightSummary b s).clock = s.clock := by
        rw [nightSummary_eq]
        rfl
      simp only [State.summaryOf, State.notice, State.secOf, hrec, hnight, hclock]
    rw [List.foldl_cons, ih hl, hsum, nightSummary_eq]
    have hrecs := updBerth_berths_ofFn (s := s) (g := s.endedNight) l hb
    have hjoin : joined (joined s.notices (s.summaryOf b).toList) (l.filterMap s.summaryOf) =
        joined s.notices ((b :: l).filterMap s.summaryOf) := by
      rw [joined, joined, joined, ← List.foldl_append, List.filterMap_cons]
      cases s.summaryOf b <;> rfl
    rw [← hjoin, ← hrecs]
    rfl

theorem forBerths_nightSummary : forBerths nightSummary s = { s with
    berths := s.berths.map s.endedNight, notices := joined s.notices (allBerths.filterMap s.summaryOf) } := by
  rw [forBerths, foldl_nightSummary nodup_allBerths]
  simp only [mem_allBerths, if_true]
  congr 1
  ext i hi
  simp [State.berth]

/-! ## The housekeeping (R152 to R154, R58, R59) -/

theorem vesselBytes_eq (o : Option Num32) : vesselBytes o = (o.map bytes4).getD [0, 0, 0, 0] := by cases o <;> rfl

theorem coresByte_eq (c : CoreSet) : coresByte c = byte c.toNat := by
  simp [coresByte, byte]

theorem active_iff {a : Tally} : a.active = true ↔
    a.cable ≠ none ∨ 0 < a.estop ∨ 0 < a.pilot ∨ 0 < a.strain ∨ 0 < a.latch := by
  simp [Tally.active, Option.isSome_iff_ne_none, or_assoc]

/-- The housekeeping, in one update of the state. -/
theorem housekeeping_eq : housekeeping s = { s with
    clock := { s.clock with night := (s.clock.night + 1) % 65536 }
    berths := s.berths.map fun r => { s.endedNight r with noticeCount := 0, noticeLimited := false }
    cables := s.cables.map fun o =>
      (o.map CableRec.nightly).filter (CableRec.kept s.retention ((s.clock.night + 1) % 65536))
    notices := joined s.notices (allBerths.filterMap s.summaryOf) } := by
  rw [housekeeping, forBerths_nightSummary]
  dsimp only
  rw [clearNoticeCounts, forBerths_updBerth]
  dsimp only
  rw [Vector.map_map, Vector.map_map]
  rfl

theorem kept_nightly {retention night : Nat} {o : Option CableRec} :
    (o.map CableRec.nightly).filter (CableRec.kept retention night) = o.bind fun c =>
      if c.berth = none ∧ retention ≤ (night + 65536 - c.lastSeen) % 65536 then none
      else some { c with soft := ⟨0, 0, 0, 0, 0⟩, tests := 0, andMask := 0#5, orMask := 0#5 } := by
  cases o with
  | none => rfl
  | some c =>
    have hk : CableRec.kept retention night c.nightly = true ↔
        ¬(c.berth = none ∧ retention ≤ (night + 65536 - c.lastSeen) % 65536) := by
      have ha : (CableRec.nightly c).age night = (night + 65536 - c.lastSeen) % 65536 := rfl
      have hb : (CableRec.nightly c).berth = c.berth := rfl
      simp only [CableRec.kept, ha, hb, Bool.or_eq_true, decide_eq_true_eq, Option.isSome_iff_ne_none, not_and_or, not_le,
        ne_eq]
    simp only [Option.map_some, Option.bind_some, Option.filter]
    by_cases h : c.berth = none ∧ retention ≤ (night + 65536 - c.lastSeen) % 65536
    · rw [if_pos h, if_neg (by rw [hk]; exact not_not_intro h)]
    · rw [if_neg h, if_pos (hk.mpr h)]
      rfl

theorem tallyCable_eq {a : Tally} : s.tallyCable a =
    a.cable.bind fun v => s.cables.toList.findSome? fun o => o.filter fun c => c.cable = v := by
  unfold State.tallyCable
  cases a.cable with
  | none => rfl
  | some v => exact findSome?_cables.symm

theorem lastNightOf_eq {a : Tally} : s.lastNightOf a =
    let c := a.cable.bind fun v => s.cables.toList.findSome? fun o => o.filter fun c => c.cable = v
    ⟨s.clock.night, a.cable, (c.map (·.tests)).getD 0, (c.map (·.andMask)).getD 0#5, (c.map (·.orMask)).getD 0#5,
      a.estop, a.pilot, a.strain, a.latch, a.trips⟩ := by
  rw [State.lastNightOf, tallyCable_eq]

theorem detail_eq {l : LastNight} : l.detail = (l.cable.map bytes4).getD [0, 0, 0, 0] ++
    [byte l.tests, byte l.andMask.toNat, byte l.orMask.toNat, byte (min 255 (l.estop + l.pilot + l.strain))] := by
  rw [LastNight.detail, vesselBytes_eq, coresByte_eq, coresByte_eq]
  rfl

theorem summaryOf_eq : s.summaryOf = fun b =>
    let a := (s.berth b).tally
    if a.cable ≠ none ∨ 0 < a.estop ∨ 0 < a.pilot ∨ 0 < a.strain ∨ 0 < a.latch then
      some ⟨.nightSummary, some b, some (s.secOf b), s.clock.night, s.clock.time, (s.lastNightOf a).detail, false⟩
    else none := by
  funext b
  exact if_congr active_iff rfl rfl

/-! ## SET_CLOCK (R150) -/

theorem num3_bytes3 {n : Nat} (h : n < 16777216) : num3 (byte (n / 65536)) (byte (n / 256)) (byte n) = n := by
  simp only [num3, toNat_byte]
  omega

theorem exec_setClock (ha : RoomAsks s p f 0x47#8 (bytes3 n)) (hn : n < 16777216) :
    exec (.setClock p) s = .next (answer p f (setClockTo n (dropHead p s))) := by
  obtain ⟨⟨e, ha, hc⟩, hk, hcode, hp⟩ := ha
  have hrow : f.row s.ownId = .setClock := by rw [row_of_request hk ha.dst_own, hcode]; rfl
  refine (takeFrame_requested ha hrow hc (by rw [hp]; rfl)).trans ?_
  rw [hp]
  exact congrArg (fun n => Host.Outcome.next (answer p f (setClockTo n (dropHead p s)))) (num3_bytes3 hn)

theorem crosses_iff {c : Clock} : c.crosses n = true ↔ c.time < n ∧ c.time < c.boundaryHour * 3600 ∧
    c.boundaryHour * 3600 ≤ n := by
  simp only [Clock.crosses, Bool.and_eq_true, decide_eq_true_eq, and_assoc]
  rfl

/-- Settles O36: the housekeeping in one update, and the two commands that run it. -/
theorem nightBoundaryRunsTheHousekeeping : Obligations.NightBoundaryRunsTheHousekeeping := by
  intro p f n s ended
  have hended : ∀ u, housekeeping u = ended u := by
    intro u
    rw [housekeeping_eq]
    dsimp only [ended]
    congr 1
    · simp only [State.endedNight, lastNightOf_eq]
      rfl
    · simp only [kept_nightly]
    · rw [joined_eq, markNewestLost_eq, summaryOf_eq]
      simp only [detail_eq, lastNightOf_eq]
      rfl
  refine ⟨fun h => ?_, fun h => ?_, fun hn ha hset => ?_⟩
  · rw [← hended]
    exact congrArg Host.Outcome.next (if_pos h)
  · exact congrArg Host.Outcome.next (if_neg (by simp [h]))
  · intro boundary crosses u moved
    have hc : s.clock.crosses n = true ↔ crosses := crosses_iff
    have hclock : u.clock = s.clock := rfl
    have hmoved : moved.settled := hset
    have hlt : n < Config.daySeconds ↔ n ≤ 86399 := by simp only [Config.daySeconds]; omega
    rw [exec_setClock ha hn]
    refine ⟨fun h => ?_, fun h hx => ?_, fun h hx => ?_⟩
    · have hset : setClockTo n u = (.badValue, u) := if_neg (by omega)
      rw [hset, answer_of_settled (settled_dropHead ‹s.settled›)]
    · have hset : setClockTo n u = (.accepted, moved) :=
        (if_pos (hlt.mpr h)).trans (congrArg _ (if_neg (by rw [hclock, hc]; exact hx)))
      rw [hset, answer_of_settled hmoved]
    · have hset : setClockTo n u = (.accepted, housekeeping moved) :=
        (if_pos (hlt.mpr h)).trans (congrArg _ (if_pos (hc.mpr hx)))
      rw [hset, answer_of_settled (samePasses_housekeeping.settled hmoved), hended]

/-! ## Power-on and RESTART (R164, R165) -/

/-- The frame of the request is gone with the rest of its buffer (R165). -/
theorem clearDynamic_dropHead : clearDynamic (dropHead p s) = clearDynamic s := by
  have hports : (dropHead p s).ports.map PortRec.restart = s.ports.map PortRec.restart := by
    ext i hi
    simp only [dropHead, updPort, Vector.getElem_map, Vector.getElem_set]
    split
    next h =>
      subst h
      rfl
    next => rfl
  unfold clearDynamic
  rw [hports]
  rfl

theorem untouched_forBerths_refuseHeld {r : Reason} : Untouched s (forBerths (refuseHeld r) s) := by
  have hl : ∀ (l : List BerthId) {t}, Untouched s t → Untouched s (l.foldl (fun t b => refuseHeld r b t) t) := by
    intro l
    induction l with
    | nil => exact id
    | cons b l ih => exact fun h => ih ((Closed.untouched s).refuseHeld trivial h)
  exact hl allBerths (.refl s)

/-- The reply is sent and the NOTICE QUEUE holds RESTARTED alone (R165, step 6). -/
theorem restartPart_eq : restartPart p f s = { reply p f .accepted (forBerths (refuseHeld .restart) (clearDynamic s)) with
    notices := [⟨.restarted, none, none, s.clock.night, s.clock.time, [], false⟩] } := by
  have hclock : (reply p f .accepted (forBerths (refuseHeld .restart) (clearDynamic s))).clock = s.clock :=
    ((Closed.untouched (clearDynamic s)).sendReply untouched_forBerths_refuseHeld).clock
  unfold restartPart
  dsimp only
  generalize reply p f .accepted (forBerths (refuseHeld .restart) (clearDynamic s)) = v at hclock ⊢
  rw [← hclock]
  exact joinNotices_of_room (by simp)

theorem exec_restart (ha : RoomAsks s p f 0x46#8 []) : exec (.restart p) s = .next (restartPart p f (dropHead p s)) := by
  obtain ⟨⟨e, ha, hc⟩, hk, hcode, hp⟩ := ha
  have hrow : f.row s.ownId = .restart := by rw [row_of_request hk ha.dst_own, hcode]; rfl
  exact takeFrame_requested ha hrow hc (by rw [hp]; rfl)

/-- Settles O39: the state after power-on, and what RESTART leaves. -/
theorem powerOnAndRestartSetTheState : Obligations.PowerOnAndRestartSetTheState := by
  unfold Obligations.PowerOnAndRestartSetTheState
  intro channel record sec line
  refine ⟨fun found s => rfl, fun p f s ha => ?_⟩
  intro restarted cleared refused
  rw [exec_restart ha, restartPart_eq, clearDynamic_dropHead]
  rfl

end Sys2Proof.Machine
end

-- ==== Frames for other parties, and reports that are not observed ====
section
/-! PROOFS. What is answered, what is forwarded, and the reports that are handed on unobserved (R128 to R132). -/

namespace Sys2Proof.Machine

variable {s t : State} {b : BerthId} {x : SectionId} {p : Port} {f : Frame} {e : EquipEntry} {o : Option EquipEntry}

theorem row_of_answer {own : EquipId} (h : f.kind = kindReply ∨ f.kind = kindRefusal ∨ f.kind = kindNotice) :
    f.row own = .forwardFrame := by
  obtain h | h | h := h <;> simp [Frame.row, h, kindReply, kindRefusal, kindNotice]

theorem row_of_report {own : EquipId} (h : f.kind = kindReport) : f.row own = reportRow f.code := by
  simp [Frame.row, h, kindReport]

theorem exec_forwardFrame : exec (.forwardFrame p) s = takeFrame .forwardFrame p
    (routed p fun f _ d s => handOn p f d s) s := by
  refine congrArg (fun a => takeFrame .forwardFrame p (routed p a) s) ?_
  funext f e d s
  cases d <;> rfl

/-- A report whose effect is none is handed on where no pass waits (R130, R132). -/
theorem exec_unobserved {row : FrameRow} {act : Frame → EquipEntry → State → State} {code : Byte}
    (hr : Reported s p f e o code) (hset : s.settled) (hrow : reportRow code = row)
    (hx : exec (row.command p) s = takeReport row p act s) (hact : act f e (dropHead p s) = dropHead p s) :
    exec ((reportRow code).command p) s = .next (handOn p f o (dropHead p s)) := by
  have htaken : takeReport row p act s = .next (handOn p f o (finishEvent (act f e (dropHead p s)))) :=
    takeFrame_routed hr.arrived (by rw [row_of_report hr.kind, hr.code, hrow])
  rw [hrow, hx, htaken, hact, finishEvent, settled_runPasses (settled_dropHead hset)]

theorem fromBerth_of_cls {α : Type} {cls : EquipClass} {read : List Byte → Option α} {act : BerthId → α → State → State}
    (h : e.cls ≠ cls) : fromBerth cls read act f e s = s := if_neg h

theorem fromSection_of_cls {α : Type} {cls : EquipClass} {read : List Byte → Option α}
    {act : SectionId → α → State → State} (h : e.cls ≠ cls) : fromSection cls read act f e s = s := if_neg h

/-- A POSITION is of a shore breaker or an earth switch (R130). -/
theorem takePosition_of_cls (h : ¬(e.cls = .shoreBreaker ∨ e.cls = .earthSwitch)) : takePosition f e s = s := by
  unfold takePosition
  cases positionOf f.payload with
  | none => rfl
  | some q => cases hc : e.cls <;> simp_all

/-- The byte of a list's value is its number (7.2). -/
theorem codeIn_of_nameIn {α : Type} [DecidableEq α] {names : List α} {a : α} {n : Byte} (hd : names.Nodup)
    (h : nameIn names n = some a) : codeIn names a = n := by
  unfold nameIn at h
  split at h
  · cases h
  next m hm =>
    obtain ⟨hlt, rfl⟩ := List.getElem?_eq_some_iff.mp h
    rw [codeIn, hd.idxOf_getElem, ← Nat.succ_eq_add_one, ← hm, byte, BitVec.ofNat_toNat, BitVec.setWidth_eq]

theorem bay_of_converterState {l : List Byte} {r : ConverterReport} (h : converterStateOf l = some r) :
    nameIn bayIds (at' l 0) = some r.bay := by
  unfold converterStateOf at h
  cases hk : nameIn bayIds (at' l 0) with
  | none => simp [hk] at h
  | some k =>
    cases hr : nameIn converterRuns (at' l 2) with
    | none => simp [hk, hr] at h
    | some c =>
      simp only [hk, hr, Option.bind_eq_bind, Option.bind_some, Option.pure_def, Option.some.injEq] at h
      rw [← h]

/-- A CONVERTER_STATE names the bay of its source (R66, R130). -/
theorem takeConverterState_of_other
    (h : ¬(e.cls = .converter ∧ e.bay.map (fun k => codeIn bayIds k) = f.payload[0]?)) :
    takeConverterState f e s = s := by
  unfold takeConverterState
  split
  next k r hc hk hr =>
    refine if_neg fun hb => h ⟨hc, ?_⟩
    have hcode : codeIn bayIds k = at' f.payload 0 := hb ▸ codeIn_of_nameIn (by decide) (bay_of_converterState hr)
    have hne : codeIn bayIds k ≠ 0#8 := by cases k <;> decide
    cases hp : f.payload with
    | nil =>
      rw [hcode, hp] at hne
      exact absurd rfl hne
    | cons n l =>
      rw [hp] at hcode
      rw [hk]
      exact congrArg some hcode
  next => rfl

/-- Settles O14: what an answer carries, what is forwarded, and the reports by their codes. -/
theorem framesAreAnsweredAndForwarded : Obligations.FramesAreAnsweredAndForwarded := by
  intro p f e d st r body s
  refine ⟨rfl, rfl, fun table index rest h => by rw [tableReply, h]; rfl, fun hk => ⟨fun ha => ?_, fun ha => ?_⟩, rfl, rfl,
    fun o code hr hset => ?_⟩
  · exact exec_forwardFrame.trans (takeFrame_routed ha (row_of_answer hk))
  · exact exec_forwardFrame.trans (takeFrame_routed ha (row_of_answer hk))
  · intro observable hno
    rw [row_of_report hr.kind, hr.code]
    have unobserved := @exec_unobserved s p f e o
    dsimp only [observable] at hno
    split at hno
    next hc => exact unobserved hr hset (row := .position) (by simp [reportRow, hc]) rfl (takePosition_of_cls hno)
    next hc => exact unobserved hr hset (row := .syncResult) (by simp [reportRow, hc]) rfl (fromSection_of_cls hno)
    next hc => exact unobserved hr hset (row := .coreTest) (by simp [reportRow, hc]) rfl (fromBerth_of_cls hno)
    next hc => exact unobserved hr hset (row := .assignDone) (by simp [reportRow, hc]) rfl (fromBerth_of_cls hno)
    next hc => exact unobserved hr hset (row := .shipState) (by simp [reportRow, hc]) rfl (fromBerth_of_cls hno)
    next hc => exact unobserved hr hset (row := .stepDone) (by simp [reportRow, hc]) rfl (fromBerth_of_cls hno)
    next hc => exact unobserved hr hset (row := .holdState) (by simp [reportRow, hc]) rfl (fromBerth_of_cls hno)
    next hc => exact unobserved hr hset (row := .vesselId) (by simp [reportRow, hc]) rfl (fromBerth_of_cls hno)
    next hc =>
      exact unobserved hr hset (row := .converterState) (by simp [reportRow, hc]) rfl (takeConverterState_of_other hno)
    next hc => exact unobserved hr hset (row := .feederState) (by simp [reportRow, hc]) rfl (fromSection_of_cls hno)
    next =>
      by_cases hclaim : code.toNat = 0x6B
      · exact unobserved hr hset (row := .localClaim) (by simp [reportRow, hclaim]) rfl (fromSection_of_cls hno)
      by_cases hrelease : code.toNat = 0x6C
      · exact unobserved hr hset (row := .localRelease) (by simp [reportRow, hrelease]) rfl (fromSection_of_cls hno)
      have hrow : reportRow code = .forwardFrame := by
        unfold reportRow
        split <;> first | rfl | (exfalso; simp_all)
      rw [hrow]
      exact exec_forwardFrame.trans (takeFrame_routed hr.arrived (by rw [row_of_report hr.kind, hr.code, hrow]))

end Sys2Proof.Machine
end

-- ==== The trip path ====
section
/-! PROOFS. The trip path in its order, and what is left of a tripped berth at its arbiter and in its record (R20,
R21). -/

namespace Sys2Proof.Machine

variable {s t : State} {b : BerthId} {x : SectionId} {cause : TripCause}

/-! ## When a trip opens the breaker and gives capacity back (R20) -/

theorem closingToOpening_iff {st : BerthState} : st.closingToOpening = true ↔
    st = .closing ∨ st = .rampIn ∨ st = .onShore ∨ st = .rampOut ∨ st = .opening := by
  cases st <;> simp [BerthState.closingToOpening]

theorem holdsCapacity_iff {st : BerthState} : st.holdsCapacity = true ↔ st = .admitted ∨ st.closingToOpening = true := by
  cases st <;> simp [BerthState.holdsCapacity, BerthState.closingToOpening]

theorem tripSendsOpen_iff {st : BerthState} : tripSendsOpen st cause = true ↔
    cause = .breakerClosed ∨ (st.closingToOpening = true ∧ cause ≠ .breakerOpened) := by
  simp [tripSendsOpen]

/-! ## The steps up to the choice (R20, steps 1 and 2) -/

/-- The record of a berth that trips for a cause, when the trip OPEN has not been sent yet. -/
def Berth.tripped (cause : TripCause) (r : Berth) : Berth :=
  { r with
    state := .tripped
    tripCause := some cause
    tally := { r.tally with trips := min 255 (r.tally.trips + 1) }
    adopted := if r.state = .onShore then false else r.adopted
    overdraw := if r.state = .onShore then none else r.overdraw
    overdrawStage := if r.state = .onShore then .first else r.overdrawStage
    provingStep := if r.state = .plugged then .idle else r.provingStep
    comparison := if r.state = .plugged then 0#5 else r.comparison
    assignOrder := if r.state = .plugged then none else r.assignOrder
    inFlight := none }

/-- The berth is in TRIPPED, its old activity abandoned. -/
def tripMarked (b : BerthId) (cause : TripCause) (s : State) : State :=
  s |> moveTo b .tripped
    |> updBerth b (fun r => { r with
        tripCause := some cause, tally := { r.tally with trips := satInc Config.byteMax r.tally.trips } })
    |> clearInFlight b

/-- The trip OPEN is sent and timed. -/
def tripOpened (b : BerthId) (cause : TripCause) (s : State) : State :=
  if tripSendsOpen (s.berth b).state cause then tripOpen b (tripMarked b cause s) else tripMarked b cause s

/-- The request is withdrawn and the operation abandoned. -/
def tripFreed (b : BerthId) (cause : TripCause) (s : State) : State :=
  match (withdrawRequest b (tripOpened b cause s)).opOf b with
  | some k => freeArbiter (s.secOf b) k (withdrawRequest b (tripOpened b cause s))
  | none => withdrawRequest b (tripOpened b cause s)

/-- The lock is released. -/
def tripUnlocked (b : BerthId) (cause : TripCause) (s : State) : State :=
  if (tripFreed b cause s).holdsLock b then dropLock (s.secOf b) (tripFreed b cause s) else tripFreed b cause s

theorem tripHead_eq {h : Hooks} : tripHead h b cause s =
    if (s.opOf b).isSome || s.holdsLock b then h.early (s.secOf b) (tripUnlocked b cause s) else tripUnlocked b cause s :=
  rfl

theorem tripMarked_eq : tripMarked b cause s = updBerth b (Berth.tripped cause) (leaveState b s) := by
  rw [tripMarked, moveTo, clearInFlight, updBerth_updBerth, updBerth_updBerth]
  refine updBerth_congr ?_
  simp [Berth.goTo, Berth.tripped, satInc_eq_min, Config.byteMax]

theorem tripMarked_sec : (tripMarked b cause s).sec x = (leaveState b s).sec x := by
  rw [tripMarked_eq, updBerth_sec]

theorem untouched_tripMarked : Untouched s (tripMarked b cause s) := by
  have c := Closed.untouched s
  exact c.clearInFlight trivial (c.berth trivial (fun _ => ⟨rfl, rfl, rfl, rfl, rfl, rfl⟩) (c.moves .tripped trivial (.refl s)))

theorem tripOpen_eq : tripOpen b s = updBerth b (fun r => { r with
    inFlight := some ⟨.tripOpen, s.clock.time, s.timings.operate⟩ }) (sendTripOpen b s) := by
  have hclock : (sendTripOpen b s).clock = s.clock := ((Closed.untouched s).sendTripOpen (.refl s)).clock
  rw [tripOpen, startInFlight, hclock]

theorem tripOpened_eq : tripOpened b cause s = if tripSendsOpen (s.berth b).state cause then
    tripMarked b cause s |> sendTripOpen b |> updBerth b (fun r => { r with
      inFlight := some ⟨.tripOpen, s.clock.time, s.timings.operate⟩ })
    else tripMarked b cause s := by
  have hu : Untouched s (tripMarked b cause s) := untouched_tripMarked
  rw [tripOpened, tripOpen_eq, hu.clock, hu.timings]

theorem tripOpened_sec : (tripOpened b cause s).sec x = (leaveState b s).sec x := by
  rw [tripOpened_eq]
  split
  · rw [updBerth_sec, sendTripOpen_sec, tripMarked_sec]
  · exact tripMarked_sec

theorem tripOpened_berth : (tripOpened b cause s).berth b = { Berth.tripped cause (s.berth b) with
    bypass := if (s.berth b).state = .queued then 0 else (s.berth b).bypass
    inFlight := if tripSendsOpen (s.berth b).state cause then some ⟨.tripOpen, s.clock.time, s.timings.operate⟩
      else none } := by
  have hm : (tripMarked b cause s).berth b = { Berth.tripped cause (s.berth b) with
      bypass := if (s.berth b).state = .queued then 0 else (s.berth b).bypass } := by
    rw [tripMarked_eq, updBerth_berth_same, leaveState_berth_record]
    rfl
  rw [tripOpened_eq]
  split
  next h =>
    rw [updBerth_berth_same, State.berth, sendTripOpen_berths, ← State.berth, hm]
  next h => rw [hm]; rfl

/-- A state that only the queues left has the operations and locks it had (R68). -/
theorem leaveState_op_lock : ((leaveState b s).sec x).op = (s.sec x).op ∧ ((leaveState b s).sec x).lock = (s.sec x).lock := by
  unfold leaveState
  split
  · rw [leaveQueue_sec]; exact ⟨rfl, rfl⟩
  · cases x <;> exact ⟨rfl, rfl⟩
  all_goals exact ⟨rfl, rfl⟩

theorem secOf_of_berth {r : Berth} (h : t.berth b = r) (hs : r.sec = s.secOf b) : t.secOf b = s.secOf b := by
  rw [State.secOf, h, hs]

theorem tripOpened_secOf : (tripOpened b cause s).secOf b = s.secOf b := secOf_of_berth tripOpened_berth rfl

/-- What the abandoned operation leaves at the arbiter (R90, R92, R93). -/
def SectionRec.freed (k : OpKind) (spacing : Nat) (r : SectionRec) : SectionRec :=
  { r with
    arbiter := .partIdle
    op := none
    spacing := if k = .step then (if spacing = 0 then none else some spacing) else r.spacing }

theorem freeArbiter_eq {k : OpKind} : freeArbiter x k s = updSec x (SectionRec.freed k s.timings.stepSpacing) s := by
  unfold freeArbiter startSpacing
  dsimp only
  split
  next h =>
    rw [updSec_updSec, updSec_timings]
    exact updSec_congr (by simp [SectionRec.freed, h, Timer.startUnlessZero])
  next h => exact updSec_congr (by simp [SectionRec.freed, h])

theorem withdrawRequest_berth : (withdrawRequest b s).berth b = s.berth b := by
  rw [State.berth, withdrawRequest_berths]
  rfl

theorem tripOpened_opOf : (withdrawRequest b (tripOpened b cause s)).opOf b = s.opOf b := by
  have hsec : (withdrawRequest b (tripOpened b cause s)).secOf b = s.secOf b :=
    secOf_of_berth (withdrawRequest_berth.trans tripOpened_berth) rfl
  have hop : ((withdrawRequest b (tripOpened b cause s)).sec (s.secOf b)).op = (s.sec (s.secOf b)).op := by
    rw [withdrawRequest_sec, ← leaveState_op_lock (b := b).1, ← tripOpened_sec (cause := cause)]
    rfl
  rw [State.opOf, State.opOf, hsec, hop]

theorem untouched_tripOpened : Untouched s (tripOpened b cause s) := by
  have c := Closed.untouched s
  unfold tripOpened
  split
  · exact c.tripOpen trivial untouched_tripMarked
  · exact untouched_tripMarked

theorem tripFreed_eq : tripFreed b cause s = match s.opOf b with
    | none => withdrawRequest b (tripOpened b cause s)
    | some k => updSec (s.secOf b) (SectionRec.freed k s.timings.stepSpacing) (withdrawRequest b (tripOpened b cause s)) := by
  have ht : (withdrawRequest b (tripOpened b cause s)).timings = s.timings := by
    rw [withdrawRequest, updSec_timings, updSec_timings, untouched_tripOpened.timings]
  rw [tripFreed, tripOpened_opOf]
  cases s.opOf b with
  | none => rfl
  | some k => exact freeArbiter_eq.trans (by rw [ht])

theorem tripFreed_berth : (tripFreed b cause s).berth b = (tripOpened b cause s).berth b := by
  rw [tripFreed_eq]
  split
  · exact withdrawRequest_berth
  · rw [updSec_berth, withdrawRequest_berth]

theorem tripFreed_secOf : (tripFreed b cause s).secOf b = s.secOf b :=
  secOf_of_berth (tripFreed_berth.trans tripOpened_berth) rfl

theorem tripFreed_lock : ((tripFreed b cause s).sec x).lock = (s.sec x).lock := by
  have hw : ((withdrawRequest b (tripOpened b cause s)).sec x).lock = (s.sec x).lock := by
    rw [withdrawRequest_sec, ← leaveState_op_lock (b := b).2, ← tripOpened_sec (cause := cause)]
    rfl
  rw [tripFreed_eq]
  split
  · exact hw
  · rw [updSec_sec, ← hw]
    split
    next h => subst h; rfl
    next => rfl

theorem tripUnlocked_eq : tripUnlocked b cause s = if (s.sec (s.secOf b)).lock.map (·.holder) = some b then
    updSec (s.secOf b) (fun r => { r with lock := none }) (tripFreed b cause s) else tripFreed b cause s := by
  have hl : (tripFreed b cause s).holdsLock b = true ↔ (s.sec (s.secOf b)).lock.map (·.holder) = some b := by
    rw [holdsLock_iff, tripFreed_secOf, tripFreed_lock]
  rw [tripUnlocked]
  simp only [hl]
  rfl

theorem tripUnlocked_berth : (tripUnlocked b cause s).berth b = (tripOpened b cause s).berth b := by
  rw [tripUnlocked_eq]
  split
  · rw [updSec_berth, tripFreed_berth]
  · exact tripFreed_berth

theorem leaveState_eq : leaveState b s = match (s.berth b).state with
    | .queued => leaveQueue b s
    | .admitted => { s with startQueue := s.startQueue.erase b }
    | _ => s := by
  unfold leaveState
  cases (s.berth b).state <;> rfl

/-! ## The whole path (R20) -/

/-- The arbiter's early choice, and the grant and bay given back (R20, steps 2 to 4). -/
def tripGiven (h : Hooks) (b : BerthId) (cause : TripCause) (s : State) : State :=
  if (s.berth b).state.holdsCapacity then h.passes (releaseGrant b (tripHead h b cause s)) else tripHead h b cause s

theorem trip_eq {h : Hooks} {reason : Option FailReason} (hs : (s.berth b).state ≠ .tripped) :
    trip h b cause reason s = (tripGiven h b cause s
      |> updBerth b (fun r => { r with holdGranted := false, ramp := { r.ramp with masked := true, pauseTimer := none } })
      |> refuseHeld .berthTripped b
      |> noticeBerth b .tripped (trippedDetail cause (s.berth b).state ((tripGiven h b cause s).berth b).breakerFail
          reason)) := by
  have hm : ∀ u, updBerth b (fun r => { r with holdGranted := false }) (maskRamp b u) = updBerth b (fun r => { r with
      holdGranted := false, ramp := { r.ramp with masked := true, pauseTimer := none } }) u := fun u => by
    rw [maskRamp, updRamp, updBerth_updBerth]
  rw [← hm]
  exact if_neg hs

/-! ## What is left of the berth (R20) -/

theorem not_mem_leaveState_queue (h : s.queuesSound) : b ∉ ((leaveState b s).sec x).queue := by
  intro hb
  by_cases hq : (s.berth b).state = .queued
  · have hl : leaveState b s = leaveQueue b s := by simp [leaveState, hq]
    rw [hl, leaveQueue_sec] at hb
    simp [SectionRec.without] at hb
  · have hl : ((leaveState b s).sec x).queue = (s.sec x).queue := by
      unfold leaveState
      split
      · exact absurd ‹_› hq
      · cases x <;> rfl
      all_goals rfl
    exact hq (h x b (hl ▸ hb))

/-- A section that an abandoned operation or a released lock leaves keeps its requests and its queue. -/
theorem tripUnlocked_waiting : ((tripUnlocked b cause s).sec x).requests = (((leaveState b s).sec x).unasked b).requests ∧
    ((tripUnlocked b cause s).sec x).queue = ((leaveState b s).sec x).queue := by
  have hfreed : ((tripFreed b cause s).sec x).requests = (((leaveState b s).sec x).unasked b).requests ∧
      ((tripFreed b cause s).sec x).queue = ((leaveState b s).sec x).queue := by
    have hw : (withdrawRequest b (tripOpened b cause s)).sec x = ((leaveState b s).sec x).unasked b := by
      rw [withdrawRequest_sec, tripOpened_sec]
    rw [tripFreed_eq]
    split
    · rw [hw]; exact ⟨rfl, rfl⟩
    · rw [updSec_sec, ← hw]
      split
      next h => subst h; exact ⟨rfl, (congrArg SectionRec.queue hw :)⟩
      next => exact ⟨rfl, (congrArg SectionRec.queue hw :)⟩
  rw [tripUnlocked_eq]
  split
  · rw [updSec_sec]
    split
    next h => subst h; exact hfreed
    next => exact hfreed
  · exact hfreed

/-- The berth that trips waits nowhere any more (R20, R68, R84). -/
theorem tripUnlocked_idleAt (h : s.queuesSound) : (tripUnlocked b cause s).idleAt b := by
  intro y
  obtain ⟨hr, hq⟩ := tripUnlocked_waiting (b := b) (cause := cause) (s := s) (x := y)
  rw [hr, hq]
  exact ⟨by simp [SectionRec.unasked], not_mem_leaveState_queue h⟩

theorem opOf_eq_none_iff : s.opOf b = none ↔ (s.sec (s.secOf b)).op.map (·.1) ≠ some b := by
  unfold State.opOf
  cases (s.sec (s.secOf b)).op with
  | none => simp
  | some o => by_cases h : o.1 = b <;> simp [h]

theorem tripFreed_op : ((tripFreed b cause s).sec (s.secOf b)).op.map (·.1) ≠ some b := by
  have hw : ((withdrawRequest b (tripOpened b cause s)).sec (s.secOf b)).op = (s.sec (s.secOf b)).op := by
    rw [withdrawRequest_sec, ← leaveState_op_lock (b := b).1, ← tripOpened_sec (cause := cause)]
    rfl
  rw [tripFreed_eq]
  split
  next h => rw [hw]; exact opOf_eq_none_iff.mp h
  next => rw [updSec_sec_same]; exact (Option.some_ne_none b).symm

/-- It has neither an operation in flight nor the lock (R20, R92, R98). -/
theorem tripUnlocked_notOf : ((tripUnlocked b cause s).sec (s.secOf b)).notOf b := by
  rw [tripUnlocked_eq]
  split
  · rw [updSec_sec_same]
    exact ⟨tripFreed_op, (Option.some_ne_none b).symm⟩
  next h => exact ⟨tripFreed_op, by rw [tripFreed_lock]; exact h⟩

/-- The tripped berth's record `r` while it holds nothing at its arbiter. -/
def State.holdsNothingAt (b : BerthId) (x : SectionId) (r : Berth) (t : State) : Prop :=
  (t.idleAt b ∧ t.berth b = r) ∧ (t.sec x).notOf b

theorem closed_holdsNothingAt {r : Berth} : Closed (· ≠ b) (State.holdsNothingAt b x r) :=
  (Closed.idle b r).and (Changes.notOf b x)

theorem holdsNothingAt_releaseGrant {r : Berth} (h : s.holdsNothingAt b x r) : (releaseGrant b s).holdsNothingAt b x
    { r with grant := 0, bay := none, terms := none, overdraw := none, overdrawStage := .first } := by
  obtain ⟨⟨hidle, hr⟩, hop, hlock⟩ := h
  refine ⟨⟨fun y => ?_, by rw [releaseGrant_berth, hr]⟩, ?_⟩
  · obtain ⟨h1, h2, -, -⟩ := releaseGrant_sec (b := b) (s := s) (y := y)
    rw [h1, h2]
    exact hidle y
  · obtain ⟨-, -, h3, h4⟩ := releaseGrant_sec (b := b) (s := s) (y := x)
    exact ⟨by rw [h3]; exact hop, by rw [h4]; exact hlock⟩

theorem tripHead_holdsNothingAt {h : Hooks} (hh : ∀ {r}, HooksClosed (State.holdsNothingAt b (s.secOf b) r) h)
    (hq : s.queuesSound) : (tripHead h b cause s).holdsNothingAt b (s.secOf b) ((tripOpened b cause s).berth b) := by
  have hu : (tripUnlocked b cause s).holdsNothingAt b (s.secOf b) ((tripOpened b cause s).berth b) :=
    ⟨⟨tripUnlocked_idleAt hq, tripUnlocked_berth⟩, tripUnlocked_notOf⟩
  rw [tripHead_eq]
  split
  · exact hh.early _ hu
  · exact hu

/-- What the release takes from the record of a berth with capacity (R72). -/
def Berth.given (capacity : Bool) (r : Berth) : Berth :=
  if capacity then { r with grant := 0, bay := none, terms := none, overdraw := none, overdrawStage := .first } else r

theorem tripGiven_holdsNothingAt {h : Hooks} (hh : ∀ {r}, HooksClosed (State.holdsNothingAt b (s.secOf b) r) h)
    (hq : s.queuesSound) : (tripGiven h b cause s).holdsNothingAt b (s.secOf b)
      (((tripOpened b cause s).berth b).given (s.berth b).state.holdsCapacity) := by
  have hhead := tripHead_holdsNothingAt (cause := cause) hh hq
  unfold tripGiven Berth.given
  split
  · exact hh.passes (holdsNothingAt_releaseGrant hhead)
  · exact hhead

theorem noticeBerth_tripped_berth {l : List Byte} : (noticeBerth b .tripped l s).berth b = s.berth b :=
  joinNotices_berth

/-- The record and the arbiter of a berth that has tripped in an event of its own (R20). -/
theorem trip_holdsNothing {reason : Option FailReason} (hs : (s.berth b).state ≠ .tripped) (hq : s.queuesSound) :
    (trip .live b cause reason s).berth b = { ((tripOpened b cause s).berth b).given (s.berth b).state.holdsCapacity with
      ramp := { (((tripOpened b cause s).berth b).given (s.berth b).state.holdsCapacity).ramp with
        masked := true, pauseTimer := none }
      holdGranted := false
      holdQueue := [] } ∧
    ((trip .live b cause reason s).sec (s.secOf b)).freeOf b := by
  obtain ⟨⟨hidle, hrec⟩, hop, hlock⟩ := tripGiven_holdsNothingAt (cause := cause) closed_holdsNothingAt.live hq
  rw [trip_eq hs]
  refine ⟨?_, ?_⟩
  · rw [noticeBerth_tripped_berth, refuseHeld_berth, updBerth_berth_same, hrec]
  · rw [noticeBerth_sec, refuseHeld_sec, updBerth_sec]
    exact ⟨(hidle _).1, hop, hlock, (hidle _).2⟩

/-- Settles O25: the path's steps in their order; then the berth's record through the choice and the passes it sets
going, which leave it alone, as it waits nowhere any more. -/
theorem tripPathLeavesNothingHeld : Obligations.TripPathLeavesNothingHeld := by
  intro h b cause reason s old x supplied capacity opens locks left marked opened freed unlocked chosen given
  have hcap : old.holdsCapacity = true ↔ capacity := holdsCapacity_iff.trans (or_congr_right closingToOpening_iff)
  have hopens : tripSendsOpen old cause = true ↔ opens :=
    tripSendsOpen_iff.trans (or_congr_right (and_congr_left' closingToOpening_iff))
  have hleft : leaveState b s = left := leaveState_eq
  have hmarked : tripMarked b cause s = marked := by
    have hold : ((leaveState b s).berth b).state = old := leaveState_berth_state
    rw [tripMarked_eq]
    dsimp only [marked]
    rw [← hleft]
    exact updBerth_congr (by simp only [Berth.tripped, hold])
  have hopened : tripOpened b cause s = opened := by
    rw [tripOpened_eq, hmarked]
    exact if_congr hopens rfl rfl
  have hfreed : tripFreed b cause s = freed := by
    rw [tripFreed_eq, hopened]
    rfl
  have hunlocked : tripUnlocked b cause s = unlocked := by
    rw [tripUnlocked_eq, hfreed]
  have hchosen : tripHead h b cause s = chosen := by
    rw [tripHead_eq, hunlocked]
    exact if_congr (by simp [holdsLock_iff, Option.isSome_iff_ne_none, locks, x]) rfl rfl
  have hgiven : tripGiven h b cause s = given := by
    rw [tripGiven, hchosen]
    exact if_congr hcap rfl rfl
  refine ⟨fun hs => if_pos hs, fun hs => ?_, fun hs hq => ?_⟩
  · rw [trip_eq hs, hgiven]
    rfl
  · intro t
    obtain ⟨hrec, hfree⟩ := trip_holdsNothing (cause := cause) (reason := reason) hs hq
    refine ⟨hrec.trans ?_, hfree, (Closed.untouched s).trip (Closed.untouched s).live trivial (.refl s)⟩
    rw [tripOpened_berth]
    have hflight : (if tripSendsOpen old cause then some (⟨.tripOpen, s.clock.time, s.timings.operate⟩ : InFlight) else none) =
        if opens then some ⟨.tripOpen, s.clock.time, s.timings.operate⟩ else none := if_congr hopens rfl rfl
    rw [hflight]
    by_cases hc : capacity
    · have hc' : (s.berth b).state.holdsCapacity = true := hcap.mpr hc
      simp only [Berth.given, Berth.tripped, hc', hc, if_true]
      rfl
    · have hc' : (s.berth b).state.holdsCapacity = false := by simpa using mt hcap.mp hc
      have hon : (s.berth b).state ≠ .onShore := fun h => by simp [h, BerthState.holdsCapacity] at hc'
      have hon' : old ≠ .onShore := hon
      simp only [Berth.given, Berth.tripped, hc', hc, hon, hon', if_false, Bool.false_eq_true]
      rfl

end Sys2Proof.Machine
end

-- ==== The service pass ====
section
/-! PROOFS. What a service pass grants and passes over, and what a grant does (R69 to R71). -/

namespace Sys2Proof.Machine

variable {s t : State} {b : BerthId} {x : SectionId} {k : BayId} {rest ahead : List BerthId} {p : Profile}

/-! ## What fits (R70) -/

/-- A bay that a grant may take (R70, R71). -/
def State.bayFree (s : State) (k : BayId) : Prop := (s.bay k).state = .free ∧ s.converterEntry k ≠ none

theorem bayFree_iff : ((s.bay k).state == .free && (s.converterEntry k).isSome) = true ↔ s.bayFree k := by
  simp [State.bayFree, Option.isSome_iff_ne_none]

theorem freeBay_eq : (s.bayFree .bay1 → s.freeBay = some .bay1) ∧
    (¬s.bayFree .bay1 → s.bayFree .bay2 → s.freeBay = some .bay2) ∧
    (¬s.bayFree .bay1 → ¬s.bayFree .bay2 → s.freeBay = none) := by
  simp only [← bayFree_iff, State.freeBay, bayIds, List.find?_cons, List.find?_nil, Bool.not_eq_true]
  refine ⟨fun h => ?_, fun h1 h2 => ?_, fun h1 h2 => ?_⟩ <;> simp only [*]

theorem freeBay_isSome_iff : s.freeBay.isSome = true ↔ s.bayFree .bay1 ∨ s.bayFree .bay2 := by
  obtain ⟨h1, h2, h3⟩ := freeBay_eq (s := s)
  by_cases hb1 : s.bayFree .bay1
  · simp [h1 hb1, hb1]
  by_cases hb2 : s.bayFree .bay2
  · simp [h2 hb1 hb2, hb2]
  · simp [h3 hb1 hb2, hb1, hb2]

theorem fits_iff (hp : s.profileOf b = some p) : s.fits x b = true ↔
    (s.sec x).granted + p.demand ≤ (s.sec x).limit ∧ (p.frequency = .f50 ∨ s.bayFree .bay1 ∨ s.bayFree .bay2) := by
  simp only [State.fits, hp, Bool.and_eq_true, Bool.or_eq_true, decide_eq_true_eq, beq_iff_eq, freeBay_isSome_iff]

/-! ## The walk (R70) -/

/-- An entry already passed over has reached the bypass limit (R70). -/
def State.blockedBy (s : State) (x : SectionId) (ahead : List BerthId) : Prop :=
  ∃ a ∈ ahead, (s.sec x).bypassLimit ≤ (s.berth a).bypass

theorem blockedBy_iff : (ahead.any fun a => (s.sec x).bypassLimit ≤ (s.berth a).bypass) = true ↔ s.blockedBy x ahead := by
  simp [State.blockedBy]

theorem walkQueue_of_blocked (h : s.blockedBy x ahead) : walkQueue x (b :: rest) ahead s = s := by
  rw [walkQueue, if_pos (blockedBy_iff.mpr h)]

theorem walkQueue_of_fits (h : ¬s.blockedBy x ahead) (hp : s.profileOf b = some p) (hf : s.fits x b = true) :
    walkQueue x (b :: rest) ahead s = walkQueue x rest ahead (bumpAhead ahead (grantBerth x b p s)) := by
  rw [walkQueue, if_neg (mt blockedBy_iff.mp h), hp, hf]

theorem walkQueue_of_not_fits (h : ¬s.blockedBy x ahead) (hf : ∀ p, s.profileOf b = some p → s.fits x b = false) :
    walkQueue x (b :: rest) ahead s = walkQueue x rest (ahead ++ [b]) s := by
  rw [walkQueue, if_neg (mt blockedBy_iff.mp h)]
  split
  next p hfits hp => rw [hf p hp] at hfits; cases hfits
  next => rfl

/-! ## The grant (R71) -/

/-- A grant's changes once the bay is settled to be `k`, up to the notice (R71). -/
def grantedTo (x : SectionId) (b : BerthId) (p : Profile) (k : Option BayId) (s : State) : State := s
  |> leaveQueue b
  |> updBerth b (fun r => { r with
      state := .admitted
      grant := p.demand
      bay := k
      terms := some ⟨p.frequency, p.method, p.rampMode, p.step⟩
      ramp := { r.ramp with
        masked := true, pauseTimer := none, aborting := false, demoted := false, abortCause := none } })
  |> updSec x (fun r => { r with granted := r.granted + p.demand })
  |> reevaluate b
  |> updBerth b (fun r => { r with inFlight := none })

theorem updSec_granted_without {n : Nat} {y : SectionId} :
    updSec y (SectionRec.without b) (updSec x (fun r => { r with granted := r.granted + n }) s) =
      updSec x (fun r => { r with granted := r.granted + n }) (updSec y (SectionRec.without b) s) := by
  cases x <;> cases y <;> rfl

/-- The grant's changes one by one, entering ADMITTED last, come to the same as in one update of the record (R71). -/
theorem enterState_admitted (hs : (s.berth b).state = .queued) {k : Option BayId} : (s
    |> updBerth b (fun r => { r with grant := p.demand })
    |> updSec x (fun r => { r with granted := r.granted + p.demand })
    |> updBerth b (fun r => { r with bay := k })
    |> updBerth b (fun r => { r with terms := some p.terms })
    |> updRamp b Ramp.onAdmitted
    |> enterState .quiet b .admitted) = grantedTo x b p k s := by
  have hqueued : ∀ g : Berth → Berth, (g (s.berth b)).state = (s.berth b).state →
      ((updSec x (fun r => { r with granted := r.granted + p.demand }) (updBerth b g s)).berth b).state = .queued := by
    intro g hg
    rw [updSec_berth, updBerth_berth_same, hg, hs]
  simp only [updRamp, updBerth_updSec, updBerth_updBerth]
  rw [enterState_plain (by rw [hqueued _ rfl]; decide) (by rw [hqueued _ rfl]; decide),
    moveTo_of_queued (hqueued _ rfl) (by decide) (by decide), grantedTo]
  simp only [leaveQueue, updSec_granted_without, updBerth_updSec, updBerth_updBerth]
  rfl

/-- The state with a bay taken for a berth of section `x`, and the turn gone to the other section (R71, step 3). -/
def turned (x : SectionId) (b : BerthId) (k : BayId) (s : State) : State :=
  updBay k (fun r => { r with state := .granted, berth := some b }) { s with bayTurn := otherSection x }

theorem turned_updBerth {g : Berth → Berth} : turned x b k (updBerth b g s) = updBerth b g (turned x b k s) := by
  cases k <;> rfl

theorem turned_updSec {g : SectionRec → SectionRec} : turned x b k (updSec x g s) = updSec x g (turned x b k s) := by
  cases k <;> cases x <;> rfl

theorem takeBay_f50 : takeBay x b .f50 s = s := rfl

theorem takeBay_f60 (h : s.freeBay = some k) :
    takeBay x b .f60 s = updBerth b (fun r => { r with bay := some k }) (turned x b k s) := by
  simp only [takeBay, h]
  rfl

theorem freeBay_congr (hb : ∀ k, t.bay k = s.bay k) (he : ∀ k, t.converterEntry k = s.converterEntry k) :
    t.freeBay = s.freeBay := by
  simp only [State.freeBay, hb, he]

theorem grantedTo_facts {k : Option BayId} :
    ((grantedTo x b p k s).berth b).bay = k ∧
    ((grantedTo x b p k s).sec x).granted = (s.sec x).granted + p.demand := by
  unfold grantedTo
  refine ⟨?_, ?_⟩
  · rw [updBerth_berth_same, reevaluate_berth, if_pos rfl, updSec_berth, updBerth_berth_same]
  · rw [updBerth_sec, reevaluate_sec, updSec_sec_same, updBerth_sec, leaveQueue_sec]
    rfl

/-- A grant, once it is settled which state and bay its changes start from (R71). -/
theorem grantBerth_of_bay {k : Option BayId} (hs : (t.berth b).state = .queued)
    (hsum : (t.sec x).granted = (s.sec x).granted)
    (hk : takeBay x b p.frequency (s |> updBerth b (fun r => { r with grant := p.demand })
        |> updSec x (fun r => { r with granted := r.granted + p.demand })) =
      (t |> updBerth b (fun r => { r with grant := p.demand })
        |> updSec x (fun r => { r with granted := r.granted + p.demand })
        |> updBerth b (fun r => { r with bay := k }))) :
    grantBerth x b p s = ({ grantedTo x b p k t with startQueue := (grantedTo x b p k t).startQueue ++ [b] }
      |> noticeBerth b .admitted ([byte p.demand, bayByte k] ++ bytes2 ((s.sec x).granted + p.demand))) := by
  obtain ⟨hbay, hgranted⟩ := grantedTo_facts (x := x) (p := p) (k := k) (s := t)
  unfold grantBerth
  dsimp only
  rw [hk, enterState_admitted hs, hbay, hgranted, hsum]

theorem grantBerth_f50 (hs : (s.berth b).state = .queued) (hf : p.frequency = .f50) : grantBerth x b p s =
    ({ grantedTo x b p (s.berth b).bay s with startQueue := (grantedTo x b p (s.berth b).bay s).startQueue ++ [b] }
      |> noticeBerth b .admitted ([byte p.demand, bayByte (s.berth b).bay] ++ bytes2 ((s.sec x).granted + p.demand))) := by
  refine grantBerth_of_bay hs rfl ?_
  rw [hf, takeBay_f50]
  exact (updBerth_id (by rw [updSec_berth, updBerth_berth_same])).symm

theorem grantBerth_f60 (hs : (s.berth b).state = .queued) (hf : p.frequency = .f60) (hk : s.freeBay = some k) :
    grantBerth x b p s = ({ grantedTo x b p (some k) (turned x b k s) with
        startQueue := (grantedTo x b p (some k) (turned x b k s)).startQueue ++ [b] }
      |> noticeBerth b .admitted ([byte p.demand, bayByte (some k)] ++ bytes2 ((s.sec x).granted + p.demand))) := by
  refine grantBerth_of_bay (by cases k <;> exact hs) (by cases k <;> cases x <;> rfl) ?_
  rw [hf, takeBay_f60 (k := k), turned_updSec, turned_updBerth]
  rw [← hk]
  exact freeBay_congr (fun j => by cases x <;> cases j <;> rfl) (fun j => by cases x <;> rfl)

/-! ## The passes of an event (R69) -/

/-- Settles O46: the pass's guard, its walk entry by entry, the grant by the frequency and the bays, and the passes. -/
theorem servicePassGrantsWhatFits : Obligations.ServicePassGrantsWhatFits := by
  intro x s
  refine ⟨fun h => ?_, fun hf ho => if_pos ⟨hf, ho⟩, fun ahead => rfl, fun b rest ahead => ?_, ?_⟩
  · refine if_neg fun ⟨hf, ho⟩ => ?_
    simp [hf, ho] at h
  · intro blocked bayFree fits
    refine ⟨walkQueue_of_blocked, fun hb p hp hf => walkQueue_of_fits hb hp ((fits_iff hp).mpr hf), fun hb hf =>
      walkQueue_of_not_fits hb fun p hp => ?_, fun p hs => ?_⟩
    · rw [← Bool.not_eq_true]
      exact fun h => hf p hp ((fits_iff hp).mp h)
    · exact ⟨grantBerth_f50 hs, fun hf h1 => grantBerth_f60 hs hf (freeBay_eq.1 h1),
        fun hf h1 h2 => grantBerth_f60 hs hf (freeBay_eq.2.1 h1 h2)⟩
  · intro t
    refine ⟨settled_runPasses, fun ha hb => ?_, fun ha hb => ?_, fun ha hb => ?_⟩ <;> simp only [runPasses, ha, hb] <;> rfl

end Sys2Proof.Machine
end

-- ==== The choice and its grant ====
section
/-! PROOFS. Which request a section's arbiter chooses, and what the grant does (R85 to R90, R96, R97). -/

namespace Sys2Proof.Machine

variable {s t : State} {b : BerthId} {x : SectionId} {k : OpKind} {l front back : List BerthId}

/-! ## The order of the choice (R85, R86) -/

/-- The berths a section's choice considers, in its order: the lock's holder alone, or all by the priority mode. -/
def SectionRec.candidates (r : SectionRec) : List BerthId :=
  match r.lock with
  | some l => [l.holder]
  | none => r.order

theorem cyclicAfter_some (b : BerthId) : cyclicAfter (some b) = List.rotate [0, 1, 2, 3, 4, 5, 6, 7] (b.val + 1) := by
  revert b
  decide

theorem candidates_eq (r : SectionRec) : r.candidates = match r.lock, r.mode, r.lastGranted with
    | some l, _, _ => [l.holder]
    | none, .rotating, some b => List.rotate [0, 1, 2, 3, 4, 5, 6, 7] (b.val + 1)
    | none, _, _ => [0, 1, 2, 3, 4, 5, 6, 7] := by
  unfold SectionRec.candidates SectionRec.order
  cases r.lock with
  | some l => rfl
  | none =>
    cases r.mode with
    | fixed => rfl
    | rotating =>
      cases r.lastGranted with
      | none => rfl
      | some b => exact cyclicAfter_some b

/-- A berth that has no request, or a STEP that the step spacing holds back (R86, R93). -/
def SectionRec.passesOver (r : SectionRec) (b : BerthId) : Prop :=
  r.requests[b] = none ∨ (r.requests[b] = some .step ∧ r.spacing ≠ none)

theorem pickRequest_of_passesOver (h : (s.sec x).passesOver b) : pickRequest x (b :: l) s = pickRequest x l s := by
  obtain h | ⟨h, hs⟩ := h
  · simp [pickRequest, h]
  · simp [pickRequest, h, Option.isSome_iff_ne_none, hs]

theorem pickRequest_append (h : ∀ c ∈ front, (s.sec x).passesOver c) :
    pickRequest x (front ++ l) s = pickRequest x l s := by
  induction front with
  | nil => rfl
  | cons b front ih =>
    rw [List.cons_append, pickRequest_of_passesOver (h b (by simp)), ih fun c hc => h c (by simp [hc])]

theorem pickRequest_of_all (h : ∀ c ∈ l, (s.sec x).passesOver c) : pickRequest x l s = (s, none) := by
  have := pickRequest_append (l := []) h
  rwa [List.append_nil] at this

/-- A request that is not held back is chosen, but for a DEAD_CLOSE whose bus is not DEAD (R86). -/
theorem pickRequest_of_request (hr : (s.sec x).requests[b] = some k) (hp : ¬(s.sec x).passesOver b)
    (hd : k ≠ .deadClose ∨ (s.berth b).busDead = true) : pickRequest x (b :: l) s = (s, some (b, k)) := by
  cases k with
  | step =>
    have hs : (s.sec x).spacing = none := by
      by_contra hs
      exact hp (.inr ⟨hr, hs⟩)
    simp [pickRequest, hr, hs]
  | deadClose => simp [pickRequest, hr, hd.resolve_left (by simp)]
  | syncClose => simp [pickRequest, hr]
  | openOp => simp [pickRequest, hr]

theorem pickRequest_of_dead (hr : (s.sec x).requests[b] = some .deadClose) (hd : (s.berth b).busDead = false) :
    pickRequest x (b :: l) s = pickRequest x l (handBack b s) := by
  simp [pickRequest, hr, hd]

theorem busDead_iff {r : Berth} : r.busDead = true ↔ ∃ q, r.obs.shipState = some q ∧ q.busDead = true := by
  unfold Berth.busDead
  cases r.obs.shipState <;> simp

/-! ## The choice (R85) -/

/-- No claim of the local panel comes before the requests (R85). -/
def SectionRec.unclaimed (r : SectionRec) : Prop := r.lock ≠ none ∨ r.localPending = false

theorem choose_of_busy (h : (s.sec x).arbiter ≠ .partIdle) : choose x s = (s, none) := if_pos h

theorem choose_of_claim (h : (s.sec x).arbiter = .partIdle) (hl : (s.sec x).lock = none)
    (hp : (s.sec x).localPending = true) : choose x s =
      (updSec x (fun r => { r with localPending := false, arbiter := .localPanel }) s, none) := by
  simp [choose, h, hl, hp]

theorem choose_of_unclaimed (h : (s.sec x).arbiter = .partIdle) (hc : (s.sec x).unclaimed) :
    choose x s = pickRequest x (s.sec x).candidates s := by
  unfold choose SectionRec.candidates
  cases hl : (s.sec x).lock with
  | some l => simp [h, hl]
  | none =>
    have hp : (s.sec x).localPending = false := hc.resolve_left (by simp [hl])
    simp [h, hl, hp]

theorem handBack_sec : (handBack b s).sec x = (s.sec x).unasked b := by
  rw [handBack, startInFlight, updBerth_sec, withdrawRequest_sec]

/-- A choice that comes to a DEAD_CLOSE with a live bus goes on as the choice with that request handed back (R86). -/
theorem choose_of_dead (h : (s.sec x).arbiter = .partIdle) (hc : (s.sec x).unclaimed)
    (ho : (s.sec x).candidates = front ++ b :: back) (hf : ∀ c ∈ front, (s.sec x).passesOver c)
    (hr : (s.sec x).requests[b] = some .deadClose) (hd : (s.berth b).busDead = false) :
    choose x s = choose x (handBack b s) := by
  have hb : ((handBack b s).sec x).passesOver b := .inl (by rw [handBack_sec]; simp [SectionRec.unasked])
  have hkept : ∀ c, (s.sec x).passesOver c → ((handBack b s).sec x).passesOver c := by
    intro c hp
    by_cases hcb : c = b
    · exact hcb ▸ hb
    · have hreq : ((handBack b s).sec x).requests[c] = (s.sec x).requests[c] := by
        rw [handBack_sec]
        simp only [SectionRec.unasked, Fin.getElem_fin]
        exact Vector.getElem_set_ne _ _ (fun e => hcb (Fin.ext e.symm))
      have hsp : ((handBack b s).sec x).spacing = (s.sec x).spacing := by rw [handBack_sec]; rfl
      rw [SectionRec.passesOver, hreq, hsp]
      exact hp
  rw [choose_of_unclaimed h hc, ho, pickRequest_append hf, pickRequest_of_dead hr hd,
    choose_of_unclaimed (by rw [handBack_sec]; exact h) (by rw [handBack_sec]; exact hc)]
  have ho' : ((handBack b s).sec x).candidates = front ++ b :: back := by rw [handBack_sec, ← ho]; rfl
  rw [ho', pickRequest_append fun c hc => hkept c (hf c hc), pickRequest_of_passesOver hb]

/-! ## The turn of a choice, and its end (R87, R90) -/

theorem choiceTurn_congr (h : choose x t = choose x s) : choiceTurn x t = choiceTurn x s := by
  rw [choiceTurn, h, choiceTurn]

theorem runChoice_congr (h : choose x t = choose x s) : runChoice x t = runChoice x s ∧ earlyChoice x t = earlyChoice x s := by
  have hturn := choiceTurn_congr h
  constructor
  · show choiceLoop x (63 + 1) t = choiceLoop x (63 + 1) s
    rw [choiceLoop, choiceLoop, hturn]
  · show earlyLoop x (63 + 1) t = earlyLoop x (63 + 1) s
    rw [earlyLoop, earlyLoop, hturn]

theorem runChoice_of_done (h : choiceTurn x s = (t, none)) : runChoice x s = t ∧ earlyChoice x s = t := by
  constructor
  · show choiceLoop x (63 + 1) s = t
    rw [choiceLoop, h]
  · show earlyLoop x (63 + 1) s = t
    rw [earlyLoop, h]

theorem runChoice_of_ended (h : choiceTurn x s = (t, some (b, k))) :
    earlyChoice x s = earlyLoop x 63 (finishOperation .quiet x b k (.failed .portFull) t) ∧
    runChoice x s = endThen x 63 (choiceLoop x 63) b k (.failed .portFull) t := by
  constructor
  · show earlyLoop x (63 + 1) s = _
    rw [earlyLoop, h]
  · show choiceLoop x (63 + 1) s = _
    rw [choiceLoop, h]

theorem choiceTurn_of_none (h : choose x s = (t, none)) : choiceTurn x s = (t, none) := by
  rw [choiceTurn, h]

theorem choiceTurn_of_some (h : choose x s = (t, some (b, k))) : choiceTurn x s =
    ((grantOperation x b k t).1, if (grantOperation x b k t).2 then none else some (b, k)) := by
  rw [choiceTurn, h]
  dsimp only
  generalize grantOperation x b k t = g
  obtain ⟨u, _ | _⟩ := g <;> rfl

/-! ## The grant (R87, R88, R97) -/

/-- The arbiter made busy with the operation (R87, step 1). -/
def busyWith (x : SectionId) (b : BerthId) (k : OpKind) : State → State :=
  updSec x fun r => { r with
    requests := r.requests.set b none, arbiter := .partBusy, op := some (b, k), lastGranted := some b }

/-- The berth in the state of the operation, or a STEP's pause-limit timer stopped (R87, step 2; R103). -/
def granting (x : SectionId) (b : BerthId) (k : OpKind) (s : State) : State :=
  match k with
  | .syncClose | .deadClose => enterState .quiet b .closing (busyWith x b k s)
  | .openOp => enterState .quiet b .opening (busyWith x b k s)
  | .step => updBerth b (fun r => { r with ramp := { r.ramp with pauseTimer := none } }) (busyWith x b k s)

theorem untouched_granting : Untouched s (granting x b k s) := by
  have c := Closed.untouched s
  have hb : Untouched s (busyWith x b k s) := c.began x k trivial (.refl s)
  cases k with
  | step => exact c.updRamp (f := fun r => { r with pauseTimer := none }) trivial hb
  | syncClose => exact c.enterState .quiet trivial hb
  | deadClose => exact c.enterState .quiet trivial hb
  | openOp => exact c.enterState .quiet trivial hb

/-- Entering a state without hooks keeps the ramp and the hold (R3). -/
theorem enterState_quiet_ramp {st : BerthState} : ((enterState .quiet b st s).berth b).ramp = (s.berth b).ramp ∧
    ((enterState .quiet b st s).berth b).holdGranted = (s.berth b).holdGranted := by
  by_cases hn : (s.berth b).state = st
  · rw [enterState, if_pos hn]
    exact ⟨rfl, rfl⟩
  · obtain ⟨l, -, hl⟩ := enterState_quiet_berth hn (d := b)
    rw [hl, if_pos rfl, leaveState_berth_record]
    exact ⟨rfl, rfl⟩

theorem busyWith_berth : (busyWith x b k s).berth b = s.berth b := updSec_berth _ _ _ _

theorem granting_ramp : ∃ o, ((granting x b k s).berth b).ramp = { (s.berth b).ramp with pauseTimer := o } := by
  cases k with
  | step => exact ⟨none, by rw [granting, updBerth_berth_same, busyWith_berth]⟩
  | syncClose => exact ⟨_, by rw [granting, enterState_quiet_ramp.1, busyWith_berth]⟩
  | deadClose => exact ⟨_, by rw [granting, enterState_quiet_ramp.1, busyWith_berth]⟩
  | openOp => exact ⟨_, by rw [granting, enterState_quiet_ramp.1, busyWith_berth]⟩

theorem granting_holdGranted : ((granting x b k s).berth b).holdGranted = (s.berth b).holdGranted := by
  cases k with
  | step => rw [granting, updBerth_berth_same, busyWith_berth]
  | syncClose => rw [granting, enterState_quiet_ramp.2, busyWith_berth]
  | deadClose => rw [granting, enterState_quiet_ramp.2, busyWith_berth]
  | openOp => rw [granting, enterState_quiet_ramp.2, busyWith_berth]

theorem lockAfterGrant_congr {r q : Berth} {n : Nat} {l : Option Lock} (h1 : q.ramp.effMode = r.ramp.effMode)
    (h2 : q.holdGranted = r.holdGranted) : lockAfterGrant b k q n l = lockAfterGrant b k r n l := by
  simp only [lockAfterGrant, h1, h2]

/-- The arbiter, the berth's state and the lock after a grant (R87, R97). -/
theorem beginGrant_eq : beginGrant x b k s = updSec x (fun r => { r with
    lock := lockAfterGrant b k (s.berth b) s.timings.lockLimit r.lock }) (granting x b k s) := by
  have hbegin : beginGrant x b k s = updSec x (fun r => { r with
      lock := lockAfterGrant b k ((granting x b k s).berth b) (granting x b k s).timings.lockLimit r.lock })
      (granting x b k s) := by
    cases k <;> rfl
  obtain ⟨o, hramp⟩ := granting_ramp (x := x) (b := b) (k := k) (s := s)
  have hlock : ∀ l, lockAfterGrant b k ((granting x b k s).berth b) s.timings.lockLimit l =
      lockAfterGrant b k (s.berth b) s.timings.lockLimit l :=
    fun l => lockAfterGrant_congr (by rw [hramp]) granting_holdGranted
  rw [hbegin, untouched_granting.timings]
  simp only [hlock]

/-- The lock an operation leaves, by its kind, the ramp's effective mode and the lock held (R96, R97). -/
theorem lockAfterGrant_eq {r : Berth} {n : Nat} {l : Option Lock} : lockAfterGrant b k r n l =
    match k, r.ramp.effMode, l with
    | .syncClose, _, _ => some ⟨b, .close, n, n⟩
    | .step, .block, none => some ⟨b, .block, n, n⟩
    | .step, .demand, none => if r.holdGranted = true then some ⟨b, .demand, n, n⟩ else none
    | .step, .block, some l => some (if l.source = .close then { l with source := .block } else l)
    | .step, .demand, some l => some (if l.source = .close then { l with source := .demand } else l)
    | _, _, l => l := by
  unfold lockAfterGrant
  cases k with
  | step =>
    cases hm : r.ramp.effMode with
    | single => cases l <;> rfl
    | block => cases l with
      | none => rfl
      | some l => simp only [RampMode.lockSource]; split <;> rfl
    | demand => cases l with
      | none => cases hg : r.holdGranted <;> simp [RampMode.lockSource]
      | some l => simp only [RampMode.lockSource]; split <;> rfl
  | syncClose => rfl
  | deadClose => rfl
  | openOp => rfl

/-- The frame of an operation, from the state of its grant (R88). -/
def sendFrame (x : SectionId) (b : BerthId) (k : OpKind) (s t : State) : State × Bool :=
  match k with
  | .syncClose => send (s.secEntry .synchroniser x) kindOrder 0x03#8
      (bytesId (((s.berthEntry .shoreBreaker b).map (·.id)).getD 0#16)) t
  | .deadClose => send (s.berthEntry .shoreBreaker b) kindOrder 0x01#8
      (bytesId (((s.berthEntry .shoreBreaker b).map (·.id)).getD 0#16)) t
  | .openOp => send (s.berthEntry .shoreBreaker b) kindOrder 0x02#8
      (bytesId (((s.berthEntry .shoreBreaker b).map (·.id)).getD 0#16)) t
  | .step => send (s.berthEntry .shipPms b) kindRequest 0x23#8
      (codeIn directions (s.berth b).ramp.direction :: bytes2 (s.berth b).ramp.stepUnits) t

/-- The record of the operation's flight (R88). -/
def State.timed (s : State) (k : OpKind) : InFlight :=
  match k with
  | .syncClose => ⟨.syncClose, s.clock.time, s.timings.sync⟩
  | .deadClose => ⟨.deadClose, s.clock.time, s.timings.operate⟩
  | .openOp => ⟨.openOp, s.clock.time, s.timings.operate⟩
  | .step => ⟨.step, s.clock.time, s.timings.step⟩

theorem secEntry_congr {c : EquipClass} (h : t.equipment = s.equipment) : t.secEntry c x = s.secEntry c x := by
  simp only [State.secEntry, State.entries, h]

theorem sendOperation_eq (he : t.equipment = s.equipment) {o : Option (PauseRole × Nat)}
    (hr : (t.berth b).ramp = { (s.berth b).ramp with pauseTimer := o }) :
    sendOperation x b k t = sendFrame x b k s t := by
  cases k <;> simp only [sendOperation, sendFrame, berthEntry_congr he, secEntry_congr he, hr] <;> rfl

theorem untouched_sendFrame {u : State} (h : Untouched s t) : Untouched s (sendFrame x b k u t).1 := by
  have c := Closed.untouched s
  cases k <;> exact c.send h

/-- A grant sends its frame and times the operation, where the frame finds a slot (R87, R88). -/
theorem grantOperation_eq : grantOperation x b k s =
    (let sent := sendFrame x b k s (beginGrant x b k s)
    (if sent.2 then updBerth b (fun r => { r with inFlight := some (s.timed k) }) sent.1 else sent.1, sent.2)) := by
  have hu : Untouched s (beginGrant x b k s) := (Closed.untouched s).beginGrant trivial (.refl s)
  have hsent : sendOperation x b k (beginGrant x b k s) = sendFrame x b k s (beginGrant x b k s) := by
    obtain ⟨o, hramp⟩ := granting_ramp (x := x) (b := b) (k := k) (s := s)
    exact sendOperation_eq (o := o) hu.equipment (by rw [beginGrant_eq, updSec_berth, hramp])
  have hv : Untouched s (sendFrame x b k s (beginGrant x b k s)).1 := untouched_sendFrame hu
  rw [grantOperation, hsent]
  dsimp only
  generalize sendFrame x b k s (beginGrant x b k s) = g at hv ⊢
  obtain ⟨u, _ | _⟩ := g
  · rfl
  · refine congrArg (·, true) ?_
    have htimed : (⟨k.flight, u.clock.time, u.timings.ofOperation k⟩ : InFlight) = s.timed k := by
      rw [hv.clock, hv.timings]
      cases k <;> rfl
    rw [startInFlight, htimed]
    rfl

/-- Settles O47: the order, the requests passed over, a claim, a request handed back, and the grant with its ends. -/
theorem arbiterChoosesAndGrants : Obligations.ArbiterChoosesAndGrants := by
  intro x s r order waits noClaim chosen
  have horder : order = r.candidates := (candidates_eq r).symm
  refine ⟨fun h => runChoice_of_done (choiceTurn_of_none (choose_of_busy h)), fun h hl hp =>
    runChoice_of_done (choiceTurn_of_none (choose_of_claim h hl hp)), fun h hc hw => ?_,
    fun h hc front b back k ho hf hr hw => ?_⟩
  · have hchoose : choose x s = (s, none) := by
      rw [choose_of_unclaimed h hc, ← horder]
      exact pickRequest_of_all hw
    exact runChoice_of_done (choiceTurn_of_none hchoose)
  · intro dead breaker breakerId ramp busy entered taken handed lock u sent timed handedBack ended
    have hdead : (s.berth b).busDead = true ↔ dead := busDead_iff
    have hcand : r.candidates = front ++ b :: back := horder.symm.trans ho
    refine ⟨fun hk hd => ?_, fun hk => ?_⟩
    · have hd' : (s.berth b).busDead = false := by simpa using mt hdead.mp hd
      have hback : handBack b s = handedBack := by
        rw [handBack, startInFlight, withdrawRequest, updSec_clock, updSec_clock]
        rfl
      exact runChoice_congr (hback ▸ (choose_of_dead h hc hcand hf (hk ▸ hr) hd').symm) |>.imp Eq.symm Eq.symm
    · have hchoose : choose x s = (s, some (b, k)) := by
        rw [choose_of_unclaimed h hc, hcand, pickRequest_append hf]
        exact pickRequest_of_request hr hw (hk.imp_right hdead.mpr)
      have hu : beginGrant x b k s = u := by
        rw [beginGrant_eq]
        simp only [lockAfterGrant_eq]
        rfl
      have hsent : sendFrame x b k s u = sent := by
        cases k <;> rfl
      have hgrant := grantOperation_eq (x := x) (b := b) (k := k) (s := s)
      rw [hu, hsent] at hgrant
      have hturn := choiceTurn_of_some hchoose
      rw [hgrant] at hturn
      dsimp only at hturn
      refine ⟨fun hs => ?_, fun hs => ?_⟩
      · simp only [hs, if_true] at hturn
        exact runChoice_of_done hturn
      · simp only [hs, Bool.false_eq_true, if_false] at hturn
        obtain ⟨hearly, hrun⟩ := runChoice_of_ended hturn
        exact ⟨hearly, hrun.trans (if_congr Bool.or_eq_true_iff rfl rfl)⟩

end Sys2Proof.Machine
end

-- ==== The local panel and the timers of a section ====
section
/-! PROOFS. The local panel's claim and release (R94, R95), the step spacing (R93) and the lock timer (R99). -/

namespace Sys2Proof.Machine

variable {s t : State} {b : BerthId} {x : SectionId} {p : Port} {f : Frame} {e : EquipEntry} {d : Option EquipEntry}

/-! ## Reports that are observed (R130) -/

/-- A report takes its effect, the passes it calls for run, and it is handed on (R128, R130, R132). -/
theorem Reported.taken {code : Byte} {row : FrameRow} {act : Frame → EquipEntry → State → State}
    (h : Reported s p f e d code) (hrow : reportRow code = row) :
    takeReport row p act s = .next (handOn p f d (runPasses (act f e (dropHead p s)))) :=
  takeFrame_routed h.arrived (by rw [row_of_report h.kind, h.code, hrow])

/-- A report that calls for no pass (R69, R130). -/
theorem Reported.taken_settled {code : Byte} {row : FrameRow} {act : Frame → EquipEntry → State → State}
    (h : Reported s p f e d code) (hrow : reportRow code = row) (ht : act f e (dropHead p s) = t) (hs : t.settled) :
    takeReport row p act s = .next (handOn p f d t) := by
  rw [h.taken hrow, ht, settled_runPasses hs]

theorem fromBerth_eq {α : Type} {cls : EquipClass} {read : List Byte → Option α} {act : BerthId → α → State → State} {a : α}
    (hc : e.cls = cls) (hb : e.berth = some b) (hr : read f.payload = some a) : fromBerth cls read act f e s = act b a s := by
  simp only [fromBerth, hc, hb, hr, if_true]

theorem fromSection_eq {α : Type} {cls : EquipClass} {read : List Byte → Option α} {act : SectionId → α → State → State}
    {a : α} (hc : e.cls = cls) (hx : e.sec = some x) (hr : read f.payload = some a) :
    fromSection cls read act f e s = act x a s := by
  simp only [fromSection, hc, hx, hr, if_true]

/-- A report of the local panel, which has no payload to read (R94, R95). -/
theorem fromPanel_eq {g : SectionId → State → State} (hc : e.cls = .localPanel) (hx : e.sec = some x) :
    fromSection .localPanel (fun _ => some ()) (fun x _ => g x) f e s = g x s :=
  fromSection_eq (read := fun _ => some ()) (a := ()) hc hx rfl

theorem samePasses_updSec {g : SectionRec → SectionRec} : SamePasses s (updSec x g s) := by cases x <;> exact ⟨rfl, rfl⟩

/-! ## The local panel (R94, R95) -/

theorem localClaim_eq : localClaim x s = updSec x (fun r =>
    if r.arbiter = .localPanel then r
    else if r.arbiter = .partIdle ∧ r.lock = none then { r with arbiter := .localPanel }
    else { r with localPending := true }) s := by
  refine updSec_congr ?_
  unfold SectionRec.claim
  cases (s.sec x).arbiter <;> cases (s.sec x).lock <;> rfl

theorem localRelease_of_panel (h : (s.sec x).arbiter = .localPanel) :
    localRelease x s = runChoice x (updSec x (fun r => { r with arbiter := .partIdle }) s) := by
  rw [localRelease, h]

theorem localRelease_of_other (h : (s.sec x).arbiter ≠ .localPanel) :
    localRelease x s = updSec x (fun r => { r with localPending := false }) s := by
  unfold localRelease
  split
  · exact absurd ‹_› h
  all_goals rfl

/-! ## The section's timers (R93, R99) -/

/-- An expiry that changes nothing where no pass waits (R69; log entry 3). -/
theorem next_of_undue {u : State} (h : u = s) (hs : s.settled) :
    Host.Outcome.next (finishEvent u) = (Host.Outcome.next s : Host.Outcome State Fault Refusal) := by
  rw [h, finishEvent, settled_runPasses hs]

theorem demote_eq : demote b s = updBerth b (fun r => { r with ramp :=
    if r.state = .closing then { r.ramp with demoted := true } else { r.ramp with effMode := .single } }) s := by
  unfold demote updRamp
  split
  next h => exact updBerth_congr (by simp [h])
  next h => exact updBerth_congr (by simp [h])

theorem expireLock_of_due {l : Lock} (hl : (s.sec x).lock = some l) (hd : l.timer = 0) : expireLock x s =
    (s |> dropLock x |> noticeBerth l.holder .lockBroken (lockBrokenDetail x l) |> demote l.holder |> runChoice x) := by
  simp only [expireLock, hl, if_pos hd]

theorem expireLock_of_undue (h : ∀ l, (s.sec x).lock = some l → l.timer ≠ 0) : expireLock x s = s := by
  unfold expireLock
  split
  next l hl => exact if_neg (h l hl)
  next => rfl

/-- Settles O48: the panel's two reports, and the section's two expiries, due or not. -/
theorem localPanelAndSectionTimers : Obligations.LocalPanelAndSectionTimers := by
  intro p f e d x s t
  refine ⟨fun hr hc hx hs => ?_, fun hr hc hx => ⟨fun h => ?_, fun h hs => ?_⟩, fun h => ?_, fun h hs => ?_,
    fun l hl hd => ?_, fun h hs => ?_⟩
  · exact hr.taken_settled (row := .localClaim) rfl ((fromPanel_eq hc hx).trans localClaim_eq) (samePasses_updSec.settled hs)
  · have hpanel : (t.sec x).arbiter = .localPanel := by rw [dropHead_sec, h]
    refine (hr.taken (row := .localRelease) rfl).trans ?_
    rw [fromPanel_eq hc hx, localRelease_of_panel hpanel]
  · exact hr.taken_settled (row := .localRelease) rfl
      ((fromPanel_eq hc hx).trans (localRelease_of_other (by rw [dropHead_sec]; exact h))) (samePasses_updSec.settled hs)
  · exact congrArg (fun u => Host.Outcome.next (runPasses u)) (if_pos h)
  · exact next_of_undue (if_neg h) hs
  · show Host.Outcome.next (finishEvent (expireLock x s)) = _
    rw [expireLock_of_due hl hd, demote_eq]
    rfl
  · exact next_of_undue (expireLock_of_undue h) hs

end Sys2Proof.Machine
end

-- ==== How an operation ends ====
section
/-! PROOFS. The end of an operation in flight, by a report or by its timer (R89 to R91), and what its outcome does to its
berth (R104, R108, R112, R114). -/

namespace Sys2Proof.Machine

variable {s t : State} {b : BerthId} {x : SectionId} {k : OpKind} {o : OpOutcome} {p : Port} {f : Frame} {e : EquipEntry}
  {d : Option EquipEntry}

/-! ## The end of an operation (R90) -/

/-- The holder's first STEP has ended with the lock's source still CLOSE (R90, step 4). -/
def SectionRec.closeLockOf (b : BerthId) (r : SectionRec) : Prop :=
  r.lock.map (·.holder) = some b ∧ r.lock.map (·.source) = some .close

theorem dropCloseLock_of (h : (s.sec x).closeLockOf b) : dropCloseLock x b s = dropLock x s := by
  obtain ⟨hb, hc⟩ := h
  unfold dropCloseLock
  split
  next l hl =>
    rw [hl] at hb hc
    exact if_pos ⟨Option.some.inj hb, Option.some.inj hc⟩
  next hl => rw [hl] at hb; cases hb

theorem dropCloseLock_of_not (h : ¬(s.sec x).closeLockOf b) : dropCloseLock x b s = s := by
  unfold dropCloseLock
  split
  next l hl =>
    refine if_neg fun ⟨hb, hc⟩ => h ⟨?_, ?_⟩
    · rw [hl, Option.map_some, hb]
    · rw [hl, Option.map_some, hc]
  next hl => rfl

/-- The operation ended, up to the choice (R90, steps 1 to 4). -/
theorem finishOperation_eq {h : Hooks} : finishOperation h x b k o s =
    let u := s
      |> updBerth b (fun r => { r with inFlight := none })
      |> updSec x (SectionRec.freed k s.timings.stepSpacing)
      |> opOutcome h b k o
    if k = .step ∧ (u.sec x).lock.map (·.holder) = some b ∧ (u.sec x).lock.map (·.source) = some .close then
      updSec x (fun r => { r with lock := none }) u
    else u := by
  rw [finishOperation, freeArbiter_eq]
  dsimp only [clearInFlight]
  rw [updBerth_timings]
  generalize opOutcome h b k o (updSec x (SectionRec.freed k s.timings.stepSpacing)
    (updBerth b (fun r => { r with inFlight := none }) s)) = u
  by_cases hk : k = .step
  · by_cases hl : (u.sec x).closeLockOf b
    · rw [if_pos hk, if_pos ⟨hk, hl⟩, dropCloseLock_of hl]
      rfl
    · rw [if_pos hk, if_neg fun hc => hl hc.2, dropCloseLock_of_not hl]
  · rw [if_neg hk, if_neg fun hc => hk hc.1]

/-- The end of an operation with its choice: the passes of its release run in their place, or are called for only (R90,
R69). -/
theorem endOperation_eq : endOperation b k o s =
    let w := earlyChoice (s.secOf b) (finishOperation .noChoice (s.secOf b) b k o s)
    if w.passA = true ∨ w.passB = true then runChoice (s.secOf b) (finishOperation .quiet (s.secOf b) b k o s) else w :=
  if_congr Bool.or_eq_true_iff rfl rfl

/-! ## POSITION (R89) -/

theorem takePosition_of_breaker {q : Breaker} (hc : e.cls = .shoreBreaker) (hb : e.berth = some b)
    (hp : positionOf f.payload = some (f.src, q)) :
    takePosition f e s = positionAtBerth b q (storePosition f.src q s) := by
  simp [takePosition, hp, hc, hb]

theorem storePosition_eq {q : Breaker} {i : EquipId} : storePosition i q s =
    { s with equipment := s.equipment.map (Option.map fun g => if g.id = i then { g with position := some q } else g) } := by
  simp only [storePosition, beq_iff_eq]

theorem positionAtBerth_of_op {q : Breaker} (hk : s.opOf b = some k) (ho : positionOutcome k q = some o) :
    positionAtBerth b q s = endOperation b k o s := by
  simp only [positionAtBerth, hk, ho]

/-! ## SYNC_RESULT and STEP_DONE (R89) -/

theorem takeSyncResult_failed (h : (s.sec x).op = some (b, .syncClose)) : takeSyncResult x .failed s =
    endOperation b .syncClose (.failed .syncFailed) (updSec x (fun r => { r with syncResult := some .failed }) s) := by
  simp [takeSyncResult, h]

theorem takeSyncResult_stored {q : SyncOutcome} (h : q = .matched ∨ ∀ c, (s.sec x).op ≠ some (c, .syncClose)) :
    takeSyncResult x q s = updSec x (fun r => { r with syncResult := some q }) s := by
  unfold takeSyncResult
  dsimp only
  split
  next c hop =>
    rw [updSec_sec_same] at hop
    exact absurd hop (h.resolve_left (by simp) c)
  next => rfl

theorem opOf_updBerth {g : Berth → Berth} (h : (g (s.berth b)).sec = (s.berth b).sec) :
    (updBerth b g s).opOf b = s.opOf b := by
  have hsec : (updBerth b g s).secOf b = s.secOf b := by rw [State.secOf, updBerth_berth_same, h]; rfl
  rw [State.opOf, State.opOf, hsec, updBerth_sec]

theorem takeStepDone_of_step {q : StepDoneReport}
    (h : (updBerth b (fun r => { r with obs := { r.obs with stepDone := some q } }) s).opOf b = some .step) :
    takeStepDone b q s = endOperation b .step (if q.done = true then .success else .failed .refused)
      (updBerth b (fun r => { r with ramp := { r.ramp with shoreSeen := some q.shoreLoad } })
        (updBerth b (fun r => { r with obs := { r.obs with stepDone := some q } }) s)) := if_pos h

theorem takeStepDone_stored {q : StepDoneReport}
    (h : (updBerth b (fun r => { r with obs := { r.obs with stepDone := some q } }) s).opOf b ≠ some .step) :
    takeStepDone b q s = updBerth b (fun r => { r with obs := { r.obs with stepDone := some q } }) s := if_neg h

/-! ## The timer of an operation (R89, R91) -/

theorem flyingDue_iff {i : InFlight} {kd : InFlightKind} (h : (s.berth b).inFlight = some i) :
    s.flyingDue b kd = true ↔ i.kind = kd ∧ i.timer = 0 := by
  simp [State.flyingDue, h]

theorem syncOutcome_read {q : SyncOutcome} (h : f.payload = [codeIn syncOutcomes q]) :
    nameIn syncOutcomes (at' f.payload 0) = some q := by
  rw [h]
  exact nameIn_codeIn (by cases q <;> decide) (by decide)

theorem expireOperation_of_due {i : InFlight} (hk : s.opOf b = some k) (hi : (s.berth b).inFlight = some i)
    (hkind : i.kind = k.flight) (hd : i.timer = 0) : expireOperation b s = endOperation b k (.failed .timeout) s := by
  simp only [expireOperation, hk, if_pos ((flyingDue_iff hi).mpr ⟨hkind, hd⟩)]

theorem expireOperation_of_undue {i : InFlight} (hi : (s.berth b).inFlight = some i) (hd : i.timer ≠ 0) :
    expireOperation b s = s := by
  unfold expireOperation
  split
  next k hk => exact if_neg fun h => hd ((flyingDue_iff hi).mp h).2
  next => rfl

theorem expireOperation_of_none (hk : s.opOf b = none) : expireOperation b s = s := by
  simp only [expireOperation, hk]

/-- Settles O49: each of the four ways an operation ends, and the reports and expiries that end none. -/
theorem operationsEnd : Obligations.OperationsEnd := by
  intro p f e d b k s x finished ended
  have hended : ∀ o t, t.secOf b = x → t.timings = s.timings → endOperation b k o t = ended o t := by
    intro o t hx ht
    rw [endOperation_eq, finishOperation_eq, finishOperation_eq, hx, ht]
    rfl
  refine ⟨fun q hr hc hb hp hk => ?_, fun hr hc hx q hp => ?_, fun hr hc hb q hp => ?_,
    fun hk i hi hkind => ⟨fun hd => ?_, fun hd hs => ?_⟩, fun hk hs => ?_⟩
  · intro t ends
    have hend : ∀ o, positionOutcome k q = some o → ends o := by
      intro o ho
      have hact : takePosition f e (dropHead p s) = ended o t := by
        rw [takePosition_of_breaker hc hb hp, storePosition_eq]
        exact (positionAtBerth_of_op (s := t) hk ho).trans (hended o t rfl rfl)
      refine (hr.taken (row := .position) rfl).trans ?_
      rw [hact]
    refine ⟨fun hq hk => hend _ ?_, fun hq hk => hend _ ?_, fun hq hk => hend _ ?_⟩
    · obtain rfl | rfl := hk <;> rw [hq] <;> rfl
    · rw [hq, hk]; rfl
    · rw [hq]
      cases k <;> first | rfl | exact absurd rfl hk
  · intro t
    refine ⟨fun hq hk hop => ?_, fun hq hs => ?_⟩
    · have hop' : ((dropHead p s).sec x).op = some (b, .syncClose) := by rw [dropHead_sec, hop, hk]
      refine (hr.taken (row := .syncResult) rfl).trans ?_
      have hact : takeSyncResult x q (dropHead p s) = ended (.failed .syncFailed) t := by
        rw [hq, takeSyncResult_failed hop', ← hk, ← hq]
        exact hended _ t (updSec_secOf _ _ _ _) (updSec_timings _ _ _)
      rw [fromSection_eq hc hx (syncOutcome_read hp), hact]
    · refine hr.taken_settled (row := .syncResult) rfl ((fromSection_eq hc hx (syncOutcome_read hp)).trans
        (takeSyncResult_stored (by rw [dropHead_sec]; exact hq))) (samePasses_updSec.settled hs)
  · intro t
    have hop : t.opOf b = s.opOf b := opOf_updBerth rfl
    refine ⟨fun hk hk' => ?_, fun hk hs => ?_⟩
    · have hact : takeStepDone b q (dropHead p s) = ended (if q.done = true then .success else .failed .refused)
          (updBerth b (fun r => { r with ramp := { r.ramp with shoreSeen := some q.shoreLoad } }) t) := by
        rw [takeStepDone_of_step (hop.trans hk), ← hk']
        refine hended _ _ ?_ rfl
        rw [State.secOf, updBerth_berth_same, updBerth_berth_same]
        rfl
      refine (hr.taken (row := .stepDone) rfl).trans ?_
      rw [fromBerth_eq hc hb hp, hact]
    · exact hr.taken_settled (row := .stepDone) rfl ((fromBerth_eq hc hb hp).trans
        (takeStepDone_stored (by rw [hop]; exact hk))) (samePasses_updBerth.settled hs)
  · have hkind' : i.kind = k.flight := by rw [hkind]; cases k <;> rfl
    show Host.Outcome.next (finishEvent (expireOperation b s)) = _
    rw [expireOperation_of_due hk hi hkind' hd, hended _ s rfl rfl]
    rfl
  · exact next_of_undue (expireOperation_of_undue hi hd) hs
  · exact next_of_undue (expireOperation_of_none hk) hs

/-! ## Outcomes (R104, R108, R109, R112, R114) -/

/-- The stage a failure before or at the close is numbered by (R120). -/
theorem failureStage_eq {st : BerthState} (h : st = .admitted ∨ st = .closing) :
    codeIn failureStages st = if st = .admitted then 1#8 else 2#8 := by
  obtain rfl | rfl := h <;> decide

/-- A failed close trips the berth for a FAULTED breaker and otherwise gives the changeover up (R108, R112). -/
theorem opOutcome_closeFailed {h : Hooks} {c : OpFailure} (hk : k = .syncClose ∨ k = .deadClose) :
    opOutcome h b k (.failed c) s = closeFailed h b c s := by
  obtain rfl | rfl := hk <;> rfl

theorem leaveOpening_eq {h : Hooks} : leaveOpening h b s =
    if (s.berth b).cable ≠ none then enterState h b .proved s
    else if (s.line b).latch.level = .active then s |> enterState h b .plugged |> startProving b
    else enterState h b .vacant s :=
  if_congr Option.isSome_iff_ne_none rfl rfl

theorem openedNotice_eq {r : Berth} : openedNotice b r s = if r.ramp.aborting = true then
      noticeBerth b .changeoverFailed [3#8, 9#8, codeOrZero abortCauses r.ramp.abortCause] s
    else noticeBerth b .releaseDone [codeOrZero methods (r.terms.map (·.method)), byte r.grant] s := by
  have hstage : codeIn failureStages .rampIn = 3#8 := by decide
  have hcause : codeIn changeoverFailures .rampAborted = 9#8 := by decide
  unfold openedNotice
  rw [hstage, hcause]
  split <;> rfl

/-- Settles O50: a failed close by its cause, a closed breaker by the method, and an OPEN that failed or is done. -/
theorem operationOutcomesActOnTheBerth : Obligations.OperationOutcomesActOnTheBerth := by
  intro h b k cause s r
  refine ⟨fun hst => ?_, fun hk => ?_, rfl, ?_, fun c => rfl, ?_⟩
  · rw [changeoverFailure, failureStage_eq hst]
    rfl
  · simp only [opOutcome_closeFailed hk]
    exact ⟨rfl, rfl, rfl, rfl⟩
  · have hmethod : codeIn methods .dead = 2#8 := by decide
    show noticeBerth b .changeoverDone (doneDetail r .dead) (enterState h b .onShore s) = _
    rw [doneDetail, hmethod]
    rfl
  · intro t u
    show openedNotice b r (leaveOpening h b t) = _
    rw [openedNotice_eq, leaveOpening_eq]

end Sys2Proof.Machine
end

-- ==== Ramps ====
section
/-! PROOFS. How a ramp moves its load, pauses and aborts (R101 to R105, R110, R115 to R119). -/

namespace Sys2Proof.Machine

variable {s t : State} {b : BerthId} {x : SectionId} {h : Hooks}

/-! ## Giving up the lock and the STEP (R98, R117) -/

/-- The section's lock given up, with the choice after it, where the berth holds it (R98). -/
def unlockedWith (choice : SectionId → State → State) (b : BerthId) (t : State) : State :=
  if (t.sec (t.secOf b)).lock.map (·.holder) = some b then
    choice (t.secOf b) (updSec (t.secOf b) (fun r => { r with lock := none }) t)
  else t

theorem unlockedWith_eq {choice : SectionId → State → State} (hx : t.secOf b = x) : unlockedWith choice b t =
    if (t.sec x).lock.map (·.holder) = some b then choice x (updSec x (fun r => { r with lock := none }) t) else t := by
  subst hx
  rfl

theorem releaseLock_eq : releaseLock h b s = unlockedWith h.choice b s := if_congr holdsLock_iff rfl rfl

/-- A STEP request withdrawn, where one is pending (R116, R117). -/
def unasked (b : BerthId) (t : State) : State := if t.request b = some .step then withdrawRequest b t else t

theorem withdrawRequest_updBerth {g : Berth → Berth} :
    withdrawRequest b (updBerth b g s) = updBerth b g (withdrawRequest b s) := rfl

theorem request_updBerth {g : Berth → Berth} (hg : (g (s.berth b)).sec = (s.berth b).sec) :
    (updBerth b g s).request b = s.request b := by
  have hsec : (updBerth b g s).secOf b = s.secOf b := by rw [State.secOf, updBerth_berth_same, hg]; rfl
  rw [State.request, State.request, hsec, updBerth_sec]

theorem unasked_updBerth {g : Berth → Berth} (hg : (g (s.berth b)).sec = (s.berth b).sec) :
    unasked b (updBerth b g s) = updBerth b g (unasked b s) := by
  unfold unasked
  rw [request_updBerth hg]
  split <;> rfl

theorem unasked_timings : (unasked b s).timings = s.timings := by
  unfold unasked
  split
  · rw [withdrawRequest, updSec_timings, updSec_timings]
  · rfl

/-- What every abort does first, with a given choice (R117). -/
def abortFirst (choice : SectionId → State → State) (b : BerthId) (s : State) : State :=
  (if s.opOf b = some .step then
    choice (s.secOf b) (s
      |> updSec (s.secOf b) (fun r => { r with
          arbiter := .partIdle
          op := none
          spacing := if s.timings.stepSpacing = 0 then none else some s.timings.stepSpacing })
      |> updBerth b (fun r => { r with inFlight := none }))
  else s)
    |> unasked b
    |> updBerth b (fun r => { r with ramp := { r.ramp with pauseTimer := none, paused := false } })
    |> unlockedWith choice b
    |> updBerth b (fun r => { r with ramp := { r.ramp with masked := true, pauseTimer := none } })

theorem abandonOp_step (ho : s.opOf b = some .step) : abandonOp h b s = h.choice (s.secOf b) (s
    |> updSec (s.secOf b) (fun r => { r with
        arbiter := .partIdle
        op := none
        spacing := if s.timings.stepSpacing = 0 then none else some s.timings.stepSpacing })
    |> updBerth b (fun r => { r with inFlight := none })) := by
  rw [abandonOp, ho]
  dsimp only
  rw [freeArbiter_eq]
  rfl

theorem abortCommon_eq : abortCommon h b s = abortFirst h.choice b s := by
  unfold abortCommon abortFirst
  dsimp only
  rw [releaseLock_eq]
  by_cases ho : s.opOf b = some .step
  · rw [if_pos ho, if_pos ho, abandonOp_step ho]
    rfl
  · rw [if_neg ho, if_neg ho]
    rfl

/-! ## Stepping (R102 to R105) -/

theorem requestStep_of_stopped (hr : (s.berth b).ramp.masked = true ∨ (s.berth b).ramp.terminal = true ∨
    (s.berth b).ramp.paused = true) : requestStep h b s = s := by
  refine if_pos ?_
  simpa [or_assoc] using hr

theorem requestStep_of_running (hm : (s.berth b).ramp.masked = false) (ht : (s.berth b).ramp.terminal = false)
    (hp : (s.berth b).ramp.paused = false) : requestStep h b s = enterRequest h b .step (updBerth b (fun r => { r with
      ramp := { r.ramp with pauseTimer := some (.grantWait, s.timings.pauseLimit) } }) s) :=
  if_neg (by simp [hm, ht, hp])

theorem rampLoad_eq {r : Berth} {d : Direction} : r.rampLoad d = match d, r.obs.shipState, r.ramp.shoreSeen with
    | .inward, some q, _ => q.shipLoad
    | .outward, _, some n => n
    | _, _, _ => r.grant := by
  cases d with
  | inward => unfold Berth.rampLoad; cases r.obs.shipState <;> rfl
  | outward => unfold Berth.rampLoad; cases r.ramp.shoreSeen <;> cases r.obs.shipState <;> rfl

/-- A ramp has nothing to move exactly where its load is 0 (R102). -/
theorem start_currentCount_eq_zero {d : Direction} {n : Nat} {m : Terms} {r : Ramp} :
    (Ramp.start d n m r).currentCount = 0 ↔ n = 0 := by
  unfold Ramp.start
  dsimp only
  split
  next hn => simp [hn]
  next hn => omega

theorem startRamp_eq {d : Direction} {m : Terms} (ht : (s.berth b).terms = some m) : startRamp h b d s =
    let u := updBerth b (fun r => { r with ramp := Ramp.start d ((s.berth b).rampLoad d) m r.ramp }) s
    if (s.berth b).rampLoad d = 0 then terminalCount h b u else requestStep h b u := by
  rw [startRamp, ht]
  refine if_congr ?_ rfl rfl
  rw [updRamp, updBerth_berth_same]
  exact start_currentCount_eq_zero

/-- The ramp at terminal count, its lock given up (R105). -/
def atTerminal (h : Hooks) (b : BerthId) (s : State) : State :=
  unlockedWith h.choice b (updBerth b (fun r => { r with
    ramp := { r.ramp with terminal := true, pauseTimer := none, paused := false } }) s)

theorem terminalCount_inward (hd : (s.berth b).ramp.direction = .inward) (ha : (s.berth b).ramp.aborting = false) :
    terminalCount h b s = completeTransfer h b (atTerminal h b s) := by
  simp only [terminalCount, hd, ha, releaseLock_eq]
  rfl

theorem terminalCount_outward (hd : (s.berth b).ramp.direction = .outward) :
    terminalCount h b s = enterRequest h b .openOp (atTerminal h b s) := by
  simp only [terminalCount, hd, releaseLock_eq]
  rfl

theorem stepFailed_eq : stepFailed h b s =
    let u := updBerth b (fun r => { r with ramp := { r.ramp with failures := r.ramp.failures + 1 } }) s
    if 2 ≤ (s.berth b).ramp.failures + 1 then abortRamp h b .stepFailures u else requestStep h b u := by
  refine if_congr ?_ rfl rfl
  rw [updRamp, updBerth_berth_same]
  rfl

theorem stepOutcome_failed {c : OpFailure} (hm : (s.berth b).ramp.masked = false) :
    stepOutcome h b (.failed c) s = stepFailed h b s := if_neg (by simp [hm])

theorem stepOutcome_success (hm : (s.berth b).ramp.masked = false) : stepOutcome h b .success s =
    let t := updBerth b (fun r => { r with
      ramp := { r.ramp with currentCount := r.ramp.currentCount - 1, failures := 0 } }) s
    if (s.berth b).ramp.currentCount ≤ 1 then terminalCount h b t else requestStep h b t := by
  refine (if_neg (by simp [hm])).trans (if_congr ?_ rfl rfl)
  rw [updRamp, updBerth_berth_same]
  dsimp only
  omega

/-- Settles O51. -/
theorem rampsMoveTheLoadInSteps : Obligations.RampsMoveTheLoadInSteps := by
  intro h b s x r ceil failed
  have hfailed : ∀ g t, stepFailed g b t = failed g t := fun g t => stepFailed_eq
  refine ⟨fun k => rfl, requestStep_of_stopped, requestStep_of_running, fun d m hm => ?_, ?_, fun hm o => if_pos hm,
    fun hm => ⟨fun c => ?_, stepOutcome_success hm⟩, fun hd => ?_, fun hd hs => next_of_undue (if_neg hd) hs⟩
  · intro load units base u
    have hload : r.rampLoad d = load := rampLoad_eq
    rw [startRamp_eq hm, hload]
    rfl
  · intro t u
    have hu : atTerminal h b s = u := by
      have hsec : t.secOf b = x := by rw [State.secOf, updBerth_berth_same]; rfl
      exact (unlockedWith_eq hsec).trans (by rw [updBerth_sec])
    exact ⟨fun hd ha => (terminalCount_inward hd ha).trans (by rw [hu]; rfl),
      fun hd => (terminalCount_outward hd).trans (by rw [hu])⟩
  · exact (stepOutcome_failed (c := c) hm).trans (hfailed h s)
  · rw [← hfailed]
    exact congrArg (fun u => Host.Outcome.next (runPasses u)) (if_pos hd)

/-! ## Pauses and aborts (R115 to R119) -/

theorem rampRuns_iff {r : Berth} : r.rampRuns = true ↔
    (r.state = .rampIn ∨ r.state = .rampOut) ∧ r.ramp.masked = false ∧ r.ramp.terminal = false ∧ r.ramp.paused = false := by
  simp [Berth.rampRuns, and_assoc]

theorem pauseRamp_eq : pauseRamp h b s = (s
    |> updBerth b (fun r => { r with holdGranted := false, ramp := { r.ramp with paused := true, pauseTimer := none } })
    |> unasked b
    |> unlockedWith h.choice b
    |> updBerth b (fun r => { r with ramp := { r.ramp with pauseTimer := some (.pause, s.timings.pauseLimit) } })) := by
  have hpause : pauseRamp h b s = (s
      |> updBerth b (fun r => { r with holdGranted := false, ramp := { r.ramp with paused := true } })
      |> unasked b
      |> (fun t => t
        |> updBerth b (fun r => { r with ramp := { r.ramp with pauseTimer := none } })
        |> releaseLock h b
        |> updBerth b (fun r => { r with ramp := { r.ramp with pauseTimer := some (.pause, t.timings.pauseLimit) } }))) :=
    rfl
  rw [hpause]
  dsimp only
  rw [releaseLock_eq, unasked_timings, unasked_updBerth rfl, unasked_updBerth rfl, updBerth_updBerth]
  rfl

theorem withdrawHold_of_demand (hr : (s.berth b).rampRuns = true) (hm : (s.berth b).ramp.mode = .demand) :
    withdrawHold h b s = pauseRamp h b s := by
  rw [withdrawHold, if_pos hr, hm]

theorem withdrawHold_of_other (hr : (s.berth b).rampRuns = true) (hm : (s.berth b).ramp.mode ≠ .demand) :
    withdrawHold h b s = abortRamp h b .holdWithdrawn (updBerth b (fun r => { r with holdGranted := false }) s) := by
  rw [withdrawHold, if_pos hr]
  split
  · exact absurd ‹_› hm
  all_goals rfl

theorem resumeRamp_eq : resumeRamp h b s =
    let t := updBerth b (fun r => { r with
      holdGranted := true, ramp := { r.ramp with paused := false, pauseTimer := none } }) s
    if s.opOf b = some .step then t else requestStep h b t := by
  have hop : (updBerth b (fun r => { r with
      holdGranted := true, ramp := { r.ramp with paused := false, pauseTimer := none } }) s).opOf b = s.opOf b :=
    opOf_updBerth rfl
  exact if_congr (by rw [hop]) rfl rfl

theorem abortRamp_rampIn {cause : AbortCause} (hs : (s.berth b).state = .rampIn) :
    abortRamp h b cause s = abortRampIn h b cause (abortFirst h.early b s) := by
  simp only [abortRamp, hs, abortCommon_eq]
  rfl

theorem abortRamp_rampOut {cause : AbortCause} (hs : (s.berth b).state = .rampOut) : abortRamp h b cause s =
    failRampOut h b cause.asRelease (abortFirst (if (s.berth b).ramp.aborting = true then h.early else h.choice) b s) := by
  have hchoice : (if (s.berth b).ramp.aborting = true then h.before else h).choice =
      if (s.berth b).ramp.aborting = true then h.early else h.choice := by split <;> rfl
  simp only [abortRamp, hs, abortCommon_eq, hchoice]

/-- Where a ramp OUT that was not the undoing of an evening aborts, the release fails with the abort's cause (R118). -/
theorem failRampOut_asRelease {cause : AbortCause} : failRampOut h b cause.asRelease s =
    if (s.berth b).ramp.aborting = true then trip h b .rampFailed none s
    else
      let f : ReleaseFailure :=
        match cause with
        | .stepFailures => .stepFailures
        | .holdWithdrawn => .holdWithdrawn
        | .pauseExpired => .pauseExpired
        | .holdFailed => .holdFailed
      releaseFailed h b f s := by
  cases cause <;> exact if_congr Iff.rfl rfl rfl

/-- A shore load of nothing seen, or within one step, is small (R118). -/
theorem shoreSeen_small_iff {r : Ramp} : r.shoreSeen.getD 0 ≤ r.stepUnits ↔
    r.shoreSeen = none ∨ ∃ n, r.shoreSeen = some n ∧ n ≤ r.stepUnits := by
  cases r.shoreSeen <;> simp

theorem abortRampIn_of_small {cause : AbortCause} (hs : (s.berth b).ramp.shoreSeen = none ∨
    ∃ n, (s.berth b).ramp.shoreSeen = some n ∧ n ≤ (s.berth b).ramp.stepUnits) : abortRampIn h b cause s =
      enterRequest h b .openOp (endHold b (updBerth b (fun r => { r with
        ramp := { r.ramp with aborting := true, abortCause := some cause } }) s)) :=
  if_pos (shoreSeen_small_iff.mpr hs)

theorem abortRampIn_of_large {cause : AbortCause} {n : Nat} (hs : (s.berth b).ramp.shoreSeen = some n)
    (hn : (s.berth b).ramp.stepUnits < n) : abortRampIn h b cause s =
      let v := updBerth b (fun r => { r with ramp := { r.ramp with aborting := true, abortCause := some cause } }) s
      if (s.berth b).holdGranted = true then startRamp h b .outward (enterState h b .rampOut v)
      else startHandshake (abortRampOut h b .holdFailed) b (enterState h b .rampOut v) :=
  if_neg (by simpa [hs] using hn)

/-- Settles O52: the ship's withdrawal and answer, the pause's expiry, and the abort by the ramp's direction. -/
theorem rampsPauseAndAbort : Obligations.RampsPauseAndAbort := by
  intro h b cause failure onFull s x r runs unlocked unasks
  have hruns : r.rampRuns = true ↔ runs := rampRuns_iff
  refine ⟨fun hr => if_neg (mt hruns.mp hr), fun hr hm => withdrawHold_of_other (hruns.mpr hr) hm,
    fun hr hm => (withdrawHold_of_demand (hruns.mpr hr) hm).trans pauseRamp_eq, resumeRamp_eq, fun hd => ?_,
    fun hd hs => next_of_undue (if_neg hd) hs, fun e he => ⟨startHandshake_of_free he, startHandshake_of_full he⟩, rfl, ?_⟩
  · exact congrArg (fun u => Host.Outcome.next (runPasses u)) (if_pos hd)
  · intro common
    refine ⟨fun hs => ⟨fun hn => ?_, fun n hn hlt => ?_⟩, fun hs => ?_, ?_⟩
    · exact (abortRamp_rampIn hs).trans (abortRampIn_of_small hn)
    · exact (abortRamp_rampIn hs).trans (abortRampIn_of_large hn hlt)
    · intro u
      exact (abortRamp_rampOut hs).trans (failRampOut_asRelease (s := u))
    · intro u
      have hu : abortCommon h.before b s = u := abortCommon_eq
      exact (congrArg (failRampOut h b failure) hu).trans (if_congr Iff.rfl rfl rfl)

end Sys2Proof.Machine
end

-- ==== The ship's hold ====
section
/-! PROOFS. What HOLD_STATE and the timers of the hold and of the dead wait do, by the berth's state (R107, R111, R113,
R115 to R118). -/

namespace Sys2Proof.Machine

variable {s t : State} {b : BerthId} {a : HoldAnswer} {p : Port} {f : Frame} {e : EquipEntry} {d : Option EquipEntry}

/-! ## By the berth's state (R115) -/

theorem awaitsClose_iff : s.awaitsClose b = true ↔ s.request b = some .syncClose := by simp [State.awaitsClose]

theorem holdAtBerth_admitted (hs : (s.berth b).state = .admitted) (hf : s.flying b = some .holdHandshake) :
    holdAtBerth b a s = holdInAdmitted b a s := by
  simp only [holdAtBerth, hs, if_pos hf]

theorem holdInAdmitted_of_unasked (h : ¬s.request b = some .syncClose) : holdInAdmitted b a s = match a with
    | .granted => holdGrantedEvening b s
    | .refused => changeoverFailure .live b .holdRefused s
    | .withdrawn => s := by
  have hw : s.awaitsClose b = false := by simpa using mt awaitsClose_iff.mp h
  unfold holdInAdmitted
  rw [hw]
  cases a <;> rfl

theorem holdInAdmitted_of_asked (h : s.request b = some .syncClose) : holdInAdmitted b a s =
    if a = .withdrawn then changeoverFailure .live b .holdWithdrawn s else s := by
  unfold holdInAdmitted
  rw [awaitsClose_iff.mpr h]
  cases a <;> rfl

theorem holdAtBerth_admitted_idle (hs : (s.berth b).state = .admitted) (hf : ¬s.flying b = some .holdHandshake) :
    holdAtBerth b a s = s := by
  simp only [holdAtBerth, hs, if_neg hf]

theorem holdAtBerth_closing (hs : (s.berth b).state = .closing) : holdAtBerth b a s = holdInClosing b a s := by
  simp only [holdAtBerth, hs]

theorem holdAtBerth_opening (hs : (s.berth b).state = .opening) : holdAtBerth b a s = clearHoldOn b a s := by
  simp only [holdAtBerth, hs]

theorem holdAtBerth_ramp (hs : (s.berth b).state = .rampIn ∨
    ((s.berth b).state = .rampOut ∧ ¬s.flying b = some .holdHandshake)) : holdAtBerth b a s = holdInRamp b a s := by
  obtain hs | ⟨hs, hf⟩ := hs
  · simp only [holdAtBerth, hs]
  · simp only [holdAtBerth, hs, if_neg hf]

theorem holdAtBerth_rampOut (hs : (s.berth b).state = .rampOut) (hf : s.flying b = some .holdHandshake) :
    holdAtBerth b a s = holdInRampOut b a s := by
  simp only [holdAtBerth, hs, if_pos hf]

theorem holdAtBerth_other (hs : (s.berth b).state = .outOfService ∨ (s.berth b).state = .vacant ∨
    (s.berth b).state = .plugged ∨ (s.berth b).state = .proved ∨ (s.berth b).state = .queued ∨
    (s.berth b).state = .onShore ∨ (s.berth b).state = .tripped) : holdAtBerth b a s = s := by
  obtain hs | hs | hs | hs | hs | hs | hs := hs <;> simp only [holdAtBerth, hs]

/-! ## A ramp and its hold (R115, R116) -/

theorem holdInRamp_of_paused (hp : (s.berth b).ramp.paused = true) : holdInRamp b a s =
    if a = .granted then resumeRamp .live b s else s := if_pos hp

theorem holdInRamp_of_running (hp : (s.berth b).ramp.paused = false) (hr : (s.berth b).rampRuns = true) :
    holdInRamp b a s = if a = .withdrawn then withdrawHold .live b s else s :=
  (if_neg (by simp [hp])).trans (if_pos hr)

theorem holdInRamp_of_done (hp : (s.berth b).ramp.paused = false) (hr : ¬(s.berth b).rampRuns = true)
    (hd : (s.berth b).ramp.terminal = true ∨ s.request b = some .openOp) : holdInRamp b a s = clearHoldOn b a s :=
  (if_neg (by simp [hp])).trans ((if_neg hr).trans (if_pos (by simpa using hd)))

theorem holdInRamp_of_masked (hp : (s.berth b).ramp.paused = false) (hr : ¬(s.berth b).rampRuns = true)
    (ht : (s.berth b).ramp.terminal = false) (ho : s.request b ≠ some .openOp) : holdInRamp b a s = s :=
  (if_neg (by simp [hp])).trans ((if_neg hr).trans (if_neg (by simp [ht, ho])))

theorem clearHoldOn_of_kept (ha : a ≠ .withdrawn) : clearHoldOn b a s = s := if_neg ha

theorem rampOutHoldFailed_eq {c : ReleaseFailure} : rampOutHoldFailed b c s =
    if (s.berth b).ramp.aborting = true then
      abortRampOut .live b .holdFailed (updBerth b (fun r => { r with inFlight := none }) s)
    else releaseFailed .live b c (updBerth b (fun r => { r with inFlight := none }) s) := rfl

theorem holdInRampOut_granted : holdInRampOut b .granted s = startRamp .live b .outward
    (updBerth b (fun r => { r with holdGranted := true }) (updBerth b (fun r => { r with inFlight := none }) s)) := by
  unfold holdInRampOut clearInFlight
  dsimp only
  rw [updBerth_updBerth, updBerth_updBerth]

/-! ## Timers of an activity (R149) -/

theorem flyingDue_iff_exists {k : InFlightKind} :
    s.flyingDue b k = true ↔ ∃ i, (s.berth b).inFlight = some i ∧ i.kind = k ∧ i.timer = 0 := by
  unfold State.flyingDue
  cases (s.berth b).inFlight <;> simp

theorem expireHold_rampOut (hd : s.flyingDue b .holdHandshake = true) (hs : (s.berth b).state = .rampOut) :
    expireHold b s = rampOutHoldFailed b .holdTimeout s := (if_pos hd).trans (if_pos hs)

theorem expireHold_admitted (hd : s.flyingDue b .holdHandshake = true) (hs : (s.berth b).state = .admitted) :
    expireHold b s = changeoverFailure .live b (if s.request b = some .syncClose then .closeWait else .holdTimeout) s := by
  refine (if_pos hd).trans ((if_neg (by simp [hs])).trans ?_)
  simp only [awaitsClose_iff]

theorem holdAnswer_read (h : f.payload = [codeIn holdAnswers a]) : nameIn holdAnswers (at' f.payload 0) = some a := by
  rw [h]
  exact nameIn_codeIn (by cases a <;> decide) (by decide)

/-- Settles O53: the ship's answer by the berth's state and activity, and the two timers. -/
theorem holdAnswersAreActedOn : Obligations.HoldAnswersAreActedOn := by
  intro p f e d b a s r shaking asked
  refine ⟨fun hr hc hb hp => ?_, fun i hi hd => ?_, fun hs => ⟨fun h => ?_, fun h => ?_⟩⟩
  · intro t acts unheld runs ramping
    have hact : ∀ u, holdAtBerth b a t = u → acts u := by
      intro u hu
      have hact : takeHoldState b a (dropHead p s) = u := hu
      refine (hr.taken (row := .holdState) rfl).trans ?_
      rw [fromBerth_eq hc hb (holdAnswer_read hp), hact]
    have hrec : t.berth b = { r with obs := { r.obs with holdState := some a } } := updBerth_berth_same _ _ _
    have hstate : (t.berth b).state = r.state := by rw [hrec]
    have hramp : (t.berth b).ramp = r.ramp := by rw [hrec]
    have hfly : t.flying b = some .holdHandshake ↔ shaking := by rw [State.flying, hrec]
    have hreq : t.request b = s.request b := request_updBerth rfl
    have hrun : ramping → ((t.berth b).rampRuns = true ↔ runs) := by
      intro hr
      rw [rampRuns_iff, hstate, hramp]
      exact and_iff_right (hr.imp_right And.left)
    have hat : ramping → holdAtBerth b a t = holdInRamp b a t := by
      intro hr
      exact holdAtBerth_ramp (by rw [hstate, hfly]; exact hr)
    have htimings : t.timings = s.timings := rfl
    clear_value t
    refine ⟨fun hst hsh has => ?admitted, fun hst hsh has => ?asked, fun hst hsh => ?idle, fun hst => ?closing,
      fun hr hp => ?paused, fun hr hp => ?running, fun hr hp hn => ?still, fun hst hsh => ?rampOut, fun hst => ?opening,
      fun hst => ?other⟩
    case admitted =>
      have hin : holdAtBerth b a t = _ := (holdAtBerth_admitted (hstate.trans hst) (hfly.mpr hsh)).trans
        (holdInAdmitted_of_unasked (by rw [hreq]; exact has))
      refine ⟨fun ha => hact _ ?_, fun ha => hact _ ?_, fun ha => hact _ ?_⟩
      · rw [hin, ha, ← htimings]
        rfl
      · rw [hin, ha]
      · rw [hin, ha]
    case asked =>
      have hin : holdAtBerth b a t = _ := (holdAtBerth_admitted (hstate.trans hst) (hfly.mpr hsh)).trans
        (holdInAdmitted_of_asked (hreq.trans has))
      exact ⟨fun ha => hact _ (hin.trans (if_pos ha)), fun ha => hact _ (hin.trans (if_neg ha))⟩
    case idle => exact hact _ (holdAtBerth_admitted_idle (hstate.trans hst) (mt hfly.mp hsh))
    case closing =>
      have hin : holdAtBerth b a t = _ := holdAtBerth_closing (hstate.trans hst)
      refine ⟨fun ha => hact _ (hin.trans (if_pos ha)), fun ha => hact _ ?_, fun ha => hact _ ?_⟩
      · rw [hin, ha]
        rfl
      · rw [hin, ha]
        rfl
    case paused =>
      have hin : holdAtBerth b a t = _ := (hat hr).trans (holdInRamp_of_paused (by rw [hramp]; exact hp))
      exact ⟨fun ha => hact _ (hin.trans (if_pos ha)), fun ha => hact _ (hin.trans (if_neg ha))⟩
    case running =>
      have hin : holdAtBerth b a t = _ :=
        (hat hr).trans (holdInRamp_of_running (by rw [hramp]; exact hp.2.2) ((hrun hr).mpr hp))
      exact ⟨fun ha => hact _ (hin.trans (if_pos ha)), fun ha => hact _ (hin.trans (if_neg ha))⟩
    case still =>
      have hp' : (t.berth b).ramp.paused = false := by rw [hramp]; exact hp
      have hn' : ¬(t.berth b).rampRuns = true := mt (hrun hr).mp hn
      by_cases hdone : (t.berth b).ramp.terminal = true ∨ t.request b = some .openOp
      · have hin : holdAtBerth b a t = clearHoldOn b a t := (hat hr).trans (holdInRamp_of_done hp' hn' hdone)
        rw [hramp, hreq] at hdone
        refine ⟨fun ha _ => hact _ (hin.trans (if_pos ha)), fun ha ht ho => ?_, fun ha =>
          hact _ (hin.trans (clearHoldOn_of_kept ha))⟩
        exact absurd hdone (by simp [ht, ho])
      · obtain ⟨ht, ho⟩ := not_or.mp hdone
        have hin : holdAtBerth b a t = t := (hat hr).trans (holdInRamp_of_masked hp' hn' (by simpa using ht) ho)
        rw [hramp, hreq] at hdone
        exact ⟨fun _ hd => absurd hd hdone, fun _ _ _ => hact _ hin, fun _ => hact _ hin⟩
    case rampOut =>
      have hin : holdAtBerth b a t = _ := holdAtBerth_rampOut (hstate.trans hst) (hfly.mpr hsh)
      refine ⟨fun ha => hact _ ?_, fun ha hab => hact _ ?_, fun ha hab => hact _ ?_, fun ha => hact _ ?_⟩
      · rw [hin, ha, holdInRampOut_granted]
      · rw [hin, ha]
        exact rampOutHoldFailed_eq.trans (if_pos (by rw [hramp]; exact hab))
      · rw [hin, ha]
        exact rampOutHoldFailed_eq.trans (if_neg (by rw [hramp, hab]; decide))
      · rw [hin, ha]
        rfl
    case opening =>
      have hin : holdAtBerth b a t = _ := holdAtBerth_opening (hstate.trans hst)
      exact ⟨fun ha => hact _ (hin.trans (if_pos ha)), fun ha => hact _ (hin.trans (clearHoldOn_of_kept ha))⟩
    case other => exact hact _ (holdAtBerth_other (by rw [hstate]; exact hst))
  · refine ⟨fun hk hst => ?_, fun hk hst => ?_, fun hk => ?_⟩
    · exact congrArg (fun u => Host.Outcome.next (runPasses u))
        (expireHold_admitted (flyingDue_iff_exists.mpr ⟨i, hi, hk, hd⟩) hst)
    · exact congrArg (fun u => Host.Outcome.next (runPasses u))
        ((expireHold_rampOut (flyingDue_iff_exists.mpr ⟨i, hi, hk, hd⟩) hst).trans rampOutHoldFailed_eq)
    · exact congrArg (fun u => Host.Outcome.next (runPasses u)) (if_pos (flyingDue_iff_exists.mpr ⟨i, hi, hk, hd⟩))
  · exact next_of_undue (if_neg (mt flyingDue_iff_exists.mp h)) hs
  · exact next_of_undue (if_neg (mt flyingDue_iff_exists.mp h)) hs

end Sys2Proof.Machine
end

-- ==== Converters ====
section
/-! PROOFS. The start of a changeover, and what the converter bays report (R66, R73, R106, R107, R111). -/

namespace Sys2Proof.Machine

variable {s t : State} {b : BerthId} {k : BayId} {q : ConverterReport} {h : Hooks} {p : Port} {f : Frame} {e : EquipEntry}
  {d : Option EquipEntry}

/-! ## The start of a changeover (R106, R107, R111) -/

theorem startDeadWait_of_free (he : s.berthEntry .shipPms b = some e) (hfree : (s.port e.port).tx.length < 8) :
    startDeadWait h b s = (s
      |> updPort e.port (fun r => { r with
          tx := r.tx ++ [⟨⟨e.id, s.ownId, 0x03#8, 0x24#8, byte r.tagCount, []⟩, none⟩]
          tagCount := (r.tagCount + 1) % 256 })
      |> updBerth b (fun r => { r with inFlight := some ⟨.deadWait, s.clock.time, s.timings.deadWait⟩ })) := by
  simp only [startDeadWait, he, send_of_free hfree]
  rfl

theorem startDeadWait_of_full (he : s.berthEntry .shipPms b = some e) (hfull : 8 ≤ (s.port e.port).tx.length) :
    startDeadWait h b s = changeoverFailure h b .portFull s := by
  simp only [startDeadWait, he, send_some_of_full hfull]

theorem startChangeover_of_free (hk : (s.berth b).bay = some k) (he : s.converterEntry k = some e)
    (hfree : (s.port e.port).tx.length < 8) : startChangeover h b s = (s
      |> updPort e.port (fun r => { r with
          tx := r.tx ++ [⟨⟨e.id, s.ownId, 0x01#8, 0x07#8, byte r.tagCount, [bayByte (some k), berthByte (some b)]⟩, none⟩]
          tagCount := (r.tagCount + 1) % 256 })
      |> updBerth b (fun r => { r with inFlight := some ⟨.converterStart, s.clock.time, s.timings.converterStart⟩ })) := by
  simp only [startChangeover, hk, he, send_of_free hfree]
  rfl

theorem startChangeover_of_full (hk : (s.berth b).bay = some k) (he : s.converterEntry k = some e)
    (hfull : 8 ≤ (s.port e.port).tx.length) : startChangeover h b s = changeoverFailure h b .portFull s := by
  simp only [startChangeover, hk, he, send_some_of_full hfull]

theorem startChangeover_live {m : Terms} (hb : (s.berth b).bay = none) (ht : (s.berth b).terms = some m)
    (hm : m.method = .live) : startChangeover h b s = startHandshake (changeoverFailure h b .portFull) b s := by
  obtain ⟨_, method, _, _⟩ := m
  subst hm
  simp only [startChangeover, hb, startMethod, ht]

theorem startChangeover_dead {m : Terms} (hb : (s.berth b).bay = none) (ht : (s.berth b).terms = some m)
    (hm : m.method = .dead) : startChangeover h b s = startDeadWait h b s := by
  obtain ⟨_, method, _, _⟩ := m
  subst hm
  simp only [startChangeover, hb, startMethod, ht]

/-! ## What a converter reports (R66) -/

/-- A report of a berth other than the one that holds the bay (R66). -/
theorem namesOther_iff {o : Option BerthId} {n : Byte} :
    namesOther o n = true ↔ ∃ b, o = some b ∧ berthOf n ≠ some b := by
  cases o <;> simp [namesOther]

theorem takeConverterState_of_bay (hc : e.cls = .converter) (hb : e.bay = some k)
    (hq : converterStateOf f.payload = some q) (hk : q.bay = k) : takeConverterState f e s =
      converterAtBay k q (updBay k (fun r => { r with report := some q }) s) := by
  simp only [takeConverterState, hc, hb, hq, if_pos hk]

theorem converterAtBay_running (hr : q.run = .running) (hs : (s.bay k).state = .granted) (hb : (s.bay k).berth = some b)
    (ho : ¬namesOther (s.bay k).berth q.berth = true) : converterAtBay k q s = converterRunning b s := by
  rw [hb] at ho
  simp only [converterAtBay, hr, hs, hb, if_neg ho]

theorem converterAtBay_running_ignored (hr : q.run = .running)
    (ho : (s.bay k).state ≠ .granted ∨ namesOther (s.bay k).berth q.berth = true) : converterAtBay k q s = s := by
  cases hs : (s.bay k).state with
  | granted =>
    have ho' := ho.resolve_left (not_not_intro hs)
    cases hb : (s.bay k).berth with
    | none => simp only [converterAtBay, hr, hs, hb]
    | some b =>
      rw [hb] at ho'
      simp only [converterAtBay, hr, hs, hb, if_pos ho']
  | free => simp only [converterAtBay, hr, hs]
  | faulted => simp only [converterAtBay, hr, hs]

theorem converterAtBay_stopped (hr : q.run = .stopped) (hs : (s.bay k).state = .faulted)
    (ho : ¬namesOther (s.bay k).berth q.berth = true) : converterAtBay k q s = recoverBay k s := by
  simp only [converterAtBay, hr, hs, if_neg ho]

theorem converterAtBay_stopped_ignored (hr : q.run = .stopped)
    (ho : (s.bay k).state ≠ .faulted ∨ namesOther (s.bay k).berth q.berth = true) : converterAtBay k q s = s := by
  cases hs : (s.bay k).state with
  | faulted => simp only [converterAtBay, hr, hs, if_pos (ho.resolve_left (not_not_intro hs))]
  | free => simp only [converterAtBay, hr, hs]
  | granted => simp only [converterAtBay, hr, hs]

/-- The bay kept FAULTED with the berth it names, and its notice (R66). -/
theorem faultBay_eq : faultBay k s = match (s.bay k).berth with
    | some b => noticeBerth b .bayFaulted [bayByte (some k), berthByte (some b)]
        (updBay k (fun r => { r with state := .faulted }) s)
    | none => noticePlain .bayFaulted [bayByte (some k), 0#8] (updBay k (fun r => { r with state := .faulted }) s) := by
  unfold faultBay bayFaultedNotice
  cases (s.bay k).berth <;> rfl

theorem faultBay_of_holder (hb : (s.bay k).berth = some b) : faultBay k s =
    noticeBerth b .bayFaulted [bayByte (some k), berthByte (some b)] (updBay k (fun r => { r with state := .faulted }) s) := by
  rw [faultBay_eq, hb]

theorem faultBay_state (hb : (s.bay k).berth = some b) : ((faultBay k s).berth b).state = (s.berth b).state := by
  rw [faultBay_of_holder hb, noticeBerth_state, updBay_berth]

theorem converterAtBay_faulted_granted (hr : q.run = .faulted) (hs : (s.bay k).state = .granted)
    (hb : (s.bay k).berth = some b) : converterAtBay k q s = holderFaulted b (faultBay k s) := by
  simp only [converterAtBay, hr, hs, hb]

theorem converterAtBay_faulted_free (hr : q.run = .faulted) (hs : (s.bay k).state = .free) :
    converterAtBay k q s = faultBay k s := by
  simp only [converterAtBay, hr, hs]

theorem converterAtBay_faulted_again (hr : q.run = .faulted) (hs : (s.bay k).state = .faulted) :
    converterAtBay k q s = s := by
  simp only [converterAtBay, hr, hs]

theorem holderFaulted_admitted (hs : (s.berth b).state = .admitted) : holderFaulted b s = requeue b 0 s := if_pos hs

theorem holderFaulted_supplied (hs : (s.berth b).state.closingToOpening = true) :
    holderFaulted b s = trip .live b .converterFault none s := by
  refine (if_neg fun h => ?_).trans (if_pos hs)
  rw [h] at hs
  exact absurd hs (by decide)

/-! ## Re-queue (R73) -/

theorem requeue_eq {place : Nat} : requeue b place s = (s
    |> withdrawRequest b
    |> updBerth b (fun r => { r with inFlight := none })
    |> endHold b
    |> releaseGrant b
    |> enterState .quiet b .queued
    |> (fun t => updSec (t.secOf b) (fun r => { r with queue := r.queue.insertIdx place b }) t)
    |> updBerth b (fun r => { r with bypass := 0 })
    |> (fun t => callPass (t.secOf b) t)) := by
  unfold requeue joinQueue
  dsimp only
  rw [updBerth_secOf _ _ _ _ rfl, updSec_secOf, enterState_quiet_secOf]
  rfl

theorem expireConverterStart_of_due {i : InFlight} (hi : (s.berth b).inFlight = some i) (hk : i.kind = .converterStart)
    (hd : i.timer = 0) (hb : (s.berth b).bay = some k) : expireConverterStart b s = requeue b 0 (faultBay k s) := by
  refine (if_pos (flyingDue_iff_exists.mpr ⟨i, hi, hk, hd⟩)).trans ?_
  simp only [hb]

theorem exec_changeoverStart {rest : List BerthId} (hq : s.startQueue = b :: rest) :
    exec .changeoverStart s = .next (runPasses (startChangeover .live b { s with startQueue := rest })) := by
  show Host.Outcome.next (finishEvent (startOldest s)) = _
  rw [startOldest, hq]
  rfl

theorem startOldest_of_none (hq : s.startQueue = []) : startOldest s = s := by rw [startOldest, hq]

/-- Settles O54: the start of a changeover, a converter's report by what it reports, and the converter's timer. -/
theorem convertersAreStartedAndWatched : Obligations.ConvertersAreStartedAndWatched := by
  refine ⟨fun b rest s hq => ?start, fun s hq hs => next_of_undue (startOldest_of_none hq) hs,
    fun p f e d k q s hr hc hb hp hk => ?report, fun b s => ⟨fun i k hi hk hd hb => ?due, fun hn hs => ?undue,
      fun place => requeue_eq⟩⟩
  case start =>
    intro r t started
    have hx := exec_changeoverStart hq
    refine ⟨fun k e hk he => ⟨fun hfree => ?_, fun hfull => ?_⟩, fun m e hb ht hm he => ⟨fun hfree => ?_, fun hfull => ?_⟩,
      fun m e hb ht hm he => ⟨fun hfree => ?_, fun hfull => ?_⟩⟩
    · exact hx.trans (congrArg (Host.Outcome.next ∘ runPasses) (startChangeover_of_free (s := t) hk he hfree))
    · exact hx.trans (congrArg (Host.Outcome.next ∘ runPasses) (startChangeover_of_full (s := t) hk he hfull))
    · exact hx.trans (congrArg (Host.Outcome.next ∘ runPasses)
        ((startChangeover_live (s := t) hb ht hm).trans (startHandshake_of_free (s := t) he hfree)))
    · exact hx.trans (congrArg (Host.Outcome.next ∘ runPasses)
        ((startChangeover_live (s := t) hb ht hm).trans (startHandshake_of_full (s := t) he hfull)))
    · exact hx.trans (congrArg (Host.Outcome.next ∘ runPasses)
        ((startChangeover_dead (s := t) hb ht hm).trans (startDeadWait_of_free (s := t) he hfree)))
    · exact hx.trans (congrArg (Host.Outcome.next ∘ runPasses)
        ((startChangeover_dead (s := t) hb ht hm).trans (startDeadWait_of_full (s := t) he hfull)))
  case report =>
    intro bay t acts other faulted noticed
    have hact : ∀ u, converterAtBay k q t = u → acts u := by
      intro u hu
      refine (hr.taken (row := .converterState) rfl).trans ?_
      rw [takeConverterState_of_bay hc hb hp hk, hu]
    have hbay : t.bay k = { bay with report := some q } := by
      rw [updBay_bay_same]
      cases k <;> rfl
    have hstate : (t.bay k).state = bay.state := by rw [hbay]
    have hholder : (t.bay k).berth = bay.berth := by rw [hbay]
    have hother : namesOther (t.bay k).berth q.berth = true ↔ other := by rw [hholder]; exact namesOther_iff
    have hberth : ∀ c, t.berth c = s.berth c := fun c => updBay_berth _ _ _ _
    have hfly : ∀ c, t.flying c = s.flying c := fun c => by rw [State.flying, hberth]; rfl
    have hnoticed : ∀ o, (t.bay k).berth = o → faultBay k t = noticed o := by
      intro o ho
      cases o <;> exact faultBay_eq.trans (by rw [ho])
    refine ⟨fun hrun hst b hb ho => ⟨fun hf => ?_, fun hf => ?_⟩, fun hrun ho => ?_, fun hrun hst ho => ?_, fun hrun ho => ?_,
      fun hrun hst => ?_, fun hrun hst b hb => ⟨fun hs => ?_, fun hs => ?_⟩, fun hrun hst => ?_⟩
    · exact hact _ ((converterAtBay_running hrun (hstate.trans hst) (hholder.trans hb) (mt hother.mp ho)).trans
        (if_pos ((hfly b).trans hf)))
    · exact hact _ ((converterAtBay_running hrun (hstate.trans hst) (hholder.trans hb) (mt hother.mp ho)).trans
        (if_neg (by rw [hfly b]; exact hf)))
    · exact hact _ (converterAtBay_running_ignored hrun (by rw [hstate, hother]; exact ho))
    · exact hact _ (converterAtBay_stopped hrun (hstate.trans hst) (mt hother.mp ho))
    · exact hact _ (converterAtBay_stopped_ignored hrun (by rw [hstate, hother]; exact ho))
    · exact hact _ ((converterAtBay_faulted_free hrun (hstate.trans hst)).trans (hnoticed _ hholder))
    · have hs' : ((faultBay k t).berth b).state = .admitted := by rw [faultBay_state (hholder.trans hb), hberth, hs]
      exact hact _ ((converterAtBay_faulted_granted hrun (hstate.trans hst) (hholder.trans hb)).trans
        ((holderFaulted_admitted hs').trans (congrArg _ (hnoticed _ (hholder.trans hb)))))
    · have hs' : ((faultBay k t).berth b).state.closingToOpening = true := by
        rw [faultBay_state (hholder.trans hb), hberth, hs]
      exact hact _ ((converterAtBay_faulted_granted hrun (hstate.trans hst) (hholder.trans hb)).trans
        ((holderFaulted_supplied hs').trans (congrArg _ (hnoticed _ (hholder.trans hb)))))
    · exact hact _ (converterAtBay_faulted_again hrun (hstate.trans hst))
  case due =>
    intro t u
    have hu : faultBay k s = u := faultBay_eq
    exact congrArg (Host.Outcome.next ∘ runPasses) ((expireConverterStart_of_due hi hk hd hb).trans (congrArg _ hu))
  case undue => exact next_of_undue (if_neg (mt flyingDue_iff_exists.mp hn)) hs

end Sys2Proof.Machine
end

-- ==== Ship loads and feeders ====
section
/-! PROOFS. What SHIP_STATE does (R76 to R78, R101, R110, R111), and what FEEDER_STATE does (R79, R80). -/

namespace Sys2Proof.Machine

variable {s t : State} {b : BerthId} {x : SectionId} {p : Port} {f : Frame} {e : EquipEntry} {d : Option EquipEntry}

/-! ## A load against the grant (R76, R77) -/

theorem growGrant_eq {n : Nat} : growGrant b n s = (s
    |> updBerth b (fun r => { r with grant := n, overdraw := none, overdrawStage := .first })
    |> updSec (s.secOf b) (fun y => { y with granted := y.granted + (n - (s.berth b).grant) })
    |> noticeBerth b .grantGrown [byte (s.berth b).grant, byte n]) := by
  unfold growGrant stopOverdraw
  rw [updBerth_updSec, updBerth_updBerth]

theorem compareLoad_eq {n : Nat} : compareLoad b n s =
    if n ≤ (s.berth b).grant then updBerth b (fun r => { r with overdraw := none, overdrawStage := .first }) s
    else if (s.sec (s.secOf b)).overFlag = false ∧
        (s.sec (s.secOf b)).granted + (n - (s.berth b).grant) ≤ (s.sec (s.secOf b)).limit then growGrant b n s
    else if (s.berth b).overdraw ≠ none then s
    else s |> updBerth b (fun r => { r with overdraw := some s.timings.overdraw, overdrawStage := .first })
      |> noticeBerth b .overdraw (bytes2 n ++ [byte (s.berth b).grant]) := by
  have hstart : startOverdraw b n s = if (s.berth b).overdraw ≠ none then s
      else s |> updBerth b (fun r => { r with overdraw := some s.timings.overdraw, overdrawStage := .first })
        |> noticeBerth b .overdraw (bytes2 n ++ [byte (s.berth b).grant]) :=
    if_congr Option.isSome_iff_ne_none rfl rfl
  rw [← hstart]
  rfl

/-- What a comparison of the load leaves of a berth: its activity, its bay and its ramp; and its request. -/
structure LoadKept (b : BerthId) (s t : State) : Prop where
  inFlight : (t.berth b).inFlight = (s.berth b).inFlight
  bay : (t.berth b).bay = (s.berth b).bay
  ramp : (t.berth b).ramp = (s.berth b).ramp
  request : t.request b = s.request b

theorem LoadKept.refl : LoadKept b s s := ⟨rfl, rfl, rfl, rfl⟩

theorem LoadKept.updBerth {g : Berth → Berth} (h : LoadKept b s t)
    (hg : (g (t.berth b)).inFlight = (t.berth b).inFlight ∧ (g (t.berth b)).bay = (t.berth b).bay ∧
      (g (t.berth b)).ramp = (t.berth b).ramp ∧ (g (t.berth b)).sec = (t.berth b).sec) :
    LoadKept b s (updBerth b g t) := by
  obtain ⟨h1, h2, h3, h4⟩ := hg
  exact ⟨by rw [updBerth_berth_same, h1, h.inFlight], by rw [updBerth_berth_same, h2, h.bay],
    by rw [updBerth_berth_same, h3, h.ramp], by rw [request_updBerth h4, h.request]⟩

theorem LoadKept.updSec {g : SectionRec → SectionRec} (h : LoadKept b s t) (hg : ∀ r, (g r).requests = r.requests) :
    LoadKept b s (updSec x g t) := by
  refine ⟨by rw [updSec_berth, h.inFlight], by rw [updSec_berth, h.bay], by rw [updSec_berth, h.ramp], ?_⟩
  rw [← h.request, State.request, State.request, updSec_secOf, updSec_sec]
  split
  next hx => simp only [hg, hx]
  next => rfl

theorem LoadKept.noticeBerth {k : NoticeKind} {l : List Byte} (h : LoadKept b s t) :
    LoadKept b s (noticeBerth b k l t) := by
  obtain ⟨n, v, hn⟩ := noticeBerth_berth (s := t) (b := b) (k := k) (l := l)
  refine ⟨by rw [hn, ← h.inFlight], by rw [hn, ← h.bay], by rw [hn, ← h.ramp], ?_⟩
  rw [← h.request, State.request, State.request, noticeBerth_secOf, noticeBerth_sec]

theorem loadKept_compareLoad {n : Nat} : LoadKept b s (compareLoad b n s) := by
  rw [compareLoad_eq]
  split
  · exact LoadKept.refl.updBerth ⟨rfl, rfl, rfl, rfl⟩
  · split
    · rw [growGrant_eq]
      refine LoadKept.noticeBerth (LoadKept.updSec (LoadKept.updBerth .refl ?_) fun _ => rfl)
      exact ⟨rfl, rfl, rfl, rfl⟩
    · split
      · exact LoadKept.refl
      · refine LoadKept.noticeBerth (LoadKept.updBerth .refl ?_)
        exact ⟨rfl, rfl, rfl, rfl⟩

/-! ## SHIP_STATE (R76, R101, R110, R111) -/

theorem gensOffSeen_eq {q : ShipStateReport} : gensOffSeen b q s =
    if s.flying b = some .gensOffWait ∧ q.gensRunning = false then
      s |> updBerth b (fun r => { r with inFlight := none })
        |> noticeBerth b .changeoverDone
            [1#8, byte (s.berth b).grant, bayByte (s.berth b).bay, byte (s.berth b).ramp.baseCount]
    else s := by
  have hmethod : codeIn methods .live = 1#8 := by decide
  unfold gensOffSeen
  rw [doneDetail, hmethod]
  rfl

/-- The gens-off wait's end leaves the dead wait and the request as they are (R110, R111). -/
theorem gensOffSeen_kept {q : ShipStateReport} :
    ((gensOffSeen b q s).flying b = some .deadWait ↔ s.flying b = some .deadWait) ∧
    (gensOffSeen b q s).request b = s.request b := by
  rw [gensOffSeen_eq]
  split
  next h =>
    refine ⟨?_, ?_⟩
    · obtain ⟨n, v, hn⟩ := noticeBerth_berth (s := updBerth b (fun r => { r with inFlight := none }) s) (b := b)
        (k := .changeoverDone)
        (l := [1#8, byte (s.berth b).grant, bayByte (s.berth b).bay, byte (s.berth b).ramp.baseCount])
      rw [State.flying, hn, updBerth_berth_same, h.1]
      simp
    · rw [State.request, State.request, noticeBerth_secOf, noticeBerth_sec]
      exact request_updBerth rfl
  next => exact ⟨Iff.rfl, rfl⟩

theorem takeShipState_eq {q : ShipStateReport} : takeShipState b q s = (s
    |> updBerth b (fun r => { r with
        obs := { r.obs with shipState := some q }, ramp := { r.ramp with shoreSeen := some q.shoreLoad } })
    |> (fun t => if (t.berth b).state = .onShore then compareLoad b q.shoreLoad t else t)
    |> gensOffSeen b q
    |> deadBusSeen b q) := by
  unfold takeShipState observe updRamp
  rw [updBerth_updBerth]

/-! ## The timers of the overdraw and of the gens-off wait (R78, R110) -/

theorem yesNo_byte {v : Bool} : codeIn yesNo v = if v = true then 1#8 else 2#8 := by cases v <;> decide

theorem expireOverdraw_first (h : (s.berth b).overdraw = some 0) (hs : (s.berth b).overdrawStage = .first) :
    expireOverdraw b s = sendShed b s := by
  rw [expireOverdraw, if_pos h, hs]

theorem expireOverdraw_shed (h : (s.berth b).overdraw = some 0) (hs : (s.berth b).overdrawStage = .shedSent) :
    expireOverdraw b s = trip .live b .overdraw none s := by
  rw [expireOverdraw, if_pos h, hs]

/-- Settles O55: the report's blocks in their order, and the two timers. -/
theorem shipLoadsAreWatched : Obligations.ShipLoadsAreWatched := by
  intro p f e d b q s r x
  refine ⟨fun hr hc hb hq => ?report, fun ho hs => ?shed, fun ho hs => ?trips, fun ho hs => next_of_undue (if_neg ho) hs,
    fun hs i hi hk hd => ?gensOff, fun hs hn => next_of_undue (if_neg (mt flyingDue_iff_exists.mp hn)) hs⟩
  case report =>
    intro t grows u v w
    have hrec : t.berth b = { r with
        obs := { r.obs with shipState := some q }, ramp := { r.ramp with shoreSeen := some q.shoreLoad } } :=
      updBerth_berth_same _ _ _
    have hsec : t.secOf b = x := by rw [State.secOf, hrec]; rfl
    have hreq : t.request b = s.request b := request_updBerth rfl
    have hload : (if (t.berth b).state = .onShore then compareLoad b q.shoreLoad t else t) = u := by
      have hx : t.sec x = s.sec x := by rw [updBerth_sec, dropHead_sec]
      by_cases hs : r.state = .onShore
      · have hs' : (t.berth b).state = .onShore := by rw [hrec]; exact hs
        rw [if_pos hs', compareLoad_eq, growGrant_eq, hsec, hx, hrec]
        exact (if_neg (not_not_intro hs)).symm
      · have hs' : ¬(t.berth b).state = .onShore := by rw [hrec]; exact hs
        exact (if_neg hs').trans (if_pos hs).symm
    have hkept : LoadKept b t u := by
      rw [← hload]
      split
      · exact loadKept_compareLoad
      · exact .refl
    have hfly : ∀ k, u.flying b = some k ↔ s.flying b = some k := by
      intro k
      rw [State.flying, hkept.inFlight, hrec]
      rfl
    have hgens : gensOffSeen b q u = v := by
      rw [gensOffSeen_eq, hkept.bay, hkept.ramp, hrec]
      exact if_congr (and_congr_left' (hfly _)) rfl rfl
    have hdead : deadBusSeen b q v = w := by
      obtain ⟨h1, h2⟩ := gensOffSeen_kept (s := u) (b := b) (q := q)
      rw [hgens] at h1 h2
      have hreq' : v.request b = s.request b := by rw [h2, hkept.request, hreq]
      exact if_congr (by rw [h1, hfly, hreq']) rfl rfl
    have hact : takeShipState b q (dropHead p s) = w := by
      rw [takeShipState_eq, ← hdead, ← hgens, ← hload]
    refine (hr.taken (row := .shipState) rfl).trans ?_
    rw [fromBerth_eq hc hb hq, hact]
  case shed =>
    intro sent
    refine (congrArg (Host.Outcome.next ∘ runPasses) (expireOverdraw_first ho hs)).trans ?_
    rw [← yesNo_byte]
    rfl
  case trips => exact congrArg (Host.Outcome.next ∘ runPasses) (expireOverdraw_shed ho hs)
  case gensOff =>
    refine (congrArg (Host.Outcome.next ∘ runPasses) (if_pos (flyingDue_iff_exists.mpr ⟨i, hi, hk, hd⟩))).trans ?_
    exact congrArg Host.Outcome.next (settled_runPasses ((samePasses_updBerth.trans samePasses_noticeBerth).settled hs))

/-! ## A feeder's loss (R79) -/

theorem tripHead_quiet {cause : TripCause} : tripHead .quiet b cause s = tripUnlocked b cause s := by
  rw [tripHead_eq]
  split <;> rfl

/-- A trip with neither choice nor pass leaves the berth in TRIPPED (R20). -/
theorem trip_quiet_state {cause : TripCause} {reason : Option FailReason} :
    ((trip .quiet b cause reason s).berth b).state = .tripped := by
  by_cases hs : (s.berth b).state = .tripped
  · rw [trip, if_pos hs, hs]
  · have hgiven : ((tripGiven .quiet b cause s).berth b).state = .tripped := by
      unfold tripGiven
      rw [tripHead_quiet]
      split
      · show ((releaseGrant b (tripUnlocked b cause s)).berth b).state = .tripped
        rw [releaseGrant_berth, tripUnlocked_berth, tripOpened_berth]
        rfl
      · rw [tripUnlocked_berth, tripOpened_berth]
        rfl
    rw [trip_eq hs, noticeBerth_tripped_berth, refuseHeld_berth, updBerth_berth_same]
    exact hgiven

/-- The same berths are ADMITTED, in the same sections. -/
def SameAdmitted (s t : State) : Prop :=
  ∀ c, t.secOf c = s.secOf c ∧ ((t.berth c).state = .admitted ↔ (s.berth c).state = .admitted)

/-- Trips of berths that are not ADMITTED leave the ADMITTED ones as they are. -/
theorem sameAdmitted_trips {cause : TripCause} {l : List BerthId} (hl : ∀ c ∈ l, (s.berth c).state ≠ .admitted) :
    SameAdmitted s (l.foldl (fun u c => trip .quiet c cause none u) s) := by
  induction l generalizing s with
  | nil => exact fun c => ⟨rfl, Iff.rfl⟩
  | cons b l ih =>
    have hothers : OthersKept b s (trip .quiet b cause none s) :=
      (Changes.othersKept b s).trip .quiet rfl fun c _ => rfl
    have hone : SameAdmitted s (trip .quiet b cause none s) := by
      intro c
      refine ⟨(((Closed.untouched s).trip .quiet trivial (.refl s)).berths c).1, ?_⟩
      by_cases hc : c = b
      · rw [hc, trip_quiet_state]
        exact ⟨(fun h => nomatch h), fun h => absurd h (hl b (by simp))⟩
      · rw [hothers c hc]
    have hrest := ih (s := trip .quiet b cause none s)
      fun c hc h => hl c (List.mem_cons_of_mem _ hc) ((hone c).2.mp h)
    exact fun c => ⟨(hrest c).1.trans (hone c).1, (hrest c).2.trans (hone c).2⟩

theorem berthsIn_eq {q : BerthState → Bool} :
    s.berthsIn x q = allBerths.filter fun c => decide (s.secOf c = x) && q (s.berth c).state := by
  simp only [State.berthsIn, beq_eq_decide]

theorem berthsIn_admitted (h : SameAdmitted s t) : t.berthsIn x (· == .admitted) =
    allBerths.filter fun c => decide (s.secOf c = x ∧ (s.berth c).state = .admitted) := by
  rw [berthsIn_eq]
  congr 1
  funext c
  obtain ⟨hsec, hadm⟩ := h c
  simp only [hsec, beq_eq_decide, ← Bool.decide_and, hadm]

theorem feederLost_eq :
    let lost := s |> updSec x (fun r => { r with feeder := .lost }) |> noticeSection x .feederLost []
    let tripped := (allBerths.filter fun b => decide (s.secOf b = x) && (s.berth b).state.closingToOpening).foldl
      (fun u b => trip .quiet b .feederLost none u) lost
    let waiting := allBerths.filter fun b => decide (s.secOf b = x ∧ (s.berth b).state = .admitted)
    let requeued := waiting.zipIdx.foldl (fun u b => requeue b.1 b.2 u) tripped
    feederLost x s = if (s.sec x).op ≠ none ∨ (s.sec x).lock ≠ none then runChoice x requeued else requeued := by
  intro lost tripped waiting requeued
  have hberth : ∀ c, lost.berth c = s.berth c := fun c => joinNotices_berth.trans (updSec_berth _ _ _ _)
  have hsec : ∀ c, lost.secOf c = s.secOf c := fun c => congrArg Berth.sec (hberth c)
  have hx : lost.sec x = { s.sec x with feeder := .lost } := (joinNotices_sec _ _).trans (updSec_sec_same _ _ _)
  have htrips : (lost.berthsIn x BerthState.closingToOpening).foldl (fun u b => trip .quiet b .feederLost none u) lost =
      tripped := by
    simp only [berthsIn_eq, hsec, hberth]
    rfl
  have hsame : SameAdmitted s tripped := by
    have h := sameAdmitted_trips (s := lost) (cause := .feederLost)
      (l := lost.berthsIn x BerthState.closingToOpening) fun c hc ha => ?_
    · rw [htrips] at h
      exact fun c => ⟨(h c).1.trans (hsec c), by rw [(h c).2, hberth]⟩
    · rw [berthsIn_eq, List.mem_filter, ha] at hc
      simp [BerthState.closingToOpening] at hc
  have hwaiting : tripped.berthsIn x (· == .admitted) = waiting := berthsIn_admitted hsame
  have hbusy : ((lost.sec x).op.isSome || (lost.sec x).lock.isSome) = true ↔
      (s.sec x).op ≠ none ∨ (s.sec x).lock ≠ none := by
    rw [hx, Bool.or_eq_true, Option.isSome_iff_ne_none, Option.isSome_iff_ne_none]
  have hlost : feederLost x s = if ((lost.sec x).op.isSome || (lost.sec x).lock.isSome) = true then
      runChoice x (requeueAll (((lost.berthsIn x BerthState.closingToOpening).foldl
        (fun u b => trip .quiet b .feederLost none u) lost).berthsIn x (· == .admitted))
        ((lost.berthsIn x BerthState.closingToOpening).foldl (fun u b => trip .quiet b .feederLost none u) lost))
      else requeueAll (((lost.berthsIn x BerthState.closingToOpening).foldl
        (fun u b => trip .quiet b .feederLost none u) lost).berthsIn x (· == .admitted))
        ((lost.berthsIn x BerthState.closingToOpening).foldl (fun u b => trip .quiet b .feederLost none u) lost) := rfl
  rw [hlost, htrips, hwaiting]
  exact if_congr hbusy rfl rfl

theorem feederLive_of_lost (h : (s.sec x).feeder = .lost) : feederLive x s =
    (s |> updSec x (fun r => { r with feeder := .live }) |> callPass x |> noticeSection x .feederRestored []) := by
  simp only [feederLive, h]

theorem feederLive_of_unknown (h : (s.sec x).feeder = .unknown) : feederLive x s =
    (s |> updSec x (fun r => { r with feeder := .live }) |> callPass x) := by
  simp only [feederLive, h]

theorem feederLive_of_live (h : (s.sec x).feeder = .live) : feederLive x s = s := by
  simp only [feederLive, h]

theorem takeFeederState_lost_again (h : (s.sec x).feeder = .lost) : takeFeederState x false s = s := if_pos h

theorem takeFeederState_lost (h : (s.sec x).feeder ≠ .lost) : takeFeederState x false s = feederLost x s := if_neg h

/-- Settles O56. -/
theorem feederLossAndReturn : Obligations.FeederLossAndReturn := by
  intro p f e d x s hr hc hx t live
  have hsec : t.sec x = s.sec x := dropHead_sec
  have hact : ∀ v u, f.payload = [if v = true then 1#8 else 2#8] → takeFeederState x v t = u →
      exec (.feederState p) s = .next (handOn p f d (runPasses u)) := by
    intro v u hp hu
    have hread : feederStateOf f.payload = some v := by rw [hp]; cases v <;> rfl
    refine (hr.taken (row := .feederState) rfl).trans ?_
    rw [fromSection_eq hc hx hread, hu]
  have hsettled : s.settled → runPasses t = t := fun hs => settled_runPasses (settled_dropHead hs)
  refine ⟨fun hp => ⟨fun hf => ?_, fun hf => ?_, fun hf hs => ?_⟩, fun hp => ⟨fun hf hs => ?_, fun hf => ?_⟩⟩
  · exact hact true _ hp (feederLive_of_lost (by rw [hsec, hf]))
  · exact hact true _ hp (feederLive_of_unknown (by rw [hsec, hf]))
  · rw [hact true t hp (feederLive_of_live (by rw [hsec, hf])), hsettled hs]
  · rw [hact false t hp (takeFeederState_lost_again (by rw [hsec, hf])), hsettled hs]
  · intro lost tripped waiting requeued
    refine hact false _ hp ((takeFeederState_lost (by rw [hsec]; exact hf)).trans ?_)
    have h := feederLost_eq (s := t) (x := x)
    rw [hsec] at h
    exact h

end Sys2Proof.Machine
end

-- ==== Positions that no operation awaits ====
section
/-! PROOFS. What a POSITION does that ends no operation of the part, and the trip OPEN's end (R17 to R19, R36, R37). -/

namespace Sys2Proof.Machine

variable {s t : State} {b : BerthId} {q : Breaker} {k : OpKind} {p : Port} {f : Frame} {e : EquipEntry}

/-- The states whose breaker supplies the ship (R17, R19). -/
def BerthState.supplies (st : BerthState) : Prop := st = .rampIn ∨ st = .onShore ∨ st = .rampOut

/-- The states that expect the breaker open (R18). -/
def BerthState.expectsOpen (st : BerthState) : Prop :=
  st = .vacant ∨ st = .plugged ∨ st = .proved ∨ st = .queued ∨ st = .admitted

/-! ## An unasked POSITION by the berth's state (R17 to R19) -/

theorem unaskedPosition_opened (h : (s.berth b).state.supplies) :
    unaskedPosition b .opened s = trip .live b .breakerOpened none s := by
  obtain h | h | h := h <;> simp only [unaskedPosition, h]

theorem unaskedPosition_faulted (h : (s.berth b).state.supplies) :
    unaskedPosition b .faulted s = trip .live b .breakerFail none s := by
  obtain h | h | h := h <;> simp only [unaskedPosition, h]

theorem unaskedPosition_closed (h : (s.berth b).state.expectsOpen) :
    unaskedPosition b .closed s = trip .live b .breakerClosed none s := by
  obtain h | h | h | h | h := h <;> simp only [unaskedPosition, h]

theorem unaskedPosition_tripped (h : (s.berth b).state = .tripped) :
    unaskedPosition b .closed s = tripOpen b s := by
  simp only [unaskedPosition, h]

theorem unaskedPosition_closed_expected (h : ¬(s.berth b).state.expectsOpen) (ht : (s.berth b).state ≠ .tripped) :
    unaskedPosition b .closed s = s := by
  unfold BerthState.expectsOpen at h
  cases hs : (s.berth b).state <;> simp_all [unaskedPosition]

theorem unaskedPosition_expected (hq : q ≠ .closed) (h : ¬(s.berth b).state.supplies) : unaskedPosition b q s = s := by
  unfold BerthState.supplies at h
  cases q with
  | closed => exact absurd rfl hq
  | opened => cases hs : (s.berth b).state <;> simp_all [unaskedPosition]
  | faulted => cases hs : (s.berth b).state <;> simp_all [unaskedPosition]

/-! ## Which POSITION is unasked (R89) -/

theorem positionAtBerth_of_none (ho : s.opOf b = none) (hf : s.flying b ≠ some .tripOpen) :
    positionAtBerth b q s = unaskedPosition b q s := by
  simp only [positionAtBerth, ho, if_neg hf]

theorem positionAtBerth_of_tripOpen (ho : s.opOf b = none) (hf : s.flying b = some .tripOpen) :
    positionAtBerth b q s = tripOpenPosition b q s := by
  simp only [positionAtBerth, ho, if_pos hf]

theorem positionAtBerth_unawaited (ho : s.opOf b = some k) (hk : positionOutcome k q = none) :
    positionAtBerth b q s = unaskedPosition b q s := by
  simp only [positionAtBerth, ho, hk]

theorem takePosition_of_earth (hc : e.cls = .earthSwitch) (hp : positionOf f.payload = some (f.src, q)) :
    takePosition f e s = storePosition f.src q s := by
  simp [takePosition, hp, hc]

theorem takePosition_of_other_id {i : EquipId} (hp : positionOf f.payload = some (i, q)) (hi : i ≠ f.src) :
    takePosition f e s = s := by
  simp [takePosition, hp, hi]

/-! ## The trip OPEN's end (R36, R37) -/

theorem tripOpenFailed_eq : tripOpenFailed b s = (s
    |> updBerth b (fun r => { r with inFlight := none, breakerFail := true })
    |> noticeBerth b .tripped [codeOrZero tripCauses (s.berth b).tripCause, 12#8, 1#8, 0#8]) := by
  have hcode : codeIn berthStates .tripped = 12#8 := by decide
  unfold tripOpenFailed clearInFlight
  rw [updBerth_updBerth, hcode]
  rfl

theorem samePasses_tripOpenFailed : SamePasses s (tripOpenFailed b s) :=
  (samePasses_updBerth.trans samePasses_updBerth).trans samePasses_noticeBerth

/-- Settles O57: by what waits for a POSITION, and where nothing does by the berth's state. -/
theorem unaskedPositionsActOnTheBerth : Obligations.UnaskedPositionsActOnTheBerth := by
  intro p f e d b q s r failed
  refine ⟨fun hr hp => ?_, fun hr i hp hi hs => ?_, fun i hi hk hd hs => ?_, fun hn hs => ?_⟩
  · intro t acts again supplied expectedOpen
    have hstored : storePosition f.src q (dropHead p s) = t := storePosition_eq
    have hberth : t.berth b = r := rfl
    have hop : t.opOf b = s.opOf b := rfl
    have hfly : t.flying b = s.flying b := rfl
    have hact : ∀ u, takePosition f e (dropHead p s) = u → acts u := by
      intro u hu
      refine (hr.taken (row := .position) rfl).trans ?_
      rw [hu]
    have hagain : tripOpen b t = again := tripOpen_eq
    have hfailed : tripOpenFailed b t = failed t := tripOpenFailed_eq
    clear_value t
    refine ⟨fun hc => hact _ ((takePosition_of_earth hc hp).trans hstored), fun hc hb => ?_⟩
    have hat : ∀ u, positionAtBerth b q t = u → acts u := by
      intro u hu
      exact hact u ((takePosition_of_breaker hc hb hp).trans (hstored ▸ hu))
    refine ⟨fun ho hf => ?_, fun ho hst => ?_, fun hst ho hq => ?_, fun hst ho hq => ?_, fun hst ho hf => ?_⟩
    · have hun : ∀ u, unaskedPosition b q t = u → acts u := fun u hu =>
        hat u ((positionAtBerth_of_none (hop.trans ho) (by rw [hfly]; exact hf)).trans hu)
      refine ⟨fun hq hst => hun _ ?_, fun hq hst => hun _ ?_, fun hq hst => hun _ ?_, fun hq hst => hun _ ?_,
        fun hq hst ht => hun _ ?_, fun hq hst => hun _ ?_⟩
      · rw [hq, unaskedPosition_opened (by rw [hberth]; exact hst)]
      · rw [hq, unaskedPosition_faulted (by rw [hberth]; exact hst)]
      · rw [hq, unaskedPosition_closed (by rw [hberth]; exact hst)]
      · rw [hq, unaskedPosition_tripped (by rw [hberth]; exact hst), hagain]
      · rw [hq, unaskedPosition_closed_expected (by rw [hberth]; exact hst) (by rw [hberth]; exact ht)]
      · rw [unaskedPosition_expected hq (by rw [hberth]; exact hst)]
    · have hun : ∀ u, unaskedPosition b q t = u → acts u := fun u hu =>
        hat u ((positionAtBerth_unawaited (hop.trans ho) (by cases q <;> rfl)).trans hu)
      refine ⟨fun hq => hun _ ?_, fun hq => hun _ ?_, fun hq => hun _ ?_⟩
      · rw [hq, unaskedPosition_opened (by rw [hberth]; exact hst)]
      · rw [hq, unaskedPosition_faulted (by rw [hberth]; exact hst)]
      · have hst' : (t.berth b).state.supplies := by rw [hberth]; exact hst
        rw [hq]
        exact unaskedPosition_closed_expected
          (by obtain h | h | h := hst' <;> simp [BerthState.expectsOpen, h]) (by obtain h | h | h := hst' <;> simp [h])
    · have hst' : (t.berth b).state = .closing := by rw [hberth, hst]
      refine hat _ ?_
      rw [hq]
      obtain ho | ho := ho
      · exact (positionAtBerth_unawaited (hop.trans ho) rfl).trans
          (unaskedPosition_expected (by decide) (by simp [BerthState.supplies, hst']))
      · exact (positionAtBerth_unawaited (hop.trans ho) rfl).trans
          (unaskedPosition_expected (by decide) (by simp [BerthState.supplies, hst']))
    · have hst' : (t.berth b).state = .opening := by rw [hberth, hst]
      refine hat _ ?_
      rw [hq]
      exact (positionAtBerth_unawaited (hop.trans ho) rfl).trans
        (unaskedPosition_closed_expected (by simp [BerthState.expectsOpen, hst']) (by simp [hst']))
    · have hst' : (t.berth b).state = .tripped := by rw [hberth, hst]
      have htrip := positionAtBerth_of_tripOpen (q := q) (hop.trans ho) (hfly.trans hf)
      refine ⟨fun hq => hat _ ?_, fun hq => hat _ ?_, fun hq => hat _ ?_⟩
      · rw [htrip, hq]
        rfl
      · rw [htrip, hq]
        exact hfailed
      · rw [htrip, hq]
        exact (unaskedPosition_tripped hst').trans hagain
  · exact hr.taken_settled (row := .position) rfl (takePosition_of_other_id hp hi) (settled_dropHead hs)
  · have hexpire : expireTripOpen b s = tripOpenFailed b s := if_pos (flyingDue_iff_exists.mpr ⟨i, hi, hk, hd⟩)
    have hfailed : tripOpenFailed b s = failed s := tripOpenFailed_eq
    show Host.Outcome.next (runPasses (expireTripOpen b s)) = _
    rw [hexpire, settled_runPasses (samePasses_tripOpenFailed.settled hs), hfailed]
  · exact next_of_undue (if_neg (mt flyingDue_iff_exists.mp hn)) hs

end Sys2Proof.Machine
end

-- ==== The lines of a berth ====
section
/-! PROOFS. What an activation or a deactivation of a line does in each state of the berth (R13, R16, R24, R26 to R34). -/

namespace Sys2Proof.Machine

variable {s t u : State} {b : BerthId} {l : FaultLine}

theorem satInc_byteMax (n : Nat) : satInc Config.byteMax n = min 255 (n + 1) := satInc_eq_min

/-! ## The record of a line (R24, R27) -/

theorem activate_eq {r : LineRec} {second night : Nat} : r.activate second night = { r with
    level := .active, stamp := some (second, night), count := min 65535 (r.count + 1) } := by
  rw [LineRec.activate, satInc_countMax]

theorem Tally.count_eq {r : Tally} : r.count l = match l with
    | .estop => { r with estop := min 255 (r.estop + 1) }
    | .pilot => { r with pilot := min 255 (r.pilot + 1) }
    | .strain => { r with strain := min 255 (r.strain + 1) } := by
  cases l <;> simp only [Tally.count, satInc_byteMax]

theorem stampFault_estop : stampFault b .estop s = (s
    |> updLine b (fun l => { l with estop := { l.estop with
        level := .active, stamp := some (s.clock.time, s.clock.night), count := min 65535 (l.estop.count + 1) } })
    |> updBerth b (fun r => { r with tally := { r.tally with estop := min 255 (r.tally.estop + 1) } })) := by
  simp only [stampFault, BerthLines.updFault, activate_eq, Tally.count_eq]

theorem stampFault_pilot : stampFault b .pilot s = (s
    |> updLine b (fun l => { l with pilot := { l.pilot with
        level := .active, stamp := some (s.clock.time, s.clock.night), count := min 65535 (l.pilot.count + 1) } })
    |> updBerth b (fun r => { r with tally := { r.tally with pilot := min 255 (r.tally.pilot + 1) } })) := by
  simp only [stampFault, BerthLines.updFault, activate_eq, Tally.count_eq]

theorem stampFault_strain : stampFault b .strain s = (s
    |> updLine b (fun l => { l with strain := { l.strain with
        level := .active, stamp := some (s.clock.time, s.clock.night), count := min 65535 (l.strain.count + 1) } })
    |> updBerth b (fun r => { r with tally := { r.tally with strain := min 255 (r.tally.strain + 1) } })) := by
  simp only [stampFault, BerthLines.updFault, activate_eq, Tally.count_eq]

theorem stampLatch_eq : stampLatch b s = (s
    |> updLine b (fun l => { l with latch := { l.latch with
        level := .active, stamp := some (s.clock.time, s.clock.night), count := min 65535 (l.latch.count + 1) } })
    |> updBerth b (fun r => { r with tally := { r.tally with latch := min 255 (r.tally.latch + 1) } })) := by
  simp only [stampLatch, activate_eq, satInc_byteMax]

@[simp] theorem stampFault_state : ((stampFault b l s).berth b).state = (s.berth b).state := by
  simp [stampFault]

@[simp] theorem stampLatch_state : ((stampLatch b s).berth b).state = (s.berth b).state := by
  simp [stampLatch]

theorem updFault_fault {r : BerthLines} {g : LineRec → LineRec} : (r.updFault l g).fault l = g (r.fault l) := by
  cases l <;> rfl

theorem stampFault_count : (((stampFault b l s).line b).fault l).count = min 65535 (((s.line b).fault l).count + 1) := by
  rw [stampFault, updBerth_line, updLine_line_same, updFault_fault, activate_eq]

theorem activateFault_of_active {act : State → State} (h : ((s.line b).fault l).level = .active) :
    activateFault b l act s = s := if_pos h

theorem activateFault_of_enabled {act : State → State} (h : ((s.line b).fault l).level = .inactive)
    (he : ((s.line b).fault l).enable = .enabled) : activateFault b l act s = act (stampFault b l s) := by
  simp [activateFault, h, he]

theorem activateFault_of_disabled {act : State → State} (h : ((s.line b).fault l).level = .inactive)
    (he : ((s.line b).fault l).enable = .disabled) : activateFault b l act s =
      updLine b (fun t => t.updFault l fun r => { r with level := .active }) s := by
  simp [activateFault, h, he]

theorem lineEventActivation_of_count {st : BerthState} {n : Nat} (h : ((t.line b).fault l).count = n) :
    lineEventActivation b l st t = noticeBerth b .lineEvent ([codeIn faultLines l, 1#8, codeIn berthStates st] ++ bytes2 n) t := by
  rw [lineEventActivation, h]

/-! ## The effects of an activation (R28 to R31) -/

theorem updLine_updLine {g h : BerthLines → BerthLines} : updLine b g (updLine b h s) = updLine b (g ∘ h) s := by
  simp [updLine, State.line]

/-- The strain grace starts on the record that the activation stamped (R31). -/
theorem strainEffect_eq {g : Berth → Berth} {h : BerthLines → BerthLines} (hg : (g (s.berth b)).state = (s.berth b).state) :
    strainEffect b (updBerth b g (updLine b h s)) = lineEventActivation b .strain (s.berth b).state
      (updBerth b g (updLine b (fun r => { h r with strainTimer := some s.timings.strainGrace }) s)) := by
  have hline : updLine b (fun r => { r with strainTimer := some s.timings.strainGrace }) (updBerth b g (updLine b h s)) =
      updBerth b g (updLine b (fun r => { h r with strainTimer := some s.timings.strainGrace }) s) :=
    congrArg (updBerth b g) (updLine_updLine (g := fun r => { r with strainTimer := some s.timings.strainGrace }))
  have hst : ((updBerth b g (updLine b h s)).berth b).state = (s.berth b).state := by rw [updBerth_berth_same]; exact hg
  exact (congrArg (lineEventActivation b .strain _) hline).trans (by rw [hst])

/-- The states of a berth that no vessel uses. -/
def BerthState.away (st : BerthState) : Prop := st = .outOfService ∨ st = .vacant

theorem estopEffect_of_away (h : (s.berth b).state.away) :
    estopEffect b s = lineEventActivation b .estop (s.berth b).state s := by
  obtain h | h := h <;> simp only [estopEffect, h]

theorem estopEffect_of_used (h : ¬(s.berth b).state.away) (ht : (s.berth b).state ≠ .tripped) :
    estopEffect b s = trip .live b .estop none s := by
  unfold BerthState.away at h
  cases hs : (s.berth b).state <;> simp_all [estopEffect]

theorem estopEffect_of_tripped (h : (s.berth b).state = .tripped) : estopEffect b s = s := by
  simp only [estopEffect, h]

theorem pilotEffect_of_unproved (h : (s.berth b).state.away ∨ (s.berth b).state = .plugged ∨ (s.berth b).state = .tripped) :
    pilotEffect b s = s := by
  obtain (h | h) | h | h := h <;> simp only [pilotEffect, h]

theorem pilotEffect_of_supplied (h : (s.berth b).state.closingToOpening = true) :
    pilotEffect b s = trip .live b .pilotLost none s := by
  obtain h | h | h | h | h := closingToOpening_iff.mp h <;> simp only [pilotEffect, h]

theorem pilotEffect_of_proved
    (h : (s.berth b).state = .proved ∨ (s.berth b).state = .queued ∨ (s.berth b).state = .admitted) :
    pilotEffect b s = pilotReturn b s := by
  obtain h | h | h := h <;> simp only [pilotEffect, h]

/-- The way back to PLUGGED, to be proved again (R30). -/
def provedAgain (b : BerthId) (s : State) : State := s
  |> updBerth b (fun r => { r with profile := none, cable := none, provingPassed := false })
  |> enterState .live b .plugged
  |> startProving b

theorem untouched_provedAgain (h : Untouched s t) : Untouched s (provedAgain b t) :=
  (Closed.untouched s).startProving trivial ((Closed.untouched s).enterState (Closed.untouched s).live trivial
    ((Closed.untouched s).berth trivial (fun _ => ⟨rfl, rfl, rfl, rfl, rfl, rfl⟩) h))

/-- The way back ends in the notice of the activation that took it, with the count the activation left (R30, R34). -/
theorem lineEvent_provedAgain {st : BerthState} {n : Nat} (h : Untouched s t) (hn : ((s.line b).fault l).count = n) :
    lineEventActivation b l st (provedAgain b t) =
      noticeBerth b .lineEvent ([codeIn faultLines l, 1#8, codeIn berthStates st] ++ bytes2 n) (provedAgain b t) := by
  refine lineEventActivation_of_count ?_
  rw [← hn, State.line, (untouched_provedAgain h).lines]
  rfl

theorem pilotReturn_of_queued (h : (s.berth b).state ≠ .admitted) :
    pilotReturn b s = lineEventActivation b .pilot (s.berth b).state (provedAgain b s) := by
  simp only [pilotReturn, if_neg h]
  rfl

/-- What the ADMITTED berth gives back on the way (R7). -/
def pilotGiven (b : BerthId) (s : State) : State :=
  s |> withdrawRequest b |> clearInFlight b |> endHold b |> releaseGrant b |> runPasses

theorem untouched_pilotGiven : Untouched s (pilotGiven b s) :=
  (Closed.untouched s).runPasses ((Closed.untouched s).releaseGrant trivial ((Closed.untouched s).endHold trivial
    ((Closed.untouched s).clearInFlight trivial ((Closed.untouched s).withdrawRequest (.refl s)))))

theorem pilotReturn_of_admitted (h : (s.berth b).state = .admitted) :
    pilotReturn b s = lineEventActivation b .pilot .admitted (provedAgain b (pilotGiven b s)) := by
  simp only [pilotReturn, h]
  rfl

/-! ## LATCH (R13, R16) -/

theorem latchLostEffect_of_away (h : (s.berth b).state.away) : latchLostEffect b s = s := by
  obtain h | h := h <;> simp only [latchLostEffect, h]

theorem latchLostEffect_of_plugged
    (h : (s.berth b).state = .plugged ∨ (s.berth b).state = .proved ∨ (s.berth b).state = .queued) :
    latchLostEffect b s = unplug b s := by
  obtain h | h | h := h <;> simp only [latchLostEffect, h]

theorem latchLostEffect_of_admitted (h : (s.berth b).state = .admitted) : latchLostEffect b s = unplug b (s
    |> withdrawRequest b
    |> updBerth b (fun r => { r with inFlight := none, holdGranted := false })
    |> releaseGrant b
    |> runPasses) := by
  simp only [latchLostEffect, h, clearInFlight, updBerth_updBerth]
  rfl

theorem latchLostEffect_of_supplied (h : (s.berth b).state.closingToOpening = true) :
    latchLostEffect b s = trip .live b .latchLost none s := by
  obtain h | h | h | h | h := closingToOpening_iff.mp h <;> simp only [latchLostEffect, h]

theorem latchLostEffect_of_tripped (h : (s.berth b).state = .tripped) : latchLostEffect b s = unlinkCable b s := by
  simp only [latchLostEffect, h]

theorem unplug_eq : unplug b s = (s
    |> updBerth b (fun r => { r with
        inFlight := none, provingPassed := false, provingStep := .idle, comparison := 0#5 })
    |> unlinkCable b
    |> enterState .live b .vacant) := by
  have h : ∀ g, updBerth b g (unlinkCable b (clearInFlight b s)) = unlinkCable b (updBerth b g (clearInFlight b s)) :=
    fun _ => rfl
  rw [unplug, h, clearInFlight, updBerth_updBerth]

theorem activateLatch_of_active (h : (s.line b).latch.level = .active) : activateLatch b s = s := if_pos h

theorem activateLatch_of_vacant (h : (s.line b).latch.level = .inactive) (hs : (s.berth b).state = .vacant) :
    activateLatch b s = (stampLatch b s
      |> updBerth b (fun r => { r with vessel := none, profile := none, cable := none })
      |> enterState .live b .plugged
      |> startProving b) := by
  simp [activateLatch, h, hs]

theorem activateLatch_of_other (h : (s.line b).latch.level = .inactive) (hs : (s.berth b).state ≠ .vacant) :
    activateLatch b s = stampLatch b s := by
  simp [activateLatch, h, hs]

theorem deactivateLatch_of_active (h : (s.line b).latch.level = .active) : deactivateLatch b s =
    latchLostEffect b (updLine b (fun l => { l with latch := { l.latch with level := .inactive } }) s) := by
  simp [deactivateLatch, h]

/-! ## The line commands -/

/-- A command whose event calls for no pass. -/
theorem next_of_samePasses (h : SamePasses s t) (hs : s.settled) (hu : u = t) :
    Host.Outcome.next (finishEvent u) = (Host.Outcome.next t : Host.Outcome State Fault Refusal) := by
  rw [hu, finishEvent, settled_runPasses (h.settled hs)]

/-- Settles O60, line by line and state by state. -/
theorem linesActOnTheBerth : Obligations.LinesActOnTheBerth := by
  intro b s r l st hit supplied away event
  have hsup : supplied → st.closingToOpening = true := closingToOpening_iff.mpr
  have hpass : ∀ {g h}, SamePasses s (updBerth b g (updLine b h s)) := ⟨rfl, rfl⟩
  have hnext : ∀ {v w : State}, v = w → Host.Outcome.next (finishEvent v) =
      (Host.Outcome.next (runPasses w) : Host.Outcome State Fault Refusal) := fun h => by rw [h]; rfl
  refine ⟨?estop, ?pilot, ?strain, ?disabled, ?again, rfl, rfl, rfl, ?grace, ?latched, ?unlatched⟩
  case estop =>
    intro hl he t
    have ht : stampFault b .estop s = t := stampFault_estop
    have hst : (t.berth b).state = st := by rw [← ht, stampFault_state]
    have hn : ((t.line b).fault .estop).count = min 65535 (l.estop.count + 1) := by rw [← ht]; exact stampFault_count
    have hx : activateFault b .estop (estopEffect b) s = estopEffect b t := ht ▸ activateFault_of_enabled hl he
    refine ⟨fun ha hs => ?_, fun ha hs => ?_, fun hs hset => ?_⟩
    · refine next_of_samePasses (samePasses_noticeBerth (s := t)) hs
        ((hx.trans (estopEffect_of_away (hst ▸ ha))).trans ?_)
      rw [hst]
      exact lineEventActivation_of_count hn
    · exact hnext (hx.trans (estopEffect_of_used (hst ▸ ha) (hst ▸ hs)))
    · exact next_of_samePasses hpass hset (hx.trans (estopEffect_of_tripped (hst.trans hs)))
  case pilot =>
    intro hl he t back
    have ht : stampFault b .pilot s = t := stampFault_pilot
    have hst : (t.berth b).state = st := by rw [← ht, stampFault_state]
    have hn : ((t.line b).fault .pilot).count = min 65535 (l.pilot.count + 1) := by rw [← ht]; exact stampFault_count
    have hx : activateFault b .pilot (pilotEffect b) s = pilotEffect b t := ht ▸ activateFault_of_enabled hl he
    refine ⟨fun ha hs => ?_, fun hs => ?_, fun hs => ?_, fun hs => ?_⟩
    · exact next_of_samePasses hpass hs (hx.trans (pilotEffect_of_unproved (hst ▸ ha)))
    · refine hnext ((hx.trans (pilotEffect_of_proved (hst ▸ hs.imp_right Or.inl))).trans ?_)
      rw [pilotReturn_of_queued (by rw [hst]; obtain h | h := hs <;> rw [h] <;> decide), hst]
      exact lineEvent_provedAgain (.refl t) hn
    · refine hnext ((hx.trans (pilotEffect_of_proved (hst ▸ .inr (.inr hs)))).trans ?_)
      rw [pilotReturn_of_admitted (hst.trans hs), ← hs]
      exact lineEvent_provedAgain untouched_pilotGiven hn
    · exact hnext (hx.trans (pilotEffect_of_supplied (hst ▸ hsup hs)))
  case strain =>
    intro hl he hs
    refine next_of_samePasses (samePasses_noticeBerth (s := updBerth b _ (updLine b _ s))) hs
      ((activateFault_of_enabled (l := .strain) hl he).trans ?_)
    rw [stampFault_strain, strainEffect_eq rfl]
    refine (lineEventActivation_of_count (n := min 65535 (l.strain.count + 1)) ?_).trans rfl
    rw [updBerth_line, updLine_line_same]
    rfl
  case disabled =>
    exact fun hl he hs => next_of_samePasses (t := updLine b _ s) ⟨rfl, rfl⟩ hs (activateFault_of_disabled hl he)
  case again =>
    exact fun hs => ⟨fun h => next_of_undue (activateFault_of_active h) hs,
      fun h => next_of_undue (activateFault_of_active h) hs, fun h => next_of_undue (activateFault_of_active h) hs⟩
  case grace =>
    intro t
    refine ⟨fun h hs => ?_, fun h hn hs => ?_, fun h hs => next_of_undue (if_neg h) hs⟩
    · exact hnext ((if_pos h).trans (if_pos (hsup hs)))
    · exact next_of_samePasses (samePasses_noticeBerth (s := t)) hs
        ((if_pos h).trans (if_neg (mt closingToOpening_iff.mp hn)))
  case latched =>
    intro hl t
    have ht : stampLatch b s = t := stampLatch_eq
    refine ⟨fun hs => ?_, fun hs hset => ?_, fun hset => next_of_undue (if_pos hl) hset⟩
    · exact hnext ((activateLatch_of_vacant hl hs).trans (by rw [ht]))
    · exact next_of_samePasses hpass hset ((activateLatch_of_other hl hs).trans ht)
  case unlatched =>
    intro hl t unplugged
    have hx : deactivateLatch b s = latchLostEffect b t := deactivateLatch_of_active hl
    refine ⟨fun hs => next_of_undue (activateLatch_of_active hl) hs, fun ha hs => ?_, fun h => ?_, fun h => ?_,
      fun h => ?_, fun h hs => ?_⟩
    · exact next_of_samePasses (t := t) ⟨rfl, rfl⟩ hs (hx.trans (latchLostEffect_of_away ha))
    · exact hnext ((hx.trans (latchLostEffect_of_plugged h)).trans unplug_eq)
    · exact hnext ((hx.trans (latchLostEffect_of_admitted h)).trans unplug_eq)
    · exact hnext (hx.trans (latchLostEffect_of_supplied (hsup h)))
    · exact next_of_samePasses (t := unlinkCable b t) ⟨rfl, rfl⟩ hs (hx.trans (latchLostEffect_of_tripped h))

end Sys2Proof.Machine
end

-- ==== The proving run's reports ====
section
/-! PROOFS. What a CORE_TEST and an ASSIGN_DONE do to a proving run and to the CABLE RECORD TABLE (R42 to R48, R52, R55). -/

namespace Sys2Proof.Machine

variable {s t u : State} {b : BerthId} {n : Fin 32} {c : CableRec} {q : CoreTestReport} {p : Port} {f : Frame}
  {e : EquipEntry} {d : Option EquipEntry}

/-! ## The failed run (R55) -/

theorem failRun_eq {reason : FailReason} : failRun b reason s = (s
    |> updBerth b (fun r => { r with inFlight := none, provingStep := .idle, comparison := 0#5, assignOrder := none })
    |> trip .quiet b .cableFault (some reason)) := by
  rw [failRun, clearInFlight, updBerth_updBerth]

/-! ## A report's fault set, folded into the record (R46) -/

theorem or_bits_eq_ofNat_sum : ∀ v w x y z : Bool,
    (if v then 0#5 else 1#5) ||| (if w then 0#5 else 2#5) ||| (if x then 0#5 else 4#5) ||| (if y then 0#5 else 8#5) |||
      (if z then 0#5 else 16#5) = BitVec.ofNat 5 ((if v then 0 else 1) + (if w then 0 else 2) + (if x then 0 else 4) +
        (if y then 0 else 8) + (if z then 0 else 16)) := by
  decide

theorem faults_eq : q.faults = BitVec.ofNat 5 ((if q.p1 = .ok then 0 else 1) + (if q.p2 = .ok then 0 else 2) +
    (if q.p3 = .ok then 0 else 4) + (if q.p4 = .ok then 0 else 8) + (if q.sp = .ok then 0 else 16)) := by
  have h := or_bits_eq_ofNat_sum (q.p1 = .ok) (q.p2 = .ok) (q.p3 = .ok) (q.p4 = .ok) (q.sp = .ok)
  simp only [decide_eq_true_eq] at h
  exact h

theorem fold_eq {faults : CoreSet} {night : Nat} : c.fold faults night = { c with
    andMask := if c.tests = 0 then faults else c.andMask &&& faults
    orMask := if c.tests = 0 then faults else c.orMask ||| faults
    tests := min 255 (c.tests + 1)
    lastSeen := night } := by
  rw [CableRec.fold, satInc_byteMax]

/-- A record put in a slot, whatever the slot held. -/
def setCable (n : Fin 32) (c : CableRec) (s : State) : State := { s with cables := s.cables.set n (some c) }

theorem setCable_setCable {g : CableRec} : setCable n c (setCable n g s) = setCable n c s := by
  simp [setCable]

theorem setCable_updBerth {g : Berth → Berth} : setCable n c (updBerth b g s) = updBerth b g (setCable n c s) := rfl

theorem setCable_same : (setCable n c s).cables[n] = some c := by
  simp [setCable]

theorem updCable_of_some {g : CableRec → CableRec} (h : s.cables[n] = some c) :
    updCable n g s = setCable n (g c) s := by
  rw [updCable, h]
  rfl

theorem foldReport_of_some (h : s.cables[n] = some c) : foldReport b n q s =
    updBerth b (fun r => { r with tally := { r.tally with cable := some c.cable } })
      (setCable n (c.fold q.faults s.clock.night) s) := by
  rw [foldReport, updCable_of_some h, h]
  rfl

theorem cable_of_cableSlotOf {v : Num32} (h : s.cableSlotOf v = some n) (hc : s.cables[n] = some c) : c.cable = v := by
  have hn := List.find?_some h
  rw [hc] at hn
  simpa using hn

/-! ## The slot that a first test selects (R42) -/

theorem emptySlot_of_first (h : s.cables[n] = none) (hl : ∀ m : Fin 32, m < n → s.cables[m] ≠ none) :
    s.emptySlot = some n := by
  rw [State.emptySlot, ← Fin.find?_eq_find?_finRange, Fin.find?_eq_some_iff]
  exact ⟨by simp [h], fun m hm => by simpa [Option.isSome_iff_ne_none] using hl m hm⟩

theorem emptySlot_of_full (h : ∀ m : Fin 32, s.cables[m] ≠ none) : s.emptySlot = none := by
  rw [State.emptySlot, List.find?_eq_none]
  exact fun m _ => by simpa using h m

theorem removableAge_eq_some_iff {a : Nat} : s.removableAge n = some a ↔
    ∃ g, s.cables[n] = some g ∧ g.berth = none ∧ g.age s.clock.night = a := by
  unfold State.removableAge
  cases s.cables[n] <;> simp

theorem oldestSlot_of_oldest (hc : s.cables[n] = some c) (hb : c.berth = none)
    (h : ∀ (m : Fin 32) g, s.cables[m] = some g → g.berth = none →
      g.age s.clock.night ≤ c.age s.clock.night ∧ (m < n → g.age s.clock.night < c.age s.clock.night)) :
    s.oldestSlot = some n := by
  have hn : s.removableAge n = some (c.age s.clock.night) := removableAge_eq_some_iff.mpr ⟨c, hc, hb, rfl⟩
  rw [State.oldestSlot, ← Fin.find?_eq_find?_finRange, Fin.find?_eq_some_iff]
  refine ⟨?_, fun m hm => ?_⟩
  · simp only [hn, List.all_eq_true, Option.all_eq_true, decide_eq_true_eq]
    intro m _ a ha
    obtain ⟨g, hg, hgb, rfl⟩ := removableAge_eq_some_iff.mp ha
    exact (h m g hg hgb).1
  · cases hm' : s.removableAge m with
    | none => rfl
    | some a =>
      obtain ⟨g, hg, hgb, rfl⟩ := removableAge_eq_some_iff.mp hm'
      have hlt := (h m g hg hgb).2 hm
      simp only [List.all_eq_false, Option.all_eq_true, decide_eq_true_eq]
      exact ⟨n, List.mem_finRange n, by rw [hn]; simpa using hlt⟩

theorem selectRecord_of_found {v : Num32} (h : s.cableSlotOf v = some n) : selectRecord v s = (some n, s) := by
  rw [selectRecord, h]

theorem selectRecord_of_slot {v : Num32} (h : s.cableSlotOf v = none) (hn : (s.emptySlot <|> s.oldestSlot) = some n) :
    selectRecord v s = (some n, { s with cables := s.cables.set n (some (CableRec.fresh v s.clock.night)) }) := by
  rw [selectRecord, h, hn]

/-! ## A first test (R42, R43, R47) -/

/-- The cable's record names another berth (R47). -/
def State.usedElsewhere (s : State) (b : BerthId) (v : Num32) : Bool :=
  match s.cableSlotOf v with
  | some n => match s.cables[n] with
    | some r => r.berth.isSome && r.berth != some b
    | none => false
  | none => false

/-- The berth is linked to the record and the report folded into it (R43, R46). -/
def linkTested (b : BerthId) (n : Fin 32) (q : CoreTestReport) (s : State) : State := s
  |> unlinkCable b
  |> updCable n (fun r => { r with berth := some b })
  |> updBerth b (fun r => { r with cable := some q.cable })
  |> foldReport b n q

/-- What a first test comes to once its record is linked and folded (R47). -/
def judgeFirst (b : BerthId) (n : Fin 32) (q : CoreTestReport) (s : State) : State :=
  match s.cables[n] with
  | none => s
  | some c =>
    if c.condition = .unserviceable then failRun b .unserviceable s
    else
      match c.map with
      | some m => sendAssign b m s
      | none => firstLook b n c q.faults s

theorem firstTest_of_used (h : s.usedElsewhere b q.cable = true) : firstTest b q s = failRun b .cableInUse s := if_pos h

theorem firstTest_of_selected (h : s.usedElsewhere b q.cable = false) (hu : selectRecord q.cable s = (some n, u)) :
    firstTest b q s = judgeFirst b n q (linkTested b n q u) := by
  refine (if_neg (Bool.eq_false_iff.mp h)).trans ?_
  simp only [hu]
  rfl

theorem usedElsewhere_of_record {v : Num32} (h : s.cableSlotOf v = some n) (hc : s.cables[n] = some c) :
    s.usedElsewhere b v = true ↔ ∃ o, c.berth = some o ∧ o ≠ b := by
  simp only [State.usedElsewhere, h, hc]
  cases c.berth <;> simp

theorem usedElsewhere_of_none {v : Num32} (h : s.cableSlotOf v = none) : s.usedElsewhere b v = false := by
  rw [State.usedElsewhere, h]

/-- The record linked to the berth, and the report folded into it. -/
def CableRec.tested (b : BerthId) (q : CoreTestReport) (night : Nat) (c : CableRec) : CableRec :=
  { c with berth := some b }.fold q.faults night

/-- The berth linked to a record, whatever its slot held. -/
def linkedTo (b : BerthId) (n : Fin 32) (q : CoreTestReport) (c : CableRec) (s : State) : State := s
  |> unlinkCable b
  |> setCable n (c.tested b q s.clock.night)
  |> updBerth b (fun r => { r with cable := some q.cable, tally := { r.tally with cable := some q.cable } })

theorem unlinkCable_cable (hc : s.cables[n] = some c) : (unlinkCable b s).cables[n] =
    some (if c.berth = some b then { c with berth := none } else c) := by
  rw [unlinkCable_eq]
  exact (Vector.getElem_map _ n.isLt).trans (congrArg _ hc)

theorem linkTested_of_some (hc : s.cables[n] = some c) (hq : c.cable = q.cable) :
    linkTested b n q s = linkedTo b n q c s := by
  have hlink : updCable n (fun r => { r with berth := some b }) (unlinkCable b s) =
      setCable n { c with berth := some b } (unlinkCable b s) := by
    rw [updCable_of_some (unlinkCable_cable hc)]
    split <;> rfl
  rw [linkTested, hlink, ← setCable_updBerth, foldReport_of_some setCable_same, setCable_setCable, setCable_updBerth,
    updBerth_updBerth, linkedTo, ← hq]
  rfl

theorem linkedTo_setCable {g : CableRec} : linkedTo b n q c (setCable n g s) = linkedTo b n q c s := by
  have h : unlinkCable b (setCable n g s) = setCable n (if g.berth = some b then { g with berth := none } else g)
      (unlinkCable b s) := by
    simp [unlinkCable_eq, setCable, Vector.map_set]
  rw [linkedTo, h, setCable_setCable]
  rfl

theorem judgeFirst_linkedTo : judgeFirst b n q (linkedTo b n q c s) =
    if c.condition = .unserviceable then failRun b .unserviceable (linkedTo b n q c s)
    else
      match c.map with
      | some m => sendAssign b m (linkedTo b n q c s)
      | none => firstLook b n (c.tested b q s.clock.night) q.faults (linkedTo b n q c s) := by
  have h : (linkedTo b n q c s).cables[n] = some (c.tested b q s.clock.night) := setCable_same
  rw [judgeFirst, h]
  rfl

/-! ## A later test, and an assignment (R46, R48, R52) -/

theorem laterTest_of_other {judge : BerthId → Fin 32 → CableRec → CoreSet → State → State}
    (h : (s.berth b).cable ≠ some q.cable) : laterTest b q judge s = failRun b .cableChanged s := if_pos h

theorem laterTest_of_same {judge : BerthId → Fin 32 → CableRec → CoreSet → State → State}
    (h : (s.berth b).cable = some q.cable) (hn : s.cableSlotOf q.cable = some n) (hc : s.cables[n] = some c) :
    laterTest b q judge s = judge b n (c.fold q.faults s.clock.night) q.faults (setCable n (c.fold q.faults s.clock.night) s
      |> updBerth b (fun r => { r with tally := { r.tally with cable := some q.cable } })) := by
  have hslot : s.cableSlot b = some n := by rw [State.cableSlot, h]; exact hn
  have hfold := foldReport_of_some (b := b) (q := q) hc
  rw [cable_of_cableSlotOf hn hc] at hfold
  refine (if_neg (not_not.mpr h)).trans ?_
  simp only [hslot]
  rw [hfold]
  simp only [updBerth_cables, setCable_same]

theorem takeCoreTest_of_idle
    (h : (s.berth b).state ≠ .plugged ∨ (s.berth b).provingStep = .idle ∨ (s.berth b).provingStep = .assign) :
    takeCoreTest b q s = s := by
  obtain h | h | h := h <;> simp [takeCoreTest, h]

theorem takeCoreTest_first (h : (s.berth b).state = .plugged) (hs : (s.berth b).provingStep = .test1) :
    takeCoreTest b q s = firstTest b q (updBerth b (fun r => { r with inFlight := none }) s) := by
  simp only [takeCoreTest, h, hs, ne_eq, not_true, if_false]
  rfl

theorem takeCoreTest_retest (h : (s.berth b).state = .plugged) (hs : (s.berth b).provingStep = .retest) :
    takeCoreTest b q s = laterTest b q retest (updBerth b (fun r => { r with inFlight := none }) s) := by
  simp only [takeCoreTest, h, hs, ne_eq, not_true, if_false]
  rfl

theorem takeCoreTest_third (h : (s.berth b).state = .plugged) (hs : (s.berth b).provingStep = .test3) :
    takeCoreTest b q s = laterTest b q firstLook (updBerth b (fun r => { r with inFlight := none }) s) := by
  simp only [takeCoreTest, h, hs, ne_eq, not_true, if_false]
  rfl

/-- The assignment is done as it was ordered (R48). -/
def AssignDoneReport.asOrdered (q : AssignDoneReport) (r : Berth) : Prop :=
  q.ok = true ∧ q.core = .sp ∧ r.assignOrder = some q.func

theorem takeAssignDone_of_idle {q : AssignDoneReport}
    (h : (s.berth b).state ≠ .plugged ∨ (s.berth b).provingStep ≠ .assign) : takeAssignDone b q s = s := if_pos h

theorem takeAssignDone_failed {q : AssignDoneReport} (h : (s.berth b).state = .plugged)
    (hs : (s.berth b).provingStep = .assign) (ho : ¬q.asOrdered (s.berth b)) :
    takeAssignDone b q s = failRun b .assignFailed (updBerth b (fun r => { r with inFlight := none }) s) := by
  refine (if_neg (by simp [h, hs])).trans (if_neg ho)

theorem takeAssignDone_done {q : AssignDoneReport} {v : Num32} (h : (s.berth b).state = .plugged)
    (hs : (s.berth b).provingStep = .assign) (ho : q.asOrdered (s.berth b)) (hv : (s.berth b).cable = some v)
    (hn : s.cableSlotOf v = some n) (hc : s.cables[n] = some c) : takeAssignDone b q s =
      if c.map = none then substitute b n q.func (updBerth b (fun r => { r with inFlight := none }) s)
      else sendTest b .test3 (updBerth b (fun r => { r with inFlight := none }) s) := by
  have hslot : (clearInFlight b s).cableSlot b = some n := by
    rw [State.cableSlot, clearInFlight, updBerth_berth_same]
    exact (congrArg (·.bind s.cableSlotOf) hv).trans hn
  have hrec : (clearInFlight b s).cables[n] = some c := hc
  refine (if_neg (by simp [h, hs])).trans ((if_pos ho).trans ?_)
  simp only [hslot, hrec, Option.bind_some]
  cases c.map <;> rfl

theorem substitute_eq {m : Func} {v : Num32} (hc : s.cables[n] = some c) (hv : (s.berth b).cable = some v) :
    substitute b n m s = (setCable n { c with map := some m } s
      |> noticeBerth b .cableSubstituted (bytes4 v ++ [codeIn funcs m, codeIn cores m.defaultCore])
      |> updBerth b (fun r => { r with comparison := 0#5 })
      |> sendTest b .test3) := by
  rw [substitute, updCable_of_some hc, hv]
  rfl

theorem expireCoreTest_of_due (h : ∃ i, (s.berth b).inFlight = some i ∧ (i.kind = .coreTest ∨ i.kind = .assign) ∧ i.timer = 0) :
    expireCoreTest b s = failRun b .timeout s := by
  obtain ⟨i, hi, hk, ht⟩ := h
  refine if_pos (Bool.or_eq_true_iff.mpr ?_)
  exact hk.imp (fun hk => flyingDue_iff_exists.mpr ⟨i, hi, hk, ht⟩) fun hk => flyingDue_iff_exists.mpr ⟨i, hi, hk, ht⟩

theorem expireCoreTest_of_undue
    (h : ¬∃ i, (s.berth b).inFlight = some i ∧ (i.kind = .coreTest ∨ i.kind = .assign) ∧ i.timer = 0) :
    expireCoreTest b s = s := by
  refine if_neg fun hd => h ?_
  rcases Bool.or_eq_true_iff.mp hd with hd | hd <;> obtain ⟨i, hi, hk, ht⟩ := flyingDue_iff_exists.mp hd
  · exact ⟨i, hi, .inl hk, ht⟩
  · exact ⟨i, hi, .inr hk, ht⟩

/-- Settles O58, report by report and step by step. -/
theorem provingReportsAreTaken : Obligations.ProvingReportsAreTaken := by
  intro p f e d b s r failed faulty folded
  have hfail : ∀ reason t, failRun b reason t = failed reason t := fun _ _ => failRun_eq
  have hfolded : ∀ (q : CoreTestReport) (c : CableRec), c.fold q.faults s.clock.night = folded (faulty q) c :=
    fun q c => by rw [faults_eq]; exact fold_eq
  refine ⟨fun hr hc hb q hq => ?test, fun hr hc hb q hq => ?assign, fun i hi hk ht => ?due, fun h hs => next_of_undue
    (expireCoreTest_of_undue h) hs⟩
  case test =>
    intro t acts taken linked
    have hact : ∀ u, takeCoreTest b q t = u → acts u := by
      intro u hu
      refine (hr.taken (row := .coreTest) rfl).trans ?_
      rw [fromBerth_eq hc hb hq]
      exact congrArg (fun u => Host.Outcome.next (handOn p f d (runPasses u))) hu
    have hber : t.berth b = { r with obs := { r.obs with coreTest := some q } } := updBerth_berth_same _ _ _
    have hst : (t.berth b).state = r.state := by rw [hber]
    have hstep : (t.berth b).provingStep = r.provingStep := by rw [hber]
    have hcable : (taken.berth b).cable = r.cable := by rw [updBerth_berth_same, hber]
    have htested : ∀ c : CableRec, c.tested b q s.clock.night = folded (faulty q) { c with berth := some b } :=
      fun c => hfolded q _
    have hlinked : ∀ n c, linkedTo b n q c taken = linked n c taken := fun n c =>
      congrArg (fun g => taken |> unlinkCable b |> setCable n g |> updBerth b (fun r => { r with
        cable := some q.cable, tally := { r.tally with cable := some q.cable } })) (htested c)
    have hjudged : ∀ n c, judgeFirst b n q (linkedTo b n q c taken) =
        if c.condition = .unserviceable then failed .unserviceable (linked n c taken)
        else
          match c.map with
          | some m => sendAssign b m (linked n c taken)
          | none => firstLook b n (folded (faulty q) { c with berth := some b }) (faulty q) (linked n c taken) := by
      intro n c
      rw [judgeFirst_linkedTo, hlinked, hfail, show c.tested b q taken.clock.night = _ from htested c, faults_eq]
    refine ⟨fun h => ?_, fun hp h1 n c hn hc => ⟨fun hused => ?_, fun hfree => ?_⟩, fun hp h1 hn => ?_, ?_⟩
    · exact hact _ (takeCoreTest_of_idle (by rw [hst, hstep]; exact h))
    · refine hact _ ((takeCoreTest_first (hst.trans hp) (hstep.trans h1)).trans ?_)
      exact (firstTest_of_used ((usedElsewhere_of_record (s := taken) hn hc).mpr hused)).trans (hfail _ _)
    · have hused : taken.usedElsewhere b q.cable = false := by
        rw [Bool.eq_false_iff, Ne, usedElsewhere_of_record (s := taken) hn hc]
        rintro ⟨o, ho, hne⟩
        obtain hfree | hfree := hfree <;> rw [hfree] at ho
        · cases ho
        · exact hne (Option.some.inj ho).symm
      have hx : takeCoreTest b q t = judgeFirst b n q (linkedTo b n q c taken) :=
        ((takeCoreTest_first (hst.trans hp) (hstep.trans h1)).trans
          (firstTest_of_selected hused (selectRecord_of_found (s := taken) hn))).trans
          (congrArg (judgeFirst b n q) (linkTested_of_some (s := taken) hc (cable_of_cableSlotOf hn hc)))
      rw [hjudged] at hx
      refine ⟨fun hcond => hact _ (hx.trans (if_pos hcond)), fun hcond m hm => hact _ (hx.trans ?_),
        fun hcond hm => hact _ (hx.trans ?_)⟩
      · rw [if_neg (by rw [hcond]; decide), hm]
      · rw [if_neg (by rw [hcond]; decide), hm]
    · intro fresh age n hslot
      have hsel : (taken.emptySlot <|> taken.oldestSlot) = some n := by
        rcases hslot with ⟨hnone, hbelow⟩ | ⟨hfull, o, ho, hbo, hold⟩
        · rw [emptySlot_of_first (s := taken) hnone hbelow]
          rfl
        · rw [emptySlot_of_full (s := taken) hfull, oldestSlot_of_oldest (s := taken) ho hbo hold]
          rfl
      refine hact _ (((takeCoreTest_first (hst.trans hp) (hstep.trans h1)).trans
        (firstTest_of_selected (usedElsewhere_of_none (s := taken) hn) (selectRecord_of_slot (s := taken) hn hsel))).trans ?_)
      have hlink : linkTested b n q (setCable n fresh taken) = linkedTo b n q fresh taken :=
        (linkTested_of_some setCable_same rfl).trans linkedTo_setCable
      exact (congrArg (judgeFirst b n q) hlink).trans (hjudged n fresh)
    · intro hp hs
      have hlater : ∀ {judge}, (r.cable ≠ some q.cable → laterTest b q judge taken = failed .cableChanged taken) ∧
          (r.cable = some q.cable → ∀ n c, s.cableSlotOf q.cable = some n → s.cables[n] = some c →
            laterTest b q judge taken = judge b n (folded (faulty q) c) (faulty q) (setCable n (folded (faulty q) c) taken
              |> updBerth b (fun r => { r with tally := { r.tally with cable := some q.cable } }))) := by
        refine fun {judge} => ⟨fun h => (laterTest_of_other (by rw [hcable]; exact h)).trans (hfail _ _), fun h n c hn hc => ?_⟩
        rw [laterTest_of_same (s := taken) (hcable.trans h) hn hc, show c.fold q.faults taken.clock.night = _ from hfolded q c,
          faults_eq]
      have hx : (r.provingStep = .retest → takeCoreTest b q t = laterTest b q retest taken) ∧
          (r.provingStep = .test3 → takeCoreTest b q t = laterTest b q firstLook taken) :=
        ⟨fun h => takeCoreTest_retest (hst.trans hp) (hstep.trans h), fun h => takeCoreTest_third (hst.trans hp) (hstep.trans h)⟩
      refine ⟨fun h => ?_, fun h n c hn hc => ⟨fun h2 => ?_, fun h3 => ?_⟩⟩
      · exact hact _ (hs.elim (fun h2 => (hx.1 h2).trans (hlater.1 h)) fun h3 => (hx.2 h3).trans (hlater.1 h))
      · exact hact _ ((hx.1 h2).trans (hlater.2 h n c hn hc))
      · exact hact _ ((hx.2 h3).trans (hlater.2 h n c hn hc))
  case assign =>
    intro t acts taken asOrdered
    have hact : ∀ u, takeAssignDone b q t = u → acts u := by
      intro u hu
      refine (hr.taken (row := .assignDone) rfl).trans ?_
      rw [fromBerth_eq hc hb hq]
      exact congrArg (fun u => Host.Outcome.next (handOn p f d (runPasses u))) hu
    have hber : t.berth b = { r with obs := { r.obs with assignDone := some q } } := updBerth_berth_same _ _ _
    have hst : (t.berth b).state = r.state := by rw [hber]
    have hstep : (t.berth b).provingStep = r.provingStep := by rw [hber]
    have hcable : (t.berth b).cable = r.cable := by rw [hber]
    have hord : q.asOrdered (t.berth b) ↔ asOrdered := by rw [hber]; exact Iff.rfl
    refine ⟨fun h => ?_, fun hp hs ho => ?_, fun hp hs ho v n c hv hn hc => ?_⟩
    · exact hact _ (takeAssignDone_of_idle (by rw [hst, hstep]; exact h))
    · exact hact _ ((takeAssignDone_failed (hst.trans hp) (hstep.trans hs) (mt hord.mp ho)).trans (hfail _ _))
    · have hx := takeAssignDone_done (s := t) (hst.trans hp) (hstep.trans hs) (hord.mpr ho) (hcable.trans hv) hn hc
      refine ⟨fun hm => hact _ (hx.trans (if_neg hm)), fun hm => hact _ ((hx.trans (if_pos hm)).trans ?_)⟩
      exact substitute_eq (s := taken) hc (by rw [updBerth_berth_same]; exact hcable.trans hv)
  case due =>
    exact congrArg (Host.Outcome.next ∘ runPasses) ((expireCoreTest_of_due ⟨i, hi, hk, ht⟩).trans (hfail _ _))

end Sys2Proof.Machine
end

-- ==== The judging of cables, and the vessel's name ====
section
/-! PROOFS. How a test of a cable is judged, when the spare carries a core over, and how a berth's vessel is named (R14,
R40, R49 to R54). -/

namespace Sys2Proof.Machine

variable {s t u : State} {b : BerthId} {n : Fin 32} {c : CableRec} {p : Port} {f : Frame}
  {e : EquipEntry} {d : Option EquipEntry} {faults : CoreSet}

/-! ## Judging (R49, R50) -/

theorem firstLook_of_marked (h : c.hard &&& judged c.map ≠ 0#5) : firstLook b n c faults s = hardPath b n c faults s :=
  if_pos h

theorem firstLook_of_clean (h : c.hard &&& judged c.map = 0#5) (hb : faults &&& judged c.map = 0#5) :
    firstLook b n c faults s = passRun b s := (if_neg (not_not.mpr h)).trans (if_pos hb)

theorem firstLook_of_bad (h : c.hard &&& judged c.map = 0#5) (hb : faults &&& judged c.map ≠ 0#5) :
    firstLook b n c faults s = sendTest b .retest (updBerth b (fun r => { r with comparison := faults &&& judged c.map }) s) :=
  (if_neg (not_not.mpr h)).trans (if_neg hb)

/-- A retest judges the record it has marked as a first look judges one (R50). -/
theorem retest_eq_firstLook (hc : s.cables[n] = some c) : retest b n c faults s =
    firstLook b n (c.judgeRetest (s.berth b).comparison (faults &&& judged c.map)) faults
      (setCable n (c.judgeRetest (s.berth b).comparison (faults &&& judged c.map)) s) := by
  rw [retest]
  simp only [updCable_of_some hc]
  rfl

theorem orCores_eq_ofBoolList : ∀ v w x y z : Bool,
    [(Core.p1, v), (.p2, w), (.p3, x), (.p4, y), (.sp, z)].foldl (fun m k => if k.2 = true then m ||| ofCore k.1 else m) 0#5 =
      BitVec.ofBoolListLE [v, w, x, y, z] := by
  decide

theorem SoftCounts.hard_eq {k : SoftCounts} {among : CoreSet} : k.hard among = BitVec.ofBoolListLE
    [among.getLsbD 0 && decide (3 ≤ k.p1), among.getLsbD 1 && decide (3 ≤ k.p2), among.getLsbD 2 && decide (3 ≤ k.p3),
      among.getLsbD 3 && decide (3 ≤ k.p4), among.getLsbD 4 && decide (3 ≤ k.sp)] := by
  rw [← orCores_eq_ofBoolList]
  simp only [SoftCounts.hard, cores, List.foldl_cons, List.foldl_nil, Bool.and_eq_true, decide_eq_true_eq]
  rfl

/-- The counts and marks that a retest gives (R50). -/
theorem judgeRetest_eq {before bad : CoreSet} : c.judgeRetest before bad =
    let once := (before ^^^ bad) &&& judged c.map
    let count (bit m : Nat) : Nat := if once.getLsbD bit = true then min 255 (m + 1) else m
    let third (bit m : Nat) : Bool := once.getLsbD bit && decide (3 ≤ count bit m)
    { c with
      soft := ⟨count 0 c.soft.p1, count 1 c.soft.p2, count 2 c.soft.p3, count 3 c.soft.p4, count 4 c.soft.sp⟩
      hard := c.hard ||| (before &&& bad &&& judged c.map) |||
        BitVec.ofBoolListLE [third 0 c.soft.p1, third 1 c.soft.p2, third 2 c.soft.p3, third 3 c.soft.p4,
          third 4 c.soft.sp] } := by
  simp only [CableRec.judgeRetest, SoftCounts.hard_eq, SoftCounts.raise, satInc_byteMax]
  rfl

/-! ## The hard path (R51 to R53) -/

theorem filter_cores_eq_singleton : ∀ (m : CoreSet) (k : Core), cores.filter (hasCore m) = [k] ↔ m = ofCore k := by
  intro m k
  cases k <;> revert m <;> decide

/-- The spare can carry a core over (R51). -/
def spareServes (map : Option Func) (hard faults : CoreSet) : Prop :=
  map = none ∧ hard.getLsbD 4 = false ∧ faults.getLsbD 4 = false

theorem substitution_of_spare {map : Option Func} {hard : CoreSet} {k : Core} (hs : spareServes map hard faults)
    (hm : hard &&& judged map = ofCore k) (hk : k ≠ .sp) : substitution map hard faults = carried none k := by
  have hf : cores.filter (fun k => hasCore (hard &&& judged map) k) = [k] := (filter_cores_eq_singleton _ k).mpr hm
  obtain ⟨rfl, hh, hg⟩ := hs
  simp only [substitution, hf]
  exact if_pos ⟨hk, trivial, hh, hg⟩

theorem substitution_none {map : Option Func} {hard : CoreSet}
    (h : ¬spareServes map hard faults ∨ ∀ k ≠ Core.sp, hard &&& judged map ≠ ofCore k) :
    substitution map hard faults = none := by
  unfold substitution
  split
  case h_1 k hf =>
    refine if_neg fun ⟨hk, hm, hh, hg⟩ => ?_
    rcases h with h | h
    · exact h ⟨hm, hh, hg⟩
    · exact h k hk ((filter_cores_eq_singleton _ k).mp hf)
  case h_2 => rfl

theorem hardPath_of_spare {m : Func} (h : substitution c.map c.hard faults = some m) : hardPath b n c faults s =
    sendAssign b m (updBerth b (fun r => { r with comparison := faults &&& judged c.map }) s) := by
  simp only [hardPath, h]

theorem hardPath_of_none (h : substitution c.map c.hard faults = none) (hc : s.cables[n] = some c) :
    hardPath b n c faults s = (setCable n { c with condition := .unserviceable }
        (updBerth b (fun r => { r with comparison := faults &&& judged c.map }) s)
      |> noticeBerth b .cableUnserviceable (bytes4 c.cable ++ [coresByte (c.hard &&& judged c.map)])
      |> updBerth b (fun r => { r with inFlight := none, provingStep := .idle, comparison := 0#5, assignOrder := none })
      |> trip .quiet b .cableFault (some .noSpare)) := by
  have hc' : (updBerth b (fun r => { r with comparison := faults &&& judged c.map }) s).cables[n] = some c := hc
  simp only [hardPath, h]
  rw [withdrawCable, updCable_of_some hc', failRun_eq]

/-! ## The order to the plug station (R45) -/

theorem sendAssign_of_free {m : Func} (he : s.berthEntry .plugStation b = some e) (h : (s.port e.port).tx.length < 8) :
    sendAssign b m s = (updBerth b (fun r => { r with provingStep := .assign, assignOrder := some m }) s
      |> updPort e.port (fun r => { r with
          tx := r.tx ++ [⟨⟨e.id, s.ownId, 0x01#8, 0x06#8, byte r.tagCount, [codeIn funcs m, 5#8]⟩, none⟩]
          tagCount := (r.tagCount + 1) % 256 })
      |> updBerth b (fun r => { r with inFlight := some ⟨.assign, s.clock.time, s.timings.coreTest⟩ })) := by
  have he' : (updBerth b (fun r => { r with provingStep := .assign, assignOrder := some m }) s).berthEntry .plugStation b =
      some e := he
  simp only [sendAssign, he', send_of_free (s := updBerth b _ s) h]
  rfl

theorem sendAssign_of_full {m : Func} (he : s.berthEntry .plugStation b = some e) (h : 8 ≤ (s.port e.port).tx.length) :
    sendAssign b m s = (updBerth b (fun r => { r with provingStep := .assign, assignOrder := some m }) s
      |> updBerth b (fun r => { r with inFlight := none, provingStep := .idle, comparison := 0#5, assignOrder := none })
      |> trip .quiet b .cableFault (some .portFull)) := by
  have he' : (updBerth b (fun r => { r with provingStep := .assign, assignOrder := some m }) s).berthEntry .plugStation b =
      some e := he
  simp only [sendAssign, he', send_some_of_full (s := updBerth b _ s) h, failRun_eq]

/-! ## The vessel (R14) -/

theorem seekProfile_of_unnamed (h : (s.berth b).vessel = none) : seekProfile b s = s := by
  simp only [seekProfile, h]

theorem seekProfile_of_known {v : Num32} {i : Fin 24} (h : (s.berth b).vessel = some v) (hi : s.profileIndexOf v = some i) :
    seekProfile b s = enterState .quiet b .proved (updBerth b (fun r => { r with profile := some i }) s) := by
  simp only [seekProfile, h, hi]

theorem seekProfile_of_unknown {v : Num32} (h : (s.berth b).vessel = some v) (hi : s.profileIndexOf v = none) :
    seekProfile b s = noticeBerth b .unknownVessel (bytes4 v) s := by
  simp only [seekProfile, h, hi]

theorem vesselAtBerth_plugged {v : Num32} (h : (s.berth b).state = .plugged) : vesselAtBerth b v s =
    if (s.berth b).provingPassed = true then seekProfile b (updBerth b (fun r => { r with vessel := some v }) s)
    else updBerth b (fun r => { r with vessel := some v }) s := by
  simp only [vesselAtBerth, h]

theorem vesselAtBerth_proved {v : Num32} (h : (s.berth b).state = .proved) : vesselAtBerth b v s =
    if (s.berth b).vessel = some v then s else newVesselProved b v s := by
  simp only [vesselAtBerth, h]

theorem vesselAtBerth_onShore {v : Num32} (h : (s.berth b).state = .onShore) : vesselAtBerth b v s =
    if (s.berth b).adopted = true ∧ (s.berth b).vessel = none then newVesselAdopted b v s else s := by
  simp only [vesselAtBerth, h]

theorem vesselAtBerth_other {v : Num32} (h1 : (s.berth b).state ≠ .plugged) (h2 : (s.berth b).state ≠ .proved)
    (h3 : (s.berth b).state ≠ .onShore) : vesselAtBerth b v s = s := by
  cases hs : (s.berth b).state <;> simp_all [vesselAtBerth]

/-- Settles O59: the judging, the hard path, the order, the passed run, and VESSEL_ID by the berth's state. -/
theorem cablesAreJudgedAndVesselsNamed : Obligations.CablesAreJudgedAndVesselsNamed := by
  refine ⟨?judging, ?naming⟩
  case judging =>
    intro b n c faults s judgedBy bad marked
    have hj : ∀ m, judged m = judgedBy m := fun m => by
      cases m with
      | none => rfl
      | some m => cases m <;> rfl
    have hmap : judgedBy c.map = judged c.map := (hj c.map).symm
    refine ⟨fun h => firstLook_of_marked (hmap ▸ h), fun h hb => firstLook_of_clean (hmap ▸ h) (hmap ▸ hb),
      fun h hb => ?_, fun hc => ?_, ?_, ?_, rfl, seekProfile_of_unnamed, fun v hv => ?_⟩
    · rw [firstLook_of_bad (hmap ▸ h) (hmap ▸ hb), ← hmap]
    · intro before once count third c' t
      have hc' : c.judgeRetest before bad = c' := by
        rw [judgeRetest_eq, ← hmap]
      have hx : retest b n c faults s = firstLook b n c' faults t := by
        rw [retest_eq_firstLook hc, ← hmap, show c.judgeRetest (s.berth b).comparison (faults &&& judgedBy c.map) = c' from hc']
        rfl
      rw [hx, hmap]
      refine ⟨fun h => firstLook_of_marked (c := c') h, fun h hb => firstLook_of_clean (c := c') h (hmap ▸ hb), fun h hb => ?_⟩
      rw [firstLook_of_bad (c := c') h (hmap ▸ hb), show judged c'.map = judgedBy c.map from hmap.symm]
    · intro spare t
      have hmarked : marked = c.hard &&& judged c.map := by rw [← hmap]
      have ht : updBerth b (fun r => { r with comparison := faults &&& judged c.map }) s = t := by rw [← hmap]
      refine ⟨fun k hk hs hm => ?_, fun h hc => ?_⟩
      · have hsub : ∀ j, j ≠ Core.sp → marked = ofCore j → hardPath b n c faults s =
            match carried none j with
            | some m => sendAssign b m t
            | none => hardPath b n c faults s := by
          intro j hj hm
          cases hcar : carried none j with
          | none => rfl
          | some m => rw [hardPath_of_spare ((substitution_of_spare hs (hmarked ▸ hm) hj).trans hcar), ht]
        simp only [List.mem_cons, List.not_mem_nil, or_false] at hk
        rcases hk with rfl | rfl | rfl | rfl
        · exact hsub .p1 (by decide) hm
        · exact hsub .p2 (by decide) hm
        · exact hsub .p3 (by decide) hm
        · exact hsub .p4 (by decide) hm
      · have hsub : substitution c.map c.hard faults = none := by
          refine substitution_none (h.imp id fun ⟨h1, h2, h3, h4⟩ k hk => hmarked ▸ ?_)
          cases k with
          | p1 => exact h1
          | p2 => exact h2
          | p3 => exact h3
          | p4 => exact h4
          | sp => exact absurd rfl hk
        rw [hardPath_of_none hsub hc, ht, ← hmarked]
        rfl
    · exact fun m e he => ⟨sendAssign_of_free he, sendAssign_of_full he⟩
    · exact ⟨seekProfile_of_unknown hv, fun i => seekProfile_of_known hv⟩
  case naming =>
    intro p f e d b v s hr hc hb hf r t acts named
    have hact : ∀ u, vesselAtBerth b v t = u → acts u := by
      intro u hu
      refine (hr.taken (row := .vesselId) rfl).trans ?_
      rw [fromBerth_eq (a := v) hc hb (by rw [hf]; exact congrArg some (num4_bytes4 v))]
      exact congrArg (fun u => Host.Outcome.next (handOn p f d (runPasses u))) hu
    have hber : t.berth b = { r with obs := { r.obs with vesselId := some v } } := updBerth_berth_same _ _ _
    have hst : (t.berth b).state = r.state := by rw [hber]
    have hpass : (t.berth b).provingPassed = r.provingPassed := by rw [hber]
    have hves : (t.berth b).vessel = r.vessel := by rw [hber]
    have hadopt : (t.berth b).adopted = r.adopted := by rw [hber]
    refine ⟨fun h hp => ?_, fun h hp => ?_, fun h hv => ?_, fun h hv => ⟨fun i hi => ?_, fun hi => ?_⟩,
      fun h ha hv => ⟨fun i w hi hw => ?_, fun hi => ?_⟩, fun h ha => ?_, fun h1 h2 h3 => ?_⟩
    · exact hact _ ((vesselAtBerth_plugged (hst.trans h)).trans (if_pos (hpass.trans hp)))
    · exact hact _ ((vesselAtBerth_plugged (hst.trans h)).trans (if_neg (by rw [hpass, hp]; decide)))
    · exact hact _ ((vesselAtBerth_proved (hst.trans h)).trans (if_pos (hves.trans hv)))
    · refine hact _ ((vesselAtBerth_proved (hst.trans h)).trans ((if_neg (by rw [hves]; exact hv)).trans ?_))
      rw [newVesselProved, show t.profileIndexOf v = _ from hi]
    · refine hact _ ((vesselAtBerth_proved (hst.trans h)).trans ((if_neg (by rw [hves]; exact hv)).trans ?_))
      rw [newVesselProved, show t.profileIndexOf v = _ from hi]
    · refine hact _ ((vesselAtBerth_onShore (hst.trans h)).trans ((if_pos ⟨hadopt.trans ha, hves.trans hv⟩).trans ?_))
      have hw' : t.profiles[i] = some w := hw
      simp only [newVesselAdopted, show t.profileIndexOf v = _ from hi, Option.bind_some, hw']
      rfl
    · refine hact _ ((vesselAtBerth_onShore (hst.trans h)).trans ((if_pos ⟨hadopt.trans ha, hves.trans hv⟩).trans ?_))
      simp only [newVesselAdopted, show t.profileIndexOf v = _ from hi]
      rfl
    · refine hact _ ((vesselAtBerth_onShore (hst.trans h)).trans (if_neg fun ⟨ha', hv'⟩ => ?_))
      rcases ha with ha | ha
      · exact absurd (hadopt.symm.trans ha') (by rw [ha]; decide)
      · exact ha (hves.symm.trans hv')
    · exact hact _ (vesselAtBerth_other (by rw [hst]; exact h1) (by rw [hst]; exact h2) (by rw [hst]; exact h3))

end Sys2Proof.Machine
end

-- ==== The checks of a TABLE frame ====
section
/-! PROOFS. How a TABLE frame is checked and answered (R128, R159, R160): the command that takes it, the checks of its
table, index and length, and what a WRITE that passes them answers. -/

namespace Sys2Proof.Machine

variable {s t u : State} {p : Port} {f : Frame} {e : EquipEntry} {d : Option EquipEntry} {code table index : Byte}
  {body l : List Byte} {row : FrameRow} {n size : Nat}

/-! ## The command that takes a TABLE frame (R128) -/

theorem row_of_table {own : EquipId} (h : f.kind = kindTable) :
    f.row own = if f.code = codeWrite then writeRow (at' f.payload 0) else .tableRead := by
  simp [Frame.row, h, kindTable]

theorem writeRow_isTable : (writeRow table).isTable = true := by unfold writeRow; split <;> rfl

theorem row_isTable {own : EquipId} (h : f.kind = kindTable) : (f.row own).isTable = true := by
  rw [row_of_table h]
  split
  · exact writeRow_isTable
  · rfl

theorem managed_of_asks {act : Frame → State → State} (h : TableAsks s f code table index body) :
    managed portSUP act f (dropHead portSUP s) = act f (dropHead portSUP s) := by
  rcases h.managed with ha | ⟨e, he⟩
  · exact if_pos ha
  · unfold managed
    split
    · rfl
    · rw [routed_of_mapped (by simpa using he)]
      simp

theorem TableAsks.taken {act : Frame → State → State} (h : TableAsks s f code table index body)
    (hr : f.row s.ownId = row) : takeTable row portSUP act s = .next (act f (dropHead portSUP s)) := by
  rw [takeTable, takeFrame_waits h.waits hr, managed_of_asks h]

theorem TableAsks.code_eq (h : TableAsks s f code table index body) : code = 0x01#8 ∨ code = 0x02#8 := by
  obtain ⟨bytes, rest, -, hcheck⟩ := h.waits
  obtain ⟨-, hok⟩ := parse_of_check hcheck
  have hsize : (payloadSizes kindTable code).isSome = true := by
    have := (Bool.and_eq_true_iff.mp hok).1
    rwa [h.kind, h.code] at this
  by_contra hne
  obtain ⟨h1, h2⟩ := not_or.mp hne
  have hc1 : code.toNat ≠ 1 := fun e => h1 (BitVec.eq_of_toNat_eq e)
  have hc2 : code.toNat ≠ 2 := fun e => h2 (BitVec.eq_of_toNat_eq e)
  simp [payloadSizes, kindTable, hc1, hc2] at hsize

theorem TableAsks.read_row (h : TableAsks s f 0x01#8 table index body) : f.row s.ownId = .tableRead := by
  rw [row_of_table h.kind, if_neg (by rw [h.code]; decide)]

theorem TableAsks.write_row (h : TableAsks s f 0x02#8 table index body) : f.row s.ownId = writeRow table :=
  (row_of_table h.kind).trans ((if_pos h.code).trans (by rw [h.payload]; rfl))

/-- A WRITE's command acts on the frame (R159). -/
theorem TableAsks.written {act : Frame → State → State} (h : TableAsks s f 0x02#8 table index body)
    (hr : writeRow table = row) : takeTable row portSUP act s = .next (act f (dropHead portSUP s)) :=
  h.taken (h.write_row.trans hr)

/-! ## The checks of index and length (R159) -/

/-- The checks of a table with `n` entries and a body of `size` bytes turn a frame away (R159, steps 2 and 4). -/
structure TableChecked (n size : Nat) (f : Frame) (t u : State) : Prop where
  index : ¬(1 ≤ (at' f.payload 1).toNat ∧ (at' f.payload 1).toNat ≤ n) → u = tableReply portSUP f .badIndex [] t
  length : 1 ≤ (at' f.payload 1).toNat → (at' f.payload 1).toNat ≤ n → f.payload.length ≠ size + 2 →
    u = tableReply portSUP f .badValue [] t

theorem readAt_checked {entry : Fin n → State → State} : TableChecked n 0 f t (readAt n portSUP f entry t) where
  index := fun h => dif_neg h
  length := fun h1 h2 hl => (dif_pos ⟨h1, h2⟩).trans (if_neg hl)

theorem writeAt_checked {rule : Fin n → List Byte → State → Status × State} {entry : Fin n → State → List Byte} :
    TableChecked n size f t (writeAt n size rule entry portSUP f t) where
  index := fun h => dif_neg h
  length := fun h1 h2 hl => (dif_pos ⟨h1, h2⟩).trans (if_neg hl)

/-- How many entries a table has (R159). -/
def tableEntries (table : Byte) : Nat :=
  match table.toNat with
  | 1 => 11 | 2 => 64 | 3 => 48 | 4 => 8 | 5 => 2 | 6 => 24 | 7 => 32 | 8 => 1 | 9 => 8 | 10 => 1 | _ => 0

/-- How many bytes a table's write body has (R161). -/
def tableSize (table : Byte) : Nat :=
  match table.toNat with
  | 2 => 8 | 3 => 8 | 4 => 1 | 5 => 3 | 6 => 10 | 7 => 18 | 8 => 28 | 9 => 40 | 10 => 4 | _ => 0

theorem tableEntries_pos (h : tableEntries table ≠ 0) : 1 ≤ table.toNat ∧ table.toNat ≤ 10 := by
  unfold tableEntries at h
  split at h <;> omega

theorem table_cases (h : tableEntries table ≠ 0) : table ∈ [1#8, 2#8, 3#8, 4#8, 5#8, 6#8, 7#8, 8#8, 9#8, 10#8] := by
  revert h
  revert table
  decide

theorem readTable_checked (hp : f.payload = table :: l) (h : tableEntries table ≠ 0) :
    TableChecked (tableEntries table) 0 f t (readTable portSUP f t) := by
  have htable : (at' f.payload 0).toNat = table.toNat := by rw [hp]; rfl
  have hmem := table_cases h
  simp only [List.mem_cons, List.not_mem_nil, or_false] at hmem
  simp only [readTable, htable]
  rcases hmem with rfl | rfl | rfl | rfl | rfl | rfl | rfl | rfl | rfl | rfl <;> exact readAt_checked

theorem readTable_of_none (hp : f.payload = table :: l) (h : tableEntries table = 0) :
    readTable portSUP f t = tableReply portSUP f .badTable [] t := by
  have htable : (at' f.payload 0).toNat = table.toNat := by rw [hp]; rfl
  unfold tableEntries at h
  simp only [readTable, htable]
  split at h <;> simp_all

theorem writeRow_of_none (h : tableEntries table = 0) : writeRow table = .tableWrite ∧ table.toNat ≠ 1 := by
  unfold tableEntries at h
  unfold writeRow
  split at h <;> simp_all

/-- A WRITE to one of the tables that may be written is checked (R159). -/
theorem write_checked (h : TableAsks s f 0x02#8 table index body) (hn : tableEntries table ≠ 0) (h1 : table ≠ 1#8) :
    ∃ u, exec ((writeRow table).command portSUP) s = .next u ∧
      TableChecked (tableEntries table) (tableSize table) f (dropHead portSUP s) u := by
  have hmem := table_cases hn
  simp only [List.mem_cons, List.not_mem_nil, or_false] at hmem
  rcases hmem with rfl | rfl | rfl | rfl | rfl | rfl | rfl | rfl | rfl | rfl
  · exact absurd rfl h1
  · exact ⟨_, h.written (row := .equipmentWrite) rfl, writeAt_checked⟩
  · exact ⟨_, h.written (row := .gateWrite) rfl, writeAt_checked⟩
  · exact ⟨_, h.written (row := .berthsWrite) rfl, writeAt_checked⟩
  · exact ⟨_, h.written (row := .sectionsWrite) rfl, writeAt_checked⟩
  · exact ⟨_, h.written (row := .profilesWrite) rfl, writeAt_checked⟩
  · exact ⟨_, h.written (row := .cablesWrite) rfl, writeAt_checked⟩
  · exact ⟨_, h.written (row := .timingsWrite) rfl, writeAt_checked⟩
  · exact ⟨_, h.written (row := .linesWrite) rfl, writeAt_checked⟩
  · exact ⟨_, h.written (row := .deviceWrite) rfl, writeAt_checked⟩

theorem exec_read (h : TableAsks s f 0x01#8 table index body) : exec ((f.row s.ownId).command portSUP) s =
    .next (readTable portSUP f (dropHead portSUP s)) := by
  rw [h.read_row]
  exact h.taken h.read_row

theorem exec_writeNoTable (h : TableAsks s f 0x02#8 table index body) (hr : writeRow table = .tableWrite) :
    exec ((f.row s.ownId).command portSUP) s = .next (writeNoTable portSUP f (dropHead portSUP s)) := by
  rw [h.write_row, hr]
  exact h.written hr

/-- Settles O42: the tables there are, then READ and WRITE by their checks, and the frames that are not to be managed. -/
theorem tableFramesAreChecked : Obligations.TableFramesAreChecked := by
  refine ⟨?_, fun p f e d s ha hk hstart hp => ?_⟩
  · intro f code table index body s h entries size answered
    have hindex : at' f.payload 1 = index := by rw [h.payload]; rfl
    have hlength : f.payload.length = body.length + 2 := by rw [h.payload]; rfl
    have hnone : entries = 0 → answered .badTable := fun hn => by
      rcases h.code_eq with rfl | rfl
      · exact (exec_read h).trans (congrArg _ (readTable_of_none h.payload hn))
      · refine (exec_writeNoTable h (writeRow_of_none hn).1).trans (congrArg _ (if_neg ?_))
        rw [h.payload]
        exact (writeRow_of_none hn).2
    have hchecked : entries ≠ 0 → code ≠ 0x02#8 ∨ table ≠ 1#8 → ∃ u,
        exec ((f.row s.ownId).command portSUP) s = .next u ∧ TableChecked entries size f (dropHead portSUP s) u := by
      intro hn hw
      rcases h.code_eq with rfl | rfl
      · exact ⟨_, exec_read h, readTable_checked h.payload hn⟩
      · rw [h.write_row]
        exact write_checked h hn (hw.resolve_left (not_not.mpr rfl))
    have hports : code = 0x02#8 → table = 1#8 → exec ((f.row s.ownId).command portSUP) s =
        .next (if 1 ≤ index.toNat ∧ index.toNat ≤ 11 then tableReply portSUP f .notPermitted [] (dropHead portSUP s)
          else tableReply portSUP f .badIndex [] (dropHead portSUP s)) := by
      rintro rfl rfl
      refine (exec_writeNoTable h rfl).trans (congrArg _ ((if_pos (by rw [h.payload]; rfl)).trans ?_))
      rw [hindex]
    refine ⟨hnone, fun hn hi => ?_, fun h1 h2 hc ht => ?_, fun h1 h2 hw hl => ?_⟩
    · by_cases hw : code ≠ 0x02#8 ∨ table ≠ 1#8
      · obtain ⟨u, hu, hc⟩ := hchecked hn hw
        refine hu.trans (congrArg _ (hc.index ?_))
        rw [hindex]
        omega
      · obtain ⟨hc, ht⟩ : code = 0x02#8 ∧ table = 1#8 := by simpa only [not_or, not_not] using hw
        have hentries : entries = 11 := by subst ht; rfl
        exact (hports hc ht).trans (congrArg _ (if_neg (by omega)))
    · have hentries : entries = 11 := by subst ht; rfl
      exact (hports hc ht).trans (congrArg _ (if_pos ⟨h1, by omega⟩))
    · obtain ⟨u, hu, hc⟩ := hchecked (by omega) hw
      refine hu.trans (congrArg _ (hc.length (by rw [hindex]; exact h1) (by rw [hindex]; exact h2) ?_))
      rw [hlength]
      omega
  · obtain ⟨act, hact⟩ := exec_command_managed (p := p) (s := s) (row_isTable (own := s.ownId) hk)
    rw [hact, takeFrame_waits ha.waits rfl]
    refine congrArg Host.Outcome.next ((if_neg (by rw [Bool.eq_false_iff] at hstart; exact hstart)).trans ?_)
    refine (routed_of_mapped (by simpa using ha.mapped)).trans (if_neg ?_)
    rintro ⟨h1, h2⟩
    obtain hp | hd := hp
    · exact hp h1
    · rw [h2] at hd
      cases hd

end Sys2Proof.Machine
end

-- ==== The writes of settings ====
section
/-! PROOFS. What a WRITE that passes the checks of R159 answers, and the writes of the TIMING TABLE, DEVICE, LINES, BERTHS
and SECTIONS (R25, R62, R74, R75, R81, R151, R161 to R163). -/

namespace Sys2Proof.Machine

variable {s t u w : State} {b : BerthId} {x : SectionId} {f : Frame} {table index : Byte} {body l : List Byte} {st : Status}
  {n size i : Nat} {rule : Fin n → List Byte → State → Status × State} {entry : Fin n → State → List Byte}

/-! ## Bytes -/

@[simp] theorem byte_toNat (n : Byte) : byte n.toNat = n := by simp [byte]

theorem nameIn_eq_none_iff {α : Type} {names : List α} {n : Byte} :
    nameIn names n = none ↔ n.toNat < 1 ∨ names.length < n.toNat := by
  unfold nameIn
  split
  · simp [*]
  · rw [List.getElem?_eq_none_iff]
    omega

/-- A list of two names: the bytes 1 and 2 are its own. -/
theorem nameIn_eq_none_of_two {α : Type} {names : List α} {n : Byte} (hl : names.length = 2) :
    nameIn names n = none ↔ n ≠ 1#8 ∧ n ≠ 2#8 := by
  rw [nameIn_eq_none_iff, hl]
  bv_omega

/-! ## A WRITE that passes the checks (R159) -/

theorem toNat_index (h : i < n) (hn : n ≤ 64) : (byte (i + 1)).toNat = i + 1 := by
  rw [toNat_byte]
  omega

theorem writeAt_eq (hp : f.payload = table :: byte (i + 1) :: l) (hl : l.length = size) (h : i < n) (hn : n ≤ 64) :
    writeAt n size rule entry portSUP f t = tableReply portSUP f (rule ⟨i, h⟩ l t).1
      (if (rule ⟨i, h⟩ l t).1 = .accepted then entry ⟨i, h⟩ (finishEvent (rule ⟨i, h⟩ l t).2) else [])
      (finishEvent (rule ⟨i, h⟩ l t).2) := by
  have hindex : (at' f.payload 1).toNat = i + 1 := by rw [hp]; exact toNat_index h hn
  have hfin : ∀ k, (⟨(at' f.payload 1).toNat - 1, k⟩ : Fin n) = ⟨i, h⟩ := fun _ => Fin.ext (by simp [hindex])
  refine (dif_pos (by omega)).trans ((if_pos (by rw [hp, ← hl]; rfl)).trans ?_)
  rw [hfin, hp]
  rfl

/-- A WRITE whose rule turns it away changes nothing (R159). -/
theorem TableAsks.refused {c : Instr} (h : TableAsks s f 0x02#8 table (byte (i + 1)) l)
    (hx : exec c s = takeTable (writeRow table) portSUP (writeAt n size rule entry portSUP) s) (hl : l.length = size)
    (hi : i < n) (hn : n ≤ 64) (hs : s.settled) (hst : st ≠ .accepted)
    (hr : rule ⟨i, hi⟩ l (dropHead portSUP s) = (st, dropHead portSUP s)) :
    exec c s = .next (tableReply portSUP f st [] (dropHead portSUP s)) := by
  rw [hx, h.written rfl, writeAt_eq h.payload hl hi hn, hr]
  simp only [if_neg hst, finishEvent]
  rw [settled_runPasses (settled_dropHead hs)]

/-- A WRITE that its rule accepts is answered with the entry as it then stands (R159). -/
theorem TableAsks.stored {c : Instr} (h : TableAsks s f 0x02#8 table (byte (i + 1)) l)
    (hx : exec c s = takeTable (writeRow table) portSUP (writeAt n size rule entry portSUP) s) (hl : l.length = size)
    (hi : i < n) (hn : n ≤ 64) (hr : rule ⟨i, hi⟩ l (dropHead portSUP s) = (.accepted, u)) (hu : runPasses u = w)
    (he : entry ⟨i, hi⟩ w = body) : exec c s = .next (tableReply portSUP f .accepted body w) := by
  rw [hx, h.written rfl, writeAt_eq h.payload hl hi hn, hr, ← he]
  simp only [if_true, finishEvent, hu]

/-! ## TIMINGS (R163) -/

theorem readTimings_durations {a : Timings} (h : ∀ n ∈ a.durations, n < 65536) :
    readTimings (a.durations.flatMap bytes2) = a := by
  simp only [Timings.durations, List.forall_mem_cons, List.not_mem_nil, false_implies, implies_true, and_true] at h
  obtain ⟨h0, h1, h2, h3, h4, h5, h6, h7, h8, h9, h10, h11, h12, h13⟩ := h
  simp [readTimings, numAt, Timings.durations, at', bytes2, num2_bytes2, *]

theorem Timings.ok_iff {a : Timings} : a.ok = true ↔ (1 ≤ a.coreTest ∧ a.coreTest ≤ 30) ∧
    (1 ≤ a.operate ∧ a.operate ≤ 10) ∧ (5 ≤ a.sync ∧ a.sync ≤ 120) ∧ (2 ≤ a.step ∧ a.step ≤ 120) ∧
    a.stepSpacing ≤ 120 ∧ (5 ≤ a.hold ∧ a.hold ≤ 300) ∧ (10 ≤ a.pauseLimit ∧ a.pauseLimit ≤ 600) ∧
    (10 ≤ a.deadWait ∧ a.deadWait ≤ 600) ∧ (10 ≤ a.converterStart ∧ a.converterStart ≤ 600) ∧
    (10 ≤ a.gensOffWait ∧ a.gensOffWait ≤ 600) ∧ (1 ≤ a.strainGrace ∧ a.strainGrace ≤ 600) ∧
    (10 ≤ a.overdraw ∧ a.overdraw ≤ 900) ∧ (1 ≤ a.lockLimit ∧ a.lockLimit ≤ 120) ∧
    (1 ≤ a.holdLimit ∧ a.holdLimit ≤ 300) := by
  simp [Timings.ok, Timings.durations, timingRanges, within]

theorem length_durations {a : Timings} : (a.durations.flatMap bytes2).length = 28 := rfl

/-! ## DEVICE (R162) -/

theorem writeDevice_eq {k : Fin 1} {own : EquipId} {hour retention : Byte} :
    writeDevice k (bytesId own ++ [hour, retention]) s =
      if own ≠ 0#16 ∧ s.entryOf own = none ∧ hour.toNat ≤ 23 ∧ 1 ≤ retention.toNat ∧ retention.toNat ≤ 60 then
        (.accepted, { s with
          ownId := own, clock := { s.clock with boundaryHour := hour.toNat }, retention := retention.toNat })
      else (.badValue, s) := by
  have hown : idOf (at' (bytesId own ++ [hour, retention]) 0) (at' (bytesId own ++ [hour, retention]) 1) = own :=
    idOf_bytesId own
  simp only [writeDevice, hown, within, Bool.and_eq_true, decide_eq_true_eq]
  rfl

/-! ## LINES (R25) -/

theorem nameIn_enable (e : Enable) : nameIn enables (codeIn enables e) = some e := nameIn_codeIn (by cases e <;> decide) (by decide)

theorem nameIn_sense (e : Sense) : nameIn senses (codeIn senses e) = some e := nameIn_codeIn (by cases e <;> decide) (by decide)

theorem at'_take {m k : Nat} (h : k < m) : at' (body.take m) k = at' body k := by
  rw [at', at', List.getD_eq_getElem?_getD, List.getElem?_take_of_lt h, ← List.getD_eq_getElem?_getD]

theorem readLines_take : readLines (body.take 6) = readLines body := by
  simp only [readLines, at'_take, Nat.reduceLT]

theorem readLines_codes {e p k : Enable} {es ps ks : Sense} :
    readLines [codeIn enables e, codeIn senses es, codeIn enables p, codeIn senses ps, codeIn enables k, codeIn senses ks] =
      if e = .disabled ∨ p = .disabled then none else some ((e, es), (p, ps), (k, ks)) := by
  simp [readLines, at', nameIn_enable, nameIn_sense]

theorem readLines_of_bad {b0 b1 b2 b3 b4 b5 n : Byte} (hm : n ∈ [b0, b1, b2, b3, b4, b5]) (h1 : n ≠ 1#8) (h2 : n ≠ 2#8) :
    readLines [b0, b1, b2, b3, b4, b5] = none := by
  have he : nameIn enables n = none := (nameIn_eq_none_of_two rfl).mpr ⟨h1, h2⟩
  have hs : nameIn senses n = none := (nameIn_eq_none_of_two rfl).mpr ⟨h1, h2⟩
  simp only [List.mem_cons, List.not_mem_nil, or_false] at hm
  rcases hm with rfl | rfl | rfl | rfl | rfl | rfl <;> simp [readLines, at', he, hs]

/-! ## BERTHS (R161) -/

theorem nameIn_section (x : SectionId) : nameIn sectionIds (sectionByte (some x)) = some x :=
  nameIn_codeIn (by cases x <;> decide) (by decide)

theorem writeBerths_eq : writeBerths b [sectionByte (some x)] s =
    if (s.berth b).state = .outOfService then (.accepted, updBerth b (fun r => { r with sec := x }) s)
    else (.inUse, s) := by
  simp only [writeBerths, at', List.getD_cons_zero, nameIn_section]

/-! ## SECTIONS (R62, R74, R75, R81) -/

theorem updSec_noticeSection {y : SectionId} {g : SectionRec → SectionRec} {k : NoticeKind} :
    updSec y g (noticeSection x k l s) = noticeSection x k l (updSec y g s) := by
  rw [noticeSection, noticeSection, joinNotices_eq, joinNotices_eq]
  cases y <;> rfl

theorem callPass_callPass : callPass x (callPass x s) = callPass x s := by cases x <;> rfl

/-- A section with a new limit, and the notice of an over flag that it sets (R63, R74). -/
def limited (x : SectionId) (n : Nat) (s : State) : State :=
  let r := s.sec x
  let u := updSec x (fun r => { r with
    limit := n, overFlag := if n = r.limit then r.overFlag else decide (n < r.granted) }) s
  if ¬n = r.limit ∧ n < r.granted ∧ r.overFlag = false then
    noticeSection x .sectionOver ([sectionByte (some x), byte n] ++ bytes2 r.granted) u
  else u

theorem updSec_eq_self {g : SectionRec → SectionRec} (h : g (s.sec x) = s.sec x) : updSec x g s = s := by
  cases x <;> simp only [updSec, State.sec] at h ⊢ <;> rw [h]

theorem limited_of_same (h : n = (s.sec x).limit) : limited x n s = s := by
  refine (if_neg fun hc => hc.1 h).trans (updSec_eq_self ?_)
  rw [if_pos h, h]

/-- A new limit that the granted sum exceeds sets a clear flag; any other leaves it set only where the sum exceeds it
(R63, R74). -/
theorem limited_of_changed (h : ¬n = (s.sec x).limit) :
    limited x n s = lowerOver x (raiseOver x (updSec x (fun r => { r with limit := n }) s)) := by
  have hsec : (updSec x (fun r => { r with limit := n }) s).sec x = { s.sec x with limit := n } := updSec_sec_same _ _ _
  by_cases hover : n < (s.sec x).granted ∧ (s.sec x).overFlag = false
  · obtain ⟨hlt, hflag⟩ := hover
    have hraise : raiseOver x (updSec x (fun r => { r with limit := n }) s) =
        noticeSection x .sectionOver ([sectionByte (some x), byte n] ++ bytes2 (s.sec x).granted)
          (updSec x (fun r => { r with overFlag := true }) (updSec x (fun r => { r with limit := n }) s)) := by
      rw [raiseOver, hsec, if_pos ⟨hlt, hflag⟩]
    rw [hraise, lowerOver, updSec_noticeSection, updSec_updSec, updSec_updSec]
    refine (if_pos ⟨h, hlt, hflag⟩).trans (congrArg _ (updSec_congr ?_))
    simp [h, hlt, Nat.not_le.mpr hlt]
  · have hraise : raiseOver x (updSec x (fun r => { r with limit := n }) s) = updSec x (fun r => { r with limit := n }) s := by
      rw [raiseOver, hsec, if_neg hover]
    rw [hraise, lowerOver, updSec_updSec]
    refine (if_neg fun hc => hover hc.2).trans (updSec_congr ?_)
    dsimp only
    rw [if_neg h]
    split
    next hle => rw [decide_eq_false (Nat.not_lt.mpr hle)]
    next hgt =>
      have hlt : n < (s.sec x).granted := Nat.not_le.mp hgt
      have hflag : (s.sec x).overFlag = true := Bool.not_eq_false _ ▸ fun hf => hover ⟨hlt, hf⟩
      rw [decide_eq_true hlt, ← hflag]

theorem changeLimit_eq : changeLimit x n s = if n = (s.sec x).limit then limited x n s else callPass x (limited x n s) := by
  by_cases h : n = (s.sec x).limit
  · rw [if_pos h, limited_of_same h, changeLimit, if_pos h.symm]
  · rw [if_neg h, limited_of_changed h, changeLimit, if_neg (Ne.symm h)]

theorem changeBypassLimit_eq : changeBypassLimit x n s =
    if n = (s.sec x).bypassLimit then updSec x (fun r => { r with bypassLimit := n }) s
    else callPass x (updSec x (fun r => { r with bypassLimit := n }) s) := by
  by_cases h : n = (s.sec x).bypassLimit
  · rw [if_pos h, changeBypassLimit, if_pos h.symm, updSec_eq_self (by rw [h])]
  · rw [if_neg h, changeBypassLimit, if_neg (Ne.symm h)]

theorem updSec_limited {k : Nat} : updSec x (fun r => { r with bypassLimit := k }) (limited x n s) =
    limited x n (updSec x (fun r => { r with bypassLimit := k }) s) := by
  simp only [limited, updSec_sec_same]
  split
  · rw [updSec_noticeSection, updSec_updSec, updSec_updSec]
  · rw [updSec_updSec, updSec_updSec]

@[simp] theorem limited_bypassLimit : ((limited x n s).sec x).bypassLimit = (s.sec x).bypassLimit := by
  simp only [limited]
  split <;> simp [noticeSection]

/-- What an accepted SECTIONS write makes of the section (R62, R74, R75, R81). -/
def sectionSet (x : SectionId) (m : PriorityMode) (limit bypass : Nat) (s : State) : State :=
  let r := s.sec x
  let u := updSec x (fun r => { r with
    mode := m
    limit := limit
    bypassLimit := bypass
    overFlag := if limit = r.limit then r.overFlag else decide (limit < r.granted) }) s
  if ¬limit = r.limit ∧ limit < r.granted ∧ r.overFlag = false then
    noticeSection x .sectionOver ([sectionByte (some x), byte limit] ++ bytes2 r.granted) u
  else u

theorem limited_eq_sectionSet {m : PriorityMode} {limit bypass : Nat} :
    limited x limit (updSec x (fun r => { r with bypassLimit := bypass }) (updSec x (fun r => { r with mode := m }) s)) =
      sectionSet x m limit bypass s := by
  rw [updSec_updSec]
  simp only [limited, sectionSet, updSec_sec_same, updSec_updSec]

theorem changeLimits_eq {m : PriorityMode} {limit bypass : Nat} :
    changeBypassLimit x bypass (changeLimit x limit (updSec x (fun r => { r with mode := m }) s)) =
      if limit = (s.sec x).limit ∧ bypass = (s.sec x).bypassLimit then sectionSet x m limit bypass s
      else callPass x (sectionSet x m limit bypass s) := by
  rw [changeLimit_eq, updSec_sec_same, ← limited_eq_sectionSet, ← updSec_limited]
  by_cases hl : limit = (s.sec x).limit
  · rw [if_pos hl, changeBypassLimit_eq, limited_bypassLimit, updSec_sec_same]
    simp only [hl, true_and]
  · rw [if_neg hl, if_neg fun hc => hl hc.1, changeBypassLimit_eq, updSec_callPass, callPass_callPass]
    exact ite_self _

theorem sectionSet_sec {m : PriorityMode} {limit bypass : Nat} : ((sectionSet x m limit bypass s).sec x).limit = limit ∧
    ((sectionSet x m limit bypass s).sec x).bypassLimit = bypass ∧ ((sectionSet x m limit bypass s).sec x).mode = m := by
  simp only [sectionSet]
  split <;> simp [noticeSection]

theorem samePasses_sectionSet {m : PriorityMode} {limit bypass : Nat} : SamePasses s (sectionSet x m limit bypass s) := by
  simp only [sectionSet]
  split
  · exact samePasses_updSec.trans samePasses_joinNotices
  · exact samePasses_updSec

theorem writeSections_eq {k : Fin 2} {limit bypass : Byte} {m : PriorityMode} :
    writeSections k [limit, bypass, codeIn priorityModes m] s =
      if limit.toNat ≤ 250 ∧ bypass.toNat ≤ 7 then (.accepted, changeBypassLimit (sectionAt k) bypass.toNat
        (changeLimit (sectionAt k) limit.toNat (updSec (sectionAt k) (fun r => { r with mode := m }) s)))
      else (.badValue, s) := by
  have hm : nameIn priorityModes (codeIn priorityModes m) = some m := nameIn_codeIn (by cases m <;> decide) (by decide)
  simp [writeSections, at', hm, within, Config.grantCap, Config.bypassMax]

/-- Settles O43, table by table. -/
theorem settingsAreWritten : Obligations.SettingsAreWritten := by
  intro f table i body s h hs t refused stored
  have hdrop : ∀ {u : State}, SamePasses t u → runPasses u = u := fun hu => settled_runPasses (hu.settled (settled_dropHead hs))
  refine ⟨?timings, ?device, ?lines, ?badLines, ?berths, ?sections, ?badSections⟩
  case timings =>
    rintro rfl rfl a hlt rfl inRange
    have hrule : writeTimings ⟨0, by decide⟩ (a.durations.flatMap bytes2) t =
        if a.ok = true then (.accepted, { t with timings := a }) else (.badValue, t) := by
      rw [writeTimings, readTimings_durations hlt]
    refine ⟨fun hr => ?_, fun hr => ?_⟩
    · exact h.stored rfl length_durations (by decide) (by decide) (hrule.trans (if_pos (Timings.ok_iff.mpr hr)))
        (hdrop ⟨rfl, rfl⟩) rfl
    · exact h.refused rfl length_durations (by decide) (by decide) hs (by decide)
        (hrule.trans (if_neg (mt Timings.ok_iff.mp hr)))
  case device =>
    rintro rfl rfl own hour retention rfl inRange
    refine ⟨fun hr => ?_, fun hr => ?_⟩
    · refine h.stored rfl rfl (by decide) (by decide) (writeDevice_eq.trans (if_pos hr)) (hdrop ⟨rfl, rfl⟩) ?_
      simp [deviceBody]
    · exact h.refused rfl rfl (by decide) (by decide) hs (by decide) (writeDevice_eq.trans (if_neg hr))
  case lines =>
    rintro rfl hi e p k es ps ns hlen htake
    have hread : readLines body = if e = .disabled ∨ p = .disabled then none else some ((e, es), (p, ps), (k, ns)) := by
      rw [← readLines_take, htake, readLines_codes]
    refine ⟨fun hab => ?_, fun hab => ?_⟩
    · intro u
      obtain ⟨rfl, rfl⟩ := hab
      have hrule : writeLines ⟨i, hi⟩ body t = (.accepted, u) := by
        simp only [writeLines, hread, if_neg (show ¬(Enable.enabled = .disabled ∨ Enable.enabled = .disabled) by decide)]
        rfl
      exact h.stored rfl hlen hi (by decide) hrule (hdrop ⟨rfl, rfl⟩) rfl
    · have hrule : writeLines ⟨i, hi⟩ body t = (.badValue, t) := by
        simp only [writeLines, hread, if_pos hab]
      exact h.refused rfl hlen hi (by decide) hs (by decide) hrule
  case badLines =>
    rintro rfl hi hlen n hn h1 h2
    have hread : readLines body = none := by
      rw [← readLines_take]
      match body, hlen with
      | b0 :: b1 :: b2 :: b3 :: b4 :: b5 :: rest, _ => exact readLines_of_bad hn h1 h2
    have hrule : writeLines ⟨i, hi⟩ body t = (.badValue, t) := by
      simp only [writeLines, hread]
    exact h.refused rfl hlen hi (by decide) hs (by decide) hrule
  case berths =>
    rintro rfl hi
    refine ⟨?_, fun n h1 h2 hb => ?_⟩
    · rintro x rfl
      refine ⟨fun ho => ?_, fun ho => ?_⟩
      · refine h.stored rfl rfl hi (by decide) (writeBerths_eq.trans (if_pos ho)) (hdrop ⟨rfl, rfl⟩) ?_
        rw [berthsBody, State.secOf, updBerth_berth_same]
      · exact h.refused rfl rfl hi (by decide) hs (by decide) (writeBerths_eq.trans (if_neg ho))
    · subst hb
      have hrule : writeBerths ⟨i, hi⟩ [n] t = (.badValue, t) := by
        simp only [writeBerths, at', List.getD_cons_zero, (nameIn_eq_none_of_two (names := sectionIds) rfl).mpr ⟨h1, h2⟩]
      exact h.refused rfl rfl hi (by decide) hs (by decide) hrule
  case sections =>
    rintro rfl hi limit bypass m rfl x r same u v w
    have hx : sectionAt ⟨i, hi⟩ = x := by
      simp [sectionAt, x, Fin.ext_iff]
    refine ⟨fun hl hb => ?_, fun hbad => ?_⟩
    · have hset : sectionSet x m limit.toNat bypass.toNat t = v := by
        simp only [sectionSet, byte_toNat]
        rfl
      have hrule := (writeSections_eq (k := ⟨i, hi⟩) (m := m) (s := t)).trans (if_pos ⟨hl, hb⟩)
      rw [hx, changeLimits_eq, hset] at hrule
      obtain ⟨h1, h2, h3⟩ := sectionSet_sec (s := t) (x := x) (m := m) (limit := limit.toNat) (bypass := bypass.toNat)
      have hbody : ∀ u, Untouched v u → sectionsBody ⟨i, hi⟩ u = [limit, bypass, codeIn priorityModes m] := fun u hu => by
        obtain ⟨g1, g2, g3, -, -⟩ := hu.sections x
        rw [← hset] at g1 g2 g3
        simp only [sectionsBody, hx, g1.trans h1, g2.trans h2, g3.trans h3, byte_toNat]
      by_cases hsame : same ∧ bypass.toNat = r.bypassLimit
      · have hw : w = v := if_pos hsame
        rw [hw]
        refine h.stored rfl rfl hi (by decide) (hrule.trans (congrArg _ (if_pos hsame)))
          (hdrop (hset ▸ samePasses_sectionSet)) (hbody v (.refl v))
      · have hw : w = runPasses (callPass x v) := if_neg hsame
        rw [hw]
        exact h.stored rfl rfl hi (by decide) (hrule.trans (congrArg _ (if_neg hsame))) rfl
          (hbody _ ((Closed.untouched v).runPasses ((Closed.untouched v).callPass (.refl v))))
    · exact h.refused rfl rfl hi (by decide) hs (by decide) (writeSections_eq.trans (if_neg (by omega)))
  case badSections =>
    rintro rfl hi limit bypass mode rfl h1 h2
    have hrule : writeSections ⟨i, hi⟩ [limit, bypass, mode] t = (.badValue, t) := by
      have hmode : nameIn priorityModes mode = none := (nameIn_eq_none_of_two rfl).mpr ⟨h1, h2⟩
      simp [writeSections, at', hmode]
    exact h.refused rfl rfl hi (by decide) hs (by decide) hrule

end Sys2Proof.Machine
end

-- ==== The writes of the EQUIPMENT MAP and the GATE TABLE ====
section
/-! PROOFS. What a write body of the EQUIPMENT MAP and the GATE TABLE gives, and what its write stores, forgets and judges
again (R125, R126, R138, R140, R145). -/

namespace Sys2Proof.Machine

variable {s t u : State} {f : Frame} {e g : EquipEntry} {n : Fin 64}

/-! ## Optional items (R161) -/

theorem optOf_eq_none_iff {α : Type} {read : Byte → Option α} {b : Byte} :
    optOf read b = none ↔ b ≠ 0#8 ∧ read b = none := by
  unfold optOf
  split <;> simp [*]

theorem codeIn_ne_zero {α : Type} [DecidableEq α] {names : List α} {a : α} (h : a ∈ names) (hl : names.length < 256) :
    codeIn names a ≠ 0#8 := by
  intro h0
  have hn := nameIn_codeIn h hl
  rw [h0] at hn
  cases hn

theorem optOf_codeOrZero {α : Type} [DecidableEq α] {names : List α} {a : Option α} (h : ∀ x, x ∈ names)
    (hl : names.length < 256) : optOf (nameIn names) (codeOrZero names a) = some a := by
  cases a with
  | none => rfl
  | some x => rw [codeOrZero, optOf, if_neg (codeIn_ne_zero (h x) hl), nameIn_codeIn (h x) hl]; rfl

theorem optOf_berthByte {o : Option BerthId} : optOf berthOf (berthByte o) = some o := by
  revert o
  decide

theorem portOf_portByte {p : Port} : portOf (portByte p) = some p := by
  revert p
  decide

theorem portOf_eq_none_iff {b : Byte} : portOf b = none ↔ b.toNat < 1 ∨ 11 < b.toNat := by
  unfold portOf
  split <;> simp <;> omega

theorem berthOf_eq_none_iff {b : Byte} : berthOf b = none ↔ b.toNat < 1 ∨ 8 < b.toNat := by
  unfold berthOf
  split <;> simp <;> omega

theorem flagOf_eq_none {b : Byte} (h1 : b ≠ 1#8) (h2 : b ≠ 2#8) : flagOf b = none := by
  unfold flagOf
  split
  next h => exact absurd (BitVec.eq_of_toNat_eq h) h1
  next h => exact absurd (BitVec.eq_of_toNat_eq h) h2
  next => rfl

theorem flagOf_flag {c : Bool} : flagOf (flag c) = some c := by cases c <;> rfl

theorem mem_equipClasses (c : EquipClass) : c ∈ equipClasses := by cases c <;> decide

theorem mem_sectionIds (x : SectionId) : x ∈ sectionIds := by cases x <;> decide

theorem mem_bayIds (k : BayId) : k ∈ bayIds := by cases k <;> decide

/-! ## An EQUIPMENT body (R125, R126) -/

theorem readEquip_body : readEquip e.body = some e.fields := by
  have hcls : nameIn equipClasses (codeIn equipClasses e.cls) = some e.cls := nameIn_codeIn (mem_equipClasses _) (by decide)
  have hsec : optOf (nameIn sectionIds) (sectionByte e.sec) = some e.sec := optOf_codeOrZero mem_sectionIds (by decide)
  have hbay : optOf (nameIn bayIds) (bayByte e.bay) = some e.bay := optOf_codeOrZero mem_bayIds (by decide)
  simp [readEquip, EquipEntry.body, bytesId, at', hcls, portOf_portByte, optOf_berthByte, hsec, hbay, EquipEntry.fields]

theorem equipWanted_body {own : EquipId} (h : e.position = none) : equipWanted own e.body =
    if e.fitsClass = true ∧ e.id ≠ 0#16 ∧ e.id ≠ own then some (some e) else none := by
  have hfields : e.fields = e := by rw [EquipEntry.fields, ← h]
  have hflag : flagOf (at' e.body 0) = some true := rfl
  simp only [equipWanted, hflag, readEquip_body, hfields, Option.filter_some, Bool.and_eq_true, bne_iff_ne, ne_eq, and_assoc]
  split <;> rfl

theorem optOf_nameIn_eq_none_iff {α : Type} {names : List α} {b : Byte} :
    optOf (nameIn names) b = none ↔ names.length < b.toNat := by
  rw [optOf_eq_none_iff, nameIn_eq_none_iff]
  bv_omega

theorem optOf_berthOf_eq_none_iff {b : Byte} : optOf berthOf b = none ↔ 8 < b.toNat := by
  rw [optOf_eq_none_iff, berthOf_eq_none_iff]
  bv_omega

theorem readEquip_of_bad {flag i1 i0 cls port berth sec bay : Byte}
    (h : cls.toNat < 1 ∨ 9 < cls.toNat ∨ port.toNat < 1 ∨ 11 < port.toNat ∨ 8 < berth.toNat ∨ 2 < sec.toNat ∨
      2 < bay.toNat) : readEquip [flag, i1, i0, cls, port, berth, sec, bay] = none := by
  by_contra hne
  obtain ⟨e, he⟩ := Option.ne_none_iff_exists'.mp hne
  simp only [readEquip, Option.bind_eq_bind, Option.bind_eq_some_iff] at he
  obtain ⟨c, hc, p, hp, b, hb, x, hx, k, hk, -⟩ := he
  have hcls := mt nameIn_eq_none_iff.mpr (Option.ne_none_iff_exists'.mpr ⟨c, hc⟩)
  have hport := mt portOf_eq_none_iff.mpr (Option.ne_none_iff_exists'.mpr ⟨p, hp⟩)
  have hberth := mt optOf_berthOf_eq_none_iff.mpr (Option.ne_none_iff_exists'.mpr ⟨b, hb⟩)
  have hsec := mt optOf_nameIn_eq_none_iff.mpr (Option.ne_none_iff_exists'.mpr ⟨x, hx⟩)
  have hbay := mt optOf_nameIn_eq_none_iff.mpr (Option.ne_none_iff_exists'.mpr ⟨k, hk⟩)
  simp only [at', List.getD_cons_succ, List.getD_cons_zero, equipClasses, sectionIds, bayIds, List.length_cons,
    List.length_nil] at hcls hport hberth hsec hbay
  omega

/-! ## The class table (R125) -/

theorem fitsClass_of_breaker (h : e.cls = .shoreBreaker ∨ e.cls = .earthSwitch) : e.fitsClass = true ↔
    (e.berth ≠ none ∧ e.sec = none ∧ e.bay = none) ∧ (e.port = portSA ∨ e.port = portSB) := by
  obtain h | h := h <;> simp only [EquipEntry.fitsClass, h] <;> cases e.berth <;> cases e.sec <;> cases e.bay <;> simp

theorem fitsClass_of_ship (h : e.cls = .plugStation ∨ e.cls = .shipPms) : e.fitsClass = true ↔
    (e.berth ≠ none ∧ e.sec = none ∧ e.bay = none) ∧ ∃ b, e.berth = some b ∧ e.port.val = b.val := by
  have hport : ∀ b, e.port = portOfBerth b ↔ e.port.val = b.val := fun b => Fin.ext_iff
  obtain h | h := h <;> simp only [EquipEntry.fitsClass, h] <;> cases e.berth <;> cases e.sec <;> cases e.bay <;>
    simp [hport]

theorem fitsClass_of_section (h : e.cls = .synchroniser ∨ e.cls = .feederMonitor ∨ e.cls = .localPanel) :
    e.fitsClass = true ↔ ((e.berth = none ∧ e.sec = some .A ∧ e.bay = none) ∧ e.port = portSA) ∨
      ((e.berth = none ∧ e.sec = some .B ∧ e.bay = none) ∧ e.port = portSB) := by
  have hsec : ∀ x : SectionId, e.port = portOfSection x ↔ (x = .A ∧ e.port = portSA) ∨ (x = .B ∧ e.port = portSB) := by
    intro x
    cases x <;> simp [portOfSection]
  obtain h | h | h := h <;> simp only [EquipEntry.fitsClass, h] <;> cases e.berth <;> cases e.sec <;> cases e.bay <;>
    simp [hsec]

theorem fitsClass_of_converter (h : e.cls = .converter) : e.fitsClass = true ↔
    e.berth = none ∧ e.sec = none ∧ e.bay ≠ none ∧ (e.port = portSA ∨ e.port = portSB) := by
  simp only [EquipEntry.fitsClass, h]
  cases e.berth <;> cases e.sec <;> cases e.bay <;> simp

theorem fitsClass_of_supervisor (h : e.cls = .supervisor) : e.fitsClass = true ↔
    e.berth = none ∧ e.sec = none ∧ e.bay = none ∧ e.port = portSUP := by
  simp only [EquipEntry.fitsClass, h]
  cases e.berth <;> cases e.sec <;> cases e.bay <;> simp

theorem clashes_iff : e.clashes g = true ↔ e.id = g.id ∨ (e.cls = g.cls ∧ e.berth = g.berth ∧ e.sec = g.sec ∧ e.bay = g.bay) := by
  simp [EquipEntry.clashes, and_assoc]

/-! ## An entry in use (R126) -/

theorem servesSection_iff {x : SectionId} :
    s.servesSection x = true ↔ ∃ b, s.secOf b = x ∧ (s.berth b).state ≠ .outOfService := by
  simp [State.servesSection, mem_allBerths]

theorem map_getD_false_iff {α : Type} {o : Option α} {q : α → Bool} : (o.map q).getD false = true ↔
    ∃ a, o = some a ∧ q a = true := by
  cases o <;> simp

/-- An entry of a class whose equipment serves a berth, a section or a bay is in use while that is (R126). -/
theorem entryInUse_iff : s.entryInUse e = true ↔
    (∃ b, e.berth = some b ∧ (s.berth b).state ≠ .outOfService ∧
      (e.cls = .shoreBreaker ∨ e.cls = .earthSwitch ∨ e.cls = .plugStation ∨ e.cls = .shipPms)) ∨
    (∃ b, e.sec = some (s.secOf b) ∧ (s.berth b).state ≠ .outOfService ∧
      (e.cls = .synchroniser ∨ e.cls = .feederMonitor ∨ e.cls = .localPanel)) ∨
    (∃ k, e.bay = some k ∧ e.cls = .converter ∧
      ((s.bay k).state = .granted ∨ ((s.bay k).state = .faulted ∧ (s.bay k).berth ≠ none))) := by
  have hberth : (e.berth.map fun b => (s.berth b).state != .outOfService).getD false = true ↔
      ∃ b, e.berth = some b ∧ (s.berth b).state ≠ .outOfService := by
    simp [map_getD_false_iff]
  have hsec : (e.sec.map s.servesSection).getD false = true ↔
      ∃ b, e.sec = some (s.secOf b) ∧ (s.berth b).state ≠ .outOfService := by
    simp only [map_getD_false_iff, servesSection_iff]
    exact ⟨fun ⟨x, hx, b, hb, ho⟩ => ⟨b, hb ▸ hx, ho⟩, fun ⟨b, hb, ho⟩ => ⟨_, hb, b, rfl, ho⟩⟩
  have hbay : (e.bay.map fun k => (s.bay k).state == .granted || ((s.bay k).state == .faulted && (s.bay k).berth.isSome)).getD
      false = true ↔ ∃ k, e.bay = some k ∧
        ((s.bay k).state = .granted ∨ ((s.bay k).state = .faulted ∧ (s.bay k).berth ≠ none)) := by
    simp [map_getD_false_iff, Option.isSome_iff_ne_none]
  cases hc : e.cls <;> simp [State.entryInUse, hc, hberth, hsec, hbay]

theorem any_otherEntries_iff : (s.otherEntries n).any e.clashes = true ↔
    ∃ (m : Fin 64) (g : EquipEntry), m ≠ n ∧ s.equipment[m] = some g ∧ e.clashes g = true := by
  simp only [State.otherEntries, List.any_eq_true, List.mem_filterMap, List.mem_filter, List.mem_finRange, true_and,
    decide_eq_true_eq]
  exact ⟨fun ⟨g, ⟨m, hm, hg⟩, hc⟩ => ⟨m, g, hm, hg, hc⟩, fun ⟨m, g, hm, hg, hc⟩ => ⟨g, ⟨m, hm, hg⟩, hc⟩⟩

/-! ## What a map write does (R126) -/

theorem forgetEntry_equipment : (forgetEntry e s).equipment = s.equipment := by
  unfold forgetEntry
  split <;> simp [observe]

theorem samePasses_forgetEntry : SamePasses s (forgetEntry e s) := by
  unfold forgetEntry
  split <;> simp [SamePasses, observe]

theorem writeEquipment_of_bad {l : List Byte} (h : equipWanted s.ownId l = none) :
    writeEquipment n l s = (.badValue, s) := by
  simp only [writeEquipment, h]

/-- The entry in use that a write would change (R126, step 3). -/
def State.changesUsed (s : State) (n : Fin 64) (new : Option EquipEntry) : Prop :=
  ∃ o, s.equipment[n] = some o ∧ s.entryInUse o = true ∧ some o.fields ≠ new

theorem changesUsed_iff {new : Option EquipEntry} :
    ((s.equipment[n].map EquipEntry.fields != new) && (s.equipment[n].map s.entryInUse).getD false) = true ↔
      s.changesUsed n new := by
  unfold State.changesUsed
  cases s.equipment[n] <;> simp [and_comm]

theorem writeEquipment_of_clash {l : List Byte} (h : equipWanted s.ownId l = some (some e))
    (hc : ∃ (m : Fin 64) (g : EquipEntry), m ≠ n ∧ s.equipment[m] = some g ∧ e.clashes g = true) :
    writeEquipment n l s = (.badValue, s) := by
  have hclash : ((some e).map fun e => (s.otherEntries n).any e.clashes).getD false = true := any_otherEntries_iff.mpr hc
  simp only [writeEquipment, h, hclash, if_true]

theorem writeEquipment_of_new {l : List Byte} {new : Option EquipEntry} (h : equipWanted s.ownId l = some new)
    (hc : ∀ e, new = some e →
      ¬∃ (m : Fin 64) (g : EquipEntry), m ≠ n ∧ s.equipment[m] = some g ∧ e.clashes g = true) :
    (s.changesUsed n new → writeEquipment n l s = (.inUse, s)) ∧
      (¬s.changesUsed n new → writeEquipment n l s = (.accepted, putEntry n new s)) := by
  have hclash : ¬(new.map fun e => (s.otherEntries n).any e.clashes).getD false = true := by
    rw [map_getD_false_iff]
    rintro ⟨e, he, hany⟩
    exact hc e he (any_otherEntries_iff.mp hany)
  simp only [writeEquipment, h]
  refine ⟨fun hb => ?_, fun hb => ?_⟩
  · rw [if_neg hclash, if_pos (changesUsed_iff.mpr hb)]
  · rw [if_neg hclash, if_neg (mt changesUsed_iff.mp hb)]

theorem putEntry_of_empty {new : Option EquipEntry} (h : s.equipment[n] = none) :
    putEntry n new s = { s with equipment := s.equipment.set n new } := by
  simp only [putEntry, h]

theorem putEntry_of_same {o : EquipEntry} (h : s.equipment[n] = some o) (hi : o.id = e.id) (hc : o.cls = e.cls) :
    putEntry n (some e) s = { s with equipment := s.equipment.set n (some { e with position := o.position }) } := by
  simp only [putEntry, h]
  exact if_pos ⟨hi.symm, hc.symm⟩

theorem putEntry_of_other {o : EquipEntry} (h : s.equipment[n] = some o) (hn : o.id ≠ e.id ∨ o.cls ≠ e.cls) :
    putEntry n (some e) s = forgetEntry o { s with equipment := s.equipment.set n (some e) } := by
  simp only [putEntry, h]
  refine if_neg fun ⟨hi, hc⟩ => ?_
  obtain hn | hn := hn
  · exact hn hi.symm
  · exact hn hc.symm

theorem putEntry_of_emptied {o : EquipEntry} (h : s.equipment[n] = some o) :
    putEntry n none s = forgetEntry o { s with equipment := s.equipment.set n none } := by
  simp only [putEntry, h]

theorem samePasses_putEntry {new : Option EquipEntry} : SamePasses s (putEntry n new s) := by
  cases ho : s.equipment[n] with
  | none => rw [putEntry_of_empty ho]; exact ⟨rfl, rfl⟩
  | some o =>
    cases new with
    | none => rw [putEntry_of_emptied ho]; exact samePasses_forgetEntry (s := { s with equipment := _ })
    | some e =>
      by_cases h : o.id = e.id ∧ o.cls = e.cls
      · rw [putEntry_of_same ho h.1 h.2]; exact ⟨rfl, rfl⟩
      · rw [putEntry_of_other ho (not_and_or.mp h)]; exact samePasses_forgetEntry (s := { s with equipment := _ })

/-- The entry stored has the fields that were written (R126). -/
theorem putEntry_body {new : Option EquipEntry} : equipmentBody n (putEntry n new s) =
    (new.map EquipEntry.body).getD [2#8, 0, 0, 0, 0, 0, 0, 0] := by
  have hbody : ∀ {u : State} {o : Option EquipEntry}, u.equipment = s.equipment.set n o →
      o.map EquipEntry.body = new.map EquipEntry.body →
      equipmentBody n u = (new.map EquipEntry.body).getD [2#8, 0, 0, 0, 0, 0, 0, 0] := by
    intro u o hu ho
    have hget : u.equipment[n] = o := by simp [hu]
    rw [equipmentBody, hget, ← ho]
    cases o <;> rfl
  cases ho : s.equipment[n] with
  | none => exact hbody (by rw [putEntry_of_empty ho]) rfl
  | some o =>
    cases new with
    | none => exact hbody (by rw [putEntry_of_emptied ho, forgetEntry_equipment]) rfl
    | some e =>
      by_cases h : o.id = e.id ∧ o.cls = e.cls
      · exact hbody (o := some { e with position := o.position }) (by rw [putEntry_of_same ho h.1 h.2]) rfl
      · exact hbody (by rw [putEntry_of_other ho (not_and_or.mp h), forgetEntry_equipment]) rfl

/-! ## A GATE body (R138, R140) -/

theorem gateKindOf_byte {k : GateKind} : gateKindOf k.byte = some k := by cases k <;> rfl

theorem byte_of_gateKindOf {k : GateKind} {b : Byte} (h : gateKindOf b = some k) : k.byte = b := by
  unfold gateKindOf at h
  split at h
  next hb => cases h; exact (BitVec.eq_of_toNat_eq hb).symm
  next hb => cases h; exact (BitVec.eq_of_toNat_eq hb).symm
  next => cases h

theorem readGateCode_eq_none_iff {k : GateKind} {b : Byte} :
    readGateCode k b = none ↔ b ≠ 0#8 ∧ payloadSizes k.byte b = none := by
  unfold readGateCode
  split
  · simp [*]
  · cases payloadSizes k.byte b <;> simp [*]

theorem payloadSizes_zero {k : GateKind} : payloadSizes k.byte 0#8 = none := by cases k <;> rfl

/-- A code is read back where it is ANY or one of its kind's; a code 0 would read as ANY (R140). -/
theorem readGateCode_getD {k : GateKind} {o : Option Byte} (h0 : ∀ c, o = some c → c ≠ 0#8) :
    readGateCode k (o.getD 0#8) = if ∀ c, o = some c → payloadSizes k.byte c ≠ none then some o else none := by
  cases o with
  | none => rfl
  | some c =>
    have hc := h0 c rfl
    simp only [Option.getD_some, readGateCode, if_neg hc, Option.isSome_iff_ne_none, Option.some.injEq, forall_eq']

theorem toNat_append_bytes {h l : Byte} : (h ++ l : BitVec 16).toNat = h.toNat * 256 + l.toNat := by
  have hl : l.toNat < 2 ^ 8 := l.isLt
  rw [BitVec.toNat_append, ← Nat.shiftLeft_add_eq_or_of_lt hl, Nat.shiftLeft_eq]

theorem topBits_eq_zero_iff {w : BitVec 16} : w.extractLsb' 12 4 = 0#4 ↔ w.toNat < 0x1000 := by
  have hw : w.toNat < 65536 := w.isLt
  rw [← BitVec.toNat_inj, BitVec.extractLsb'_toNat, Nat.shiftRight_eq_div_pow, BitVec.toNat_ofNat]
  omega

theorem readStateSet_of_bad {h l : Byte} (hb : h.toNat * 256 + l.toNat ≠ 0x8000 ∧
    (h.toNat * 256 + l.toNat = 0 ∨ 0x1000 ≤ h.toNat * 256 + l.toNat)) : readStateSet h l = none := by
  have hw := toNat_append_bytes (h := h) (l := l)
  have hany : (h ++ l : BitVec 16) ≠ 0x8000#16 := fun e => hb.1 (by rw [← hw, e]; rfl)
  have hset : (h ++ l : BitVec 16) = 0#16 ∨ (h ++ l : BitVec 16).extractLsb' 12 4 ≠ 0#4 := by
    rw [Ne, topBits_eq_zero_iff, ← BitVec.toNat_inj, hw, BitVec.toNat_ofNat]
    omega
  rw [readStateSet]
  simp only [if_neg hany, if_pos hset]

theorem readStateSet_bytes {st : StateSet} {x y : Byte} (h : stateSetBytes st = [x, y]) :
    readStateSet x y = if st = .of 0#12 then none else some st := by
  cases st with
  | any =>
    cases h
    rfl
  | of m =>
    have hw : (x ++ y : BitVec 16) = m.zeroExtend 16 := by
      simp only [stateSetBytes, bytesId, List.cons.injEq, and_true] at h
      rw [← h.1, ← h.2]
      exact idOf_bytesId _
    have hm : m.toNat < 4096 := m.isLt
    have hn : (m.zeroExtend 16).toNat = m.toNat := by
      rw [BitVec.toNat_setWidth]
      omega
    have hany : m.zeroExtend 16 ≠ 0x8000#16 := fun e => by
      have := congrArg BitVec.toNat e
      rw [hn, BitVec.toNat_ofNat] at this
      omega
    have hset : (m.zeroExtend 16 = 0#16 ∨ (m.zeroExtend 16).extractLsb' 12 4 ≠ 0#4) ↔ StateSet.of m = .of 0#12 := by
      rw [Ne, topBits_eq_zero_iff, ← BitVec.toNat_inj, hn, StateSet.of.injEq, ← BitVec.toNat_inj, BitVec.toNat_ofNat,
        BitVec.toNat_ofNat]
      omega
    have hlow : (m.zeroExtend 16).extractLsb' 0 12 = m := by
      rw [← BitVec.toNat_inj, BitVec.extractLsb'_toNat, hn, Nat.shiftRight_zero]
      omega
    simp only [readStateSet, hw, if_neg hany, hlow]
    exact if_congr hset rfl rfl

theorem mem_gateActions (a : GateAction) : a ∈ gateActions := by cases a <;> decide

/-- A GATE body reads back, its hit count 0, where its code is of its kind and its set names a state (R138, R140). -/
theorem readGate_body {g : GateEntry} (h0 : ∀ c, g.code = some c → c ≠ 0#8) : readGate g.body =
    if (∀ c, g.code = some c → payloadSizes g.kind.byte c ≠ none) ∧ g.states ≠ .of 0#12 then some { g with hits := 0 }
    else none := by
  obtain ⟨x, y, hxy⟩ : ∃ x y, stateSetBytes g.states = [x, y] := by
    cases g.states <;> exact ⟨_, _, rfl⟩
  have hclass : ∀ o, optOf (nameIn equipClasses) (classByte o) = some o := fun o => optOf_codeOrZero mem_equipClasses (by decide)
  have haction : nameIn gateActions (codeIn gateActions g.action) = some g.action := nameIn_codeIn (mem_gateActions _) (by decide)
  have hbody : g.body = [flag g.valid, classByte g.srcClass, classByte g.dstClass, g.kind.byte, g.code.getD 0#8, x, y,
      codeIn gateActions g.action] := by
    rw [GateEntry.body, hxy]
    rfl
  simp only [hbody, readGate, at', List.getD_cons_succ, List.getD_cons_zero, flagOf_flag, hclass, gateKindOf_byte,
    readGateCode_getD h0, readStateSet_bytes hxy, haction, Option.bind_eq_bind, Option.bind_some]
  by_cases hgood : (∀ c, g.code = some c → payloadSizes g.kind.byte c ≠ none) ∧ g.states ≠ .of 0#12
  · rw [if_pos hgood, if_pos hgood.1, if_neg hgood.2]
    rfl
  · rw [if_neg hgood]
    by_cases hcode : ∀ c, g.code = some c → payloadSizes g.kind.byte c ≠ none
    · rw [if_pos hcode, if_pos (not_not.mp fun hset => hgood ⟨hcode, hset⟩)]
      rfl
    · rw [if_neg hcode]
      rfl

theorem readGate_of_bad {valid src dst kind code h l action : Byte}
    (hb : (valid ≠ 1#8 ∧ valid ≠ 2#8) ∨ 9 < src.toNat ∨ 9 < dst.toNat ∨ (kind ≠ 1#8 ∧ kind ≠ 3#8) ∨
      (code ≠ 0#8 ∧ payloadSizes kind code = none) ∨
      (h.toNat * 256 + l.toNat ≠ 0x8000 ∧ (h.toNat * 256 + l.toNat = 0 ∨ 0x1000 ≤ h.toNat * 256 + l.toNat)) ∨
      action.toNat < 1 ∨ 4 < action.toNat) : readGate [valid, src, dst, kind, code, h, l, action] = none := by
  by_contra hne
  obtain ⟨e, he⟩ := Option.ne_none_iff_exists'.mp hne
  simp only [readGate, at', List.getD_cons_succ, List.getD_cons_zero, Option.bind_eq_bind, Option.bind_eq_some_iff] at he
  obtain ⟨v, hv, a, ha, c, hc, k, hk, o, ho, st, hst, x, hx, -⟩ := he
  have hkind := byte_of_gateKindOf hk
  rcases hb with hb | hb | hb | hb | hb | hb | hb
  · rw [flagOf_eq_none hb.1 hb.2] at hv
    cases hv
  · rw [(optOf_nameIn_eq_none_iff (names := equipClasses)).mpr hb] at ha
    cases ha
  · rw [(optOf_nameIn_eq_none_iff (names := equipClasses)).mpr hb] at hc
    cases hc
  · rw [← hkind] at hb
    cases k
    · exact hb.1 rfl
    · exact hb.2 rfl
  · rw [← hkind] at hb
    rw [readGateCode_eq_none_iff.mpr hb] at ho
    cases ho
  · rw [readStateSet_of_bad hb] at hst
    cases hst
  · rw [(nameIn_eq_none_iff (names := gateActions)).mpr hb] at hx
    cases hx

theorem GateEntry.body_hits {g : GateEntry} {m : Nat} : GateEntry.body { g with hits := m } = g.body := rfl

/-! ## A GATE write (R140, R145) -/

theorem untouched_forBerths {h : BerthId → State → State} (hh : ∀ {b u}, Untouched s u → Untouched s (h b u))
    (hu : Untouched s u) : Untouched s (forBerths h u) :=
  List.foldlRecOn _ _ hu fun _ hv _ _ => hh hv

theorem writeGate_of_bad {k : Fin 48} {l : List Byte} (h : readGate l = none) : writeGate k l s = (.badValue, s) := by
  simp only [writeGate, h]

theorem writeGate_of_good {k : Fin 48} {l : List Byte} {g : GateEntry} (h : readGate l = some g) :
    writeGate k l s = (.accepted, forBerths reevaluate { s with gate := s.gate.set k g }) := by
  simp only [writeGate, h]

/-- The judging of held frames may count a hit of the new entry; it keeps what was written (R140, R145). -/
theorem gateBody_reevaluated {k : Fin 48} {g : GateEntry} :
    gateBody k (forBerths reevaluate { s with gate := s.gate.set k g }) = g.body := by
  have hu : Untouched { s with gate := s.gate.set k g } (forBerths reevaluate { s with gate := s.gate.set k g }) :=
    untouched_forBerths (fun hu => (Closed.untouched _).reevaluate trivial hu) (.refl _)
  have hg : ({ s with gate := s.gate.set k g } : State).gate[k] = g := by simp
  rw [gateBody, hu.gate k, hg, GateEntry.body_hits]

/-- Settles O44: the class table, the map's writes, and the gate's. -/
theorem mapAndGateAreWritten : Obligations.MapAndGateAreWritten := by
  refine ⟨?classes, ?map, ?badGate, ?gate⟩
  case classes =>
    intro e g ofBerth ofSection
    refine ⟨?_, clashes_iff⟩
    cases hc : e.cls with
    | shoreBreaker => exact fitsClass_of_breaker (.inl hc)
    | earthSwitch => exact fitsClass_of_breaker (.inr hc)
    | plugStation => exact fitsClass_of_ship (.inl hc)
    | shipPms => exact fitsClass_of_ship (.inr hc)
    | synchroniser => exact fitsClass_of_section (.inl hc)
    | feederMonitor => exact fitsClass_of_section (.inr (.inl hc))
    | localPanel => exact fitsClass_of_section (.inr (.inr hc))
    | converter => exact fitsClass_of_converter hc
    | supervisor => exact fitsClass_of_supervisor hc
  case map =>
    intro f n s hs t refused stored used forgotten put
    have hused : ∀ o, t.entryInUse o = true ↔ used o := fun o => entryInUse_iff
    have hforgotten : ∀ o u, forgetEntry o u = forgotten o u := fun o u => rfl
    have hrefused : ∀ {l st}, TableAsks s f 0x02#8 2#8 (byte (n.val + 1)) l → l.length = 8 → st ≠ .accepted →
        writeEquipment n l t = (st, t) → refused st := fun h hl hst hr =>
      h.refused rfl hl n.isLt (by decide) hs hst hr
    have hstored : ∀ {l new}, TableAsks s f 0x02#8 2#8 (byte (n.val + 1)) l → l.length = 8 →
        writeEquipment n l t = (.accepted, putEntry n new t) →
        stored ((new.map EquipEntry.body).getD [2#8, 0, 0, 0, 0, 0, 0, 0]) (putEntry n new t) := fun h hl hr =>
      h.stored rfl hl n.isLt (by decide) hr
        (settled_runPasses (samePasses_putEntry.settled (settled_dropHead hs))) putEntry_body
    refine ⟨?_, ?_, ?_⟩
    · intro e he h fits clash blocked
      have hwanted : equipWanted t.ownId e.body = if fits then some (some e) else none := equipWanted_body he
      have hblocked : t.changesUsed n (some e) ↔ blocked := by
        exact exists_congr fun o => and_congr_right fun _ => and_congr (hused o) (not_congr (Option.some_inj))
      refine ⟨fun hbad => ?_, fun hf hc hb => ?_, fun hf hc hb => ⟨fun ho => ?_, fun o ho => ⟨fun hi hk => ?_, fun hne => ?_⟩⟩⟩
      · by_cases hf : fits
        · exact hrefused h rfl (by decide) (writeEquipment_of_clash (hwanted.trans (if_pos hf)) (hbad.resolve_left (not_not.mpr hf)))
        · exact hrefused h rfl (by decide) (writeEquipment_of_bad (hwanted.trans (if_neg hf)))
      · exact hrefused h rfl (by decide) ((writeEquipment_of_new (hwanted.trans (if_pos hf)) fun g hg => Option.some.inj hg ▸ hc).1
          (hblocked.mpr hb))
      all_goals
        have hput := hstored (new := some e) h rfl ((writeEquipment_of_new (hwanted.trans (if_pos hf)) fun g hg =>
          Option.some.inj hg ▸ hc).2 (mt hblocked.mp hb))
      · rwa [putEntry_of_empty (s := t) ho] at hput
      · rwa [putEntry_of_same (s := t) ho hi hk] at hput
      · rwa [putEntry_of_other (s := t) ho hne, hforgotten] at hput
    · intro rest hl h
      have hrule := writeEquipment_of_new (s := t) (n := n) (l := 2#8 :: rest) (new := none) rfl (fun e he => nomatch he)
      have hblocked : t.changesUsed n none ↔ ∃ o, s.equipment[n] = some o ∧ used o :=
        exists_congr fun o => and_congr_right fun _ => (and_iff_left (by simp)).trans (hused o)
      have hl8 : (2#8 :: rest).length = 8 := congrArg (· + 1) hl
      refine ⟨fun hu => hrefused h hl8 (by decide) (hrule.1 (hblocked.mpr hu)), fun ho => ?_, fun o ho hu => ?_⟩
      · have hput := hstored (new := none) h hl8 (hrule.2 fun hb => by
          obtain ⟨o, ho', -⟩ := hblocked.mp hb
          rw [ho] at ho'
          cases ho')
        rwa [putEntry_of_empty (s := t) ho] at hput
      · have hput := hstored (new := none) h hl8 (hrule.2 fun hb => by
          obtain ⟨o', ho', hu'⟩ := hblocked.mp hb
          rw [ho] at ho'
          exact hu (Option.some.inj ho' ▸ hu'))
        rwa [putEntry_of_emptied (s := t) ho, hforgotten] at hput
    · intro flag i1 i0 cls port berth sec bay h h2 hbad
      refine hrefused h rfl (by decide) (writeEquipment_of_bad ?_)
      by_cases h1 : flag = 1#8
      · subst h1
        have hread := readEquip_of_bad (flag := 1#8) (i1 := i1) (i0 := i0) (hbad.resolve_left (not_not.mpr rfl))
        have hflag : flagOf (at' [1#8, i1, i0, cls, port, berth, sec, bay] 0) = some true := rfl
        simp only [equipWanted, hflag, hread, Option.filter_none, Option.map_none]
      · have hflag : flagOf (at' [flag, i1, i0, cls, port, berth, sec, bay] 0) = none := flagOf_eq_none h1 h2
        simp only [equipWanted, hflag]
  case badGate =>
    intro f n valid src dst kind code h l action s hs ha set hbad
    exact ha.refused rfl rfl n.isLt (by decide) hs (by decide) (writeGate_of_bad (readGate_of_bad hbad))
  case gate =>
    intro f n g s hs h t good
    have hl : g.body.length = 8 := by
      rw [GateEntry.body]
      cases g.states <;> rfl
    have hpasses : SamePasses t (forBerths reevaluate { t with gate := t.gate.set n { g with hits := 0 } }) :=
      (show SamePasses t { t with gate := t.gate.set n { g with hits := 0 } } from ⟨rfl, rfl⟩).trans
        (samePasses_forBerths fun _ _ => samePasses_reevaluate)
    refine ⟨fun hg => ?_, fun hg h0 => ?_⟩
    · have h0 : ∀ c, g.code = some c → c ≠ 0#8 := fun c hc hz => hg.1 c hc (hz ▸ payloadSizes_zero)
      exact h.stored rfl hl n.isLt (by decide) (writeGate_of_good ((readGate_body h0).trans (if_pos hg)))
        (settled_runPasses (hpasses.settled (settled_dropHead hs))) gateBody_reevaluated
    · exact h.refused rfl hl n.isLt (by decide) hs (by decide) (writeGate_of_bad ((readGate_body h0).trans (if_neg hg)))

end Sys2Proof.Machine
end

-- ==== The writes of profiles and cables ====
section
/-! PROOFS. What a write body of the VESSEL PROFILE TABLE and the CABLE RECORD TABLE gives, and what its write changes (R15,
R41, R57, R60, R61). -/

namespace Sys2Proof.Machine

variable {s t u : State} {b : BerthId} {f : Frame} {n : Fin 24} {o q : Profile} {old new : Option Profile}

/-! ## A PROFILES body (R60, R61) -/

/-- The ranges of a profile (R61, step 1). -/
def Profile.inRange (q : Profile) : Prop := 1 ≤ q.demand ∧ q.demand ≤ 250 ∧ 1 ≤ q.step ∧ q.step ≤ 50

theorem readProfile_body (hd : q.demand < 256) (hs : q.step < 256) :
    (q.inRange → readProfile q.body = some q) ∧ (¬q.inRange → readProfile q.body = none) := by
  have hf : nameIn frequencies (codeIn frequencies q.frequency) = some q.frequency :=
    nameIn_codeIn (by cases q.frequency <;> decide) (by decide)
  have hm : nameIn methods (codeIn methods q.method) = some q.method :=
    nameIn_codeIn (by cases q.method <;> decide) (by decide)
  have hr : nameIn rampModes (codeIn rampModes q.rampMode) = some q.rampMode :=
    nameIn_codeIn (by cases q.rampMode <;> decide) (by decide)
  have hdem : (byte q.demand).toNat = q.demand := by rw [toNat_byte]; omega
  have hstep : (byte q.step).toNat = q.step := by rw [toNat_byte]; omega
  have hread : readProfile q.body = if (within 1 250 q.demand && within 1 50 q.step) = true then some q else none := by
    simp [readProfile, Profile.body, bytes4, at', hf, hm, hr, hdem, hstep, num4_bytes4]
  have hrange : (within 1 250 q.demand && within 1 50 q.step) = true ↔ q.inRange := by
    simp [within, Profile.inRange, and_assoc]
  rw [hread]
  exact ⟨fun h => if_pos (hrange.mpr h), fun h => if_neg (mt hrange.mp h)⟩

theorem readProfile_of_bad {flag v3 v2 v1 v0 demand frequency method mode step : Byte}
    (h : demand.toNat < 1 ∨ 250 < demand.toNat ∨ frequency.toNat < 1 ∨ 2 < frequency.toNat ∨
      method.toNat < 1 ∨ 2 < method.toNat ∨ mode.toNat < 1 ∨ 3 < mode.toNat ∨ step.toNat < 1 ∨ 50 < step.toNat) :
    readProfile [flag, v3, v2, v1, v0, demand, frequency, method, mode, step] = none := by
  by_contra hne
  obtain ⟨e, he⟩ := Option.ne_none_iff_exists'.mp hne
  simp only [readProfile, at', List.getD_cons_succ, List.getD_cons_zero, Option.bind_eq_bind, Option.bind_eq_some_iff] at he
  obtain ⟨a, ha, m, hm, r, hr, hif⟩ := he
  have hfrequency := mt nameIn_eq_none_iff.mpr (Option.ne_none_iff_exists'.mpr ⟨a, ha⟩)
  have hmethod := mt nameIn_eq_none_iff.mpr (Option.ne_none_iff_exists'.mpr ⟨m, hm⟩)
  have hmode := mt nameIn_eq_none_iff.mpr (Option.ne_none_iff_exists'.mpr ⟨r, hr⟩)
  simp only [frequencies, methods, rampModes, List.length_cons, List.length_nil] at hfrequency hmethod hmode
  split at hif
  next hw =>
    simp only [within, Bool.and_eq_true, decide_eq_true_eq] at hw
    omega
  next => cases hif

theorem profileWanted_of_some (hd : q.demand < 256) (hs : q.step < 256) :
    (q.inRange → profileWanted q.body = some (some q)) ∧ (¬q.inRange → profileWanted q.body = none) := by
  obtain ⟨hgood, hbad⟩ := readProfile_body hd hs
  have hw : profileWanted q.body = (readProfile q.body).map some := rfl
  exact ⟨fun h => by rw [hw, hgood h]; rfl, fun h => by rw [hw, hbad h]; rfl⟩

theorem profileWanted_of_bad {flag v3 v2 v1 v0 demand frequency method mode step : Byte} (h2 : flag ≠ 2#8)
    (h : flag ≠ 1#8 ∨ demand.toNat < 1 ∨ 250 < demand.toNat ∨ frequency.toNat < 1 ∨ 2 < frequency.toNat ∨
      method.toNat < 1 ∨ 2 < method.toNat ∨ mode.toNat < 1 ∨ 3 < mode.toNat ∨ step.toNat < 1 ∨ 50 < step.toNat) :
    profileWanted [flag, v3, v2, v1, v0, demand, frequency, method, mode, step] = none := by
  by_cases h1 : flag = 1#8
  · subst h1
    have hread := readProfile_of_bad (flag := 1#8) (v3 := v3) (v2 := v2) (v1 := v1) (v0 := v0)
      (h.resolve_left (not_not.mpr rfl))
    have hflag : flagOf (at' [1#8, v3, v2, v1, v0, demand, frequency, method, mode, step] 0) = some true := rfl
    simp only [profileWanted, hflag, hread, Option.map_none]
  · have hflag : flagOf (at' [flag, v3, v2, v1, v0, demand, frequency, method, mode, step] 0) = none := flagOf_eq_none h1 h2
    simp only [profileWanted, hflag]

/-! ## A PROFILES write (R61) -/

theorem vesselElsewhere_iff {v : Num32} : s.vesselElsewhere n v = true ↔
    ∃ (q : Profile) (m : Fin 24), m ≠ n ∧ s.profiles[m] = some q ∧ q.vessel = v := by
  simp only [State.vesselElsewhere, List.any_eq_true, List.mem_finRange, true_and, Bool.and_eq_true, decide_eq_true_eq,
    beq_iff_eq, Option.map_eq_some_iff]
  exact ⟨fun ⟨m, hm, q, hq, hv⟩ => ⟨q, m, hm, hq, hv⟩, fun ⟨q, m, hm, hq, hv⟩ => ⟨m, hm, q, hq, hv⟩⟩

theorem removesProfile_iff : removesProfile old new = true ↔
    ∃ o, old = some o ∧ ∀ p, new = some p → p.vessel ≠ o.vessel := by
  cases old <;> cases new <;> simp [removesProfile]

theorem profileInUse_iff : s.profileInUse n = true ↔ ∃ b, (s.berth b).state.holdsCapacity = true ∧
    (s.berth b).profile = some n ∧ ¬((s.berth b).adopted = true ∧ (s.berth b).state = .onShore) := by
  simp only [State.profileInUse, List.any_eq_true, mem_allBerths, true_and, Bool.and_eq_true, beq_iff_eq, and_assoc]
  exact exists_congr fun b => by cases (s.berth b).adopted <;> simp

theorem writeProfiles_of_bad {l : List Byte} (h : profileWanted l = none) : writeProfiles n l s = (.badValue, s) := by
  simp only [writeProfiles, h]

theorem writeProfiles_of_twice {l : List Byte} (h : profileWanted l = some new)
    (hv : (new.map fun p => s.vesselElsewhere n p.vessel).getD false = true) : writeProfiles n l s = (.badValue, s) := by
  simp only [writeProfiles, h, hv, if_true]

theorem writeProfiles_of_new {l : List Byte} (h : profileWanted l = some new)
    (hv : ¬(new.map fun p => s.vesselElsewhere n p.vessel).getD false = true) : writeProfiles n l s =
      if removesProfile s.profiles[n] new = true ∧ s.profileInUse n = true then (.inUse, s)
      else if s.profiles[n] = new then (.accepted, s)
      else (.accepted, forBerths (profileAtBerth n s.profiles[n] new) { s with profiles := s.profiles.set n new }) := by
  simp only [writeProfiles, h]
  exact if_neg hv

/-! ## A profile that a berth loses (R15, R61) -/

theorem removesProfile_none : removesProfile (some o) none = true := rfl

theorem profileAtBerth_lost_of_other (h : (s.berth b).profile ≠ some n) : profileAtBerth n (some o) none b s = s :=
  if_neg fun hc => h hc.2

theorem profileAtBerth_lost (h : (s.berth b).profile = some n) :
    profileAtBerth n (some o) none b s = profileRemoved b s := if_pos ⟨rfl, h⟩

theorem profileRemoved_of_proved (h : (s.berth b).state = .proved ∨ (s.berth b).state = .queued) :
    profileRemoved b s = loseProfile b s := by
  obtain h | h := h <;> simp only [profileRemoved, h]

theorem profileRemoved_of_onShore (h : (s.berth b).state = .onShore) : profileRemoved b s =
    if (s.berth b).adopted = true then updBerth b (fun r => { r with profile := none, terms := none }) s else s := by
  simp only [profileRemoved, h]

theorem profileRemoved_of_other (h1 : (s.berth b).state ≠ .proved) (h2 : (s.berth b).state ≠ .queued)
    (h3 : (s.berth b).state ≠ .onShore) : profileRemoved b s = s := by
  cases h : (s.berth b).state <;> simp_all [profileRemoved]

theorem loseProfile_state (h : (s.berth b).state = .proved ∨ (s.berth b).state = .queued) :
    ((loseProfile b s).berth b).state = .plugged := by
  have hst : ((updBerth b (fun r => { r with profile := none }) s).berth b).state = (s.berth b).state := by
    rw [updBerth_berth_same]
  have hne : ((updBerth b (fun r => { r with profile := none }) s).berth b).state ≠ .plugged := by
    rw [hst]
    obtain h | h := h <;> rw [h] <;> decide
  have hlock : ((updBerth b (fun r => { r with profile := none }) s).berth b).state.mayLock = false := by
    rw [hst]
    obtain h | h := h <;> rw [h] <;> rfl
  rw [loseProfile, noticeBerth_state, enterState_plain hne hlock, clearInFlight, updBerth_berth_same, reevaluate_berth,
    if_pos rfl, moveTo, updBerth_berth_same]
  rfl

/-! ## A profile that arrives (R15, R61) -/

theorem profileArrived_plugged (h : (s.berth b).state = .plugged) : profileArrived n old q b s =
    if (s.berth b).provingPassed = true ∧ (s.berth b).vessel = some q.vessel then seekProfile b s else s := by
  simp only [profileArrived, h]

theorem profileArrived_onShore (h : (s.berth b).state = .onShore) : profileArrived n old q b s =
    if (s.berth b).adopted = true ∧ (s.berth b).profile = none ∧ (s.berth b).vessel = some q.vessel then
      updBerth b (fun r => { r with profile := some n, terms := some q.terms }) s
    else s := by
  simp only [profileArrived, h]

theorem demand_frequency_iff : (old.map fun o => (o.demand, o.frequency)) ≠ some (q.demand, q.frequency) ↔
    ¬(old.map (·.demand) = some q.demand ∧ old.map (·.frequency) = some q.frequency) := by
  cases old <;> simp

theorem profileArrived_queued (h : (s.berth b).state = .queued) : profileArrived n old q b s =
    if (s.berth b).profile = some n ∧ ¬(old.map (·.demand) = some q.demand ∧ old.map (·.frequency) = some q.frequency) then
      callPass (s.berth b).sec s
    else s := by
  simp only [profileArrived, h]
  exact if_congr (and_congr_right fun _ => demand_frequency_iff) rfl rfl

theorem profileArrived_other (h1 : (s.berth b).state ≠ .plugged) (h2 : (s.berth b).state ≠ .onShore)
    (h3 : (s.berth b).state ≠ .queued) : profileArrived n old q b s = s := by
  cases h : (s.berth b).state <;> simp_all [profileArrived]

/-- Only for a QUEUED berth that names the entry does it matter what the entry held (R61). -/
theorem profileArrived_congr (h : (s.berth b).state ≠ .queued ∨ (s.berth b).profile ≠ some n) :
    profileArrived n old q b s = profileArrived n none q b s := by
  by_cases hs : (s.berth b).state = .queued
  · have hp := h.resolve_left (not_not.mpr hs)
    rw [profileArrived_queued hs, profileArrived_queued hs, if_neg fun hc => hp hc.1, if_neg fun hc => hp hc.1]
  · cases hst : (s.berth b).state <;> simp_all [profileArrived]

theorem profileAtBerth_arrived (h : ∀ o, old = some o → o.vessel = q.vessel) :
    profileAtBerth n old (some q) b s = profileArrived n old q b s := by
  have hno : ¬(removesProfile old (some q) = true ∧ (s.berth b).profile = some n) := by
    rw [removesProfile_iff]
    rintro ⟨⟨o, ho, hv⟩, -⟩
    exact hv q rfl (h o ho).symm
  exact congrArg (profileArrived n old q b) (if_neg hno)

/-- The profile of another vessel is removed first, and the new one arrives at an empty entry (R61). -/
theorem profileAtBerth_replaced (h : q.vessel ≠ o.vessel) : profileAtBerth n (some o) (some q) b s =
    profileAtBerth n none (some q) b (profileAtBerth n (some o) none b s) := by
  have hr : removesProfile (some o) (some q) = removesProfile (some o) none :=
    removesProfile_iff.mpr ⟨o, rfl, fun p hp => Option.some.inj hp ▸ h⟩
  have hl : profileAtBerth n (some o) (some q) b s = profileArrived n (some o) q b (profileAtBerth n (some o) none b s) := by
    simp only [profileAtBerth, hr]
  rw [hl, profileAtBerth_arrived (by intro _ ho; cases ho)]
  refine profileArrived_congr ?_
  by_cases hp : (s.berth b).profile = some n
  · rw [profileAtBerth_lost hp]
    refine .inl ?_
    by_cases h1 : (s.berth b).state = .proved ∨ (s.berth b).state = .queued
    · rw [profileRemoved_of_proved h1, loseProfile_state h1]
      decide
    · obtain ⟨h2, h3⟩ := not_or.mp h1
      by_cases h4 : (s.berth b).state = .onShore
      · rw [profileRemoved_of_onShore h4]
        split
        · rw [updBerth_berth_same]
          exact h3
        · exact h3
      · rw [profileRemoved_of_other h2 h3 h4]
        exact h3
  · rw [profileAtBerth_lost_of_other hp]
    exact .inr hp

/-! ## A CABLES body (R57) -/

variable {m : Fin 32} {c : CableRec} {v : Num32} {cond mapCode hardCode : Byte} {soft rest : List Byte}

/-- The body of a CABLES write. -/
def cableBytes (v : Num32) (cond mapCode : Byte) (soft : List Byte) (hardCode : Byte) (rest : List Byte) : List Byte :=
  bytes4 v ++ [cond, mapCode] ++ soft ++ [hardCode] ++ rest

theorem coresOf_eq_none_iff {k : Byte} : coresOf k = none ↔ 31 < k.toNat := by
  unfold coresOf
  split <;> simp <;> omega

theorem coresOf_coresByte {h : CoreSet} : coresOf (coresByte h) = some h := by
  revert h
  decide

theorem readCable_eq (hs : soft.length = 5) : readCable c (cableBytes v cond mapCode soft hardCode rest) =
    (nameIn conditions cond).bind fun k => (readMap c mapCode).bind fun a => (readHard c hardCode).bind fun h =>
      some { c with condition := k, map := a, hard := h } := by
  match soft, hs with
  | [_, _, _, _, _], _ => rfl

theorem cableBytes_cable : num4 (at' (cableBytes v cond mapCode soft hardCode rest) 0)
    (at' (cableBytes v cond mapCode soft hardCode rest) 1) (at' (cableBytes v cond mapCode soft hardCode rest) 2)
    (at' (cableBytes v cond mapCode soft hardCode rest) 3) = v := num4_bytes4 v

theorem readMap_code {a : Option Func} : readMap c (codeOrZero funcs a) = if a = none ∨ a = c.map then some a else none := by
  have h : optOf (nameIn funcs) (codeOrZero funcs a) = some a := optOf_codeOrZero (fun k => by cases k <;> decide) (by decide)
  simp [readMap, h, Option.filter_some]

theorem readHard_code {h : CoreSet} : readHard c (coresByte h) = if h &&& ~~~c.hard = 0#5 then some h else none := by
  simp [readHard, coresOf_coresByte, Option.filter_some]

theorem readCable_of_bad (hs : soft.length = 5)
    (h : cond.toNat < 1 ∨ 2 < cond.toNat ∨ 4 < mapCode.toNat ∨ 31 < hardCode.toNat) :
    readCable c (cableBytes v cond mapCode soft hardCode rest) = none := by
  rw [readCable_eq hs]
  by_cases hcond : cond.toNat < 1 ∨ 2 < cond.toNat
  · rw [(nameIn_eq_none_iff (names := conditions)).mpr hcond]
    rfl
  · simp only [Option.bind_eq_none_iff]
    intro k _ a ha h' hh
    by_cases hmap : 4 < mapCode.toNat
    · rw [readMap, (optOf_nameIn_eq_none_iff (names := funcs)).mpr hmap] at ha
      cases ha
    · rw [readHard, coresOf_eq_none_iff.mpr (by omega)] at hh
      cases hh

theorem readCable_codes {k : Condition} {a : Option Func} {h : CoreSet} (hs : soft.length = 5) :
    readCable c (cableBytes v (codeIn conditions k) (codeOrZero funcs a) soft (coresByte h) rest) =
      if (a = none ∨ a = c.map) ∧ h &&& ~~~c.hard = 0#5 then some { c with condition := k, map := a, hard := h }
      else none := by
  have hk : nameIn conditions (codeIn conditions k) = some k := nameIn_codeIn (by cases k <;> decide) (by decide)
  rw [readCable_eq hs, hk, readMap_code, readHard_code]
  by_cases hgood : (a = none ∨ a = c.map) ∧ h &&& ~~~c.hard = 0#5
  · rw [if_pos hgood, if_pos hgood.1, if_pos hgood.2]
    rfl
  · rw [if_neg hgood]
    by_cases ha : a = none ∨ a = c.map
    · rw [if_pos ha, if_neg fun hh => hgood ⟨ha, hh⟩]
      rfl
    · rw [if_neg ha]
      rfl

theorem writeCables_of_other (hc : s.cables[m] = some c) (hv : v ≠ c.cable) :
    writeCables m (cableBytes v cond mapCode soft hardCode rest) s = (.badValue, s) := by
  simp only [writeCables, hc, cableBytes_cable]
  exact if_pos hv

theorem writeCables_of_used (hc : s.cables[m] = some c) (hv : v = c.cable) (hb : c.berth ≠ none) :
    writeCables m (cableBytes v cond mapCode soft hardCode rest) s = (.inUse, s) := by
  simp only [writeCables, hc, cableBytes_cable]
  exact (if_neg (not_not.mpr hv)).trans (if_pos (Option.isSome_iff_ne_none.mpr hb))

theorem writeCables_of_bad (hc : s.cables[m] = some c) (hv : v = c.cable) (hb : c.berth = none)
    (h : readCable c (cableBytes v cond mapCode soft hardCode rest) = none) :
    writeCables m (cableBytes v cond mapCode soft hardCode rest) s = (.badValue, s) := by
  simp only [writeCables, hc, cableBytes_cable, h, hb, Option.isSome_none]
  exact if_neg (not_not.mpr hv)

theorem writeCables_of_good {g : CableRec} (hc : s.cables[m] = some c) (hv : v = c.cable) (hb : c.berth = none)
    (h : readCable c (cableBytes v cond mapCode soft hardCode rest) = some g) :
    writeCables m (cableBytes v cond mapCode soft hardCode rest) s = (.accepted, setCable m g s) := by
  simp only [writeCables, hc, cableBytes_cable, h, hb, Option.isSome_none, updCable_of_some hc]
  exact if_neg (not_not.mpr hv)

/-- Settles O45: the profile writes and their bad bodies, a changed entry at each berth, and the cable writes. -/
theorem profilesAndCablesAreWritten : Obligations.ProfilesAndCablesAreWritten := by
  refine ⟨?profiles, ?badProfiles, ?berths, ?cables⟩
  case profiles =>
    intro f n new body s hs h hbody t refused stored inRange twice removes used
    have hl : body.length = 10 := by
      rcases hbody with ⟨p, -, rfl, -⟩ | ⟨-, rest, hr, rfl⟩
      · rfl
      · exact congrArg (· + 1) hr
    have hwanted : (inRange → profileWanted body = some new) ∧ (¬inRange → profileWanted body = none) := by
      rcases hbody with ⟨p, rfl, rfl, hd, hstep⟩ | ⟨rfl, rest, -, rfl⟩
      · have hrange : inRange ↔ p.inRange := ⟨fun hr => hr p rfl, fun hr q hq => Option.some.inj hq ▸ hr⟩
        exact ⟨fun hr => (profileWanted_of_some hd hstep).1 (hrange.mp hr),
          fun hr => (profileWanted_of_some hd hstep).2 (mt hrange.mpr hr)⟩
      · exact ⟨fun _ => rfl, fun hr => absurd (fun p hp => nomatch hp) hr⟩
    have htwice : (new.map fun p => t.vesselElsewhere n p.vessel).getD false = true ↔ twice := by
      rw [map_getD_false_iff]
      exact exists_congr fun p => (and_congr_right fun _ => vesselElsewhere_iff).trans
        ⟨fun ⟨hp, q, m, hm⟩ => ⟨q, m, hp, hm⟩, fun ⟨q, m, hp, hm⟩ => ⟨hp, q, m, hm⟩⟩
    have hblocked : (removesProfile t.profiles[n] new = true ∧ t.profileInUse n = true) ↔ removes ∧ used :=
      and_congr removesProfile_iff profileInUse_iff
    have hrefused : ∀ {st}, st ≠ .accepted → writeProfiles n body t = (st, t) → refused st := fun hst hr =>
      h.refused rfl hl n.isLt (by decide) hs hst hr
    refine ⟨fun hbad => ?_, fun hr ht hm hu => ?_, fun hr ht hb => ⟨fun ho => ?_, fun ho => ?_⟩⟩
    · by_cases hr : inRange
      · exact hrefused (by decide) (writeProfiles_of_twice (hwanted.1 hr) (htwice.mpr (hbad.resolve_left (not_not.mpr hr))))
      · exact hrefused (by decide) (writeProfiles_of_bad (hwanted.2 hr))
    all_goals have hrule := writeProfiles_of_new (s := t) (n := n) (hwanted.1 hr) (mt htwice.mp ht)
    · exact hrefused (by decide) (hrule.trans (if_pos (hblocked.mpr ⟨hm, hu⟩)))
    · exact h.stored rfl hl n.isLt (by decide) (hrule.trans ((if_neg (mt hblocked.mp hb)).trans (if_pos ho)))
        (settled_runPasses (settled_dropHead hs)) rfl
    · exact h.stored rfl hl n.isLt (by decide) (hrule.trans ((if_neg (mt hblocked.mp hb)).trans (if_neg ho))) rfl rfl
  case badProfiles =>
    intro f n flag v3 v2 v1 v0 demand frequency method mode step s hs h h2 hbad
    exact h.refused rfl rfl n.isLt (by decide) hs (by decide) (writeProfiles_of_bad (profileWanted_of_bad h2 hbad))
  case berths =>
    intro n o b s r lost
    refine ⟨fun hp hst => ?_, fun hp hst ha => ?_, profileAtBerth_lost_of_other, fun p hv => profileAtBerth_replaced hv,
      fun old p hv => ⟨fun hst => ?_, fun hst => ?_, fun hst => ?_, fun h1 h2 h3 => ?_⟩⟩
    · exact (profileAtBerth_lost hp).trans (profileRemoved_of_proved hst)
    · exact (profileAtBerth_lost hp).trans ((profileRemoved_of_onShore hst).trans (if_pos ha))
    · exact (profileAtBerth_arrived hv).trans (profileArrived_plugged hst)
    · exact (profileAtBerth_arrived hv).trans (profileArrived_onShore hst)
    · exact (profileAtBerth_arrived hv).trans (profileArrived_queued hst)
    · exact (profileAtBerth_arrived hv).trans (profileArrived_other h1 h2 h3)
  case cables =>
    intro f n v cond mapCode hardCode soft rest s hs hsoft hrest h t refused
    have hl : (cableBytes v cond mapCode soft hardCode rest).length = 18 := by
      simp [cableBytes, bytes4, hsoft, hrest]
    have hrefused : ∀ {st}, st ≠ .accepted → writeCables n (cableBytes v cond mapCode soft hardCode rest) t = (st, t) →
        refused st := fun hst hr => h.refused rfl hl n.isLt (by decide) hs hst hr
    refine ⟨fun hn => hrefused (by decide) ?_, fun c hc => ⟨fun hv => ?_, fun hv hb => ?_, fun hv hb hbad => ?_,
      fun hv hb k a g hk ha hg => ⟨fun hm hh => ?_, fun hno => ?_⟩⟩⟩
    · have hn' : t.cables[n] = none := hn
      simp only [writeCables, hn']
    · exact hrefused (by decide) (writeCables_of_other (s := t) hc hv)
    · exact hrefused (by decide) (writeCables_of_used (s := t) hc hv hb)
    · exact hrefused (by decide) (writeCables_of_bad (s := t) hc hv hb (readCable_of_bad hsoft hbad))
    · subst hk ha hg
      have hread := (readCable_codes (v := v) (k := k) (rest := rest) hsoft).trans (if_pos ⟨hm, hh⟩)
      refine h.stored (u := setCable n { c with condition := k, map := a, hard := g } t) rfl hl n.isLt (by decide)
        (writeCables_of_good (s := t) hc hv hb hread) (settled_runPasses (settled_dropHead (p := portSUP) hs)) ?_
      exact congrArg (fun o : Option CableRec => (o.map CableRec.body).getD (List.replicate 18 0)) setCable_same
    · subst hk ha hg
      have hread := (readCable_codes (v := v) (k := k) (rest := rest) hsoft).trans (if_neg hno)
      exact hrefused (by decide) (writeCables_of_bad (s := t) hc hv hb hread)

end Sys2Proof.Machine
end

-- ==== The reads of the tables ====
section
/-! PROOFS. The bytes of each table's entries, and the reply frames of a READ (R159, R161, R162). -/

namespace Sys2Proof.Machine

variable {s t u : State} {b : BerthId} {f : Frame} {table : Byte} {i n : Nat} {entry : List Byte}

/-! ## Items (R161) -/

theorem berthByte_eq {o : Option BerthId} : berthByte o = (o.map fun n => byte (n.val + 1)).getD 0#8 := by
  cases o <;> rfl

theorem indexByte_eq {o : Option (Fin 24)} : indexByte o = (o.map fun n => byte (n.val + 1)).getD 0#8 := by
  cases o <;> rfl

theorem stampBytes_eq {o : Option (Nat × Nat)} :
    stampBytes o = (o.map fun q => bytes3 q.1 ++ bytes2 q.2).getD [0, 0, 0, 0, 0] := by
  cases o <;> rfl

theorem positionBytes_eq {e : EquipId} {o : Option Breaker} :
    positionBytes e o = (o.map fun q => bytesId e ++ [codeIn breakers q]).getD [0, 0, 0] := by
  cases o <;> rfl

theorem inFlightBytes_eq {o : Option InFlight} : inFlightBytes o =
    (o.map fun j => codeIn inFlightKinds j.kind :: bytes3 j.start ++ bytes2 j.timer).getD [0, 0, 0, 0, 0, 0] := by
  cases o <;> rfl

theorem coreTestBytes_eq {o : Option CoreTestReport} : coreTestBytes o = (o.map fun q => bytes4 q.cable ++
    ([q.p1, q.p2, q.p3, q.p4, q.sp].map (codeIn coreResults ·))).getD (List.replicate 9 0#8) := by
  cases o <;> rfl

theorem assignDoneBytes_eq {o : Option AssignDoneReport} : assignDoneBytes o =
    (o.map fun q => [codeIn funcs q.func, codeIn cores q.core, flag q.ok]).getD [0, 0, 0] := by
  cases o with
  | none => rfl
  | some q => simp [assignDoneBytes, yesNo_byte, flag]

theorem shipStateBytes_eq {o : Option ShipStateReport} : shipStateBytes o =
    (o.map fun q => bytes2 q.shipLoad ++ bytes2 q.shoreLoad ++
      [flag q.gensRunning, if q.busDead = true then 2#8 else 1#8]).getD [0, 0, 0, 0, 0, 0] := by
  cases o with
  | none => rfl
  | some q => cases hq : q.busDead <;> simp [shipStateBytes, yesNo_byte, flag, hq]

theorem stepDoneBytes_eq {o : Option StepDoneReport} : stepDoneBytes o =
    (o.map fun q => flag q.done :: bytes2 q.shoreLoad).getD [0, 0, 0] := by
  cases o with
  | none => rfl
  | some q => simp [stepDoneBytes, yesNo_byte, flag]

theorem converterBytes_eq {o : Option ConverterReport} : converterBytes o =
    (o.map fun q => [codeIn bayIds q.bay, q.berth, codeIn converterRuns q.run]).getD [0, 0, 0] := by
  cases o <;> rfl

theorem heldBytes_eq {o : Option HeldFrame} : heldBytes o = (o.map fun q => bytesId q.frame.src ++ bytesId q.frame.dst ++
    [q.frame.kind, q.frame.code, q.frame.tag] ++ bytes3 q.stampSecond ++ bytes2 q.stampNight ++ bytes2 q.timer).getD
      (List.replicate 14 0#8) := by
  cases o with
  | none => rfl
  | some q => simp [heldBytes, stampBytes_eq]

theorem lastNightBytes_eq {o : Option LastNight} : lastNightBytes o = (o.map fun q => bytes2 q.night ++
    (q.cable.map bytes4).getD [0, 0, 0, 0] ++ [byte q.tests, byte q.andMask.toNat, byte q.orMask.toNat, byte q.estop,
      byte q.pilot, byte q.strain, byte q.latch, byte q.trips]).getD (List.replicate 14 0#8) := by
  cases o with
  | none => rfl
  | some q => simp [lastNightBytes, vesselBytes_eq, coresByte_eq]

theorem bytesId_eq_bytes2 {w : EquipId} : bytesId w = bytes2 w.toNat := by
  simp only [bytesId, bytes2, List.cons.injEq, and_true]
  constructor
  · apply BitVec.eq_of_toNat_eq
    rw [BitVec.extractLsb'_toNat, toNat_byte, Nat.shiftRight_eq_div_pow]
  · apply BitVec.eq_of_toNat_eq
    rw [BitVec.extractLsb'_toNat, toNat_byte, Nat.shiftRight_zero]

theorem stateSetBytes_of {m : BitVec 12} : stateSetBytes (.of m) = bytes2 m.toNat := by
  have hm : m.toNat < 4096 := m.isLt
  have hn : (m.zeroExtend 16).toNat = m.toNat := by
    rw [BitVec.toNat_setWidth]
    omega
  rw [stateSetBytes, bytesId_eq_bytes2, hn]

/-! ## Lengths (R162) -/

theorem length_vesselBytes {o : Option Num32} : (vesselBytes o).length = 4 := by cases o <;> rfl

theorem length_recordBytes {r : Berth} : (recordBytes r).length = 28 := by
  have hf : (inFlightBytes r.inFlight).length = 6 := by cases r.inFlight <;> rfl
  simp [recordBytes, length_vesselBytes, hf]

theorem length_termsBytes {r : Berth} : (termsBytes r).length = 7 := by
  unfold termsBytes
  cases r.terms <;> rfl

theorem length_rampBytes {r : Ramp} : (rampBytes r).length = 19 := by
  unfold rampBytes
  cases r.pauseTimer <;> rfl

theorem length_observedBytes : (observedBytes b s).length = 29 := by
  have h1 : (((s.berthEntry .shoreBreaker b).map fun e => positionBytes e.id e.position).getD [0, 0, 0]).length = 3 := by
    cases s.berthEntry .shoreBreaker b with
    | none => rfl
    | some e => simp only [Option.map_some, Option.getD_some]; cases e.position <;> rfl
  have h2 : (coreTestBytes (s.berth b).obs.coreTest).length = 9 := by cases (s.berth b).obs.coreTest <;> rfl
  have h3 : (assignDoneBytes (s.berth b).obs.assignDone).length = 3 := by cases (s.berth b).obs.assignDone <;> rfl
  have h4 : (shipStateBytes (s.berth b).obs.shipState).length = 6 := by cases (s.berth b).obs.shipState <;> rfl
  have h5 : (stepDoneBytes (s.berth b).obs.stepDone).length = 3 := by cases (s.berth b).obs.stepDone <;> rfl
  simp only [observedBytes, List.length_append, h1, h2, h3, h4, h5, length_vesselBytes, List.length_singleton]

theorem length_heldBytes {o : Option HeldFrame} : (heldBytes o).length = 14 := by cases o <;> rfl

theorem length_lastNightBytes {o : Option LastNight} : (lastNightBytes o).length = 14 := by
  cases o with
  | none => rfl
  | some l => simp [lastNightBytes, length_vesselBytes, bytes2]

theorem length_berthsEntry : (berthsEntry b s).length = 126 := by
  simp only [berthsEntry, List.length_append, length_recordBytes, length_termsBytes, length_rampBytes, length_observedBytes,
    length_heldBytes, length_lastNightBytes, List.length_singleton]

theorem length_converterBytes {o : Option ConverterReport} : (converterBytes o).length = 3 := by cases o <;> rfl

theorem length_arbiterBytes {r : SectionRec} : (arbiterBytes r).length = 17 := by
  unfold arbiterBytes
  cases r.op <;> cases r.lock <;> simp

theorem length_queuePlace {r : SectionRec} {k : Nat} : (queuePlace r s k).length = 2 := by
  unfold queuePlace
  cases r.queue[k]? <;> rfl

theorem length_sectionsEntry {k : Fin 2} : (sectionsEntry k s).length = 52 := by
  have hq : ((List.range 8).flatMap (queuePlace (s.sec (sectionAt k)) s)).length = 16 := by
    rw [List.length_flatMap]
    simp [length_queuePlace]
  simp only [sectionsEntry, sectionsBody, List.length_append, hq, length_arbiterBytes, length_converterBytes, List.length_cons,
    List.length_nil, bytes2]

/-! ## The frames of a READ (R159, R162) -/

theorem readAt_eq {k : Fin n → State → State} (hp : f.payload = [table, byte (i + 1)]) (h : i < n) (hn : n ≤ 64) :
    readAt n portSUP f k t = k ⟨i, h⟩ t := by
  have hindex : (at' f.payload 1).toNat = i + 1 := by rw [hp]; exact toNat_index h hn
  have hfin : ∀ l, (⟨(at' f.payload 1).toNat - 1, l⟩ : Fin n) = ⟨i, h⟩ := fun _ => Fin.ext (by simp [hindex])
  refine (dif_pos (by omega)).trans ((if_pos (by rw [hp]; rfl)).trans ?_)
  rw [hfin]

theorem replySeries_of_three {p : Port} (h : entry.length = 126) : replySeries p f entry t = (t
    |> tableReply p f .accepted ([1#8, 3#8] ++ entry.take 43)
    |> tableReply p f .accepted ([2#8, 3#8] ++ (entry.drop 43).take 43)
    |> tableReply p f .accepted ([3#8, 3#8] ++ entry.drop 86)) := by
  have hlast : (entry.drop 86).take 43 = entry.drop 86 := List.take_of_length_le (by rw [List.length_drop]; omega)
  have hbodies : seriesBodies entry = [[1#8, 3#8] ++ entry.take 43, [2#8, 3#8] ++ (entry.drop 43).take 43,
      [3#8, 3#8] ++ (entry.drop 86).take 43] := by
    rw [seriesBodies, h]
    rfl
  simp only [replySeries, hbodies, hlast, List.foldl_cons, List.foldl_nil]

theorem replySeries_of_two {p : Port} (h : entry.length = 52) : replySeries p f entry t = (t
    |> tableReply p f .accepted ([1#8, 2#8] ++ entry.take 43)
    |> tableReply p f .accepted ([2#8, 2#8] ++ entry.drop 43)) := by
  have hlast : (entry.drop 43).take 43 = entry.drop 43 := List.take_of_length_le (by rw [List.length_drop]; omega)
  have hbodies : seriesBodies entry = [[1#8, 2#8] ++ entry.take 43, [2#8, 2#8] ++ (entry.drop 43).take 43] := by
    rw [seriesBodies, h]
    rfl
  simp only [replySeries, hbodies, hlast, List.foldl_cons, List.foldl_nil]

/-! ## The entries (R161, R162) -/

theorem recordBytes_eq {r : Berth} : recordBytes r = [codeIn sectionIds r.sec, codeIn berthStates r.state] ++
    (r.vessel.map bytes4).getD [0, 0, 0, 0] ++ [(r.profile.map fun n => byte (n.val + 1)).getD 0#8] ++
    (r.cable.map bytes4).getD [0, 0, 0, 0] ++
    [byte r.grant, codeOrZero bayIds r.bay, codeOrZero tripCauses r.tripCause, flag r.breakerFail, flag r.adopted,
      flag r.holdGranted] ++
    (r.inFlight.map fun j => codeIn inFlightKinds j.kind :: bytes3 j.start ++ bytes2 j.timer).getD [0, 0, 0, 0, 0, 0] ++
    [provingByte r.provingStep, flag r.provingPassed, byte r.noticeCount, flag r.noticeLimited, byte r.bypass] := by
  rw [← vesselBytes_eq, ← vesselBytes_eq, ← indexByte_eq, ← inFlightBytes_eq]
  rfl

theorem termsBytes_eq {r : Berth} : termsBytes r = (r.terms.map fun m => [codeIn frequencies m.frequency,
    codeIn methods m.method, codeIn rampModes m.rampMode, byte m.step]).getD [0, 0, 0, 0] ++
    bytes2 (r.overdraw.getD 0) ++ [codeIn overdrawStages r.overdrawStage] := by
  unfold termsBytes
  cases r.terms <;> rfl

theorem rampBytes_eq {c : Ramp} : rampBytes c = codeIn directions c.direction :: bytes2 c.stepUnits ++
    [byte c.baseCount, byte c.currentCount, codeIn rampModes c.mode, codeIn rampModes c.effMode, flag c.demoted,
      byte c.failures, flag c.terminal, flag c.masked, flag c.aborting, codeOrZero abortCauses c.abortCause,
      flag c.paused] ++
    (c.pauseTimer.map fun q => codeIn pauseRoles q.1 :: bytes2 q.2).getD [0, 0, 0] ++ bytes2 (c.shoreSeen.getD 0) := by
  unfold rampBytes
  cases c.pauseTimer <;> rfl

theorem observedBytes_eq : observedBytes b s =
    let o := (s.berth b).obs
    ((s.berthEntry .shoreBreaker b).map fun e => (e.position.map fun q => bytesId e.id ++ [codeIn breakers q]).getD
      [0, 0, 0]).getD [0, 0, 0] ++
    (o.coreTest.map fun q => bytes4 q.cable ++ ([q.p1, q.p2, q.p3, q.p4, q.sp].map (codeIn coreResults ·))).getD
      (List.replicate 9 0#8) ++
    (o.assignDone.map fun q => [codeIn funcs q.func, codeIn cores q.core, flag q.ok]).getD [0, 0, 0] ++
    (o.shipState.map fun q => bytes2 q.shipLoad ++ bytes2 q.shoreLoad ++
      [flag q.gensRunning, if q.busDead = true then 2#8 else 1#8]).getD [0, 0, 0, 0, 0, 0] ++
    (o.stepDone.map fun q => flag q.done :: bytes2 q.shoreLoad).getD [0, 0, 0] ++
    [codeOrZero holdAnswers o.holdState] ++ (o.vesselId.map bytes4).getD [0, 0, 0, 0] := by
  simp only [observedBytes, positionBytes_eq, coreTestBytes_eq, assignDoneBytes_eq, shipStateBytes_eq, stepDoneBytes_eq,
    vesselBytes_eq]

theorem arbiterBytes_eq {r : SectionRec} : arbiterBytes r = [codeIn arbiterStates r.arbiter] ++
    (r.op.map fun q => [byte (q.1.val + 1), codeIn opKinds q.2]).getD [0, 0] ++
    (r.requests.toList.map fun q => codeOrZero opKinds q) ++ [flag r.localPending] ++
    (r.lock.map fun l => [byte (l.holder.val + 1), codeIn lockSources l.source, byte l.timer]).getD [0, 0, 0] ++
    [(r.lastGranted.map fun n => byte (n.val + 1)).getD 0#8, byte (r.spacing.getD 0)] := by
  rw [← berthByte_eq]
  unfold arbiterBytes
  cases r.op <;> cases r.lock <;> rfl

theorem queuePlace_eq {r : SectionRec} {k : Nat} : queuePlace r s k =
    (r.queue[k]?.map fun b => [byte (b.val + 1), byte (s.berth b).bypass]).getD [0, 0] := by
  unfold queuePlace
  cases r.queue[k]? <;> rfl

theorem dynamic_eq {l : LineRec} : l.dynamic = codeIn levels l.level ::
    (l.stamp.map fun q => bytes3 q.1 ++ bytes2 q.2).getD [0, 0, 0, 0, 0] ++ bytes2 l.count := by
  rw [LineRec.dynamic, stampBytes_eq]

/-- Settles O41: the bodies, then the reads, table by table. -/
theorem tableReadShowsTheEntry : Obligations.TableReadShowsTheEntry := by
  unfold Obligations.TableReadShowsTheEntry
  intro flagged berthOr0 stamped lineBytes positionOf
  have hberth : ∀ o, berthByte o = berthOr0 o := fun _ => berthByte_eq
  have hline : ∀ l : LineRec, l.dynamic = lineBytes l := fun _ => dynamic_eq
  refine ⟨fun e => ?equip, fun g => ?gate, fun q => rfl, fun c => ?cable, fun a => rfl, fun b s => ?lines, fun n s => ?profiles, ?reads⟩
  case equip =>
    rw [← hberth]
    rfl
  case gate =>
    cases hst : g.states with
    | any => rw [GateEntry.body, hst]; rfl
    | of m => rw [GateEntry.body, hst, stateSetBytes_of]; rfl
  case cable =>
    rw [CableRec.body, hberth, coresByte_eq, coresByte_eq, coresByte_eq]
  case lines =>
    rw [linesBody, hline, hline, hline, hline]
    rfl
  case profiles =>
    rw [profilesBody]
    cases s.profiles[n] <;> rfl
  case reads =>
    intro f table i s h t shown
    have hread : ∀ {n : Nat} {k : Fin n → State → State} (hi : i < n), n ≤ 64 →
        readTable portSUP f t = readAt n portSUP f k t → exec (.tableRead portSUP) s = .next (k ⟨i, hi⟩ t) :=
      fun hi hn hk => (h.taken h.read_row).trans (congrArg _ (hk.trans (readAt_eq h.payload hi hn)))
    have hshown : ∀ {n : Nat} {entry : Fin n → State → List Byte} {l : List Byte} (hi : i < n), n ≤ 64 →
        readTable portSUP f t = readAt n portSUP f (fun n s => replyEntry portSUP f (entry n s) s) t →
        entry ⟨i, hi⟩ t = l → shown l := fun hi hn hk hl => hl ▸ hread hi hn hk
    refine ⟨?_, ?_, ?_, ?_, ?_, ?_, ?_, ?_, ?_, ?_⟩
    · rintro rfl hi
      exact hshown hi (by decide) (by rw [readTable, h.payload]; rfl) rfl
    · rintro rfl hi
      refine hshown hi (by decide) (by rw [readTable, h.payload]; rfl) ?_
      simp only [equipmentEntry, equipmentBody, positionBytes_eq, Fin.getElem_fin]
      cases t.equipment[i] <;> rfl
    · rintro rfl hi
      exact hshown hi (by decide) (by rw [readTable, h.payload]; rfl) rfl
    · rintro rfl hi
      exact hshown hi (by decide) (by rw [readTable, h.payload]; rfl) rfl
    · rintro rfl hi
      exact hshown hi (by decide) (by rw [readTable, h.payload]; rfl) rfl
    · rintro rfl rfl
      exact hshown (n := 1) (by decide) (by decide) (by rw [readTable, h.payload]; rfl) rfl
    · rintro rfl hi
      exact hshown hi (by decide) (by rw [readTable, h.payload]; rfl) rfl
    · rintro rfl rfl
      exact hshown (n := 1) (by decide) (by decide) (by rw [readTable, h.payload]; rfl) rfl
    · rintro rfl hi
      intro b r vesselOr0 record terms c channel o observed place lastNight entry
      have hrecord : recordBytes r = record := recordBytes_eq
      have hterms : termsBytes r = terms := termsBytes_eq
      have hchannel : rampBytes r.ramp = channel := rampBytes_eq
      have hobserved : observedBytes b t = observed := observedBytes_eq
      have hplace : ∀ n, heldBytes r.holdQueue[n]? = place n := fun _ => heldBytes_eq
      have hlast : lastNightBytes r.lastNight = lastNight := lastNightBytes_eq
      have hentry : berthsEntry b t = entry := by
        have hb : berthsEntry b t = recordBytes r ++ termsBytes r ++ rampBytes r.ramp ++ [coresByte r.comparison] ++
          observedBytes b t ++ heldBytes r.holdQueue[0]? ++ heldBytes r.holdQueue[1]? ++ lastNightBytes r.lastNight := rfl
        rw [hb, hrecord, hterms, hchannel, coresByte_eq, hobserved, hplace, hplace, hlast]
      have hlen : entry.length = 126 := hentry ▸ length_berthsEntry
      refine ⟨hlen, (hread (n := 8) hi (by decide) (by rw [readTable, h.payload]; rfl)).trans (congrArg _ ?_)⟩
      rw [← replySeries_of_three hlen, ← hentry]
    · rintro rfl hi
      intro r place reported bay arbiter entry
      have hsec : t.sec (sectionAt ⟨i, hi⟩) = r := by
        simp [sectionAt, r, Fin.ext_iff]
      have harbiter : arbiterBytes r = arbiter := arbiterBytes_eq
      have hplace : queuePlace r t = place := funext fun _ => queuePlace_eq
      have hreported : ∀ k, converterBytes (t.bay k).report = reported k := fun _ => converterBytes_eq
      have hentry : sectionsEntry ⟨i, hi⟩ t = entry := by
        have hb : sectionsEntry ⟨i, hi⟩ t = [byte r.limit, byte r.bypassLimit, codeIn priorityModes r.mode] ++ bytes2 r.granted ++
            [flag r.overFlag, codeIn feederStates r.feeder] ++ [0, 1, 2, 3, 4, 5, 6, 7].flatMap (queuePlace r t) ++ arbiterBytes r ++
            [codeOrZero syncOutcomes r.syncResult] ++ [codeIn bayStates (t.bay .bay1).state, berthByte (t.bay .bay1).berth,
              codeIn bayStates (t.bay .bay2).state, berthByte (t.bay .bay2).berth, codeIn sectionIds t.bayTurn] ++
            converterBytes (t.bay .bay1).report ++ converterBytes (t.bay .bay2).report := by
          rw [← hsec]
          rfl
        have hbays : [codeIn bayStates (t.bay .bay1).state, berthByte (t.bay .bay1).berth, codeIn bayStates (t.bay .bay2).state,
            berthByte (t.bay .bay2).berth, codeIn sectionIds t.bayTurn] = bay .bay1 ++ bay .bay2 ++ [codeIn sectionIds t.bayTurn] := by
          rw [hberth, hberth]
          rfl
        rw [hb, harbiter, hplace, hbays, hreported, hreported]
        simp only [entry, List.append_assoc]
        rfl
      have hlen : entry.length = 52 := hentry ▸ length_sectionsEntry
      refine ⟨hlen, (hread (n := 2) hi (by decide) (by rw [readTable, h.payload]; rfl)).trans (congrArg _ ?_)⟩
      rw [← replySeries_of_two hlen, ← hentry]

end Sys2Proof.Machine
end

-- ==== The ledger of berths and arbiters ====
section
/-! PROOFS. What the arbiters, the admission queues and the bays hold of each berth, read off the state as a ledger, and
what it is for that ledger to be sound but for some berths. An event makes the berth it acts on unsound for a while; the
arbiters' choices and the service passes that run meanwhile keep all the others sound (R65 to R73, R81 to R99). -/

namespace Sys2Proof.Machine

/-! ## The ledger -/

/-- What the invariants read of a berth's record. -/
structure BerthPart where
  state : BerthState
  sec : SectionId
  flying : Option InFlightKind
  stopped : Bool
  pause : Option PauseRole
  grant : Nat
  bay : Option BayId

/-- What the invariants read of a section's record. -/
structure SecPart where
  queue : List BerthId
  busy : Bool
  op : Option (BerthId × OpKind)
  requests : BerthId → Option OpKind
  holder : Option BerthId
  granted : Nat

/-- What the invariants read of the state. -/
structure Ledger where
  berth : BerthId → BerthPart
  sec : SectionId → SecPart
  bay : BayId → BayState × Option BerthId
  starts : List BerthId

/-- A berth's entry in the ledger: a ramp is stopped when its channel is masked or at terminal count. -/
def Berth.part (r : Berth) : BerthPart where
  state := r.state
  sec := r.sec
  flying := r.inFlight.map (·.kind)
  stopped := r.ramp.masked || r.ramp.terminal
  pause := r.ramp.pauseTimer.map (·.1)
  grant := r.grant
  bay := r.bay

/-- A section's entry in the ledger. -/
def SectionRec.part (r : SectionRec) : SecPart where
  queue := r.queue
  busy := r.arbiter == .partBusy
  op := r.op
  requests b := r.requests[b]
  holder := r.lock.map (·.holder)
  granted := r.granted

def State.ledger (s : State) : Ledger where
  berth b := (s.berth b).part
  sec x := (s.sec x).part
  bay k := ((s.bay k).state, (s.bay k).berth)
  starts := s.startQueue

/-- What the ledger holds of one berth: its own entry, and what its section's arbiter, its section's queue, the queue of
starts and its bay hold of it. -/
structure View where
  state : BerthState
  flying : Option InFlightKind
  stopped : Bool
  pause : Option PauseRole
  grant : Nat
  bay : Option BayId
  asks : Option OpKind
  runs : Option OpKind
  locks : Bool
  starts : Bool
  queued : Bool
  faulty : Bool

/-- The operation in flight, where it is the berth's. -/
def SecPart.opFor (r : SecPart) (b : BerthId) : Option OpKind :=
  match r.op with
  | some (c, k) => if c = b then some k else none
  | none => none

def Ledger.view (l : Ledger) (b : BerthId) : View where
  state := (l.berth b).state
  flying := (l.berth b).flying
  stopped := (l.berth b).stopped
  pause := (l.berth b).pause
  grant := (l.berth b).grant
  bay := (l.berth b).bay
  asks := (l.sec (l.berth b).sec).requests b
  runs := (l.sec (l.berth b).sec).opFor b
  locks := (l.sec (l.berth b).sec).holder == some b
  starts := l.starts.contains b
  queued := (l.sec (l.berth b).sec).queue.contains b
  faulty := (l.berth b).bay.any fun k => (l.bay k).1 != .granted

/-! ## Sound but for some berths -/

/-- The states in which a berth may have a request of a kind pending. -/
def View.mayAsk (v : View) : OpKind → Prop
  | .syncClose | .deadClose => v.state = .admitted
  | .step => v.state = .rampIn ∨ v.state = .rampOut
  | .openOp => v.state = .onShore ∨ ((v.state = .rampIn ∨ v.state = .rampOut) ∧ v.stopped = true ∧ v.pause = none)

/-- What holds of every berth where a choice or a pass may run: what is held of the berth agrees with its state. `g` says
whether the grants are looked at as well. -/
structure View.Fits (g : Prop) (v : View) : Prop where
  lock : v.locks = true → v.state = .closing ∨ v.state = .rampIn ∨ v.state = .rampOut
  request : ∀ k, v.asks = some k → v.mayAsk k
  op : ∀ k, v.runs = some k → v.asks = none ∧ v.flying = some k.flight
  closing : v.runs = some .syncClose ∨ v.runs = some .deadClose → v.state = .closing
  opening : v.runs = some .openOp → v.state = .opening
  stepping : v.runs = some .step → v.state = .rampIn ∨ v.state = .rampOut
  started : v.flying = some .converterStart ∨ v.flying = some .deadWait → v.state = .admitted
  shaking : v.flying = some .holdHandshake → v.state = .admitted ∨ (v.state = .rampOut ∧ v.asks = none)
  starts : v.starts = true → v.state = .admitted
  queued : v.queued = true ↔ v.state = .queued
  waiting : g → v.state = .queued → v.grant = 0 ∧ v.bay = none

/-- What holds of every berth between events besides: the berth's state, its pause-limit timer, its grant and its bay agree
with what is held of it. -/
structure View.Settled (g : Prop) (v : View) : Prop where
  closing : v.state = .closing → v.runs = some .syncClose ∨ v.runs = some .deadClose
  opening : v.state = .opening → v.runs = some .openOp
  grantWait : v.pause = some .grantWait → v.asks = some .step
  capacity : g → v.state.holdsCapacity = false → v.grant = 0 ∧ v.bay = none
  whole : g → v.faulty = false

/-- What holds of the arbiters, the queues, the sums and the bays whatever berth is being acted on. -/
structure Ledger.Frame (g : Prop) (l : Ledger) : Prop where
  arbitrated : ∀ x, (l.sec x).busy = true ↔ (l.sec x).op.isSome = true
  own : ∀ x b, (l.berth b).sec ≠ x → (l.sec x).requests b = none ∧ (l.sec x).op.map (·.1) ≠ some b ∧
    (l.sec x).holder ≠ some b ∧ b ∉ (l.sec x).queue
  queues : ∀ x, (l.sec x).queue.Nodup
  starts : l.starts.Nodup
  sums : g → ∀ x, (l.sec x).granted =
    ((List.finRange 8).map fun b => if (l.berth b).sec = x then (l.berth b).grant else 0).sum
  granted : g → ∀ k, (l.bay k).1 = .granted → (l.bay k).2 ≠ none
  free : g → ∀ k, (l.bay k).1 = .free → (l.bay k).2 = none
  named : g → ∀ k b, (l.bay k).2 = some b ↔ (l.berth b).bay = some k

/-- The ledger is sound, but that the berths of `e` need not be settled. -/
structure Ledger.Sound (g : Prop) (e : BerthId → Prop) (l : Ledger) : Prop where
  frame : l.Frame g
  fits : ∀ b, (l.view b).Fits g
  settled : ∀ b, ¬e b → (l.view b).Settled g

/-- The state's ledger is sound but for the berths of `e`. -/
abbrev Sound (g : Prop) (e : BerthId → Prop) (s : State) : Prop := s.ledger.Sound g e

/-- The berths of `e`, and `b`. -/
def orAt (b : BerthId) (e : BerthId → Prop) (c : BerthId) : Prop := c = b ∨ e c

/-- The ledger is sound but for `b`, of which it holds the view `v`, and but that the berths of `e` need not be
settled. -/
structure Ledger.At (g : Prop) (e : BerthId → Prop) (b : BerthId) (v : View) (l : Ledger) : Prop where
  frame : l.Frame g
  fits : ∀ c, c ≠ b → (l.view c).Fits g
  settled : ∀ c, c ≠ b → ¬e c → (l.view c).Settled g
  view : l.view b = v

/-- The state's ledger is sound but for `b`, of which it holds the view `v`, and the berths of `e`. -/
abbrev SoundAt (g : Prop) (e : BerthId → Prop) (b : BerthId) (v : View) (s : State) : Prop := s.ledger.At g e b v

variable {g : Prop} {e : BerthId → Prop} {b c : BerthId} {v w : View} {s t : State} {l m : Ledger} {x : SectionId}

theorem Sound.at (h : Sound g e s) (b : BerthId) : SoundAt g e b (s.ledger.view b) s :=
  ⟨h.frame, fun c _ => h.fits c, fun c _ => h.settled c, rfl⟩

/-- A berth that need not be settled need not be while it is the one acted on. -/
theorem Sound.atBut (h : Sound g (orAt b e) s) : SoundAt g e b (s.ledger.view b) s :=
  ⟨h.frame, fun c _ => h.fits c, fun c hc he => h.settled c (not_or.mpr ⟨hc, he⟩), rfl⟩

theorem SoundAt.sound (h : SoundAt g e b v s) (hf : v.Fits g) (hs : ¬e b → v.Settled g) : Sound g e s := by
  refine ⟨h.frame, fun c => ?_, fun c he => ?_⟩ <;> by_cases hc : c = b
  · rw [hc, h.view]; exact hf
  · exact h.fits c hc
  · subst hc; rw [h.view]; exact hs he
  · exact h.settled c hc he

theorem SoundAt.soundBut (h : SoundAt g e b v s) (hf : v.Fits g) : Sound g (orAt b e) s := by
  refine ⟨h.frame, fun c => ?_, fun c he => h.settled c (fun hc => he (.inl hc)) fun hc => he (.inr hc)⟩
  by_cases hc : c = b
  · rw [hc, h.view]; exact hf
  · exact h.fits c hc

/-- A change that touches nothing held of another berth. -/
theorem Ledger.At.change (h : l.At g e b v) (hf : m.Frame g) (ho : ∀ c, c ≠ b → m.view c = l.view c)
    (hv : m.view b = w) : m.At g e b w :=
  ⟨hf, fun c hc => (ho c hc).symm ▸ h.fits c hc, fun c hc he => (ho c hc).symm ▸ h.settled c hc he, hv⟩

theorem SoundAt.of_ledger (h : SoundAt g e b v s) (hl : t.ledger = s.ledger) : SoundAt g e b v t := by
  rw [SoundAt, hl]; exact h

theorem Sound.of_ledger (h : Sound g e s) (hl : t.ledger = s.ledger) : Sound g e t := by rw [Sound, hl]; exact h

/-! ## The ledger and the invariants of the state -/

theorem opFor_part : (s.sec (s.secOf b)).part.opFor b = s.opOf b := rfl

theorem view_asks : (s.ledger.view b).asks = s.request b := rfl
theorem view_runs : (s.ledger.view b).runs = s.opOf b := rfl
theorem view_flying : (s.ledger.view b).flying = s.flying b := rfl
theorem view_state : (s.ledger.view b).state = (s.berth b).state := rfl
theorem view_grant : (s.ledger.view b).grant = (s.berth b).grant := rfl
theorem view_locks : (s.ledger.view b).locks = s.holdsLock b := rfl

theorem view_mayAsk {k : OpKind} : (s.ledger.view b).mayAsk k ↔ (s.berth b).mayAsk k := by
  cases k <;> simp [View.mayAsk, Berth.mayAsk, Ledger.view, State.ledger, Berth.part]

theorem view_pause {r : PauseRole} : (s.ledger.view b).pause = some r ↔ ∃ n, (s.berth b).ramp.pauseTimer = some (r, n) := by
  simp only [Ledger.view, State.ledger, Berth.part, Option.map_eq_some_iff, Prod.exists]
  exact ⟨fun ⟨_, n, h, e⟩ => ⟨n, e ▸ h⟩, fun ⟨n, h⟩ => ⟨r, n, h, rfl⟩⟩

theorem view_queued : (s.ledger.view b).queued = true ↔ b ∈ (s.sec (s.secOf b)).queue := by
  simp [Ledger.view, State.ledger, Berth.part, SectionRec.part, State.secOf]

theorem view_starts : (s.ledger.view b).starts = true ↔ b ∈ s.startQueue := by simp [Ledger.view, State.ledger]

/-- Between events the ledger of a state whose arbiters, grants and bays agree with the berths is sound. -/
theorem sound_of_invariants (ha : s.arbitersSound) (hg : g → s.grantsAgree ∧ s.baysAgree) :
    Sound g (fun _ => False) s where
  frame := {
    arbitrated := fun x => by simpa [State.ledger, SectionRec.part, SectionRec.arbitrated] using ha.arbitrated x
    own := fun x b hb => by
      obtain ⟨hr, ho, hl⟩ := ha.own x b hb
      exact ⟨hr, ho, hl, fun hq => hb (((ha.queues x).2 b).mp hq).1⟩
    queues := fun x => (ha.queues x).1
    starts := ha.starts.1
    sums := fun h x => (hg h).1.1 x
    granted := fun h k hk => (((hg h).2 k).1).mp hk
    free := fun h k hk => by
      by_contra hn
      have := (((hg h).2 k).1).mpr hn
      simp [State.ledger, this] at hk
    named := fun h k b => ((hg h).2 k).2 b }
  fits := fun b => {
    lock := fun h => by
      rw [view_locks, holdsLock_iff, Option.map_eq_some_iff] at h
      obtain ⟨l, hl, rfl⟩ := h
      exact ha.lock _ l hl
    request := fun k h => view_mayAsk.mpr (ha.request b k h)
    op := fun k h => ha.op b k h
    closing := fun h => (ha.closing b).mpr h
    opening := fun h => (ha.opening b).mpr h
    stepping := fun h => ha.stepping b h
    started := fun h => ha.started b h
    shaking := fun h => ha.shaking b h
    starts := fun h => ha.starts.2 b (view_starts.mp h)
    queued := by
      rw [view_queued, (ha.queues _).2 b]
      exact and_iff_right rfl
    waiting := fun h hq => (hg h).1.2 b (by rw [← view_state, hq]; rfl) }
  settled := fun b _ => {
    closing := fun h => (ha.closing b).mp h
    opening := fun h => (ha.opening b).mp h
    grantWait := fun h => by
      obtain ⟨n, hn⟩ := view_pause.mp h
      exact ha.grantWait b n hn
    capacity := fun h hc => (hg h).1.2 b hc
    whole := fun h => by
      simp only [Ledger.view, State.ledger, Berth.part, Option.any_eq_false, bne_eq_false_iff_eq]
      intro k hk
      have hn : (s.bay k).berth = some b := (((hg h).2 k).2 b).mpr hk
      exact (((hg h).2 k).1).mpr (by simp [hn]) }

theorem arbitersSound_of_sound (h : Sound g (fun _ => False) s) : s.arbitersSound where
  arbitrated := fun x => by simpa [State.ledger, SectionRec.part, SectionRec.arbitrated] using h.frame.arbitrated x
  own := fun x b hb => by
    obtain ⟨hr, ho, hl, -⟩ := h.frame.own x b hb
    exact ⟨hr, ho, hl⟩
  lock := fun x l hl => by
    have hx : s.secOf l.holder = x := by
      by_contra hn
      exact (h.frame.own x l.holder hn).2.2.1 (by simp [State.ledger, SectionRec.part, hl])
    exact (h.fits l.holder).lock (by rw [view_locks, holdsLock_iff, hx, hl]; rfl)
  request := fun b k hk => view_mayAsk.mp ((h.fits b).request k hk)
  op := fun b k hk => (h.fits b).op k hk
  closing := fun b => ⟨(h.settled b id).closing, (h.fits b).closing⟩
  opening := fun b => ⟨(h.settled b id).opening, (h.fits b).opening⟩
  stepping := fun b => (h.fits b).stepping
  started := fun b => (h.fits b).started
  shaking := fun b => (h.fits b).shaking
  grantWait := fun b n hn => (h.settled b id).grantWait (view_pause.mpr ⟨n, hn⟩)
  starts := ⟨h.frame.starts, fun b hb => (h.fits b).starts (view_starts.mpr hb)⟩
  queues := fun x => by
    refine ⟨h.frame.queues x, fun b => ?_⟩
    by_cases hx : s.secOf b = x
    · subst hx
      rw [← view_queued, (h.fits b).queued]
      exact (and_iff_right rfl).symm
    · exact ⟨fun hq => absurd hq (h.frame.own x b hx).2.2.2, fun hq => absurd hq.1 hx⟩

theorem agree_of_sound (h : Sound g (fun _ => False) s) (hg : g) : s.grantsAgree ∧ s.baysAgree := by
  refine ⟨⟨h.frame.sums hg, fun b hb => (h.settled b id).capacity hg hb⟩, fun k => ⟨⟨h.frame.granted hg k, ?_⟩,
    h.frame.named hg k⟩⟩
  intro hn
  obtain ⟨b, hb⟩ := Option.ne_none_iff_exists'.mp hn
  have hw := (h.settled b id).whole hg
  simp only [Ledger.view, Option.any_eq_false, bne_eq_false_iff_eq] at hw
  exact hw k ((h.frame.named hg k b).mp hb)

end Sys2Proof.Machine
end

-- ==== What leaves the ledger as it is ====
section
/-! PROOFS. Frames sent, notices, cable records, lines, settings and the fields of the records that no arbiter, queue or
bay speaks of leave the ledger of berths and arbiters as it is. -/

namespace Sys2Proof.Machine

variable {s t : State} {b c : BerthId} {x : SectionId} {p q : Port} {f : Frame}

theorem ledger_congr (hb : ∀ b, (t.berth b).part = (s.berth b).part) (hx : ∀ x, (t.sec x).part = (s.sec x).part)
    (hk : ∀ k, (t.bay k).state = (s.bay k).state ∧ (t.bay k).berth = (s.bay k).berth)
    (hq : t.startQueue = s.startQueue) : t.ledger = s.ledger := by
  simp only [State.ledger, Ledger.mk.injEq]
  exact ⟨funext hb, funext hx, funext fun k => by rw [(hk k).1, (hk k).2], hq⟩

theorem ledger_updBerth {f : Berth → Berth} (h : (f (s.berth b)).part = (s.berth b).part) :
    (updBerth b f s).ledger = s.ledger := by
  refine ledger_congr (fun c => ?_) (fun _ => rfl) (fun _ => ⟨rfl, rfl⟩) rfl
  rw [updBerth_berth]
  split
  next hc => rw [hc, h]
  next => rfl

theorem ledger_updSec {f : SectionRec → SectionRec} (h : (f (s.sec x)).part = (s.sec x).part) :
    (updSec x f s).ledger = s.ledger := by
  refine ledger_congr (fun c => by rw [updSec_berth]) (fun y => ?_) (fun _ => by simp) (by simp)
  rw [updSec_sec]
  split
  next hy => rw [hy, h]
  next => rfl

theorem ledger_updBay {k : BayId} {f : BayRec → BayRec} (hs : (f (s.bay k)).state = (s.bay k).state)
    (hb : (f (s.bay k)).berth = (s.bay k).berth) : (updBay k f s).ledger = s.ledger := by
  refine ledger_congr (fun c => by rw [updBay_berth]) (fun y => by rw [updBay_sec]) (fun j => ?_) (by simp)
  by_cases hj : j = k
  · subst hj; rw [updBay_bay_same]; exact ⟨hs, hb⟩
  · rw [updBay_bay_ne hj]; exact ⟨rfl, rfl⟩

theorem ledger_of_sent (h : Sent s t) : t.ledger = s.ledger := by
  rw [h]
  exact ledger_congr (fun _ => rfl) (fun x => by cases x <;> rfl) (fun k => by cases k <;> exact ⟨rfl, rfl⟩) rfl

theorem ledger_updPort {f : PortRec → PortRec} : (updPort p f s).ledger = s.ledger := ledger_of_sent rfl

theorem ledger_updLine {f : BerthLines → BerthLines} : (updLine b f s).ledger = s.ledger :=
  ledger_congr (fun _ => rfl) (fun _ => by rw [updLine_sec]) (fun _ => ⟨rfl, rfl⟩) rfl

theorem ledger_callPass : (callPass x s).ledger = s.ledger :=
  ledger_congr (fun _ => by rw [callPass_berth]) (fun _ => by rw [callPass_sec]) (fun _ => by simp) (by simp)

theorem ledger_joinNotices {n : NoticeRec} : (joinNotices n s).ledger = s.ledger := by
  unfold joinNotices
  split <;>
    exact ledger_congr (fun _ => rfl) (fun x => by cases x <;> rfl) (fun k => by cases k <;> exact ⟨rfl, rfl⟩) rfl

theorem ledger_noticeBerth {k : NoticeKind} {d : List Byte} : (noticeBerth b k d s).ledger = s.ledger := by
  unfold noticeBerth
  dsimp only
  split
  · exact ledger_joinNotices
  · split
    · exact ledger_joinNotices.trans (ledger_updBerth rfl)
    · split
      · rfl
      · exact ledger_joinNotices.trans (ledger_updBerth rfl)

theorem ledger_noticeSection {k : NoticeKind} {d : List Byte} : (noticeSection x k d s).ledger = s.ledger :=
  ledger_joinNotices

theorem ledger_noticePlain {k : NoticeKind} {d : List Byte} : (noticePlain k d s).ledger = s.ledger := ledger_joinNotices

theorem ledger_send {e : Option EquipEntry} {k d : Byte} {l : List Byte} : (send e k d l s).1.ledger = s.ledger := by
  unfold send
  split
  · rfl
  · split
    · exact ledger_updPort
    · rfl

theorem ledger_sendReply : (sendReply p f s).ledger = s.ledger := ledger_of_sent sent_sendReply

theorem ledger_rejectForwarded : (rejectForwarded f p s).ledger = s.ledger := by
  unfold rejectForwarded
  split
  · rfl
  · exact ledger_of_sent sent_refuse

theorem ledger_sendTripOpen : (sendTripOpen b s).ledger = s.ledger := by
  unfold sendTripOpen
  split
  · rfl
  · dsimp only
    split
    · exact ledger_updPort
    · split
      · rfl
      · exact ledger_rejectForwarded.trans (ledger_updPort.trans ledger_updPort)

theorem ledger_sendHoldEnd : (sendHoldEnd b s).ledger = s.ledger := ledger_send

theorem ledger_endHold : (endHold b s).ledger = s.ledger := by
  unfold endHold
  split
  · exact (ledger_updBerth rfl).trans ledger_sendHoldEnd
  · rfl

theorem ledger_reJudgeAll {l : List HeldFrame} : (reJudgeAll b l s).2.ledger = s.ledger := by
  induction l generalizing s with
  | nil => rfl
  | cons h l ih => exact ih.trans (ledger_of_sent reJudge_sent)

theorem ledger_reevaluate : (reevaluate b s).ledger = s.ledger :=
  (ledger_updBerth rfl).trans ledger_reJudgeAll

theorem ledger_refuseHeld {r : Reason} : (refuseHeld r b s).ledger = s.ledger := by
  have hall : ∀ (l : List HeldFrame) {u : State},
      (l.foldl (fun t h => refuse r h.frame h.arrival t) u).ledger = u.ledger := by
    intro l
    induction l with
    | nil => exact rfl
    | cons h l ih => exact ih.trans (ledger_of_sent sent_refuse)
  exact (ledger_updBerth rfl).trans (hall _)

theorem ledger_lowerOver : (lowerOver x s).ledger = s.ledger := ledger_updSec (by split <;> rfl)

theorem ledger_raiseOver : (raiseOver x s).ledger = s.ledger := by
  unfold raiseOver
  split
  · exact ledger_noticeSection.trans (ledger_updSec rfl)
  · rfl

theorem ledger_startSpacing : (startSpacing x s).ledger = s.ledger := ledger_updSec rfl

theorem ledger_updCable {n : Fin 32} {f : CableRec → CableRec} : (updCable n f s).ledger = s.ledger :=
  ledger_congr (fun _ => rfl) (fun _ => by rw [updCable_sec]) (fun _ => ⟨rfl, rfl⟩) rfl

theorem ledger_cables {l : Vector (Option CableRec) 32} : ({ s with cables := l } : State).ledger = s.ledger :=
  ledger_congr (fun _ => rfl) (fun x => by cases x <;> rfl) (fun k => by cases k <;> exact ⟨rfl, rfl⟩) rfl

theorem ledger_unlinkCable : (unlinkCable b s).ledger = s.ledger := ledger_cables

theorem ledger_foldReport {n : Fin 32} {r : CoreTestReport} : (foldReport b n r s).ledger = s.ledger :=
  (ledger_updBerth rfl).trans ledger_updCable

theorem ledger_selectRecord {n : Num32} : (selectRecord n s).2.ledger = s.ledger := by
  unfold selectRecord
  split
  · rfl
  · split
    · exact ledger_cables
    · rfl

theorem ledger_bumpAhead {l : List BerthId} : (bumpAhead l s).ledger = s.ledger := by
  unfold bumpAhead
  induction l generalizing s with
  | nil => rfl
  | cons a l ih => exact ih.trans (ledger_updBerth rfl)

theorem ledger_observe {h : BerthObserved → BerthObserved} : (observe b h s).ledger = s.ledger := ledger_updBerth rfl

theorem ledger_gateDecide {e d : EquipEntry} : (gateDecide f p e d s).ledger = s.ledger := by
  have hj : ∀ {sc dc o}, (gateJudge f sc dc o s).2.ledger = s.ledger := ledger_of_sent gateJudge_sent
  unfold gateDecide
  split <;> rename_i v <;> have hl := (congrArg (·.2.ledger) v).symm.trans hj
  · exact (ledger_of_sent sent_refuse).trans hl
  · exact (ledger_of_sent sent_forward).trans hl
  · refine Eq.trans ?_ hl
    unfold holdFrame
    split
    · exact ledger_of_sent sent_refuse
    · split
      · exact ledger_of_sent sent_refuse
      · split
        · exact ledger_of_sent sent_refuse
        · exact ledger_updBerth rfl
  · exact hl

theorem ledger_forBerths {f : BerthId → State → State} (h : ∀ b s, (f b s).ledger = s.ledger) :
    (forBerths f s).ledger = s.ledger := by
  unfold forBerths
  induction allBerths generalizing s with
  | nil => rfl
  | cons a l ih => exact ih.trans (h a s)

end Sys2Proof.Machine
end

-- ==== One berth in the ledger ====
section
/-! PROOFS. What each shared step of an event at one berth does to what the ledger holds of that berth, the other berths
being left sound: one rule per step. -/

namespace Sys2Proof.Machine

variable {g : Prop} {e : BerthId → Prop} {b c : BerthId} {v w : View} {s t : State} {l m : Ledger} {x y : SectionId}

/-! ## Frames and views -/

theorem Ledger.view_congr (hb : m.berth c = l.berth c) (hx : m.sec (l.berth c).sec = l.sec (l.berth c).sec)
    (hk : m.bay = l.bay) (hq : m.starts = l.starts) : m.view c = l.view c := by
  simp only [Ledger.view, hb, hx, hk, hq]

/-- A frame whose berths keep their sections, grants and bays. -/
theorem Ledger.Frame.berths (h : l.Frame g) (hb : ∀ c, (m.berth c).sec = (l.berth c).sec ∧
    (g → (m.berth c).grant = (l.berth c).grant ∧ (m.berth c).bay = (l.berth c).bay)) (hx : m.sec = l.sec) (hk : m.bay = l.bay)
    (hq : m.starts = l.starts) : m.Frame g where
  arbitrated := by rw [hx]; exact h.arbitrated
  own := fun x c hc => by rw [hx]; exact h.own x c (by rw [← (hb c).1]; exact hc)
  queues := by rw [hx]; exact h.queues
  starts := by rw [hq]; exact h.starts
  sums := fun hg x => by
    rw [hx, h.sums hg x]
    exact congrArg List.sum (List.map_congr_left fun c _ => by rw [(hb c).1, ((hb c).2 hg).1])
  granted := by rw [hk]; exact h.granted
  free := by rw [hk]; exact h.free
  named := fun hg k c => by rw [hk, ((hb c).2 hg).2]; exact h.named hg k c

theorem SecPart.opFor_eq_some {r : SecPart} {k : OpKind} : r.opFor b = some k ↔ r.op = some (b, k) := by
  unfold SecPart.opFor
  split
  next c k' h => rw [h]; simp only [Option.some.injEq, Prod.mk.injEq]; split <;> simp_all
  next h => simp [h]

theorem SecPart.opFor_eq_none {r : SecPart} : r.opFor b = none ↔ r.op.map (·.1) ≠ some b := by
  unfold SecPart.opFor
  split
  next c k' h => rw [h]; simp
  next h => simp [h]

/-! ## The berth's record -/

/-- A change of the berth's record that keeps its section, and its grant and bay where these are looked at. -/
theorem SoundAt.berthReset (h : SoundAt g e b v s) {f : Berth → Berth} (hsec : (f (s.berth b)).sec = (s.berth b).sec)
    (hcap : g → (f (s.berth b)).grant = (s.berth b).grant ∧ (f (s.berth b)).bay = (s.berth b).bay) :
    SoundAt g e b { v with
      state := (f (s.berth b)).state
      flying := (f (s.berth b)).part.flying
      stopped := (f (s.berth b)).part.stopped
      pause := (f (s.berth b)).part.pause
      grant := (f (s.berth b)).grant
      bay := (f (s.berth b)).bay
      faulty := (f (s.berth b)).bay.any fun k => (s.bay k).state != .granted } (updBerth b f s) := by
  refine h.change (h.frame.berths (fun c => ?_) rfl rfl rfl) (fun c hc => ?_) ?_
  · simp only [State.ledger, updBerth_berth, Berth.part]
    split
    next hc => subst hc; exact ⟨hsec, hcap⟩
    next => exact ⟨rfl, fun _ => ⟨rfl, rfl⟩⟩
  · refine Ledger.view_congr ?_ rfl rfl rfl
    simp only [State.ledger, updBerth_berth_ne hc]
  · rw [← h.view]
    simp only [Ledger.view, State.ledger, updBerth_berth_same, Berth.part, hsec]
    rfl

/-- A change of the berth's record that keeps its section, grant and bay. -/
theorem SoundAt.berthChanged (h : SoundAt g e b v s) {f : Berth → Berth} (hsec : (f (s.berth b)).sec = (s.berth b).sec)
    (hg : (f (s.berth b)).grant = (s.berth b).grant) (hk : (f (s.berth b)).bay = (s.berth b).bay) :
    SoundAt g e b { v with
      state := (f (s.berth b)).state
      flying := (f (s.berth b)).part.flying
      stopped := (f (s.berth b)).part.stopped
      pause := (f (s.berth b)).part.pause } (updBerth b f s) := by
  have hu := h.berthReset hsec fun _ => ⟨hg, hk⟩
  rw [hg, hk, ← h.view] at hu
  rw [← h.view]
  exact hu

theorem SoundAt.clearInFlight (h : SoundAt g e b v s) : SoundAt g e b { v with flying := none } (clearInFlight b s) := by
  have hu := h.berthChanged (f := fun r => { r with inFlight := none }) rfl rfl rfl
  rw [← h.view] at hu ⊢
  exact hu

theorem SoundAt.startInFlight (h : SoundAt g e b v s) {k : InFlightKind} {n : Nat} :
    SoundAt g e b { v with flying := some k } (startInFlight b k n s) := by
  have hu := h.berthChanged (f := fun r => { r with inFlight := some ⟨k, s.clock.time, n⟩ }) rfl rfl rfl
  rw [← h.view] at hu ⊢
  exact hu

theorem SoundAt.updRamp (h : SoundAt g e b v s) {f : Ramp → Ramp} : SoundAt g e b { v with
    stopped := (f (s.berth b).ramp).masked || (f (s.berth b).ramp).terminal
    pause := (f (s.berth b).ramp).pauseTimer.map (·.1) } (updRamp b f s) := by
  have hu := h.berthChanged (f := fun r => { r with ramp := f r.ramp }) rfl rfl rfl
  rw [← h.view] at hu ⊢
  exact hu

theorem SoundAt.maskRamp (h : SoundAt g e b v s) : SoundAt g e b { v with stopped := true, pause := none } (maskRamp b s) :=
  h.updRamp (f := fun r => { r with masked := true, pauseTimer := none })

/-! ## The berth's section -/

/-- A change of the section of the berth that keeps what it holds of every other berth. -/
theorem SoundAt.secChanged (h : SoundAt g e b v s) (hx : s.secOf b = x) {f : SectionRec → SectionRec} {r r' : SecPart}
    (hr : (s.sec x).part = r) (hr' : (f (s.sec x)).part = r') (harb : r'.busy = true ↔ r'.op.isSome = true)
    (hq : r'.queue.Nodup) (hg : r'.granted = r.granted)
    (ho : ∀ c, c ≠ b → r'.requests c = r.requests c ∧ r'.opFor c = r.opFor c ∧
      (r'.holder = some c ↔ r.holder = some c) ∧ (c ∈ r'.queue ↔ c ∈ r.queue)) :
    SoundAt g e b { v with
      asks := r'.requests b
      runs := r'.opFor b
      locks := r'.holder == some b
      queued := r'.queue.contains b } (updSec x f s) := by
  have hsec : ∀ y, (updSec x f s).ledger.sec y = if y = x then r' else s.ledger.sec y := fun y => by
    simp only [State.ledger, updSec_sec]
    split
    · exact hr'
    · rfl
  have hx' : s.ledger.sec x = r := hr
  have hbx : (s.ledger.berth b).sec = x := hx
  have hbay : (updSec x f s).ledger.bay = s.ledger.bay := by simp [State.ledger]
  have hberth : (updSec x f s).ledger.berth = s.ledger.berth := by simp [State.ledger]
  have hst : (updSec x f s).ledger.starts = s.ledger.starts := by simp [State.ledger]
  refine h.change ⟨fun y => ?_, fun y c hc => ?_, fun y => ?_, ?_, fun hgr y => ?_, ?_, ?_, ?_⟩ (fun c hc => ?_) ?_
  · rw [hsec]; split <;> [exact harb; exact h.frame.arbitrated y]
  · rw [hberth] at hc
    rw [hsec]
    split
    next hy =>
      obtain ⟨h1, h2, h3, h4⟩ := ho c fun hcb => hc (by rw [hcb, hbx, hy])
      obtain ⟨k1, k2, k3, k4⟩ := h.frame.own y c hc
      rw [hy, hx'] at k1 k2 k3 k4
      exact ⟨h1.trans k1, SecPart.opFor_eq_none.mp (h2.trans (SecPart.opFor_eq_none.mpr k2)),
        fun h => k3 (h3.mp h), fun h => k4 (h4.mp h)⟩
    next => exact h.frame.own y c hc
  · rw [hsec]; split <;> [exact hq; exact h.frame.queues y]
  · rw [hst]; exact h.frame.starts
  · rw [hberth, ← h.frame.sums hgr y, hsec]
    split
    next hy => rw [hg, hy, hx']
    next => rfl
  · rw [hbay]; exact h.frame.granted
  · rw [hbay]; exact h.frame.free
  · rw [hbay, hberth]; exact h.frame.named
  · simp only [Ledger.view, hberth, hbay, hst, hsec]
    split
    next hy =>
      obtain ⟨h1, h2, h3, h4⟩ := ho c hc
      rw [hy, hx', h1, h2]
      congr 1
      · rw [Bool.eq_iff_iff]; simpa using h3
      · rw [Bool.eq_iff_iff]; simpa using h4
    next => rfl
  · rw [← h.view]
    simp only [Ledger.view, hberth, hbay, hst, hsec, hbx, if_true]

/-- What the ledger holds of the berth at its section. -/
theorem SoundAt.asks (h : SoundAt g e b v s) : s.request b = v.asks := by rw [← h.view]; rfl
theorem SoundAt.runs (h : SoundAt g e b v s) : s.opOf b = v.runs := by rw [← h.view]; rfl
theorem SoundAt.locks (h : SoundAt g e b v s) : s.holdsLock b = v.locks := by rw [← h.view]; rfl
theorem SoundAt.state (h : SoundAt g e b v s) : (s.berth b).state = v.state := by rw [← h.view]; rfl
theorem SoundAt.flying (h : SoundAt g e b v s) : s.flying b = v.flying := by rw [← h.view]; rfl
theorem SoundAt.bay (h : SoundAt g e b v s) : (s.berth b).bay = v.bay := by rw [← h.view]; rfl
theorem SoundAt.grant (h : SoundAt g e b v s) : (s.berth b).grant = v.grant := by rw [← h.view]; rfl
theorem SoundAt.queued (h : SoundAt g e b v s) : v.queued = true ↔ b ∈ (s.sec (s.secOf b)).queue := by
  rw [← h.view]; exact view_queued
theorem SoundAt.starts (h : SoundAt g e b v s) : v.starts = true ↔ b ∈ s.startQueue := by rw [← h.view]; exact view_starts
theorem SoundAt.stopped (h : SoundAt g e b v s) : ((s.berth b).ramp.masked || (s.berth b).ramp.terminal) = v.stopped := by
  rw [← h.view]; rfl
theorem SoundAt.pause (h : SoundAt g e b v s) : (s.berth b).ramp.pauseTimer.map (·.1) = v.pause := by rw [← h.view]; rfl

/-- A section that the berth is not of holds nothing of it. -/
theorem SoundAt.own (h : SoundAt g e b v s) (hx : s.secOf b ≠ x) : (s.sec x).requests[b] = none ∧
    (s.sec x).op.map (·.1) ≠ some b ∧ (s.sec x).lock.map (·.holder) ≠ some b ∧ b ∉ (s.sec x).queue :=
  h.frame.own x b hx

theorem requests_set {r : SectionRec} {k : Option OpKind} :
    (r.requests.set b k)[c] = if c = b then k else r.requests[c] := by
  simp only [Fin.getElem_fin, Vector.getElem_set]
  by_cases hc : c = b
  · simp [hc]
  · have hn : b.val ≠ c.val := fun hn => hc (Fin.ext hn.symm)
    simp [hc, hn]

/-- The request of the berth at its arbiter becomes `k`. -/
theorem SoundAt.setRequest (h : SoundAt g e b v s) {k : Option OpKind} : SoundAt g e b { v with asks := k }
    (updSec (s.secOf b) (fun r => { r with requests := r.requests.set b k }) s) := by
  have hu := h.secChanged rfl (f := fun r => { r with requests := r.requests.set b k }) rfl rfl
    (h.frame.arbitrated (s.secOf b)) (h.frame.queues (s.secOf b)) rfl fun c hc => ⟨by
      simp only [SectionRec.part, requests_set, if_neg hc], rfl, Iff.rfl, Iff.rfl⟩
  have hk : (SectionRec.part { s.sec (s.secOf b) with
      requests := (s.sec (s.secOf b)).requests.set b k }).requests b = k := by
    simp only [SectionRec.part, requests_set, if_true]
  rw [hk] at hu
  rw [← h.view] at hu ⊢
  exact hu

theorem ledger_unasked (h : SoundAt g e b v s) (hx : s.secOf b ≠ x) :
    (updSec x (SectionRec.unasked b) s).ledger = s.ledger := by
  refine ledger_updSec ?_
  simp only [SectionRec.part, SectionRec.unasked, SecPart.mk.injEq, true_and, and_true]
  funext c
  rw [requests_set]
  split
  next hc => rw [hc, (h.own hx).1]
  next => rfl

theorem SoundAt.withdrawRequest (h : SoundAt g e b v s) : SoundAt g e b { v with asks := none } (withdrawRequest b s) := by
  unfold Machine.withdrawRequest
  have hset := h.setRequest (k := none)
  cases hb : s.secOf b <;> rw [hb] at hset
  · exact SoundAt.of_ledger hset (ledger_unasked hset (by rw [updSec_secOf, hb]; simp))
  · have h1 : SoundAt g e b v (updSec .A (SectionRec.unasked b) s) := SoundAt.of_ledger h (ledger_unasked h (by rw [hb]; simp))
    have hset := h1.setRequest (k := none)
    rw [updSec_secOf, hb] at hset
    exact hset

theorem SoundAt.freeArbiter (h : SoundAt g e b v s) {k : OpKind} (hr : v.runs ≠ none) :
    SoundAt g e b { v with runs := none } (freeArbiter (s.secOf b) k s) := by
  obtain ⟨k', hk'⟩ := Option.ne_none_iff_exists'.mp hr
  have hop : (s.sec (s.secOf b)).part.op = some (b, k') := by
    rw [← SecPart.opFor_eq_some, opFor_part, h.runs, hk']
  have hu := h.secChanged rfl (f := fun r => { r with arbiter := .partIdle, op := none }) rfl rfl
    (by simp [SectionRec.part]) (h.frame.queues (s.secOf b)) rfl fun c hc => by
      refine ⟨rfl, ?_, Iff.rfl, Iff.rfl⟩
      rw [SecPart.opFor_eq_none.mpr (by simp [SectionRec.part]), eq_comm, SecPart.opFor_eq_none, hop]
      simpa using hc.symm
  have hn : (SectionRec.part { s.sec (s.secOf b) with arbiter := .partIdle, op := none }).opFor b = none :=
    SecPart.opFor_eq_none.mpr (by simp [SectionRec.part])
  rw [hn] at hu
  rw [← h.view] at hu ⊢
  unfold Machine.freeArbiter
  dsimp only
  split
  · exact SoundAt.of_ledger hu ledger_startSpacing
  · exact hu

/-- The lock of the berth's section goes to the berth or to nobody, where nobody else has it. -/
theorem SoundAt.setLock (h : SoundAt g e b v s) {f : SectionRec → Option Lock}
    (hl : ∀ c, c ≠ b → (s.sec (s.secOf b)).lock.map (·.holder) ≠ some c)
    (hl' : ∀ c, c ≠ b → (f (s.sec (s.secOf b))).map (·.holder) ≠ some c) :
    SoundAt g e b { v with locks := (f (s.sec (s.secOf b))).map (·.holder) == some b }
      (updSec (s.secOf b) (fun r => { r with lock := f r }) s) := by
  have hu := h.secChanged rfl (f := fun r => { r with lock := f r }) rfl rfl (h.frame.arbitrated (s.secOf b))
    (h.frame.queues (s.secOf b)) rfl fun c hc => ⟨rfl, rfl, iff_of_false (hl' c hc) (hl c hc), Iff.rfl⟩
  rw [← h.view] at hu ⊢
  exact hu

theorem SoundAt.dropLock (h : SoundAt g e b v s) (hl : v.locks = true) :
    SoundAt g e b { v with locks := false } (dropLock (s.secOf b) s) := by
  rw [← h.locks, holdsLock_iff] at hl
  exact h.setLock (f := fun _ => none) (fun c hc => by rw [hl]; simpa using hc.symm) (fun c _ => by simp)

/-- A grant takes the berth's request in flight at an arbiter that has none. -/
theorem SoundAt.beginOp (h : SoundAt g e b v s) {k : OpKind} (hop : (s.sec (s.secOf b)).op = none) :
    SoundAt g e b { v with asks := none, runs := some k } (updSec (s.secOf b) (fun r => { r with
      requests := r.requests.set b none, arbiter := .partBusy, op := some (b, k), lastGranted := some b }) s) := by
  have hu := h.secChanged rfl (f := fun r => { r with
      requests := r.requests.set b none, arbiter := .partBusy, op := some (b, k), lastGranted := some b }) rfl rfl
    (by simp [SectionRec.part]) (h.frame.queues (s.secOf b)) rfl fun c hc => by
      refine ⟨by simp only [SectionRec.part, requests_set, if_neg hc], ?_, Iff.rfl, Iff.rfl⟩
      rw [SecPart.opFor_eq_none.mpr (by simpa [SectionRec.part] using hc.symm), eq_comm, SecPart.opFor_eq_none]
      simp [SectionRec.part, hop]
  have h1 : (SectionRec.part { s.sec (s.secOf b) with
      requests := (s.sec (s.secOf b)).requests.set b none
      arbiter := .partBusy
      op := some (b, k)
      lastGranted := some b }).requests b = none := by
    simp only [SectionRec.part, requests_set, if_true]
  have h2 : (SectionRec.part { s.sec (s.secOf b) with
      requests := (s.sec (s.secOf b)).requests.set b none
      arbiter := .partBusy
      op := some (b, k)
      lastGranted := some b }).opFor b = some k :=
    SecPart.opFor_eq_some.mpr rfl
  rw [h1, h2] at hu
  rw [← h.view] at hu ⊢
  exact hu

/-- A berth that stands in no queue joins its section's. -/
theorem SoundAt.insert (h : SoundAt g e b v s) {n : Nat} (hn : n ≤ (s.sec (s.secOf b)).queue.length)
    (hq : v.queued = false) : SoundAt g e b { v with queued := true }
      (updSec (s.secOf b) (fun r => { r with queue := r.queue.insertIdx n b }) s) := by
  have hb : b ∉ (s.sec (s.secOf b)).queue := fun hm => by simp [h.queued.mpr hm] at hq
  have hmem : ∀ c, c ∈ (s.sec (s.secOf b)).queue.insertIdx n b ↔ c = b ∨ c ∈ (s.sec (s.secOf b)).queue := fun c =>
    List.mem_insertIdx hn
  have hu := h.secChanged rfl (f := fun r => { r with queue := r.queue.insertIdx n b }) rfl rfl
    (h.frame.arbitrated (s.secOf b))
    ((List.perm_insertIdx b _ hn).nodup_iff.mpr (List.nodup_cons.mpr ⟨hb, h.frame.queues (s.secOf b)⟩)) rfl
    fun c hc => ⟨rfl, rfl, Iff.rfl, (hmem c).trans (or_iff_right hc)⟩
  have hk : ({ s.sec (s.secOf b) with
      queue := (s.sec (s.secOf b)).queue.insertIdx n b } : SectionRec).part.queue.contains b = true := by
    simpa [SectionRec.part] using (hmem b).mpr (.inl rfl)
  rw [hk] at hu
  rw [← h.view] at hu ⊢
  exact hu

theorem ledger_without (h : SoundAt g e b v s) (hx : s.secOf b ≠ x) :
    (updSec x (SectionRec.without b) s).ledger = s.ledger := by
  refine ledger_updSec ?_
  have hq : (s.sec x).queue.filter (· ≠ b) = (s.sec x).queue := by
    refine List.filter_eq_self.mpr fun c hc => ?_
    simpa using fun hcb : c = b => (h.own hx).2.2.2 (hcb ▸ hc)
  simp only [SectionRec.part, SectionRec.without, hq]

theorem SoundAt.unqueue (h : SoundAt g e b v s) : SoundAt g e b { v with queued := false }
    (updSec (s.secOf b) (SectionRec.without b) s) := by
  have hu := h.secChanged rfl (f := SectionRec.without b) rfl rfl (h.frame.arbitrated (s.secOf b))
    ((h.frame.queues (s.secOf b)).filter _) rfl fun c hc => ⟨rfl, rfl, Iff.rfl, by
      simp [SectionRec.part, SectionRec.without, hc]⟩
  have hk : (SectionRec.without b (s.sec (s.secOf b))).part.queue.contains b = false := by
    simp [SectionRec.part, SectionRec.without]
  rw [hk] at hu
  rw [← h.view] at hu ⊢
  exact hu

theorem SoundAt.leaveQueue (h : SoundAt g e b v s) : SoundAt g e b { v with queued := false } (leaveQueue b s) := by
  refine SoundAt.of_ledger (s := updSec .B (SectionRec.without b) (updSec .A (SectionRec.without b) s)) ?_
    (ledger_updBerth rfl)
  have hset := h.unqueue
  cases hb : s.secOf b <;> rw [hb] at hset
  · exact SoundAt.of_ledger hset (ledger_without hset (by rw [updSec_secOf, hb]; simp))
  · have h1 : SoundAt g e b v (updSec .A (SectionRec.without b) s) := SoundAt.of_ledger h (ledger_without h (by rw [hb]; simp))
    have hset := h1.unqueue
    rw [updSec_secOf, hb] at hset
    exact hset

/-! ## The queue of starts -/

theorem SoundAt.setStarts (h : SoundAt g e b v s) {q : List BerthId} (hq : q.Nodup)
    (hm : ∀ c, c ≠ b → (c ∈ q ↔ c ∈ s.startQueue)) :
    SoundAt g e b { v with starts := q.contains b } { s with startQueue := q } := by
  have hsec : ({ s with startQueue := q } : State).ledger.sec = s.ledger.sec := by
    funext y; cases y <;> rfl
  have hbay : ({ s with startQueue := q } : State).ledger.bay = s.ledger.bay := by
    funext k; cases k <;> rfl
  refine h.change ⟨?_, ?_, ?_, hq, ?_, ?_, ?_, ?_⟩ (fun c hc => ?_) ?_
  · rw [hsec]; exact h.frame.arbitrated
  · rw [hsec]; exact h.frame.own
  · rw [hsec]; exact h.frame.queues
  · rw [hsec]; exact h.frame.sums
  · rw [hbay]; exact h.frame.granted
  · rw [hbay]; exact h.frame.free
  · rw [hbay]; exact h.frame.named
  · simp only [Ledger.view, hsec, hbay]
    congr 1
    rw [Bool.eq_iff_iff]
    simpa [State.ledger] using hm c hc
  · rw [← h.view]
    simp only [Ledger.view, hsec, hbay]
    rfl

theorem SoundAt.appendStart (h : SoundAt g e b v s) (hs : v.starts = false) :
    SoundAt g e b { v with starts := true } { s with startQueue := s.startQueue ++ [b] } := by
  have hb : b ∉ s.startQueue := fun hm => by simp [h.starts.mpr hm] at hs
  have hu := h.setStarts (q := s.startQueue ++ [b]) (List.nodup_append.mpr ⟨h.frame.starts, by simp, by
    rintro a ha c hc rfl; exact hb (by simpa [List.mem_singleton.mp hc] using ha)⟩) fun c hc => by simp [hc]
  simpa using hu

theorem SoundAt.eraseStart (h : SoundAt g e b v s) :
    SoundAt g e b { v with starts := false } { s with startQueue := s.startQueue.erase b } := by
  have hu := h.setStarts (q := s.startQueue.erase b) (List.Nodup.erase b h.frame.starts) fun c hc =>
    List.mem_erase_of_ne hc
  have hk : (s.startQueue.erase b).contains b = false := by
    simpa [State.ledger] using List.Nodup.not_mem_erase h.frame.starts
  rwa [hk] at hu

/-- The oldest berth granted is taken off the queue of starts. -/
theorem SoundAt.popStart (h : SoundAt g e b v s) {q : List BerthId} (hq : s.startQueue = b :: q) :
    SoundAt g e b { v with starts := false } { s with startQueue := q } := by
  have hu := h.eraseStart
  rwa [hq, List.erase_cons_head] at hu

/-! ## Changes of state -/

/-- The berth stands in its queue, waits to be started and holds the lock in the states that do. -/
structure View.Placed (v : View) : Prop where
  locks : v.locks = true → v.state.mayLock = true
  queued : v.queued = true → v.state = .queued
  starts : v.starts = true → v.state = .admitted

theorem View.Fits.placed (h : v.Fits g) : v.Placed := ⟨fun hl => mayLock_iff.mpr (h.lock hl), h.queued.mp, h.starts⟩

/-- The berth in another state, out of the queues of the state it leaves. -/
def View.move (t : BerthState) (v : View) : View := { v with state := t, queued := false, starts := false }

theorem SoundAt.leaveState (h : SoundAt g e b v s) (hp : v.Placed) :
    SoundAt g e b { v with queued := false, starts := false } (leaveState b s) := by
  have hq : (s.berth b).state ≠ .queued → v.queued = false := fun hn => by
    rw [h.state] at hn
    exact Bool.eq_false_iff.mpr fun hv => hn (hp.queued hv)
  have hs : (s.berth b).state ≠ .admitted → v.starts = false := fun hn => by
    rw [h.state] at hn
    exact Bool.eq_false_iff.mpr fun hv => hn (hp.starts hv)
  rw [leaveState_eq]
  split
  next hst =>
    have hl := h.leaveQueue
    have hv := hs (by simp [hst])
    obtain ⟨⟩ := v
    subst hv
    exact hl
  next hst =>
    have hl := h.eraseStart
    have hv := hq (by simp [hst])
    obtain ⟨⟩ := v
    subst hv
    exact hl
  next h1 h2 =>
    have hv := hq h1
    have hw := hs h2
    obtain ⟨⟩ := v
    subst hv hw
    exact h

theorem SoundAt.moveTo (h : SoundAt g e b v s) (hp : v.Placed) {t : BerthState} : SoundAt g e b (v.move t) (moveTo b t s) := by
  have hl := h.leaveState hp
  have hu := hl.berthChanged (f := Berth.goTo t) rfl rfl rfl
  have hf : (Berth.goTo t ((Machine.leaveState b s).berth b)).part.flying = v.flying := by
    rw [← h.view, leaveState_berth_record]; rfl
  have hst : (Berth.goTo t ((Machine.leaveState b s).berth b)).part.stopped = v.stopped := by
    rw [← h.view, leaveState_berth_record]; rfl
  have hps : (Berth.goTo t ((Machine.leaveState b s).berth b)).part.pause = v.pause := by
    rw [← h.view, leaveState_berth_record]; rfl
  rw [hf, hst, hps] at hu
  exact hu

end Sys2Proof.Machine
end

-- ==== Grants and bays in the ledger ====
section
/-! PROOFS. What is given to a berth and taken back from it: the grant and the section's sum, the bay and its record
(R63 to R66, R71, R72). -/

namespace Sys2Proof.Machine

variable {g : Prop} {e : BerthId → Prop} {b c : BerthId} {v w : View} {s t : State} {l m : Ledger} {x : SectionId}
  {k : BayId}

/-! ## The sum of a section's grants (R63) -/

/-- A sum over the berths where one term changes. -/
theorem sum_berths_change {f f' : BerthId → Nat} (h : ∀ c, c ≠ b → f' c = f c) :
    ((List.finRange 8).map f').sum + f b = ((List.finRange 8).map f).sum + f' b := by
  have hrest : ∑ c ∈ Finset.univ.erase b, f' c = ∑ c ∈ Finset.univ.erase b, f c :=
    Finset.sum_congr rfl fun c hc => h c (Finset.ne_of_mem_erase hc)
  rw [← Fin.sum_univ_def, ← Fin.sum_univ_def, ← Finset.add_sum_erase Finset.univ f' (Finset.mem_univ b),
    ← Finset.add_sum_erase Finset.univ f (Finset.mem_univ b), hrest]
  omega

/-- A berth's grant is within its section's sum. -/
theorem grant_le_sum (h : l.Frame g) (hg : g) : (l.berth b).grant ≤ (l.sec (l.berth b).sec).granted := by
  rw [h.sums hg, ← Fin.sum_univ_def]
  have hle := Finset.single_le_sum (f := fun c => if (l.berth c).sec = (l.berth b).sec then (l.berth c).grant else 0)
    (fun _ _ => Nat.zero_le _) (Finset.mem_univ b)
  simpa using hle

/-- The berth's grant becomes `n`, and its section's sum follows. -/
theorem SoundAt.regrant (h : SoundAt g e b v s) {n : Nat} {f : Berth → Berth} {d : SectionRec → Nat}
    (hf : (f (s.berth b)).part = { (s.berth b).part with grant := n })
    (hd : g → d (s.sec (s.secOf b)) + v.grant = (s.sec (s.secOf b)).granted + n) :
    SoundAt g e b { v with grant := n } (updSec (s.secOf b) (fun r => { r with granted := d r }) (updBerth b f s)) := by
  have hberth : ∀ c, (updSec (s.secOf b) (fun r => { r with granted := d r }) (updBerth b f s)).ledger.berth c =
      if c = b then { (s.berth b).part with grant := n } else s.ledger.berth c := fun c => by
    simp only [State.ledger, updSec_berth, updBerth_berth]
    split
    · exact hf
    · rfl
  have hsec : ∀ y, (updSec (s.secOf b) (fun r => { r with granted := d r }) (updBerth b f s)).ledger.sec y =
      { s.ledger.sec y with
        granted := if y = s.secOf b then d (s.sec (s.secOf b)) else (s.ledger.sec y).granted } := fun y => by
    simp only [State.ledger, updSec_sec, updBerth_sec]
    split
    next hy => rw [hy]; rfl
    next => rfl
  have hbay : (updSec (s.secOf b) (fun r => { r with granted := d r }) (updBerth b f s)).ledger.bay = s.ledger.bay := by
    simp [State.ledger]
  have hst : (updSec (s.secOf b) (fun r => { r with granted := d r }) (updBerth b f s)).ledger.starts =
      s.ledger.starts := by simp [State.ledger]
  have hbsec : ∀ c, ((updSec (s.secOf b) (fun r => { r with granted := d r }) (updBerth b f s)).ledger.berth c).sec =
      (s.ledger.berth c).sec := fun c => by
    rw [hberth]
    split
    next hc => rw [hc]; rfl
    next => rfl
  have hbbay : ∀ c, ((updSec (s.secOf b) (fun r => { r with granted := d r }) (updBerth b f s)).ledger.berth c).bay =
      (s.ledger.berth c).bay := fun c => by
    rw [hberth]
    split
    next hc => rw [hc]; rfl
    next => rfl
  refine h.change ⟨fun y => ?_, fun y c hc => ?_, fun y => ?_, ?_, fun hg y => ?_, ?_, ?_, ?_⟩ (fun c hc => ?_) ?_
  · rw [hsec]; exact h.frame.arbitrated y
  · rw [hbsec] at hc; rw [hsec]; exact h.frame.own y c hc
  · rw [hsec]; exact h.frame.queues y
  · rw [hst]; exact h.frame.starts
  · have hsum := h.frame.sums hg y
    have hch := sum_berths_change (b := b)
      (f := fun c => if (s.ledger.berth c).sec = y then (s.ledger.berth c).grant else 0)
      (f' := fun c => if (s.ledger.berth c).sec = y then
        ((updSec (s.secOf b) (fun r => { r with granted := d r }) (updBerth b f s)).ledger.berth c).grant else 0)
      fun c hc => by simp only [hberth, if_neg hc]
    simp only [hbsec]
    have hgb : ((updSec (s.secOf b) (fun r => { r with granted := d r }) (updBerth b f s)).ledger.berth b).grant = n := by
      rw [hberth, if_pos rfl]
    have hgv : (s.ledger.berth b).grant = v.grant := h.grant
    have hbx : (s.ledger.berth b).sec = s.secOf b := rfl
    simp only [hgb, hgv, hbx, ← hsum] at hch
    have hd' := hd hg
    rw [hsec]
    dsimp only
    by_cases hy : s.secOf b = y
    · subst hy
      have hgr : (s.ledger.sec (s.secOf b)).granted = (s.sec (s.secOf b)).granted := rfl
      simp only [if_true] at hch ⊢
      omega
    · simp only [if_neg hy, if_neg (Ne.symm hy)] at hch ⊢
      omega
  · rw [hbay]; exact h.frame.granted
  · rw [hbay]; exact h.frame.free
  · rw [hbay]; exact fun hg j c => by rw [hbbay]; exact h.frame.named hg j c
  · simp only [Ledger.view, hberth, if_neg hc, hsec, hbay, hst]
    rfl
  · rw [← h.view]
    simp only [Ledger.view, hberth, if_true, hsec, hbay, hst]
    rfl

/-! ## The bays (R65, R66) -/

/-- A change of bays: it may matter to other berths only where no bays are looked at. -/
theorem Ledger.At.changeBays (h : l.At g e b v) (hf : m.Frame g)
    (ho : ∀ c, c ≠ b → m.view c = { l.view c with faulty := (m.view c).faulty } ∧
      (g → (m.view c).faulty = (l.view c).faulty))
    (hv : m.view b = w) : m.At g e b w := by
  refine ⟨hf, fun c hc => ?_, fun c hc he => ?_, hv⟩ <;> obtain ⟨hq, hg⟩ := ho c hc <;> rw [hq]
  · obtain ⟨h1, h2, h3, h4, h5, h6, h7, h8, h9, h10, h11⟩ := h.fits c hc
    exact ⟨h1, h2, h3, h4, h5, h6, h7, h8, h9, h10, h11⟩
  · obtain ⟨h1, h2, h3, h4, h5⟩ := h.settled c hc he
    exact ⟨h1, h2, h3, h4, fun k => (hg k).trans (h5 k)⟩

theorem ledger_updBay_bay {f : BayRec → BayRec} (j : BayId) : (updBay k f s).ledger.bay j =
    if j = k then ((f (s.bay k)).state, (f (s.bay k)).berth) else s.ledger.bay j := by
  simp only [State.ledger]
  split
  next hj => rw [hj, updBay_bay_same]
  next hj => rw [updBay_bay_ne hj]

/-- Whether a berth's bay is out of order, after a change of one bay. -/
theorem faulty_change {o : Option BayId} {p p' : BayId → BayState × Option BerthId} (h : ∀ j, j ≠ k → p' j = p j)
    (hk : o ≠ some k) : (o.any fun j => (p' j).1 != .granted) = (o.any fun j => (p j).1 != .granted) := by
  cases o with
  | none => rfl
  | some j => simp only [Option.any_some, h j fun hj => hk (by rw [hj])]

/-- Bay and berth change together: the bay's record becomes `r`, the berth's bay `o`. -/
theorem SoundAt.setBay (h : SoundAt g e b v s) {f : BayRec → BayRec} {u : Berth → Berth} {o : Option BayId}
    (hu : (u (s.berth b)).part = { (s.berth b).part with bay := o })
    (hgr : g → (f (s.bay k)).state = .granted → (f (s.bay k)).berth ≠ none)
    (hfr : g → (f (s.bay k)).state = .free → (f (s.bay k)).berth = none)
    (hown : g → ∀ c, c ≠ b → (s.bay k).berth ≠ some c ∧ (f (s.bay k)).berth ≠ some c)
    (hb : g → ((f (s.bay k)).berth = some b ↔ o = some k)) (hj : g → ∀ j, j ≠ k → (o = some j ↔ v.bay = some j)) :
    SoundAt g e b { v with bay := o, faulty := o.any fun j => ((updBay k f s).bay j).state != .granted }
      (updBerth b u (updBay k f s)) := by
  have hberth : ∀ c, (updBerth b u (updBay k f s)).ledger.berth c =
      if c = b then { (s.berth b).part with bay := o } else s.ledger.berth c := fun c => by
    simp only [State.ledger, updBerth_berth, updBay_berth]
    split
    · exact hu
    · rfl
  have hbay : ∀ j, (updBerth b u (updBay k f s)).ledger.bay j =
      if j = k then ((f (s.bay k)).state, (f (s.bay k)).berth) else s.ledger.bay j := ledger_updBay_bay
  have hsec : (updBerth b u (updBay k f s)).ledger.sec = s.ledger.sec := by simp [State.ledger]
  have hst : (updBerth b u (updBay k f s)).ledger.starts = s.ledger.starts := by simp [State.ledger]
  have hbsec : ∀ c, ((updBerth b u (updBay k f s)).ledger.berth c).sec = (s.ledger.berth c).sec ∧
      ((updBerth b u (updBay k f s)).ledger.berth c).grant = (s.ledger.berth c).grant := fun c => by
    rw [hberth]
    split
    next hc => rw [hc]; exact ⟨rfl, rfl⟩
    next => exact ⟨rfl, rfl⟩
  have hvb : (s.ledger.berth b).bay = v.bay := h.bay
  refine h.changeBays ⟨?_, fun y c hc => ?_, ?_, ?_, fun hg y => ?_, fun hg j => ?_, fun hg j => ?_, fun hg j c => ?_⟩
    (fun c hc => ⟨?_, fun hg => ?_⟩) ?_
  · rw [hsec]; exact h.frame.arbitrated
  · rw [(hbsec c).1] at hc; rw [hsec]; exact h.frame.own y c hc
  · rw [hsec]; exact h.frame.queues
  · rw [hst]; exact h.frame.starts
  · simp only [hbsec]; rw [hsec]; exact h.frame.sums hg y
  · rw [hbay]; split <;> [exact hgr hg; exact h.frame.granted hg j]
  · rw [hbay]; split <;> [exact hfr hg; exact h.frame.free hg j]
  · have hold := h.frame.named hg j c
    rw [hbay, hberth]
    by_cases hc : c = b <;> by_cases hjk : j = k
    · rw [if_pos hc, if_pos hjk, hc, hjk]; exact hb hg
    · rw [if_pos hc, if_neg hjk, hold, hc, hvb]; exact (hj hg j hjk).symm
    · rw [if_neg hc, if_pos hjk, ← hold, hjk]
      exact iff_of_false (hown hg c hc).2 (hown hg c hc).1
    · rw [if_neg hc, if_neg hjk]; exact hold
  · simp only [Ledger.view, hberth, if_neg hc, hsec, hst]
  · simp only [Ledger.view, hberth, if_neg hc]
    refine faulty_change (k := k) (fun j hj => by rw [hbay, if_neg hj]) fun hk => ?_
    exact (hown hg c hc).1 ((h.frame.named hg k c).mpr hk)
  · rw [← h.view]
    simp only [Ledger.view, hberth, if_true, hsec, hst]
    rfl

/-- A free bay goes to a berth that has none. -/
theorem SoundAt.claimBay (h : SoundAt g e b v s) {f : BayRec → BayRec} {u : Berth → Berth}
    (hu : (u (s.berth b)).part = { (s.berth b).part with bay := some k }) (hf : (s.bay k).state = .free)
    (hst : (f (s.bay k)).state = .granted) (hbe : (f (s.bay k)).berth = some b) (hv : g → v.bay = none) :
    SoundAt g e b { v with bay := some k, faulty := false } (updBerth b u (updBay k f s)) := by
  have hnone : g → (s.bay k).berth = none := fun hg => h.frame.free hg k hf
  have hs := h.setBay (k := k) (f := f) hu (fun _ _ => by simp [hbe]) (fun _ hfree => by simp [hst] at hfree)
    (fun hg c hc => ⟨by simp [hnone hg], by simpa [hbe] using hc.symm⟩) (fun _ => by simp [hbe])
    (fun hg j hj => by simpa [hv hg] using hj.symm)
  simpa [hst] using hs

/-- A berth's bay is taken from it. -/
theorem SoundAt.dropBay (h : SoundAt g e b v s) (hk : v.bay = some k) :
    SoundAt g e b { v with bay := none, faulty := false } (updBerth b (fun r => { r with bay := none })
      (updBay k (fun r => { r with state := if r.state = .granted then .free else r.state, berth := none }) s)) := by
  have hb : g → (s.bay k).berth = some b := fun hg => (h.frame.named hg k b).mpr (h.bay.trans hk)
  refine h.setBay (o := none) rfl (fun _ hg => ?_) (fun _ _ => rfl) (fun hg c hc => ⟨?_, by simp⟩) (fun _ => by simp)
    fun _ j hj => by simpa [hk] using hj.symm
  · dsimp only at hg; split at hg <;> simp_all
  · rw [hb hg]; simpa using hc.symm

/-- A bay that no other berth has changes its state. -/
theorem SoundAt.bayChanged (h : SoundAt g e b v s) {f : BayRec → BayRec} (hbe : g → (f (s.bay k)).berth = (s.bay k).berth)
    (hgr : g → (f (s.bay k)).state = .granted → (s.bay k).berth ≠ none)
    (hfr : g → (f (s.bay k)).state = .free → (s.bay k).berth = none)
    (hown : g → ∀ c, c ≠ b → (s.bay k).berth ≠ some c) :
    SoundAt g e b { v with faulty := v.bay.any fun j => ((updBay k f s).bay j).state != .granted } (updBay k f s) := by
  have hs := h.setBay (k := k) (f := f) (u := id) (o := v.bay) (by rw [← h.bay]; rfl)
    (fun hg hn => by rw [hbe hg]; exact hgr hg hn) (fun hg hn => by rw [hbe hg]; exact hfr hg hn)
    (fun hg c hc => ⟨hown hg c hc, by rw [hbe hg]; exact hown hg c hc⟩)
    (fun hg => by rw [hbe hg, ← h.bay]; exact h.frame.named hg k b) fun _ _ _ => Iff.rfl
  rwa [updBerth_id rfl] at hs

/-! ## Giving capacity back (R72) -/

theorem SoundAt.releaseBay (h : SoundAt g e b v s) :
    SoundAt g e b { v with bay := none, faulty := false } (releaseBay b s) := by
  have hv := h.bay
  unfold Machine.releaseBay
  cases hb : (s.berth b).bay with
  | none =>
    have hw : v.faulty = false := by
      rw [← h.view]
      simp [Ledger.view, State.ledger, Berth.part, hb]
    rw [hb] at hv
    obtain ⟨⟩ := v
    subst hv hw
    exact h
  | some k =>
    have hk : v.bay = some k := by rw [← hv, hb]
    have hsent := (h.of_ledger (t := (send (s.converterEntry k) kindOrder codeConverterStop [bayByte (some k)] s).1)
      ledger_send).dropBay hk
    dsimp only
    split
    · exact hsent.of_ledger (ledger_callPass.trans ledger_callPass)
    · exact hsent

/-- The release of a grant takes the grant and the bay (R72). -/
theorem SoundAt.releaseGrant (h : SoundAt g e b v s) :
    SoundAt g e b { v with grant := 0, bay := none, faulty := false }
      (releaseGrant b s) := by
  have hr := h.regrant (n := 0) (f := fun r => { r with grant := 0 }) (d := fun r => r.granted - (s.berth b).grant) rfl
    fun hg => by
      have hle := grant_le_sum (b := b) h.frame hg
      have hgr : (s.ledger.berth b).grant = v.grant := h.grant
      rw [h.grant, Nat.add_zero]
      exact Nat.sub_add_cancel (hgr ▸ hle)
  rw [← updBerth_updSec] at hr
  exact hr.releaseBay.of_ledger ((ledger_callPass.trans ledger_lowerOver).trans (ledger_updBerth rfl))

end Sys2Proof.Machine
end

-- ==== Choices and passes over a sound ledger ====
section
/-! PROOFS. What an event's hooks have to keep: the ledger sound but for the berths being acted on, and such a berth as it
was once it neither asks, runs nor waits. The service pass is such a hook (R69 to R71). -/

namespace Sys2Proof.Machine

variable {g : Prop} {e : BerthId → Prop} {b c : BerthId} {v w : View} {s t : State} {x : SectionId} {h : Hooks}

/-! ## A berth that holds nothing is left alone -/

/-- The berth neither asks, runs nor waits for capacity. -/
structure View.Rests (v : View) : Prop where
  asks : v.asks = none
  runs : v.runs = none
  queued : v.queued = false

/-- What acts on other berths gives the berth no operation. -/
theorem Changes.noOp (b : BerthId) : Changes (· ≠ b) (fun t => ∀ x, (t.sec x).op.map (·.1) ≠ some b) := by
  have sec : ∀ {t : State} {y} {f : SectionRec → SectionRec}, (f (t.sec y)).op.map (·.1) ≠ some b →
      (∀ x, (t.sec x).op.map (·.1) ≠ some b) → ∀ x, ((updSec y f t).sec x).op.map (·.1) ≠ some b := by
    intro t y f hf h x
    rw [updSec_sec]
    split
    · exact hf
    · exact h x
  constructor
  case berth => exact fun _ _ h => h
  case moves =>
    intro t d st _ h x
    rw [moveTo, updBerth_sec, leaveState_op_lock.1]
    exact h x
  case bypass => exact fun _ _ h => h
  case noticed => exact fun _ _ h => h
  case held => exact fun _ _ _ h => h
  case unheld => exact fun _ _ h => h
  case cables => exact fun _ h x => by cases x <;> [exact h .A; exact h .B]
  case bay => exact fun _ _ _ h x => by rw [updBay_sec]; exact h x
  case turn => exact fun _ h x => by cases x <;> [exact h .A; exact h .B]
  case starts => exact fun _ h x => by cases x <;> [exact h .A; exact h .B]
  case passes => exact fun _ _ h x => by cases x <;> [exact h .A; exact h .B]
  case hit => exact fun _ h x => by cases x <;> [exact h .A; exact h .B]
  case joined => exact fun n h x => by rw [joinNotices_sec]; exact h x
  case port => exact fun _ h x => by rw [updPort_sec]; exact h x
  case own => exact fun _ h x => by rw [enqueue_sec]; exact h x
  case forwarded => exact fun _ _ h x => by rw [enqueue_sec]; exact h x
  case displaced => exact fun _ h x => by rw [enqueue_sec, updPort_sec]; exact h x
  case sec => exact fun {t y f} hf h => sec (by rw [(hf _).2.1]; exact h y) h
  case less => exact fun y _ h => sec (h y) h
  case more => exact fun {t y n} _ h => sec (h y) h
  case most =>
    intro t y n h x
    unfold Machine.raiseOver Machine.noticeSection
    split
    · rw [joinNotices_sec]
      exact sec (f := fun r => { r with overFlag := true }) (sec (f := fun r => { r with granted := r.granted + n })
        (h y) h y) (sec (f := fun r => { r with granted := r.granted + n }) (h y) h) x
    · exact sec (f := fun r => { r with granted := r.granted + n }) (h y) h x
  case lower => exact fun {t} y h => sec (by split <;> exact h y) h
  case asked => exact fun {t d} k _ h => sec (h _) h
  case queued => exact fun {t d} n _ _ h => sec (h _) h
  case freed => exact fun y h => sec (by simp) h
  case began => exact fun {t d} y k hd h => sec (by simpa using hd) h
  case locked => exact fun y f _ h => sec (h y) h
  case panel => exact fun {t y} v _ h => sec (h y) h
  case unpanel => exact fun {t y} _ h => sec (h y) h

/-- The berth's record is `r`, and it neither asks, runs nor waits for capacity. -/
def State.calmAt (b : BerthId) (r : Berth) (t : State) : Prop :=
  (t.idleAt b ∧ t.berth b = r) ∧ ∀ x, (t.sec x).op.map (·.1) ≠ some b

theorem closed_calmAt {r : Berth} : Closed (· ≠ b) (State.calmAt b r) := (Closed.idle b r).and (Changes.noOp b)

theorem SoundAt.calmAt (ha : SoundAt g e b v s) (hr : v.Rests) : s.calmAt b (s.berth b) := by
  refine ⟨⟨fun x => ?_, rfl⟩, fun x => ?_⟩ <;> by_cases hx : s.secOf b = x
  · subst hx
    exact ⟨ha.asks.trans hr.asks, fun hq => by simpa [hr.queued] using ha.queued.mpr hq⟩
  · obtain ⟨h1, -, -, h4⟩ := ha.own hx
    exact ⟨h1, h4⟩
  · subst hx
    exact opOf_eq_none_iff.mp (ha.runs.trans hr.runs)
  · exact (ha.own hx).2.1

theorem rests_of_calmAt {r : Berth} (hc : s.calmAt b r) : (s.ledger.view b).Rests where
  asks := (hc.1.1 _).1
  runs := opOf_eq_none_iff.mpr (hc.2 _)
  queued := Bool.eq_false_iff.mpr fun hq => (hc.1.1 _).2 (view_queued.mp hq)

/-! ## Hooks -/

/-- The hooks of an event keep the ledger sound but for any berths, and leave alone a berth that neither asks, runs nor
waits; while an arbiter is busy its choice does nothing. -/
structure HooksSound (g : Prop) (h : Hooks) : Prop where
  choice : ∀ {e s} x, Sound g e s → Sound g e (h.choice x s)
  early : ∀ {e s} x, Sound g e s → Sound g e (h.early x s)
  passes : ∀ {e s}, Sound g e s → Sound g e (h.passes s)
  calm : ∀ {b r}, HooksClosed (State.calmAt b r) h
  busyChoice : ∀ {s x}, (s.sec x).arbiter = .partBusy → h.choice x s = s
  busyEarly : ∀ {s x}, (s.sec x).arbiter = .partBusy → h.early x s = s

theorem HooksSound.quiet : HooksSound g Hooks.quiet :=
  ⟨fun _ hs => hs, fun _ hs => hs, fun hs => hs, .quiet, fun _ => rfl, fun _ => rfl⟩

theorem HooksSound.before (hh : HooksSound g h) : HooksSound g h.before :=
  ⟨hh.early, hh.early, hh.passes, hh.calm.before, hh.busyEarly, hh.busyEarly⟩

/-- What a hook leaves of a berth that neither asks, runs nor waits: only what is held for it may have changed. -/
theorem SoundAt.hook (ha : SoundAt g e b v s) (hf : v.Fits g) (hr : v.Rests)
    (hs : ∀ {e}, Sound g e s → Sound g e t) (hc : ∀ {r}, s.calmAt b r → t.calmAt b r) :
    ∃ l st q, SoundAt g e b { v with locks := l, starts := st, faulty := q } t ∧
      View.Fits g { v with locks := l, starts := st, faulty := q } := by
  have hsound := hs (ha.soundBut hf)
  have hcalm := hc (ha.calmAt hr)
  have hrests := rests_of_calmAt hcalm
  have hview : t.ledger.view b = { v with
      locks := (t.ledger.view b).locks, starts := (t.ledger.view b).starts, faulty := (t.ledger.view b).faulty } := by
    have hrec : (t.ledger.berth b) = s.ledger.berth b := congrArg Berth.part hcalm.1.2
    obtain ⟨hr1, hr2, hr3⟩ := hr
    obtain ⟨hs1, hs2, hs3⟩ := hrests
    have hold := ha.view
    obtain ⟨⟩ := v
    dsimp only at hr1 hr2 hr3
    subst hr1 hr2 hr3
    simp only [Ledger.view, View.mk.injEq, hrec] at hold hs1 hs2 hs3 ⊢
    obtain ⟨h1, h2, h3, h4, h5, h6, -⟩ := hold
    exact ⟨h1, h2, h3, h4, h5, h6, hs1, hs2, trivial, trivial, hs3, trivial⟩
  exact ⟨_, _, _, hview ▸ hsound.atBut, hview ▸ hsound.fits b⟩

theorem SoundAt.passes (ha : SoundAt g e b v s) (hh : HooksSound g h) (hf : v.Fits g) (hr : v.Rests) :
    ∃ l st q, SoundAt g e b { v with locks := l, starts := st, faulty := q } (h.passes s) ∧
      View.Fits g { v with locks := l, starts := st, faulty := q } :=
  ha.hook hf hr hh.passes hh.calm.passes

theorem SoundAt.early (ha : SoundAt g e b v s) (hh : HooksSound g h) (hf : v.Fits g) (hr : v.Rests) :
    ∃ l st q, SoundAt g e b { v with locks := l, starts := st, faulty := q } (h.early x s) ∧
      View.Fits g { v with locks := l, starts := st, faulty := q } :=
  ha.hook hf hr (hh.early x) (hh.calm.early x)

/-! ## Entering a state (R3) -/

/-- The berth as it enters a state: out of the queues, its timed activity abandoned, and its lock kept only where the state
may have it. -/
def View.enter (t : BerthState) (v : View) : View :=
  { v with state := t, flying := none, queued := false, starts := false, locks := v.locks && t.mayLock }

/-- The state a berth has entered, before any choice that its lock's release calls for. -/
theorem SoundAt.entered (ha : SoundAt g e b v s) (hp : v.Placed) {new : BerthState} (hne : v.state ≠ new) :
    ∃ u, SoundAt g e b (v.enter new) u ∧ (v.locks = false ∨ new.mayLock = true → Machine.enterState h b new s = u) ∧
      (Machine.enterState h b new s = u ∨ Machine.enterState h b new s = h.choice (s.secOf b) u) := by
  have hst := ha.state
  have hm : SoundAt g e b { v.move new with flying := none } (Machine.clearInFlight b (reevaluate b (Machine.moveTo b new s))) :=
    ((ha.moveTo hp).of_ledger ledger_reevaluate).clearInFlight
  generalize hu : Machine.clearInFlight b (reevaluate b (Machine.moveTo b new s)) = u at hm
  have hsec : u.secOf b = s.secOf b := by rw [← hu]; simp
  have hle : Machine.enterState h b new s = if v.state.mayLock && !new.mayLock then Machine.releaseLock h b u else u := by
    unfold Machine.enterState
    rw [if_neg (by rw [hst]; exact hne), hst]
    dsimp only
    rw [hu]
  have hlocks : u.holdsLock b = v.locks := hm.locks
  by_cases hl : v.locks = true ∧ new.mayLock = false
  · have hmay : v.state.mayLock = true := hp.locks hl.1
    have hd := hm.dropLock hl.1
    refine ⟨Machine.dropLock (u.secOf b) u, ?_, fun hn => ?_, .inr ?_⟩
    · have hv : v.enter new = { v.move new with flying := none, locks := false } := by
        simp [View.enter, View.move, hl.2]
      rw [hv]; exact hd
    · rcases hn with hn | hn
      · simp [hl.1] at hn
      · simp [hl.2] at hn
    · rw [hle, hmay, hl.2, releaseLock, hlocks, hl.1, hsec]
      rfl
  · have hv : v.enter new = { v.move new with flying := none } := by
      have hlk : (v.locks && new.mayLock) = v.locks := by
        by_cases hk : v.locks = true
        · simpa [hk] using fun hn => hl ⟨hk, hn⟩
        · simp [Bool.eq_false_iff.mpr hk]
      simp [View.enter, View.move, hlk]
    have heq : Machine.enterState h b new s = u := by
      rw [hle]
      split
      next hc =>
        have hno : v.locks = false := Bool.eq_false_iff.mpr fun hk => hl ⟨hk, by simpa using (Bool.and_eq_true_iff.mp hc).2⟩
        rw [releaseLock, hlocks, hno]
        rfl
      next => rfl
    exact ⟨u, hv ▸ hm, fun _ => heq, .inl heq⟩

/-- A berth enters a state that it may enter and settles there. -/
theorem SoundAt.enterState (ha : SoundAt g e b v s) (hh : HooksSound g h) (hp : v.Placed) {new : BerthState}
    (hne : v.state ≠ new) (hf : (v.enter new).Fits g) (hs : ¬e b → (v.enter new).Settled g) :
    Sound g e (Machine.enterState h b new s) := by
  obtain ⟨u, hu, -, hor⟩ := ha.entered (h := h) hp hne
  rcases hor with hor | hor <;> rw [hor]
  · exact hu.sound hf hs
  · exact hh.choice _ (hu.sound hf hs)

/-- A berth without its section's lock, or that may keep it, enters a state without any choice. -/
theorem SoundAt.enterPlain (ha : SoundAt g e b v s) (hp : v.Placed) {new : BerthState} (hne : v.state ≠ new)
    (hl : v.locks = false ∨ new.mayLock = true) : SoundAt g e b (v.enter new) (Machine.enterState h b new s) := by
  obtain ⟨u, hu, heq, -⟩ := ha.entered (h := h) hp hne
  rw [heq hl]
  exact hu

theorem SoundAt.enterQuiet (ha : SoundAt g e b v s) (hp : v.Placed) {new : BerthState} (hne : v.state ≠ new) :
    SoundAt g e b (v.enter new) (Machine.enterState .quiet b new s) := by
  obtain ⟨u, hu, -, hor⟩ := ha.entered (h := .quiet) hp hne
  rcases hor with hor | hor <;> rw [hor]
  · exact hu
  · exact hu

/-! ## The service pass (R69 to R71) -/

theorem SoundAt.faulty_of_bay (ha : SoundAt g e b v s) (hv : v.bay = none) : v.faulty = false := by
  have hb := ha.bay
  rw [hv] at hb
  rw [← ha.view]
  simp [Ledger.view, State.ledger, Berth.part, hb]

/-- A berth that takes a bay takes one in order. -/
theorem SoundAt.takeBay (ha : SoundAt g e b v s) {f : Frequency} (hv : g → v.bay = none) :
    ∃ o q, SoundAt g e b { v with bay := o, faulty := q } (takeBay x b f s) ∧ (g → q = false) := by
  unfold Machine.takeBay
  split
  next k hk =>
    have hfree : (s.bay k).state = .free := by
      have := List.find?_some hk
      simp only [Bool.and_eq_true, beq_iff_eq] at this
      exact this.1
    have hturn : SoundAt g e b v { s with bayTurn := otherSection x } := ha.of_ledger
      (ledger_congr (fun _ => rfl) (fun y => by cases y <;> rfl) (fun j => by cases j <;> exact ⟨rfl, rfl⟩) rfl)
    refine ⟨_, _, hturn.claimBay (f := fun r => { r with state := .granted, berth := some b })
      (u := fun r => { r with bay := some k }) rfl ?_ rfl rfl hv, fun _ => rfl⟩
    cases k <;> exact hfree
  next => exact ⟨v.bay, v.faulty, ha, fun hg => ha.faulty_of_bay (hv hg)⟩

theorem rests_of_queued (hf : v.Fits g) (hq : v.state = .queued) : v.asks = none ∧ v.runs = none ∧ v.locks = false := by
  refine ⟨?_, ?_, ?_⟩
  · cases ha : v.asks with
    | none => rfl
    | some k => have := hf.request k ha; cases k <;> simp [View.mayAsk, hq] at this
  · cases hr : v.runs with
    | none => rfl
    | some k =>
      have h1 := hf.closing
      have h2 := hf.opening
      have h3 := hf.stepping
      cases k <;> simp_all
  · exact Bool.eq_false_iff.mpr fun hl => by simpa [hq] using hf.lock hl

theorem sound_grantBerth {p : Profile} (hs : Sound g e s) (hx : s.secOf b = x) (hb : (s.berth b).state = .queued) :
    Sound g e (grantBerth x b p s) := by
  subst hx
  have ha := hs.at b
  have hf := hs.fits b
  generalize s.ledger.view b = v at ha hf
  have hq : v.state = .queued := ha.state.symm.trans hb
  obtain ⟨hasks, hruns, hlocks⟩ := rests_of_queued hf hq
  have h1 := ha.regrant (n := p.demand) (f := fun r => { r with grant := p.demand }) (d := fun r => r.granted + p.demand)
    rfl fun hg => by rw [(hf.waiting hg hq).1]; rfl
  obtain ⟨o, q, h2, hfault⟩ := h1.takeBay (x := s.secOf b) (f := p.frequency) fun hg => (hf.waiting hg hq).2
  have h3 := (h2.of_ledger (ledger_updBerth (b := b) (f := fun r => { r with terms := some p.terms }) rfl)).updRamp
    (f := Ramp.onAdmitted)
  have h4 := h3.enterQuiet (new := .admitted) ⟨by simp [hlocks], fun _ => hq, hf.starts⟩ (by simp [hq])
  refine ((h4.appendStart rfl).of_ledger ledger_noticeBerth).sound ?_ fun _ => ?_
  · constructor <;> simp_all [View.enter, View.mayAsk]
  · constructor <;> simp_all [View.enter, Ramp.onAdmitted, BerthState.holdsCapacity]

/-- A grant leaves the records of the other berths as they were. -/
theorem grantBerth_others {p : Profile} (hfit : (s.sec x).granted + p.demand ≤ (s.sec x).limit) (hc : c ≠ b) :
    (grantBerth x b p s).berth c = s.berth c :=
  (Changes.othersKept b s).grantBerth rfl hfit (fun _ _ => rfl) c hc

/-- A walk over berths that are QUEUED in the section keeps the ledger sound. -/
theorem sound_walkQueue {l ahead : List BerthId} (hs : Sound g e s)
    (hl : ∀ c ∈ l, (s.ledger.berth c).sec = x ∧ (s.ledger.berth c).state = .queued) (hn : l.Nodup) :
    Sound g e (walkQueue x l ahead s) := by
  induction l generalizing s ahead with
  | nil => exact hs
  | cons b l ih =>
    obtain ⟨hb, hl'⟩ := List.forall_mem_cons.mp hl
    obtain ⟨hbl, hn'⟩ := List.nodup_cons.mp hn
    unfold walkQueue
    split
    · exact hs
    · split
      next p hfits hp =>
        refine ih ((sound_grantBerth hs hb.1 hb.2).of_ledger ledger_bumpAhead) (fun c hc => ?_) hn'
        have hfit : (s.sec x).granted + p.demand ≤ (s.sec x).limit := by
          simp only [State.fits, hp, Bool.and_eq_true, decide_eq_true_eq] at hfits
          exact hfits.1
        have hrec : (bumpAhead ahead (grantBerth x b p s)).ledger.berth c = s.ledger.berth c := by
          rw [ledger_bumpAhead]
          exact congrArg Berth.part (grantBerth_others hfit fun hcb => hbl (hcb ▸ hc))
        rw [hrec]
        exact hl' c hc
      next => exact ih hs hl' hn'

theorem sound_servicePass (hs : Sound g e s) : Sound g e (servicePass x s) := by
  unfold servicePass
  split
  · refine sound_walkQueue hs (fun c hc => ?_) (hs.frame.queues x)
    have hx : s.secOf c = x := by
      by_contra hn
      exact (hs.frame.own x c hn).2.2.2 hc
    exact ⟨hx, (hs.fits c).queued.mp (view_queued.mpr (by rw [hx]; exact hc))⟩
  · exact hs

theorem sound_runPasses (hs : Sound g e s) : Sound g e (runPasses s) := by
  have h0 : Sound g e { s with passA := false, passB := false } := hs.of_ledger
    (ledger_congr (fun _ => rfl) (fun y => by cases y <;> rfl) (fun j => by cases j <;> exact ⟨rfl, rfl⟩) rfl)
  unfold runPasses
  dsimp only
  split
  · exact h0
  · exact sound_servicePass h0
  · exact sound_servicePass h0
  · exact sound_servicePass (sound_servicePass h0)

theorem HooksSound.noChoice : HooksSound g Hooks.noChoice :=
  ⟨fun _ hs => hs, fun _ hs => hs, sound_runPasses, closed_calmAt.noChoice, fun _ => rfl, fun _ => rfl⟩

end Sys2Proof.Machine
end

-- ==== The trip path over a sound ledger ====
section
/-! PROOFS. A trip leaves nothing held of the berth, and the ledger sound; so do a proving run and its failures (R14, R20,
R21, R44 to R55). -/

namespace Sys2Proof.Machine

variable {g : Prop} {e : BerthId → Prop} {b c : BerthId} {v w : View} {s t : State} {x : SectionId} {h : Hooks}

/-! ## Berths that hold nothing -/

/-- A timed activity that binds the berth to no state of the changeover. -/
def InFlightKind.loose (k : InFlightKind) : Prop := k ≠ .converterStart ∧ k ≠ .deadWait ∧ k ≠ .holdHandshake

/-- A berth that neither asks, runs nor waits fits any state but QUEUED. -/
theorem View.Rests.fits (hr : v.Rests) (hl : v.locks = false) (hst : v.starts = false) (hq : v.state ≠ .queued)
    (hfl : ∀ k, v.flying = some k → k.loose) : v.Fits g where
  lock := fun h => by simp [hl] at h
  request := fun k h => by simp [hr.asks] at h
  op := fun k h => by simp [hr.runs] at h
  closing := fun h => by simp [hr.runs] at h
  opening := fun h => by simp [hr.runs] at h
  stepping := fun h => by simp [hr.runs] at h
  started := fun h => by rcases h with h | h <;> simpa [InFlightKind.loose] using hfl _ h
  shaking := fun h => by simpa [InFlightKind.loose] using hfl _ h
  starts := fun h => by simp [hst] at h
  queued := by simp [hr.queued, hq]
  waiting := fun _ h => absurd h hq

/-- What holds of a settled berth whatever its operation. -/
structure View.Poised (g : Prop) (v : View) : Prop where
  grantWait : v.pause = some .grantWait → v.asks = some .step
  capacity : g → v.state.holdsCapacity = false → v.grant = 0 ∧ v.bay = none
  whole : g → v.faulty = false

theorem View.Settled.poised (h : v.Settled g) : v.Poised g := ⟨h.grantWait, h.capacity, h.whole⟩

theorem View.Poised.settled (h : v.Poised g) (hc : v.state ≠ .closing) (ho : v.state ≠ .opening) : v.Settled g :=
  ⟨fun hn => absurd hn hc, fun hn => absurd hn ho, h.grantWait, h.capacity, h.whole⟩

/-- A masked ramp channel fits whatever fitted before. -/
theorem View.Fits.masked (h : v.Fits g) : View.Fits g { v with stopped := true, pause := none } where
  lock := h.lock
  request := fun k hk => by
    have := h.request k hk
    cases k <;> simp_all [View.mayAsk]
    tauto
  op := h.op
  closing := h.closing
  opening := h.opening
  stepping := h.stepping
  started := h.started
  shaking := h.shaking
  starts := h.starts
  queued := h.queued
  waiting := h.waiting

theorem View.Settled.masked (h : v.Settled g) : View.Settled g { v with stopped := true, pause := none } :=
  ⟨h.closing, h.opening, fun hn => by simp at hn, h.capacity, h.whole⟩

theorem sound_maskRamp (hs : Sound g e s) : Sound g e (maskRamp b s) :=
  (hs.at b).maskRamp.sound (hs.fits b).masked fun hb => (hs.settled b hb).masked

/-! ## The trip path (R20) -/

/-- What the ledger holds of a berth that trips, up to the arbiter's choice; `k` is what it times then. -/
def View.tripped (k : Option InFlightKind) (v : View) : View :=
  { v with state := .tripped, flying := k, asks := none, runs := none, locks := false, starts := false, queued := false }

theorem rests_tripped {k : Option InFlightKind} : (v.tripped k).Rests := ⟨rfl, rfl, rfl⟩

theorem fits_tripped {k : Option InFlightKind} (hk : ∀ j, k = some j → j.loose) : (v.tripped k).Fits g :=
  rests_tripped.fits rfl rfl (by simp [View.tripped]) hk

/-- The operation in flight of the berth, if any, is abandoned. -/
theorem SoundAt.freed (ha : SoundAt g e b v s) (hn : s.opOf b = none → t = s)
    (hs : ∀ k, s.opOf b = some k → t = Machine.freeArbiter (s.secOf b) k s) : SoundAt g e b { v with runs := none } t := by
  cases hk : s.opOf b with
  | none =>
    have hr : v.runs = none := ha.runs.symm.trans hk
    rw [hn hk]
    obtain ⟨⟩ := v
    subst hr
    exact ha
  | some k =>
    rw [hs k hk]
    exact ha.freeArbiter (by rw [← ha.runs, hk]; simp)

/-- The lock of the berth, if it has it, is released. -/
theorem SoundAt.unlocked (ha : SoundAt g e b v s) : SoundAt g e b { v with locks := false }
    (if s.holdsLock b then Machine.dropLock (s.secOf b) s else s) := by
  split
  next hl => exact ha.dropLock (ha.locks.symm.trans hl)
  next hl =>
    have hk : v.locks = false := ha.locks.symm.trans (Bool.eq_false_iff.mpr hl)
    obtain ⟨⟩ := v
    subst hk
    exact ha

theorem SoundAt.tripUnlocked (ha : SoundAt g e b v s) (hp : v.Placed) {cause : TripCause} :
    ∃ k, (∀ j, k = some j → j.loose) ∧ SoundAt g e b (v.tripped k) (tripUnlocked b cause s) := by
  have hmark : SoundAt g e b { v.move .tripped with flying := none } (tripMarked b cause s) :=
    ((ha.moveTo hp).of_ledger (ledger_updBerth rfl)).clearInFlight
  have hopen : ∃ k, (∀ j, k = some j → InFlightKind.loose j) ∧
      SoundAt g e b { v.move .tripped with flying := k } (tripOpened b cause s) := by
    unfold tripOpened
    split
    · exact ⟨_, fun j hj => by cases hj; simp [InFlightKind.loose],
        (hmark.of_ledger ledger_sendTripOpen).startInFlight⟩
    · exact ⟨_, fun j hj => by simp at hj, hmark⟩
  obtain ⟨k, hk, hopen⟩ := hopen
  have hsec : (Machine.withdrawRequest b (tripOpened b cause s)).secOf b = s.secOf b :=
    secOf_of_berth (withdrawRequest_berth.trans tripOpened_berth) rfl
  have hfree := hopen.withdrawRequest.freed (t := tripFreed b cause s) (fun hn => by rw [tripFreed, hn]) fun k hk => by
    rw [tripFreed, hk, hsec]
  have hlock := hfree.unlocked
  rw [tripFreed_secOf] at hlock
  exact ⟨k, hk, hlock⟩

/-- A trip leaves the ledger sound, where a berth without capacity has no grant and no bay. -/
theorem SoundAt.trip (ha : SoundAt g e b v s) (hh : HooksSound g h) (hf : v.Fits g) (hne : v.state ≠ .tripped)
    (hcap : ¬e b → g → v.state.holdsCapacity = false → v.grant = 0 ∧ v.bay = none) {cause : TripCause}
    {reason : Option FailReason} : Sound g e (trip h b cause reason s) := by
  obtain ⟨k, hk, hfree⟩ := ha.tripUnlocked hf.placed (cause := cause)
  have hhead : ∃ l st q, SoundAt g e b { v.tripped k with locks := l, starts := st, faulty := q }
      (tripHead h b cause s) ∧
      View.Fits g { v.tripped k with locks := l, starts := st, faulty := q } := by
    rw [tripHead_eq]
    split
    · exact hfree.early hh (fits_tripped hk) rests_tripped
    · exact ⟨_, _, _, hfree, fits_tripped hk⟩
  obtain ⟨l, st, q, hhead, hfit⟩ := hhead
  have hgiven : ∃ w : View, SoundAt g e b w (tripGiven h b cause s) ∧ w.Fits g ∧ w.state = .tripped ∧
      (¬e b → g → w.grant = 0 ∧ w.bay = none) := by
    unfold tripGiven
    split
    next hc =>
      have hrel := hhead.releaseGrant
      obtain ⟨l', st', q', hp, hfit'⟩ := hrel.passes hh
        ⟨hfit.lock, hfit.request, hfit.op, hfit.closing, hfit.opening, hfit.stepping, hfit.started, hfit.shaking,
          hfit.starts, hfit.queued, fun _ _ => ⟨rfl, rfl⟩⟩ ⟨rfl, rfl, rfl⟩
      exact ⟨_, hp, hfit', rfl, fun _ _ => ⟨rfl, rfl⟩⟩
    next hc =>
      refine ⟨_, hhead, hfit, rfl, fun he hg => hcap he hg ?_⟩
      rw [ha.state] at hc
      exact Bool.eq_false_iff.mpr hc
  obtain ⟨w, hw, hwf, hws, hwc⟩ := hgiven
  have hend : Machine.trip h b cause reason s = tripTail h b (s.berth b).state cause reason (tripHead h b cause s) :=
    if_neg (by rw [ha.state]; exact hne)
  have hmask : SoundAt g e b { w with stopped := true, pause := none } (Machine.trip h b cause reason s) := by
    rw [hend]
    exact hw.maskRamp.of_ledger (ledger_noticeBerth.trans (ledger_refuseHeld.trans (ledger_updBerth rfl)))
  refine hmask.sound hwf.masked fun he => ?_
  exact View.Poised.settled ⟨fun hn => by simp at hn, fun hg _ => hwc he hg, fun hg => hw.faulty_of_bay (hwc he hg).2⟩
    (by simp [hws]) (by simp [hws])

theorem sound_trip (hs : Sound g e s) (hh : HooksSound g h) {cause : TripCause} {reason : Option FailReason} :
    Sound g e (trip h b cause reason s) := by
  by_cases hne : (s.berth b).state = .tripped
  · rw [trip, if_pos hne]; exact hs
  · exact (hs.at b).trip hh (hs.fits b) hne fun he => (hs.settled b he).capacity

/-! ## Berths without capacity (R2) -/

theorem View.Fits.rests (hf : v.Fits g) (hc : v.state.holdsCapacity = false) :
    v.asks = none ∧ v.runs = none ∧ v.locks = false ∧ v.starts = false := by
  refine ⟨?_, ?_, Bool.eq_false_iff.mpr fun hl => ?_, Bool.eq_false_iff.mpr fun hl => ?_⟩
  · by_contra hn
    obtain ⟨k, hk⟩ := Option.ne_none_iff_exists'.mp hn
    have := hf.request k hk
    cases k <;> simp only [View.mayAsk] at this <;> grind [BerthState.holdsCapacity]
  · by_contra hn
    obtain ⟨k, hk⟩ := Option.ne_none_iff_exists'.mp hn
    cases k
    · simp [hf.closing (.inl hk), BerthState.holdsCapacity] at hc
    · simp [hf.closing (.inr hk), BerthState.holdsCapacity] at hc
    · rcases hf.stepping hk with h | h <;> simp [h, BerthState.holdsCapacity] at hc
    · simp [hf.opening hk, BerthState.holdsCapacity] at hc
  · rcases hf.lock hl with h | h | h <;> simp [h, BerthState.holdsCapacity] at hc
  · simp [hf.starts hl, BerthState.holdsCapacity] at hc

/-- A berth without capacity enters another such state. -/
theorem sound_enterIdle (hs : Sound g e s) {new : BerthState} (hc : (s.berth b).state.holdsCapacity = false)
    (hn : new.holdsCapacity = false) (hq : new ≠ .queued) :
    Sound g e (enterState h b new s) ∧ ((enterState h b new s).berth b).state = new := by
  by_cases hne : (s.berth b).state = new
  · rw [enterState, if_pos hne]; exact ⟨hs, hne⟩
  · have hf := hs.fits b
    obtain ⟨h1, h2, h3, h4⟩ := hf.rests hc
    have ha := (hs.at b).enterPlain (h := h) hf.placed hne (.inl h3)
    refine ⟨ha.sound (View.Rests.fits ⟨h1, h2, rfl⟩ (by simp [View.enter, h3]) rfl hq fun k hk => by
      simp [View.enter] at hk) fun he => ?_, ha.state⟩
    have hset := hs.settled b he
    refine View.Poised.settled ⟨hset.grantWait, fun hg _ => hset.capacity hg hc, hset.whole⟩ ?_ ?_ <;>
      (rintro rfl; simp [BerthState.holdsCapacity] at hn)

/-! ## Timed activities that bind no changeover -/

theorem sound_clearInFlight (hs : Sound g e s) (hr : s.opOf b = none) : Sound g e (clearInFlight b s) := by
  have hf := hs.fits b
  refine (hs.at b).clearInFlight.sound ⟨hf.lock, hf.request, fun k hk => ?_, hf.closing, hf.opening, hf.stepping,
    fun hn => by simp at hn, fun hn => by simp at hn, hf.starts, hf.queued, hf.waiting⟩ fun he => ?_
  · exact absurd ((view_runs.symm.trans hk).symm.trans hr) (by simp)
  · obtain ⟨h1, h2, h3, h4, h5⟩ := hs.settled b he
    exact ⟨h1, h2, h3, h4, h5⟩

theorem sound_startInFlight (hs : Sound g e s) (hr : s.opOf b = none) {k : InFlightKind} {n : Nat} (hk : k.loose) :
    Sound g e (startInFlight b k n s) := by
  have hf := hs.fits b
  obtain ⟨k1, k2, k3⟩ := hk
  refine (hs.at b).startInFlight.sound ⟨hf.lock, hf.request, fun j hj => ?_, hf.closing, hf.opening, hf.stepping,
    fun hn => by simp [k1, k2] at hn, fun hn => by simp [k3] at hn, hf.starts, hf.queued, hf.waiting⟩ fun he => ?_
  · exact absurd ((view_runs.symm.trans hj).symm.trans hr) (by simp)
  · obtain ⟨h1, h2, h3, h4, h5⟩ := hs.settled b he
    exact ⟨h1, h2, h3, h4, h5⟩

/-! ## Proving (R14, R44 to R55) -/

/-- The ledger is sound, and the berth has no operation in flight. -/
def SoundFree (g : Prop) (e : BerthId → Prop) (b : BerthId) (s : State) : Prop := Sound g e s ∧ s.opOf b = none

theorem SoundFree.of_ledger (hs : SoundFree g e b s) (hl : t.ledger = s.ledger) : SoundFree g e b t :=
  ⟨hs.1.of_ledger hl, by rw [← view_runs, hl]; exact hs.2⟩

theorem soundFree_of_idle (hs : Sound g e s) (hc : (s.berth b).state.holdsCapacity = false) : SoundFree g e b s :=
  ⟨hs, ((hs.fits b).rests hc).2.1⟩

theorem sound_failRun {r : FailReason} (hs : SoundFree g e b s) : Sound g e (failRun b r s) :=
  sound_trip ((sound_clearInFlight hs.1 hs.2).of_ledger (ledger_updBerth rfl)) .quiet

theorem sound_sendTest {p : ProvingStep} (hs : SoundFree g e b s) : Sound g e (sendTest b p s) := by
  unfold sendTest
  dsimp only
  split <;> rename_i hu <;> have hl := (congrArg (·.1.ledger) hu).symm.trans ledger_send
  · obtain ⟨h1, h2⟩ := hs.of_ledger (hl.trans (ledger_updBerth rfl))
    exact sound_startInFlight h1 h2 (by simp [InFlightKind.loose])
  · exact sound_failRun (hs.of_ledger (hl.trans (ledger_updBerth rfl)))

theorem sound_sendAssign {f : Func} (hs : SoundFree g e b s) : Sound g e (sendAssign b f s) := by
  unfold sendAssign
  dsimp only
  split <;> rename_i hu <;> have hl := (congrArg (·.1.ledger) hu).symm.trans ledger_send
  · obtain ⟨h1, h2⟩ := hs.of_ledger (hl.trans (ledger_updBerth rfl))
    exact sound_startInFlight h1 h2 (by simp [InFlightKind.loose])
  · exact sound_failRun (hs.of_ledger (hl.trans (ledger_updBerth rfl)))

theorem sound_startProving (hs : SoundFree g e b s) : Sound g e (startProving b s) :=
  sound_sendTest (hs.of_ledger (ledger_updBerth rfl))

/-- The ledger is sound, and the berth is in PLUGGED. -/
def SoundPlugged (g : Prop) (e : BerthId → Prop) (b : BerthId) (s : State) : Prop :=
  Sound g e s ∧ (s.ledger.view b).state = .plugged

theorem SoundPlugged.of_ledger (hs : SoundPlugged g e b s) (hl : t.ledger = s.ledger) : SoundPlugged g e b t :=
  ⟨hs.1.of_ledger hl, by rw [hl]; exact hs.2⟩

theorem SoundPlugged.idle (hs : SoundPlugged g e b s) : (s.berth b).state.holdsCapacity = false := by
  rw [← view_state, hs.2]; rfl

theorem SoundPlugged.free (hs : SoundPlugged g e b s) : SoundFree g e b s := soundFree_of_idle hs.1 hs.idle

theorem sound_seekProfile (hs : SoundPlugged g e b s) : Sound g e (seekProfile b s) := by
  unfold seekProfile
  split
  · exact hs.1
  · split
    next n _ =>
      have h1 := hs.of_ledger (ledger_updBerth (b := b) (f := fun r => { r with profile := some n }) rfl)
      exact (sound_enterIdle h1.1 h1.idle rfl (by simp)).1
    next => exact hs.1.of_ledger ledger_noticeBerth

theorem sound_passRun (hs : SoundPlugged g e b s) : Sound g e (passRun b s) :=
  sound_seekProfile (hs.of_ledger (ledger_updBerth rfl))

theorem sound_hardPath {n : Fin 32} {r : CableRec} {f : CoreSet} (hs : SoundPlugged g e b s) :
    Sound g e (hardPath b n r f s) := by
  have hl : (updBerth b (fun t => { t with comparison := f &&& judged r.map }) s).ledger = s.ledger := ledger_updBerth rfl
  unfold hardPath
  dsimp only
  split
  · exact sound_sendAssign (hs.free.of_ledger hl)
  · exact sound_failRun (hs.free.of_ledger ((ledger_noticeBerth.trans ledger_updCable).trans hl))

theorem sound_firstLook {n : Fin 32} {r : CableRec} {f : CoreSet} (hs : SoundPlugged g e b s) :
    Sound g e (firstLook b n r f s) := by
  unfold firstLook
  dsimp only
  split
  · exact sound_hardPath hs
  · split
    · exact sound_passRun hs
    · exact sound_sendTest (hs.free.of_ledger (ledger_updBerth rfl))

theorem sound_retest {n : Fin 32} {r : CableRec} {f : CoreSet} (hs : SoundPlugged g e b s) :
    Sound g e (retest b n r f s) := by
  unfold retest
  dsimp only
  split
  · exact sound_hardPath (hs.of_ledger ledger_updCable)
  · split
    · exact sound_passRun (hs.of_ledger ledger_updCable)
    · exact sound_sendTest (hs.free.of_ledger ((ledger_updBerth rfl).trans ledger_updCable))

theorem sound_firstTest {r : CoreTestReport} (hs : SoundPlugged g e b s) : Sound g e (firstTest b r s) := by
  have hsel : (selectRecord r.cable s).2.ledger = s.ledger := ledger_selectRecord
  unfold firstTest
  extract_lets inUse
  split
  · exact sound_failRun hs.free
  · split <;> rename_i hu <;> rw [hu] at hsel
    · exact hs.1.of_ledger hsel
    · rename_i n _
      extract_lets u
      have hul : u.ledger = s.ledger :=
        (((ledger_foldReport.trans (ledger_updBerth rfl)).trans ledger_updCable).trans ledger_unlinkCable).trans hsel
      split
      · exact hs.1.of_ledger hul
      · split
        · exact sound_failRun (hs.free.of_ledger hul)
        · split
          · exact sound_sendAssign (hs.free.of_ledger hul)
          · exact sound_firstLook (hs.of_ledger hul)

theorem sound_laterTest {r : CoreTestReport} {judge : BerthId → Fin 32 → CableRec → CoreSet → State → State}
    (hj : ∀ {n c f u}, SoundPlugged g e b u → Sound g e (judge b n c f u)) (hs : SoundPlugged g e b s) :
    Sound g e (laterTest b r judge s) := by
  unfold laterTest
  split
  · exact sound_failRun hs.free
  · split
    · exact hs.1
    · dsimp only
      split
      · exact hs.1.of_ledger ledger_foldReport
      · exact hj (hs.of_ledger ledger_foldReport)

theorem SoundPlugged.clearInFlight (hs : SoundPlugged g e b s) : SoundPlugged g e b (clearInFlight b s) :=
  ⟨sound_clearInFlight hs.1 hs.free.2, by
    rw [(hs.1.at b).clearInFlight.view]; exact hs.2⟩

theorem sound_takeCoreTest {r : CoreTestReport} (hs : Sound g e s) : Sound g e (takeCoreTest b r s) := by
  unfold takeCoreTest
  split
  · exact hs
  next hp =>
    have hc : SoundPlugged g e b (Machine.clearInFlight b s) := SoundPlugged.clearInFlight ⟨hs, not_not.mp hp⟩
    split
    · exact sound_firstTest hc
    · exact sound_laterTest sound_retest hc
    · exact sound_laterTest sound_firstLook hc
    · exact hs
    · exact hs

theorem sound_takeAssignDone {r : AssignDoneReport} (hs : Sound g e s) : Sound g e (takeAssignDone b r s) := by
  unfold takeAssignDone
  split
  · exact hs
  next hp =>
    have hc : SoundPlugged g e b (Machine.clearInFlight b s) :=
      SoundPlugged.clearInFlight ⟨hs, not_not.mp (not_or.mp hp).1⟩
    dsimp only
    split
    · split
      · exact sound_sendTest hc.free
      · split
        · exact sound_sendTest hc.free
        · exact sound_sendTest (hc.free.of_ledger ((ledger_updBerth rfl).trans
            (ledger_noticeBerth.trans ledger_updCable)))
    · exact sound_failRun hc.free

end Sys2Proof.Machine
end

-- ==== The changeover over a sound ledger ====
section
/-! PROOFS. Starts, ramps, aborts and releases of one berth keep the ledger sound, whatever sound hooks run in between
(R8, R101 to R119). -/

namespace Sys2Proof.Machine

variable {g : Prop} {e : BerthId → Prop} {b c : BerthId} {v w : View} {s t : State} {x : SectionId} {h : Hooks}

/-! ## A berth at rest keeps its record through what its event sets going -/

/-- The ledger is sound, and the berth neither asks, runs nor waits for capacity. -/
structure SoundRest (g : Prop) (e : BerthId → Prop) (b : BerthId) (s : State) : Prop where
  sound : Sound g e s
  rests : (s.ledger.view b).Rests

theorem SoundRest.of_ledger (hs : SoundRest g e b s) (hl : t.ledger = s.ledger) : SoundRest g e b t :=
  ⟨hs.sound.of_ledger hl, by rw [hl]; exact hs.rests⟩

theorem SoundRest.choice (hs : SoundRest g e b s) (hh : HooksSound g h) :
    SoundRest g e b (h.choice x s) ∧ (h.choice x s).berth b = s.berth b := by
  have hc := hh.calm.choice x ((hs.sound.at b).calmAt hs.rests)
  exact ⟨⟨hh.choice x hs.sound, rests_of_calmAt hc⟩, hc.1.2⟩

theorem sound_dropLock (hs : Sound g e s) : Sound g e (dropLock x s) := by
  cases hl : (s.sec x).lock with
  | none => exact hs.of_ledger (ledger_updSec (by simp [SectionRec.part, hl]))
  | some l =>
    have hx : s.secOf l.holder = x := by
      by_contra hn
      exact (hs.frame.own x l.holder hn).2.2.1 (by simp [State.ledger, SectionRec.part, hl])
    have hf := hs.fits l.holder
    have hk : (s.ledger.view l.holder).locks = true := by rw [view_locks, holdsLock_iff, hx, hl]; rfl
    rw [← hx]
    refine ((hs.at l.holder).dropLock hk).sound ⟨fun h => by simp at h, hf.request, hf.op, hf.closing, hf.opening,
      hf.stepping, hf.started, hf.shaking, hf.starts, hf.queued, hf.waiting⟩ fun he => ?_
    obtain ⟨h1, h2, h3, h4, h5⟩ := hs.settled l.holder he
    exact ⟨h1, h2, h3, h4, h5⟩

theorem sound_releaseLock (hs : Sound g e s) (hh : HooksSound g h) : Sound g e (releaseLock h b s) := by
  unfold releaseLock
  split
  · exact hh.choice _ (sound_dropLock hs)
  · exact hs

theorem dropLock_rests (hr : (s.ledger.view b).Rests) : ((dropLock x s).ledger.view b).Rests := by
  have hsec : ∀ y, ((dropLock x s).ledger.sec y).requests = (s.ledger.sec y).requests ∧
      ((dropLock x s).ledger.sec y).op = (s.ledger.sec y).op ∧
      ((dropLock x s).ledger.sec y).queue = (s.ledger.sec y).queue := fun y => by
    simp only [State.ledger, dropLock, updSec_sec]
    split
    next hy => subst hy; exact ⟨rfl, rfl, rfl⟩
    next => exact ⟨rfl, rfl, rfl⟩
  have hb : (dropLock x s).ledger.berth b = s.ledger.berth b := by simp [State.ledger, dropLock]
  obtain ⟨h1, h2, h3⟩ := hr
  simp only [Ledger.view, SecPart.opFor] at h1 h2 h3
  constructor <;> simp only [Ledger.view, SecPart.opFor, hb, (hsec _).1, (hsec _).2.1, (hsec _).2.2] <;> assumption

theorem SoundRest.releaseLock (hs : SoundRest g e b s) (hh : HooksSound g h) :
    SoundRest g e b (releaseLock h b s) ∧ (releaseLock h b s).berth b = s.berth b := by
  unfold Machine.releaseLock
  split
  · obtain ⟨h1, h2⟩ := SoundRest.choice (h := h) (x := s.secOf b) (b := b)
      ⟨sound_dropLock (x := s.secOf b) hs.sound, dropLock_rests hs.rests⟩ hh
    exact ⟨h1, h2.trans (updSec_berth _ _ _ _)⟩
  · exact ⟨hs, rfl⟩

/-- A berth at rest enters a state, settles there, and rests. -/
theorem SoundAt.enterRest (ha : SoundAt g e b v s) (hh : HooksSound g h) (hp : v.Placed) {new : BerthState}
    (hne : v.state ≠ new) (hr : v.Rests) (hf : (v.enter new).Fits g) (hs : ¬e b → (v.enter new).Settled g) :
    SoundRest g e b (Machine.enterState h b new s) ∧ ((Machine.enterState h b new s).ledger.view b).state = new ∧
      ((Machine.enterState h b new s).ledger.view b).flying = none := by
  obtain ⟨u, hu, -, hor⟩ := ha.entered (h := h) hp hne
  have hrest : SoundRest g e b u := ⟨hu.sound hf hs, by rw [hu.view]; exact ⟨hr.asks, hr.runs, rfl⟩⟩
  rcases hor with hor | hor <;> rw [hor]
  · exact ⟨hrest, by rw [hu.view]; rfl, by rw [hu.view]; rfl⟩
  · obtain ⟨h1, h2⟩ := hrest.choice hh (x := s.secOf b)
    refine ⟨h1, by rw [view_state, h2, hu.state]; rfl, ?_⟩
    rw [view_flying, State.flying, h2, ← State.flying, hu.flying]
    rfl

/-! ## Requests (R83) -/

/-- A request that the berth may ask, as it settles with it. -/
theorem SoundAt.enterRequest (ha : SoundAt g e b v s) (hh : HooksSound g h) {k : OpKind}
    (hf : View.Fits g { v with asks := some k }) (hs : ¬e b → View.Settled g { v with asks := some k }) :
    Sound g e (enterRequest h b k s) := by
  have hset := (ha.setRequest (k := some k)).sound hf hs
  unfold Machine.enterRequest
  dsimp only
  split
  · exact hh.choice _ hset
  · exact hset

/-- What a berth with no operation in flight fits when it asks for one. -/
theorem View.Fits.ask (hf : v.Fits g) {k : OpKind} {m : Bool} {p : Option PauseRole} (hr : v.runs = none)
    (hm : View.mayAsk { v with stopped := m, pause := p } k)
    (hs : v.flying ≠ some .holdHandshake ∨ v.state = .admitted) :
    View.Fits g { v with stopped := m, pause := p, asks := some k } where
  lock := hf.lock
  request := fun j hj => by
    obtain rfl : k = j := by simpa using hj
    cases k <;> exact hm
  op := fun j hj => by simp [hr] at hj
  closing := hf.closing
  opening := hf.opening
  stepping := hf.stepping
  started := hf.started
  shaking := fun hn => by
    rcases hs with hs | hs
    · exact absurd hn hs
    · exact .inl hs
  starts := hf.starts
  queued := hf.queued
  waiting := hf.waiting

/-! ## Giving up before the breaker has closed (R109) -/

theorem View.Fits.queued_eq_false (hf : v.Fits g) (hq : v.state ≠ .queued) : v.queued = false :=
  Bool.eq_false_iff.mpr fun h => hq (hf.queued.mp h)

/-- What the ledger holds of a berth that has given its admission back. -/
def View.givenUp (v : View) : View :=
  { v with asks := none, flying := none, grant := 0, bay := none, faulty := false }

theorem SoundAt.givenUp (ha : SoundAt g e b v s) : SoundAt g e b v.givenUp
    (s |> Machine.withdrawRequest b |> Machine.clearInFlight b |> endHold b |> Machine.releaseGrant b) :=
  ((ha.withdrawRequest.clearInFlight).of_ledger (ledger_endHold (b := b))).releaseGrant

theorem View.Fits.givenUp (hf : v.Fits g) (hr : v.runs = none) : v.givenUp.Fits g :=
  ⟨hf.lock, fun j hj => by simp [View.givenUp] at hj, fun j hj => by simp [View.givenUp, hr] at hj, hf.closing, hf.opening,
    hf.stepping, fun hn => by simp [View.givenUp] at hn, fun hn => by simp [View.givenUp] at hn, hf.starts, hf.queued,
    fun _ _ => ⟨rfl, rfl⟩⟩

/-- A changeover given up in ADMITTED or in CLOSING, its operation over, leaves the berth in PROVED with nothing. -/
theorem SoundAt.changeoverFailure (ha : SoundAt g e b v s) (hh : HooksSound g h) (hf : v.Fits g) (hr : v.runs = none)
    (hst : v.state = .admitted ∨ v.state = .closing) (hps : ¬e b → v.pause ≠ some .grantWait) {k : ChangeoverFailure} :
    Sound g e (changeoverFailure h b k s) := by
  have hq : v.queued = false := hf.queued_eq_false (by rcases hst with h | h <;> simp [h])
  obtain ⟨l, st, q, hpass, hfit'⟩ := ha.givenUp.passes hh (hf.givenUp hr) ⟨rfl, hr, hq⟩
  have hne : v.state ≠ .proved := by rcases hst with h | h <;> simp [h]
  have hfal : q = false := hpass.faulty_of_bay rfl
  refine (hpass.enterState hh hfit'.placed hne ?_ fun he => ?_).of_ledger ledger_noticeBerth
  · exact View.Rests.fits ⟨rfl, hr, rfl⟩ (by simp [View.enter, BerthState.mayLock]) rfl (by simp [View.enter])
      fun j hj => by simp [View.enter] at hj
  · exact View.Poised.settled ⟨fun hn => absurd hn (hps he), fun _ _ => ⟨rfl, rfl⟩, fun _ => hfal⟩ (by simp [View.enter])
      (by simp [View.enter])

/-! ## The start of a changeover (R106, R107, R111) -/

theorem View.Fits.admitted (hf : v.Fits g) (hst : v.state = .admitted) :
    v.runs = none ∧ v.locks = false ∧ v.queued = false := by
  refine ⟨?_, Bool.eq_false_iff.mpr fun hl => ?_, hf.queued_eq_false (by simp [hst])⟩
  · by_contra hn
    obtain ⟨k, hk⟩ := Option.ne_none_iff_exists'.mp hn
    cases k
    · exact absurd (hf.closing (.inl hk)) (by simp [hst])
    · exact absurd (hf.closing (.inr hk)) (by simp [hst])
    · exact absurd (hf.stepping hk) (by simp [hst])
    · exact absurd (hf.opening hk) (by simp [hst])
  · exact absurd (hf.lock hl) (by simp [hst])

theorem View.Settled.no_grantWait (hs : v.Settled g) (hf : v.Fits g) (hst : v.state ≠ .rampIn ∧ v.state ≠ .rampOut) :
    v.pause ≠ some .grantWait := fun hn => by
  have := hf.request .step (hs.grantWait hn)
  simp only [View.mayAsk] at this
  tauto

theorem sound_changeoverFailure (hs : Sound g e s) (hh : HooksSound g h) (hst : (s.berth b).state = .admitted)
    {k : ChangeoverFailure} : Sound g e (changeoverFailure h b k s) := by
  have hf := hs.fits b
  exact (hs.at b).changeoverFailure hh hf (hf.admitted hst).1 (.inl hst) fun he =>
    (hs.settled b he).no_grantWait hf (by rw [view_state, hst]; simp)

/-- The timed activities of a berth in ADMITTED. -/
theorem sound_startInFlight_admitted (hs : Sound g e s) (hst : (s.berth b).state = .admitted) {k : InFlightKind} {n : Nat} :
    Sound g e (startInFlight b k n s) := by
  have hf := hs.fits b
  refine (hs.at b).startInFlight.sound ⟨hf.lock, hf.request, fun j hj => ?_, hf.closing, hf.opening, hf.stepping,
    fun _ => hst, fun _ => .inl hst, hf.starts, hf.queued, hf.waiting⟩ fun he => ?_
  · exact absurd ((hf.admitted hst).1.symm.trans hj) (by simp)
  · obtain ⟨h1, h2, h3, h4, h5⟩ := hs.settled b he
    exact ⟨h1, h2, h3, h4, h5⟩

theorem state_of_ledger (hl : t.ledger = s.ledger) : (t.berth b).state = (s.berth b).state := by
  rw [← view_state, hl]; rfl

/-- HOLD_PARALLEL finds room, or what a full queue leads to follows. -/
theorem sound_startHandshake {onFull : State → State}
    (hok : ∀ {u n}, u.ledger = s.ledger → Sound g e (startInFlight b .holdHandshake n u))
    (hfull : ∀ {u}, u.ledger = s.ledger → Sound g e (onFull u)) : Sound g e (startHandshake onFull b s) := by
  unfold startHandshake
  split <;> rename_i hu <;> have hl := (congrArg (·.1.ledger) hu).symm.trans ledger_send
  · exact hok hl
  · exact hfull hl

theorem sound_startDeadWait (hs : Sound g e s) (hh : HooksSound g h) (hst : (s.berth b).state = .admitted) :
    Sound g e (startDeadWait h b s) := by
  unfold startDeadWait
  split <;> rename_i hu <;> have hl := (congrArg (·.1.ledger) hu).symm.trans ledger_send
  · exact sound_startInFlight_admitted (hs.of_ledger hl) ((state_of_ledger hl).trans hst)
  · exact sound_changeoverFailure (hs.of_ledger hl) hh ((state_of_ledger hl).trans hst)

theorem sound_startMethod (hs : Sound g e s) (hh : HooksSound g h) (hst : (s.berth b).state = .admitted) :
    Sound g e (startMethod h b s) := by
  unfold startMethod
  split
  · exact sound_startHandshake
      (fun hl => sound_startInFlight_admitted (hs.of_ledger hl) ((state_of_ledger hl).trans hst))
      fun hl => sound_changeoverFailure (hs.of_ledger hl) hh ((state_of_ledger hl).trans hst)
  · exact sound_startDeadWait hs hh hst
  · exact hs

theorem sound_startChangeover (hs : Sound g e s) (hh : HooksSound g h) (hst : (s.berth b).state = .admitted) :
    Sound g e (startChangeover h b s) := by
  unfold startChangeover
  split
  · exact sound_startMethod hs hh hst
  · split <;> rename_i hu <;> have hl := (congrArg (·.1.ledger) hu).symm.trans ledger_send
    · exact sound_startInFlight_admitted (hs.of_ledger hl) ((state_of_ledger hl).trans hst)
    · exact sound_changeoverFailure (hs.of_ledger hl) hh ((state_of_ledger hl).trans hst)

end Sys2Proof.Machine
end

-- ==== Ramps over a sound ledger ====
section
/-! PROOFS. A ramp's steps, its end, its pauses and its aborts keep the ledger sound (R101 to R105, R115 to R119). -/

namespace Sys2Proof.Machine

variable {g : Prop} {e : BerthId → Prop} {b c : BerthId} {v w : View} {s t : State} {x : SectionId} {h : Hooks}

/-! ## A ramp at rest -/

/-- A berth in RAMP_IN or RAMP_OUT. -/
def View.onRamp (v : View) : Prop := v.state = .rampIn ∨ v.state = .rampOut

/-- The ledger is sound, and the berth is in a ramp, without request, operation and handshake. -/
structure SoundRamp (g : Prop) (e : BerthId → Prop) (b : BerthId) (s : State) : Prop extends SoundRest g e b s where
  ramp : (s.ledger.view b).onRamp
  unshaken : (s.ledger.view b).flying ≠ some .holdHandshake

theorem SoundRamp.of_ledger (hs : SoundRamp g e b s) (hl : t.ledger = s.ledger) : SoundRamp g e b t :=
  ⟨hs.toSoundRest.of_ledger hl, by rw [hl]; exact hs.ramp, by rw [hl]; exact hs.unshaken⟩

/-- A berth in a ramp steps or runs nothing. -/
theorem View.Fits.runs_onRamp (hf : v.Fits g) (hst : v.onRamp) : v.runs = none ∨ v.runs = some .step := by
  rcases hr : v.runs with - | k
  · exact .inl rfl
  · have hc := hf.closing
    have ho := hf.opening
    rcases hst with hst | hst <;> cases k <;> simp_all

theorem View.Fits.asks_onRamp (hf : v.Fits g) (hst : v.onRamp) (hn : v.asks ≠ some .openOp) :
    v.asks = none ∨ v.asks = some .step := by
  rcases hr : v.asks with - | k
  · exact .inl rfl
  · have hm := hf.request k hr
    rcases hst with hst | hst <;> cases k <;> simp_all [View.mayAsk]

/-- The channel of a berth without a request may change, but that it must not wait for a grant. -/
theorem View.Fits.channel (hf : v.Fits g) (ha : v.asks = none) {m : Bool} {p : Option PauseRole} :
    View.Fits g { v with stopped := m, pause := p } :=
  ⟨hf.lock, fun k hk => by simp [ha] at hk, hf.op, hf.closing, hf.opening, hf.stepping, hf.started, hf.shaking, hf.starts,
    hf.queued, hf.waiting⟩

theorem View.Settled.channel (hs : v.Settled g) {m : Bool} {p : Option PauseRole} (hp : p ≠ some .grantWait) :
    View.Settled g { v with stopped := m, pause := p } :=
  ⟨hs.closing, hs.opening, fun hn => absurd hn hp, hs.capacity, hs.whole⟩

/-- A channel that no longer waits for anything fits whatever fitted before. -/
theorem View.Fits.unpaused (hf : v.Fits g) : View.Fits g { v with pause := none } where
  lock := hf.lock
  request := fun k hk => by
    have hm := hf.request k hk
    cases k <;> simp_all [View.mayAsk]
    tauto
  op := hf.op
  closing := hf.closing
  opening := hf.opening
  stepping := hf.stepping
  started := hf.started
  shaking := hf.shaking
  starts := hf.starts
  queued := hf.queued
  waiting := hf.waiting

theorem View.Settled.pause_of_asks (hs : v.Settled g) (ha : v.asks = none) : v.pause ≠ some .grantWait := fun hn => by
  simpa [ha] using hs.grantWait hn

theorem SoundRest.updRamp (hs : SoundRest g e b s) {f : Ramp → Ramp}
    (hp : ¬e b → (f (s.berth b).ramp).pauseTimer.map (·.1) ≠ some .grantWait) : SoundRest g e b (updRamp b f s) := by
  have ha := (hs.sound.at b).updRamp (f := f)
  refine ⟨ha.sound ((hs.sound.fits b).channel hs.rests.asks) fun he => (hs.sound.settled b he).channel (hp he), ?_⟩
  rw [ha.view]
  exact ⟨hs.rests.asks, hs.rests.runs, hs.rests.queued⟩

theorem SoundRamp.updRamp (hs : SoundRamp g e b s) {f : Ramp → Ramp}
    (hp : ¬e b → (f (s.berth b).ramp).pauseTimer.map (·.1) ≠ some .grantWait) : SoundRamp g e b (updRamp b f s) := by
  have ha := (hs.sound.at b).updRamp (f := f)
  refine ⟨hs.toSoundRest.updRamp hp, ?_, ?_⟩ <;> rw [ha.view]
  · exact hs.ramp
  · exact hs.unshaken

/-! ## Steps and terminal count (R102 to R105) -/

theorem sound_requestStep (hs : Sound g e s) (hh : HooksSound g h) (hst : (s.ledger.view b).onRamp)
    (hr : (s.ledger.view b).runs = none) (hfl : (s.ledger.view b).flying ≠ some .holdHandshake) :
    Sound g e (requestStep h b s) := by
  unfold requestStep
  dsimp only
  split
  · exact hs
  · refine ((hs.at b).updRamp (f := fun r => { r with pauseTimer := some (.grantWait, s.timings.pauseLimit) })).enterRequest
      hh ((hs.fits b).ask hr hst (.inl hfl)) fun he => ?_
    obtain ⟨h1, h2, -, h4, h5⟩ := hs.settled b he
    exact ⟨h1, h2, fun _ => rfl, h4, h5⟩

theorem SoundRamp.requestStep (hs : SoundRamp g e b s) (hh : HooksSound g h) : Sound g e (requestStep h b s) :=
  sound_requestStep hs.sound hh hs.ramp hs.rests.runs hs.unshaken

/-- A berth at rest fits any state but QUEUED when it enters it. -/
theorem View.Rests.enter (hr : v.Rests) {new : BerthState} (hn : new ≠ .queued) : (v.enter new).Fits g where
  lock := fun hk => mayLock_iff.mp (Bool.and_eq_true_iff.mp hk).2
  request := fun k hk => by simp [View.enter, hr.asks] at hk
  op := fun k hk => by simp [View.enter, hr.runs] at hk
  closing := fun hk => by simp [View.enter, hr.runs] at hk
  opening := fun hk => by simp [View.enter, hr.runs] at hk
  stepping := fun hk => by simp [View.enter, hr.runs] at hk
  started := fun hk => by simp [View.enter] at hk
  shaking := fun hk => by simp [View.enter] at hk
  starts := fun hk => by simp [View.enter] at hk
  queued := by simpa [View.enter] using hn
  waiting := fun _ hq => absurd hq hn

/-- A berth at rest, poised, settles in a state with capacity that calls for no operation. -/
theorem View.Poised.enter (hp : v.Poised g) {new : BerthState} (hc : new.holdsCapacity = true) (h1 : new ≠ .closing)
    (h2 : new ≠ .opening) : (v.enter new).Settled g :=
  View.Poised.settled ⟨hp.grantWait, fun _ hn => by simp [View.enter, hc] at hn, hp.whole⟩ h1 h2

/-- A berth at rest goes on in ON_SHORE or in a ramp. -/
theorem SoundRest.enterState (hs : SoundRest g e b s) (hh : HooksSound g h) {new : BerthState}
    (hne : (s.ledger.view b).state ≠ new) (hc : new.holdsCapacity = true) (h1 : new ≠ .closing) (h2 : new ≠ .opening) :
    SoundRest g e b (enterState h b new s) ∧ ((enterState h b new s).ledger.view b).state = new ∧
      ((enterState h b new s).ledger.view b).flying = none :=
  (hs.sound.at b).enterRest hh (hs.sound.fits b).placed hne hs.rests
    (hs.rests.enter (by rintro rfl; simp [BerthState.holdsCapacity] at hc))
    fun he => (hs.sound.settled b he).poised.enter hc h1 h2

theorem SoundRest.completeTransfer (hs : SoundRest g e b s) (hh : HooksSound g h) (hst : (s.ledger.view b).onRamp) :
    Sound g e (completeTransfer h b s) := by
  have hl : (Machine.updBerth b (fun r => { r with holdGranted := false }) (sendHoldEnd b s)).ledger = s.ledger :=
    (ledger_updBerth rfl).trans ledger_sendHoldEnd
  have hne : (s.ledger.view b).state ≠ .onShore := by rcases hst with h | h <;> simp [h]
  obtain ⟨h1, -, -⟩ := (hs.of_ledger hl).enterState hh (new := .onShore) (by rw [hl]; exact hne) rfl (by simp) (by simp)
  exact sound_startInFlight h1.sound h1.rests.runs (by simp [InFlightKind.loose])

theorem SoundRamp.terminalCount (hs : SoundRamp g e b s) (hh : HooksSound g h) : Sound g e (terminalCount h b s) := by
  have h1 := hs.updRamp (f := fun r => { r with terminal := true, pauseTimer := none, paused := false }) fun _ => by simp
  obtain ⟨h2, hrec⟩ := h1.toSoundRest.releaseLock hh
  unfold Machine.terminalCount
  dsimp only
  generalize hu : Machine.updRamp b (fun r => { r with terminal := true, pauseTimer := none, paused := false }) s = u
    at h1 h2 hrec ⊢
  generalize ht : Machine.releaseLock h b u = t at h2 hrec ⊢
  have hpart : t.ledger.berth b = u.ledger.berth b := congrArg Berth.part hrec
  have hstop : (u.ledger.berth b).stopped = true ∧ (u.ledger.berth b).pause = none := by
    rw [← hu]
    simp [State.ledger, Machine.updRamp, Berth.part]
  have hramp : (t.ledger.view b).onRamp := by
    have := h1.ramp
    simp only [View.onRamp, Ledger.view, hpart] at this ⊢
    exact this
  split
  · exact h2.completeTransfer hh hramp
  · refine (h2.sound.at b).enterRequest hh ((h2.sound.fits b).ask (m := (t.ledger.view b).stopped)
      (p := (t.ledger.view b).pause) h2.rests.runs ?_ (.inl ?_)) fun he => ?_
    · refine .inr ⟨hramp, ?_, ?_⟩ <;> simp only [Ledger.view, hpart]
      · exact hstop.1
      · exact hstop.2
    · have := h1.unshaken
      simp only [Ledger.view, hpart] at this ⊢
      exact this
    · obtain ⟨k1, k2, k3, k4, k5⟩ := h2.sound.settled b he
      exact ⟨k1, k2, fun hn => by simp [Ledger.view, hpart, hstop.2] at hn, k4, k5⟩
  · exact h2.sound

theorem SoundRamp.startRamp (hs : SoundRamp g e b s) (hh : HooksSound g h) {d : Direction} :
    Sound g e (startRamp h b d s) := by
  unfold Machine.startRamp
  split
  · exact hs.sound
  next m _ =>
    have hu := hs.updRamp (f := Ramp.start d ((s.berth b).rampLoad d) m) fun _ => by simp [Ramp.start]
    dsimp only
    split
    · exact hu.terminalCount hh
    · exact hu.requestStep hh

/-! ## Aborts (R117 to R119) -/

theorem sound_abandonOp (hs : Sound g e s) (hh : HooksSound g h) (hr : (s.ledger.view b).runs = some .step) :
    SoundRest g e b (abandonOp h b s) ∧ ((abandonOp h b s).ledger.view b).state = (s.ledger.view b).state := by
  have hf := hs.fits b
  have hst := hf.stepping hr
  have hasks := (hf.op _ hr).1
  have ha := ((hs.at b).freeArbiter (k := .step) (by rw [hr]; simp)).clearInFlight
  have hrest : SoundRest g e b (clearInFlight b (freeArbiter (s.secOf b) .step s)) := by
    refine ⟨ha.sound ⟨hf.lock, hf.request, fun k hk => by simp at hk, fun hn => by simp at hn, fun hn => by simp at hn,
      fun hn => by simp at hn, fun hn => by simp at hn, fun hn => by simp at hn, hf.starts, hf.queued, hf.waiting⟩
      fun he => ?_, ?_⟩
    · obtain ⟨-, -, h3, h4, h5⟩ := hs.settled b he
      exact View.Poised.settled ⟨h3, h4, h5⟩ (by rcases hst with h | h <;> simp [h])
        (by rcases hst with h | h <;> simp [h])
    · rw [ha.view]
      exact ⟨hasks, rfl, hf.queued_eq_false (by rcases hst with h | h <;> simp [h])⟩
  obtain ⟨h1, h2⟩ := hrest.choice hh (x := s.secOf b)
  unfold abandonOp
  rw [← view_runs, hr]
  dsimp only
  refine ⟨h1, ?_⟩
  rw [view_state, h2, ha.state]

/-- What the common steps of an abort leave of a berth in a ramp: nothing asked or run, the channel masked. -/
theorem sound_abortCommon (hs : Sound g e s) (hh : HooksSound g h) (hst : (s.ledger.view b).onRamp)
    (hn : (s.ledger.view b).asks ≠ some .openOp) : SoundRest g e b (abortCommon h b s) ∧
      ((abortCommon h b s).ledger.view b).state = (s.ledger.view b).state ∧
      ((abortCommon h b s).ledger.view b).stopped = true ∧ ((abortCommon h b s).ledger.view b).pause = none := by
  have hf := hs.fits b
  -- The operation in flight is abandoned.
  obtain ⟨u, hu, hus, huf, hur, hua, hust⟩ : ∃ u, (if s.opOf b = some .step then abandonOp h b s else s) = u ∧
      Sound g e u ∧ (u.ledger.view b).Fits g ∧ (u.ledger.view b).runs = none ∧
      ((u.ledger.view b).asks = none ∨ (u.ledger.view b).asks = some .step) ∧
      (u.ledger.view b).state = (s.ledger.view b).state := by
    refine ⟨_, rfl, ?_⟩
    split
    next hk =>
      obtain ⟨h1, h2⟩ := sound_abandonOp hs hh hk
      exact ⟨h1.sound, h1.sound.fits b, h1.rests.runs, .inl h1.rests.asks, h2⟩
    next hk => exact ⟨hs, hf, (hf.runs_onRamp hst).resolve_right hk, hf.asks_onRamp hst hn, rfl⟩
  have hq : (u.ledger.view b).queued = false := huf.queued_eq_false (by rw [hust]; rcases hst with h | h <;> simp [h])
  -- The pending request is withdrawn and the channel stopped.
  have hwith : SoundAt g e b { u.ledger.view b with asks := none }
      (if u.request b = some .step then withdrawRequest b u else u) := by
    split
    · exact (hus.at b).withdrawRequest
    next hk =>
      have hnone := hua.resolve_right hk
      have ha := hus.at b
      generalize u.ledger.view b = v at ha hnone
      obtain ⟨⟩ := v
      subst hnone
      exact ha
  have hstop := hwith.updRamp (f := fun r => { r with pauseTimer := none, paused := false })
  have hrest : SoundRest g e b (updRamp b (fun r => { r with pauseTimer := none, paused := false })
      (if u.request b = some .step then withdrawRequest b u else u)) := by
    refine ⟨hstop.sound ⟨huf.lock, fun k hk => by simp at hk, fun k hk => by simp [hur] at hk, huf.closing, huf.opening,
      huf.stepping, huf.started, fun hk => ?_, huf.starts, huf.queued, huf.waiting⟩ fun he => ?_, ?_⟩
    · rcases huf.shaking hk with h | h
      · exact .inl h
      · exact .inr ⟨h.1, rfl⟩
    · obtain ⟨k1, k2, -, k4, k5⟩ := hus.settled b he
      exact ⟨k1, k2, fun hk => by simp at hk, k4, k5⟩
    · rw [hstop.view]; exact ⟨rfl, hur, hq⟩
  -- The lock is released and the channel masked.
  obtain ⟨h1, hrec⟩ := hrest.releaseLock hh
  have hmask := (h1.sound.at b).maskRamp
  have heq : abortCommon h b s = maskRamp b (releaseLock h b (updRamp b (fun r => { r with pauseTimer := none, paused := false })
      (if u.request b = some .step then withdrawRequest b u else u))) := by rw [← hu]; rfl
  rw [heq]
  refine ⟨⟨sound_maskRamp h1.sound, ?_⟩, ?_, ?_, ?_⟩ <;> rw [hmask.view]
  · exact ⟨h1.rests.asks, h1.rests.runs, h1.rests.queued⟩
  · exact (congrArg Berth.state hrec).trans (hstop.state.trans hust)

/-- Outside a ramp an abort only stops the channel and releases the lock. -/
theorem sound_abortCommon_off (hs : Sound g e s) (hh : HooksSound g h) (hst : ¬(s.ledger.view b).onRamp) :
    Sound g e (abortCommon h b s) := by
  have hf := hs.fits b
  have hr : s.opOf b ≠ some .step := fun hn => hst (hf.stepping hn)
  have ha : s.request b ≠ some .step := fun hn => hst (hf.request _ hn)
  have hstop := (hs.at b).updRamp (f := fun r => { r with pauseTimer := none, paused := false })
  unfold abortCommon
  dsimp only
  rw [if_neg hr, if_neg ha]
  exact sound_maskRamp (sound_releaseLock (hstop.sound hf.unpaused fun he => (hs.settled b he).channel (by simp)) hh)

/-- The morning release failed: the berth goes back to ON_SHORE. -/
theorem SoundRest.releaseFailed (hs : SoundRest g e b s) (hh : HooksSound g h) (hst : (s.ledger.view b).onRamp)
    {k : ReleaseFailure} : Sound g e (releaseFailed h b k s) := by
  have hrest := hs.of_ledger (ledger_endHold (b := b))
  have hm : SoundRest g e b (maskRamp b (endHold b s)) := hrest.updRamp fun _ => by simp
  have hst' : ((maskRamp b (endHold b s)).ledger.view b).state ≠ .onShore := by
    rw [(hrest.sound.at b).maskRamp.view, ledger_endHold]
    rcases hst with h | h <;> simp [h]
  exact (hm.enterState hh hst' rfl (by simp) (by simp)).1.sound.of_ledger ledger_noticeBerth

theorem SoundRest.failRampOut (hs : SoundRest g e b s) (hh : HooksSound g h) (hst : (s.ledger.view b).onRamp)
    {k : ReleaseFailure} : Sound g e (failRampOut h b k s) := by
  unfold Machine.failRampOut
  split
  · exact sound_trip hs.sound hh
  · exact hs.releaseFailed hh hst

theorem SoundRest.abortRampOut (hs : SoundRest g e b s) (hh : HooksSound g h) (hst : (s.ledger.view b).onRamp)
    {k : ReleaseFailure} : Sound g e (abortRampOut h b k s) := by
  obtain ⟨h1, h2, -, -⟩ := sound_abortCommon hs.sound hh.before hst (by rw [hs.rests.asks]; simp)
  refine h1.failRampOut hh ?_
  rw [View.onRamp, h2]
  exact hst

/-- A berth at rest in RAMP_OUT asks for the hold. -/
theorem SoundRest.startHandshake (hs : SoundRest g e b s) (hst : (s.ledger.view b).state = .rampOut) {onFull : State → State}
    (hfull : ∀ {u}, u.ledger = s.ledger → Sound g e (onFull u)) : Sound g e (Machine.startHandshake onFull b s) := by
  refine sound_startHandshake (fun {w n} hw => ?_) hfull
  have hf := hs.sound.fits b
  have ha := ((hs.of_ledger hw).sound.at b).startInFlight (k := .holdHandshake) (n := n)
  rw [hw] at ha
  refine ha.sound ⟨hf.lock, hf.request, fun j hj => by simp [hs.rests.runs] at hj, hf.closing, hf.opening, hf.stepping,
    fun hn => by simp at hn, fun _ => .inr ⟨hst, hs.rests.asks⟩, hf.starts, hf.queued, hf.waiting⟩ fun he => ?_
  obtain ⟨k1, k2, k3, k4, k5⟩ := hs.sound.settled b he
  exact ⟨k1, k2, k3, k4, k5⟩

/-- An abort in RAMP_IN asks to open, or turns the ramp. -/
theorem SoundRest.abortRampIn (hs : SoundRest g e b s) (hh : HooksSound g h) (hst : (s.ledger.view b).state = .rampIn)
    (hstop : (s.ledger.view b).stopped = true) (hps : (s.ledger.view b).pause = none) {k : AbortCause} :
    Sound g e (abortRampIn h b k s) := by
  have hl : (Machine.updRamp b (fun r => { r with aborting := true, abortCause := some k }) s).ledger = s.ledger :=
    ledger_updBerth rfl
  unfold Machine.abortRampIn
  dsimp only
  split
  · have hasked : (endHold b (Machine.updRamp b (fun r => { r with aborting := true, abortCause := some k }) s)).ledger =
        s.ledger := ledger_endHold.trans hl
    have hs' := hs.of_ledger hasked
    have hf := hs.sound.fits b
    have ha := hs'.sound.at b
    rw [hasked] at ha
    refine ha.enterRequest hh (hf.ask hs.rests.runs (.inr ⟨.inl hst, hstop, hps⟩) (.inl fun hn => ?_)) fun he => ?_
    · have := hf.shaking hn
      simp [hst] at this
    · obtain ⟨k1, k2, -, k4, k5⟩ := hs.sound.settled b he
      exact ⟨k1, k2, fun hn => by simp [hps] at hn, k4, k5⟩
  · obtain ⟨h1, h2, h3⟩ := (hs.of_ledger hl).enterState hh (new := .rampOut) (by rw [hl, hst]; simp) rfl (by simp) (by simp)
    generalize Machine.enterState h b .rampOut (Machine.updRamp b (fun r => { r with
      aborting := true, abortCause := some k }) s) = u at h1 h2 h3 ⊢
    split
    · exact SoundRamp.startRamp ⟨h1, .inr h2, by rw [h3]; simp⟩ hh
    · exact h1.startHandshake h2 fun hw => (h1.of_ledger hw).abortRampOut hh (by rw [hw]; exact .inr h2)

theorem sound_abortRamp (hs : Sound g e s) (hh : HooksSound g h)
    (hn : (s.ledger.view b).onRamp → (s.ledger.view b).asks ≠ some .openOp) {k : AbortCause} :
    Sound g e (abortRamp h b k s) := by
  have off : (s.berth b).state ≠ .rampIn → (s.berth b).state ≠ .rampOut → Sound g e (abortCommon h b s) := fun h1 h2 =>
    sound_abortCommon_off hs hh (not_or.mpr ⟨h1, h2⟩)
  unfold abortRamp
  split
  next hst =>
    obtain ⟨h1, h2, h3, h4⟩ := sound_abortCommon hs hh.before (.inl hst) (hn (.inl hst))
    exact h1.abortRampIn hh (h2.trans hst) h3 h4
  next hst =>
    obtain ⟨h1, h2, -, -⟩ := sound_abortCommon (h := if (s.berth b).ramp.aborting then h.before else h) hs
      (by split <;> [exact hh.before; exact hh]) (.inr hst) (hn (.inr hst))
    exact h1.failRampOut hh (.inr (h2.trans hst))
  all_goals
    next hst => exact off (by rw [hst]; simp) (by rw [hst]; simp)

theorem SoundRamp.stepFailed (hs : SoundRamp g e b s) (hh : HooksSound g h) : Sound g e (stepFailed h b s) := by
  have hl : (Machine.updRamp b (fun r => { r with failures := r.failures + 1 }) s).ledger = s.ledger := ledger_updBerth rfl
  have hu := hs.of_ledger hl
  unfold Machine.stepFailed
  dsimp only
  split
  · exact sound_abortRamp hu.sound hh fun _ => by rw [hu.rests.asks]; simp
  · exact hu.requestStep hh

/-! ## Pauses (R115, R116) -/

/-- While the berth's operation is in flight, the release of its lock calls for no choice. -/
theorem releaseLock_of_runs (hs : Sound g e s) (hh : HooksSound g h) (hr : (s.ledger.view b).runs ≠ none) :
    releaseLock h b s = s ∨ releaseLock h b s = dropLock (s.secOf b) s := by
  unfold releaseLock
  split
  · refine .inr (hh.busyChoice ?_)
    have hop : ((s.ledger.sec (s.secOf b)).op).isSome = true := by
      rw [Option.isSome_iff_ne_none]
      intro hn
      exact hr (SecPart.opFor_eq_none.mpr (by
        rw [show (s.ledger.sec (s.ledger.berth b).sec).op = (s.ledger.sec (s.secOf b)).op from rfl, hn]; simp))
    have hbusy := (hs.frame.arbitrated (s.secOf b)).mpr hop
    simpa [dropLock, State.ledger, SectionRec.part] using hbusy
  · exact .inl rfl

theorem dropLock_asks : ((dropLock x s).ledger.view b).asks = (s.ledger.view b).asks := by
  have hreq : ∀ y, ((dropLock x s).sec y).requests = (s.sec y).requests := fun y => by
    rw [dropLock, updSec_sec]
    split
    next hy => rw [hy]
    next => rfl
  rw [view_asks, view_asks, State.request, State.request, hreq, dropLock, updSec_secOf]

theorem sound_pauseRamp (hs : Sound g e s) (hh : HooksSound g h) (hst : (s.ledger.view b).onRamp)
    (hrun : (s.ledger.view b).stopped = false) : Sound g e (pauseRamp h b s) := by
  have hf := hs.fits b
  have hl : (updBerth b (fun r => { r with holdGranted := false, ramp := { r.ramp with paused := true } }) s).ledger =
      s.ledger := ledger_updBerth rfl
  have hopen : (s.ledger.view b).asks ≠ some .openOp := fun hn => by
    have := hf.request _ hn
    rcases hst with h | h <;> simp [View.mayAsk, hrun, h] at this
  have hs' := hs.of_ledger hl
  have ha := hs'.at b
  rw [hl] at ha
  unfold pauseRamp
  dsimp only
  generalize updBerth b (fun r => { r with holdGranted := false, ramp := { r.ramp with paused := true } }) s = u at ha hs' hl ⊢
  have hwith : SoundAt g e b { s.ledger.view b with asks := none }
      (if u.request b = some .step then withdrawRequest b u else u) := by
    split
    · exact ha.withdrawRequest
    next hk =>
      have hnone := (hf.asks_onRamp hst hopen).resolve_right (by rw [← ha.asks]; exact hk)
      generalize s.ledger.view b = v at ha hnone
      obtain ⟨⟩ := v
      subst hnone
      exact ha
  have hstop := hwith.updRamp (f := fun r => { r with pauseTimer := none })
  generalize updRamp b (fun r => { r with pauseTimer := none }) (if u.request b = some .step then withdrawRequest b u else u)
    = w at hstop ⊢
  have hsound : Sound g e w := by
    refine hstop.sound ⟨hf.lock, fun k hk => by simp at hk, fun k hk => ⟨rfl, (hf.op k hk).2⟩, hf.closing, hf.opening,
      hf.stepping, hf.started, fun hk => ?_, hf.starts, hf.queued, hf.waiting⟩ fun he => ?_
    · rcases hf.shaking hk with h | h
      · exact .inl h
      · exact .inr ⟨h.1, rfl⟩
    · obtain ⟨k1, k2, -, k4, k5⟩ := hs.settled b he
      exact ⟨k1, k2, fun hk => by simp at hk, k4, k5⟩
  have hasks : ((releaseLock h b w).ledger.view b).asks = none := by
    by_cases hr : (w.ledger.view b).runs = none
    · have hq : (w.ledger.view b).queued = false := by
        rw [hstop.view]
        exact hf.queued_eq_false (by rcases hst with h | h <;> simp [h])
      have hrest : SoundRest g e b w := ⟨hsound, by rw [hstop.view], hr, hq⟩
      exact (hrest.releaseLock hh).1.rests.asks
    · have hw : (w.ledger.view b).asks = none := by rw [hstop.view]
      rcases releaseLock_of_runs hsound hh hr with h | h <;> rw [h]
      · exact hw
      · rw [dropLock_asks]; exact hw
  have hrel := sound_releaseLock (b := b) hsound hh
  exact ((hrel.at b).updRamp).sound ((hrel.fits b).channel hasks) fun he => (hrel.settled b he).channel (by simp)

theorem view_rampRuns : (s.berth b).rampRuns = true ↔ (s.ledger.view b).onRamp ∧ (s.ledger.view b).stopped = false ∧
    (s.berth b).ramp.paused = false := by
  simp [Berth.rampRuns, View.onRamp, Ledger.view, State.ledger, Berth.part, and_assoc]

theorem sound_withdrawHold (hs : Sound g e s) (hh : HooksSound g h) : Sound g e (withdrawHold h b s) := by
  unfold withdrawHold
  split
  next hr =>
    obtain ⟨hst, hrun, -⟩ := view_rampRuns.mp hr
    have hl : (updBerth b (fun r => { r with holdGranted := false }) s).ledger = s.ledger := ledger_updBerth rfl
    have habort : Sound g e (abortRamp h b .holdWithdrawn (updBerth b (fun r => { r with holdGranted := false }) s)) := by
      refine sound_abortRamp (hs.of_ledger hl) hh fun _ hn => ?_
      rw [hl] at hn
      have := (hs.fits b).request _ hn
      rcases hst with h | h <;> simp [View.mayAsk, hrun, h] at this
    split
    · exact sound_pauseRamp hs hh hst hrun
    · exact habort
    · exact habort
  next => exact hs

/-- A paused ramp that resumes asks for its step again, unless one is in flight. -/
theorem sound_resumeRamp (hs : Sound g e s) (hh : HooksSound g h) (hst : (s.ledger.view b).onRamp)
    (hfl : (s.ledger.view b).flying ≠ some .holdHandshake) : Sound g e (resumeRamp h b s) := by
  have ha := (hs.at b).berthChanged (f := fun r => { r with
    holdGranted := true, ramp := { r.ramp with paused := false, pauseTimer := none } }) rfl rfl rfl
  have hf := hs.fits b
  unfold resumeRamp
  dsimp only
  generalize updBerth b _ s = u at ha ⊢
  have hsound : Sound g e u := ha.sound hf.unpaused fun he => (hs.settled b he).channel (by simp [Berth.part])
  split
  · exact hsound
  next hk =>
    have hst' : (u.ledger.view b).onRamp := by rw [ha.view]; exact hst
    exact sound_requestStep hsound hh hst' (((hsound.fits b).runs_onRamp hst').resolve_right hk) (by rw [ha.view]; exact hfl)

end Sys2Proof.Machine
end

-- ==== Arbiters over a sound ledger ====
section
/-! PROOFS. The grant of an operation, its end and its outcome, and the choices that follow keep the ledger sound (R83 to
R99, R104, R108, R112, R114). -/

namespace Sys2Proof.Machine

variable {g : Prop} {e : BerthId → Prop} {b c : BerthId} {v w : View} {s t : State} {x : SectionId} {h : Hooks}
  {k : OpKind} {o : OpOutcome}

/-! ## An operation that ends -/

/-- The states in which an operation runs. -/
def OpKind.runsIn : OpKind → BerthState → Prop
  | .syncClose, st | .deadClose, st => st = .closing
  | .step, st => st = .rampIn ∨ st = .rampOut
  | .openOp, st => st = .opening

theorem OpKind.runsIn_capacity {st : BerthState} (h : k.runsIn st) : st.holdsCapacity = true := by
  cases k
  · rw [show st = .closing from h]; rfl
  · rw [show st = .closing from h]; rfl
  · rcases h with h | h <;> rw [h] <;> rfl
  · rw [show st = .opening from h]; rfl

/-- The ledger is sound but for a berth that is in the state of an operation `k` which has ended or is about to: it would
fit if it ran nothing. -/
structure SoundEnding (g : Prop) (e : BerthId → Prop) (b : BerthId) (k : OpKind) (s : State) : Prop where
  but : SoundAt g e b (s.ledger.view b) s
  asks : (s.ledger.view b).asks = none
  state : k.runsIn (s.ledger.view b).state
  fits : View.Fits g { s.ledger.view b with flying := none, runs := none }
  poised : ¬e b → (s.ledger.view b).Poised g

/-- The operation has ended: the berth runs nothing. -/
structure SoundEnded (g : Prop) (e : BerthId → Prop) (b : BerthId) (k : OpKind) (s : State) : Prop extends
    SoundEnding g e b k s where
  runs : (s.ledger.view b).runs = none
  flying : (s.ledger.view b).flying = none

theorem SoundEnded.fitting (hs : SoundEnded g e b k s) : (s.ledger.view b).Fits g := by
  have hf := hs.fits
  have hr := hs.runs
  have hfl := hs.flying
  generalize s.ledger.view b = v at hf hr hfl
  obtain ⟨⟩ := v
  subst hr hfl
  exact hf

theorem SoundEnded.rests (hs : SoundEnded g e b k s) : (s.ledger.view b).Rests := by
  refine ⟨hs.asks, hs.runs, hs.fitting.queued_eq_false fun hq => ?_⟩
  have := OpKind.runsIn_capacity hs.state
  rw [hq] at this
  simp [BerthState.holdsCapacity] at this

theorem SoundEnded.pause (hs : SoundEnded g e b k s) (he : ¬e b) : (s.ledger.view b).pause ≠ some .grantWait := fun hn => by
  simpa [hs.asks] using (hs.poised he).grantWait hn

/-- A berth of a sound ledger whose operation is about to end. -/
theorem soundEnding_of_runs (hs : Sound g e s) (hr : s.opOf b = some k) : SoundEnding g e b k s := by
  have hf := hs.fits b
  have hv : (s.ledger.view b).runs = some k := hr
  refine ⟨hs.at b, (hf.op k hv).1, ?_, ?_, fun he => (hs.settled b he).poised⟩
  · cases k
    · exact hf.closing (.inl hv)
    · exact hf.closing (.inr hv)
    · exact hf.stepping hv
    · exact hf.opening hv
  · exact ⟨hf.lock, hf.request, fun j hj => by simp at hj, fun hn => by simp at hn, fun hn => by simp at hn,
      fun hn => by simp at hn, fun hn => by simp at hn, fun hn => by simp at hn, hf.starts, hf.queued, hf.waiting⟩

/-- The arbiter of an operation that ends is freed. -/
theorem SoundEnding.freed (hs : SoundEnding g e b k s) (hr : (s.ledger.view b).runs ≠ none) {j : OpKind} :
    SoundEnded g e b k (s |> clearInFlight b |> freeArbiter (s.secOf b) j) := by
  have ha := (hs.but.clearInFlight).freeArbiter (k := j) hr
  have hsec : (clearInFlight b s).secOf b = s.secOf b := by simp
  rw [hsec] at ha
  have hv := ha.view
  refine { but := ?_, asks := ?_, state := ?_, fits := ?_, poised := fun he => ?_, runs := ?_, flying := ?_ }
  · rw [hv]; exact ha
  · rw [hv]; exact hs.asks
  · rw [hv]; exact hs.state
  · rw [hv]; exact hs.fits
  · obtain ⟨h1, h2, h3⟩ := hs.poised he
    rw [hv]; exact ⟨h1, h2, h3⟩
  · rw [hv]
  · rw [hv]

/-! ## Outcomes (R104, R108, R112, R114) -/

/-- The berth trips at the end of its operation. -/
theorem SoundEnded.trip (hs : SoundEnded g e b k s) (hh : HooksSound g h) {cause : TripCause}
    {reason : Option FailReason} : Sound g e (trip h b cause reason s) := by
  have hc := OpKind.runsIn_capacity hs.state
  refine hs.but.trip hh hs.fitting (fun hn => ?_) fun _ _ hn => ?_
  · rw [hn] at hc; simp [BerthState.holdsCapacity] at hc
  · rw [hc] at hn; simp at hn

theorem SoundEnded.closeFailed (hs : SoundEnded g e b k s) (hh : HooksSound g h)
    (hst : (s.ledger.view b).state = .closing) {f : OpFailure} : Sound g e (closeFailed h b f s) := by
  unfold Machine.closeFailed
  split
  · exact hs.but.changeoverFailure hh hs.fitting hs.runs (.inr hst) hs.pause
  · exact hs.trip hh

/-- At the end of an operation the berth goes on in ON_SHORE or in a ramp. -/
theorem SoundEnded.goOn (hs : SoundEnded g e b k s) (hh : HooksSound g h) {new : BerthState}
    (hne : (s.ledger.view b).state ≠ new) (hc : new.holdsCapacity = true) (h1 : new ≠ .closing) (h2 : new ≠ .opening) :
    SoundRest g e b (enterState h b new s) ∧ ((enterState h b new s).ledger.view b).state = new ∧
      ((enterState h b new s).ledger.view b).flying = none :=
  hs.but.enterRest hh hs.fitting.placed hne hs.rests (hs.rests.enter (by rintro rfl; simp [BerthState.holdsCapacity] at hc))
    fun he => (hs.poised he).enter hc h1 h2

theorem SoundEnded.syncCloseOutcome (hs : SoundEnded g e b .syncClose s) (hh : HooksSound g h) :
    Sound g e (syncCloseOutcome h b o s) := by
  unfold Machine.syncCloseOutcome
  split
  · exact hs.closeFailed hh hs.state
  · have hst : (s.ledger.view b).state = .closing := hs.state
    obtain ⟨h1, h2, h3⟩ := hs.goOn hh (new := .rampIn) (by rw [hst]; simp) rfl (by simp) (by simp)
    have hl : (updRamp b (fun r => { r with aborting := false }) (enterState h b .rampIn s)).ledger =
        (enterState h b .rampIn s).ledger := ledger_updBerth rfl
    have hramp : SoundRamp g e b (updRamp b (fun r => { r with aborting := false }) (enterState h b .rampIn s)) :=
      SoundRamp.of_ledger ⟨h1, .inl h2, by rw [h3]; simp⟩ hl
    have ht := hramp.startRamp hh (d := .inward)
    dsimp only
    split
    · exact ht
    · exact sound_withdrawHold ht hh

theorem SoundEnded.deadCloseOutcome (hs : SoundEnded g e b .deadClose s) (hh : HooksSound g h) :
    Sound g e (deadCloseOutcome h b o s) := by
  have hst : (s.ledger.view b).state = .closing := hs.state
  unfold Machine.deadCloseOutcome
  split
  · exact hs.closeFailed hh hst
  · exact (hs.goOn hh (new := .onShore) (by rw [hst]; simp) rfl (by simp) (by simp)).1.sound.of_ledger ledger_noticeBerth

theorem SoundEnded.onRamp (hs : SoundEnded g e b .step s) : SoundRamp g e b s := by
  have hst : (s.ledger.view b).onRamp := hs.state
  refine ⟨⟨hs.but.sound hs.fitting fun he => (hs.poised he).settled ?_ ?_, hs.rests⟩, hst, by rw [hs.flying]; simp⟩ <;>
    rcases hst with h | h <;> simp [h]

theorem SoundEnded.stepOutcome (hs : SoundEnded g e b .step s) (hh : HooksSound g h) : Sound g e (stepOutcome h b o s) := by
  have hr := hs.onRamp
  unfold Machine.stepOutcome
  split
  · exact hr.sound
  · split
    · exact hr.stepFailed hh
    · have hu := hr.of_ledger (ledger_updBerth (b := b) (f := fun r => { r with
        ramp := { r.ramp with currentCount := r.ramp.currentCount - 1, failures := 0 } }) rfl)
      dsimp only
      split
      · exact SoundRamp.terminalCount hu hh
      · exact SoundRamp.requestStep hu hh

theorem ledger_openedNotice {r : Berth} : (openedNotice b r s).ledger = s.ledger := by
  unfold openedNotice
  split <;> exact ledger_noticeBerth

/-- A berth with nothing left enters a state without capacity, and rests there. -/
theorem SoundAt.enterEmpty (ha : SoundAt g e b v s) (hh : HooksSound g h) (hf : v.Fits g) (hr : v.Rests)
    (hg : v.grant = 0 ∧ v.bay = none) (hps : ¬e b → v.pause ≠ some .grantWait) {new : BerthState} (hne : v.state ≠ new)
    (hc : new.holdsCapacity = false) (hq : new ≠ .queued) : SoundRest g e b (Machine.enterState h b new s) ∧
      ((Machine.enterState h b new s).ledger.view b).state = new := by
  obtain ⟨h1, h2, -⟩ := ha.enterRest hh hf.placed hne hr (hr.enter hq) fun he =>
    View.Poised.settled ⟨fun hn => absurd hn (hps he), fun _ _ => hg, fun _ => ha.faulty_of_bay hg.2⟩
      (by rintro rfl; simp [BerthState.holdsCapacity] at hc) (by rintro rfl; simp [BerthState.holdsCapacity] at hc)
  exact ⟨h1, h2⟩

/-- A berth with nothing left leaves OPENING for a state without capacity. -/
theorem SoundAt.leaveOpening (ha : SoundAt g e b v s) (hh : HooksSound g h) (hf : v.Fits g) (hr : v.Rests)
    (hst : v.state = .opening) (hg : v.grant = 0 ∧ v.bay = none) (hps : ¬e b → v.pause ≠ some .grantWait) :
    Sound g e (leaveOpening h b s) := by
  unfold Machine.leaveOpening
  split
  · exact (ha.enterEmpty hh hf hr hg hps (new := .proved) (by simp [hst]) rfl (by simp)).1.sound
  · split
    · obtain ⟨h1, -⟩ := ha.enterEmpty hh hf hr hg hps (new := .plugged) (by simp [hst]) rfl (by simp)
      exact sound_startProving ⟨h1.sound, h1.rests.runs⟩
    · exact (ha.enterEmpty hh hf hr hg hps (new := .vacant) (by simp [hst]) rfl (by simp)).1.sound

theorem SoundEnded.openOutcome (hs : SoundEnded g e b .openOp s) (hh : HooksSound g h) : Sound g e (openOutcome h b o s) := by
  have hst : (s.ledger.view b).state = .opening := hs.state
  unfold Machine.openOutcome
  split
  · exact hs.trip hh
  · have hf := hs.fitting
    have hrel := (hs.but.of_ledger (ledger_endHold (b := b))).releaseGrant
    obtain ⟨l, st, q, hpass, hfit⟩ := hrel.passes hh ⟨hf.lock, hf.request, hf.op, hf.closing, hf.opening, hf.stepping,
      hf.started, hf.shaking, hf.starts, hf.queued, fun _ _ => ⟨rfl, rfl⟩⟩
      ⟨hs.rests.asks, hs.rests.runs, hs.rests.queued⟩
    exact (hpass.leaveOpening hh hfit ⟨hs.rests.asks, hs.rests.runs, hs.rests.queued⟩ hst ⟨rfl, rfl⟩ hs.pause).of_ledger
      ledger_openedNotice

/-- An operation's outcome leaves the ledger sound (R90, step 3). -/
theorem SoundEnded.opOutcome (hs : SoundEnded g e b k s) (hh : HooksSound g h) : Sound g e (opOutcome h b k o s) := by
  cases k with
  | syncClose => exact hs.syncCloseOutcome hh
  | deadClose => exact hs.deadCloseOutcome hh
  | step => exact hs.stepOutcome hh
  | openOp => exact hs.openOutcome hh

/-- The end of an operation leaves the ledger sound (R90). -/
theorem SoundEnding.finishOperation (hs : SoundEnding g e b k s) (hh : HooksSound g h)
    (hr : (s.ledger.view b).runs ≠ none) (hx : s.secOf b = x) : Sound g e (finishOperation h x b k o s) := by
  have hout : Sound g e (Machine.opOutcome h b k o (s |> clearInFlight b |> freeArbiter x k)) := by
    rw [← hx]; exact (hs.freed hr).opOutcome hh
  unfold Machine.finishOperation
  dsimp only
  split
  · unfold dropCloseLock
    split
    · split
      · exact sound_dropLock hout
      · exact hout
    · exact hout
  · exact hout

/-! ## The choice (R85, R86) -/

/-- A DEAD_CLOSE handed back waits on in ADMITTED. -/
theorem sound_handBack (hs : Sound g e s) (hr : (s.ledger.view b).asks = some .deadClose) : Sound g e (handBack b s) := by
  have hf := hs.fits b
  have hst : (s.ledger.view b).state = .admitted := hf.request _ hr
  obtain ⟨hruns, -, -⟩ := hf.admitted hst
  refine ((hs.at b).withdrawRequest).startInFlight.sound ⟨hf.lock, fun j hj => by simp at hj,
    fun j hj => by simp [hruns] at hj, hf.closing, hf.opening, hf.stepping, fun _ => hst, fun _ => .inl hst, hf.starts,
    hf.queued, hf.waiting⟩ fun he => ?_
  have hset := hs.settled b he
  refine ⟨hset.closing, hset.opening, fun hn => ?_, hset.capacity, hset.whole⟩
  have := hset.grantWait hn
  rw [hr] at this
  simp at this

/-- The request that a section's arbiter picks is pending there; nothing else of the arbiter has changed. -/
theorem sound_pickRequest {l : List BerthId} (hs : Sound g e s) : Sound g e (pickRequest x l s).1 ∧
    ((pickRequest x l s).1.sec x).arbiter = (s.sec x).arbiter ∧ ((pickRequest x l s).1.sec x).lock = (s.sec x).lock ∧
    ∀ b k, (pickRequest x l s).2 = some (b, k) → b ∈ l ∧ ((pickRequest x l s).1.sec x).requests[b] = some k := by
  induction l generalizing s with
  | nil => exact ⟨hs, rfl, rfl, fun b k hk => by simp [pickRequest] at hk⟩
  | cons b l ih =>
    have skip : ∀ {u}, Sound g e u → (u.sec x).arbiter = (s.sec x).arbiter → (u.sec x).lock = (s.sec x).lock →
        Sound g e (pickRequest x l u).1 ∧ ((pickRequest x l u).1.sec x).arbiter = (s.sec x).arbiter ∧
        ((pickRequest x l u).1.sec x).lock = (s.sec x).lock ∧ ∀ c k, (pickRequest x l u).2 = some (c, k) →
          c ∈ b :: l ∧ ((pickRequest x l u).1.sec x).requests[c] = some k := fun hu h1 h2 => by
      obtain ⟨k1, k2, k3, k4⟩ := ih hu
      exact ⟨k1, k2.trans h1, k3.trans h2, fun c k hk => ⟨List.mem_cons_of_mem _ (k4 c k hk).1, (k4 c k hk).2⟩⟩
    have take : ∀ {k}, (s.sec x).requests[b] = some k → Sound g e s ∧ (s.sec x).arbiter = (s.sec x).arbiter ∧
        (s.sec x).lock = (s.sec x).lock ∧ ∀ c j, some (b, k) = some (c, j) → c ∈ b :: l ∧ (s.sec x).requests[c] = some j :=
      fun hk => ⟨hs, rfl, rfl, fun c j hc => by
        obtain ⟨rfl, rfl⟩ : b = c ∧ _ = j := by simpa using hc
        exact ⟨List.mem_cons_self, hk⟩⟩
    cases hk : (s.sec x).requests[b] with
    | none => simp only [pickRequest, hk]; exact skip hs rfl rfl
    | some k =>
      cases k with
      | step =>
        simp only [pickRequest, hk]
        split
        · exact skip hs rfl rfl
        · exact take hk
      | deadClose =>
        simp only [pickRequest, hk]
        split
        · exact take hk
        · have hx : s.secOf b = x := by
            by_contra hn
            exact absurd (hk.symm.trans (hs.frame.own x b hn).1) (by simp)
          refine skip (sound_handBack hs (by rw [view_asks, State.request, hx]; exact hk)) ?_ ?_ <;>
            rw [handBack_sec] <;> rfl
      | syncClose => rw [pickRequest, hk]; exact take hk
      | openOp => rw [pickRequest, hk]; exact take hk

/-- What the choice decides on: a request pending at an idle arbiter, whose lock nobody else has. -/
structure Chosen (x : SectionId) (b : BerthId) (k : OpKind) (s : State) : Prop where
  sec : s.secOf b = x
  asks : (s.ledger.view b).asks = some k
  idle : (s.sec x).arbiter = .partIdle
  lock : ∀ c, c ≠ b → (s.sec x).lock.map (·.holder) ≠ some c

theorem sound_choose (hs : Sound g e s) : Sound g e (choose x s).1 ∧
    ∀ b k, (choose x s).2 = some (b, k) → Chosen x b k (choose x s).1 := by
  have picked : ∀ {l : List BerthId}, (s.sec x).arbiter = .partIdle →
      (∀ b ∈ l, ∀ c, c ≠ b → (s.sec x).lock.map (·.holder) ≠ some c) → Sound g e (pickRequest x l s).1 ∧
      ∀ b k, (pickRequest x l s).2 = some (b, k) → Chosen x b k (pickRequest x l s).1 := fun {l} hi hl => by
    obtain ⟨h1, h2, h3, h4⟩ := sound_pickRequest (x := x) (l := l) hs
    refine ⟨h1, fun b k hk => ?_⟩
    obtain ⟨hb, hreq⟩ := h4 b k hk
    have hx : (pickRequest x l s).1.secOf b = x := by
      by_contra hn
      exact absurd (hreq.symm.trans (h1.frame.own x b hn).1) (by simp)
    exact ⟨hx, by rw [view_asks, State.request, hx]; exact hreq, h2.trans hi, fun c hc => by rw [h3]; exact hl b hb c hc⟩
  unfold choose
  dsimp only
  split
  · exact ⟨hs, fun b k hk => by simp at hk⟩
  next hi =>
    have hi : (s.sec x).arbiter = .partIdle := not_not.mp hi
    split
    next l hl =>
      refine picked hi fun b hb c hc => ?_
      rw [hl, List.mem_singleton.mp hb] at *
      simpa using hc.symm
    next hl =>
      split
      · exact ⟨hs.of_ledger (ledger_updSec (by simp [SectionRec.part, hi])), fun b k hk => by simp at hk⟩
      · exact picked hi fun b _ c _ => by simp [hl]

/-! ## The grant (R87, R88, R97) -/

/-- Another lock of the berth's section, which nobody else has before or after. -/
theorem SoundAt.relock (ha : SoundAt g e b v s) {f : Option Lock → Option Lock} (hf : LockFor (· = b) f)
    (hl : ∀ c, c ≠ b → (s.sec (s.secOf b)).lock.map (·.holder) ≠ some c) :
    SoundAt g e b { v with locks := (f (s.sec (s.secOf b)).lock).map (·.holder) == some b }
      (updSec (s.secOf b) (fun r => { r with lock := f r.lock }) s) := by
  refine ha.setLock (f := fun r => f r.lock) hl fun c hc hn => ?_
  obtain ⟨m, hm, rfl⟩ := Option.map_eq_some_iff.mp hn
  rcases hf _ m hm with h | ⟨j, hj, h⟩
  · exact hc h
  · exact hl m.holder hc (by rw [hj, ← h]; rfl)

/-- A grant gives the lock to nobody but its berth. -/
theorem granting_lock (hl : ∀ c, c ≠ b → (s.sec x).lock.map (·.holder) ≠ some c) (ho : (s.sec x).op = none)
    (hc : c ≠ b) : ((granting x b k s).sec x).lock.map (·.holder) ≠ some c := by
  have hn : (s.sec x).notOf c := ⟨by simp [ho], hl c hc⟩
  have hb : ((busyWith x b k s).sec x).notOf c := (Changes.notOf c x).began x k hc.symm hn
  cases k with
  | step => exact ((Changes.notOf c x).updRamp (f := fun r => { r with pauseTimer := none }) hc.symm hb).2
  | syncClose => exact ((Changes.notOf c x).enterState .quiet hc.symm hb).2
  | deadClose => exact ((Changes.notOf c x).enterState .quiet hc.symm hb).2
  | openOp => exact ((Changes.notOf c x).enterState .quiet hc.symm hb).2

/-- What the ledger holds of a berth whose operation is granted, but for the lock. -/
def View.begun (v : View) : OpKind → View
  | .syncClose => View.enter .closing { v with asks := none, runs := some .syncClose }
  | .deadClose => View.enter .closing { v with asks := none, runs := some .deadClose }
  | .step => { v with asks := none, runs := some .step, pause := none }
  | .openOp => View.enter .opening { v with asks := none, runs := some .openOp }

theorem View.begun_runs : (v.begun k).asks = none ∧ (v.begun k).runs = some k := by cases k <;> exact ⟨rfl, rfl⟩

theorem SoundAt.granting (ha : SoundAt g e b v s) (hf : v.Fits g) (ho : (s.sec (s.secOf b)).op = none)
    (hr : v.asks = some k) : SoundAt g e b (v.begun k) (granting (s.secOf b) b k s) := by
  have hb : SoundAt g e b { v with asks := none, runs := some k } (busyWith (s.secOf b) b k s) := ha.beginOp ho
  have hp : View.Placed { v with asks := none, runs := some k } := ⟨hf.placed.locks, hf.placed.queued, hf.placed.starts⟩
  have hm := hf.request k hr
  cases k with
  | syncClose => exact hb.enterQuiet hp (by simp [show v.state = .admitted from hm])
  | deadClose => exact hb.enterQuiet hp (by simp [show v.state = .admitted from hm])
  | openOp => exact hb.enterQuiet hp (by rcases hm with h | ⟨h | h, -⟩ <;> simp [h])
  | step =>
    have hu := hb.updRamp (f := fun r => { r with pauseTimer := none })
    rw [show ((busyWith (s.secOf b) b .step s).berth b).ramp = (s.berth b).ramp by rw [busyWith_berth]] at hu
    have hst : ((s.berth b).ramp.masked || (s.berth b).ramp.terminal) = v.stopped := ha.stopped
    dsimp only at hu
    rw [hst] at hu
    exact hu

/-- The state of a berth whose operation is granted. -/
theorem View.begun_runsIn (hm : v.mayAsk k) : k.runsIn (v.begun k).state := by
  cases k with
  | syncClose => rfl
  | deadClose => rfl
  | openOp => rfl
  | step => exact hm

/-- The lock that a grant leaves its berth is one the berth's state may have. -/
theorem View.begun_fits (hf : v.Fits g) (hr : v.asks = some k) {l : Bool} (hl : k = .openOp → l = false) :
    View.Fits g { v.begun k with locks := l, flying := none, runs := none } := by
  have hm := hf.request k hr
  have hrun := View.begun_runsIn hm
  have hc := OpKind.runsIn_capacity hrun
  have hq : (v.begun k).state ≠ .queued := fun hn => by simp [hn, BerthState.holdsCapacity] at hc
  have rests : View.Rests { v.begun k with locks := l, flying := none, runs := none } := by
    refine ⟨View.begun_runs.1, rfl, ?_⟩
    cases k with
    | step => exact hf.queued_eq_false hq
    | syncClose => rfl
    | deadClose => rfl
    | openOp => rfl
  refine ⟨fun hk => ?_, fun j hj => by simp [View.begun_runs.1] at hj, fun j hj => by simp at hj, fun hn => by simp at hn,
    fun hn => by simp at hn, fun hn => by simp at hn, fun hn => by simp at hn, fun hn => by simp at hn, fun hn => ?_,
    iff_of_false (Bool.eq_false_iff.mp rests.queued) hq, fun _ hn => absurd hn hq⟩
  · cases k with
    | syncClose => exact .inl rfl
    | deadClose => exact .inl rfl
    | step => exact .inr hrun
    | openOp => simp [hl rfl] at hk
  · cases k with
    | step =>
      have := hf.starts hn
      rcases hm with h | h <;> simp [h] at this
    | syncClose => simp [View.begun, View.enter] at hn
    | deadClose => simp [View.begun, View.enter] at hn
    | openOp => simp [View.begun, View.enter] at hn

theorem View.begun_poised (hf : v.Fits g) (hs : v.Settled g) (hr : v.asks = some k) {l : Bool} :
    View.Poised g { v.begun k with locks := l } := by
  have hc := OpKind.runsIn_capacity (View.begun_runsIn (hf.request k hr))
  refine ⟨fun hn => ?_, fun _ hn => by simp [hc] at hn, ?_⟩
  · cases k with
    | step => simp [View.begun] at hn
    | syncClose => simp [hs.grantWait hn] at hr
    | deadClose => simp [hs.grantWait hn] at hr
    | openOp => simp [hs.grantWait hn] at hr
  · cases k <;> exact hs.whole

/-- An operation has been granted to the berth, but it does not time it yet. -/
structure SoundBegun (g : Prop) (e : BerthId → Prop) (x : SectionId) (b : BerthId) (k : OpKind) (s : State) : Prop extends
    SoundEnding g e b k s where
  sec : s.secOf b = x
  runs : (s.ledger.view b).runs = some k

theorem SoundBegun.of_ledger (hs : SoundBegun g e x b k s) (hl : t.ledger = s.ledger) : SoundBegun g e x b k t where
  but := by rw [hl]; exact hs.but.of_ledger hl
  asks := by rw [hl]; exact hs.asks
  state := by rw [hl]; exact hs.state
  fits := by rw [hl]; exact hs.fits
  poised := by rw [hl]; exact hs.poised
  sec := (congrArg BerthPart.sec (congrArg (·.berth b) hl)).trans hs.sec
  runs := by rw [hl]; exact hs.runs

theorem sound_beginGrant (hs : Sound g e s) (hc : Chosen x b k s) : SoundBegun g e x b k (beginGrant x b k s) := by
  obtain ⟨rfl, hr, hidle, hlock⟩ := hc
  have hf := hs.fits b
  have ho : (s.sec (s.secOf b)).op = none := by
    by_contra hn
    have hbusy := (hs.frame.arbitrated (s.secOf b)).mpr (Option.isSome_iff_ne_none.mpr hn)
    simp [State.ledger, SectionRec.part, hidle] at hbusy
  have hg := (hs.at b).granting hf ho hr
  have hsec : (granting (s.secOf b) b k s).secOf b = s.secOf b :=
    ((untouched_granting (s := s)).berths b).1
  have ha := hg.relock (f := lockAfterGrant b k (s.berth b) s.timings.lockLimit) (Changes.lockAfterGrant (A := (· = b)) rfl) fun c hc => by
    rw [hsec]; exact granting_lock hlock ho hc
  rw [hsec, ← beginGrant_eq] at ha
  have hopen : k = .openOp → (((lockAfterGrant b k (s.berth b) s.timings.lockLimit
      ((granting (s.secOf b) b k s).sec (s.secOf b)).lock).map (·.holder)) == some b) = false := by
    rintro rfl
    have hk := hg.locks
    rw [State.holdsLock, hsec] at hk
    exact hk.trans (Bool.and_false _)
  refine { but := ?_, asks := ?_, state := ?_, fits := ?_, poised := fun he => ?_, sec := ?_, runs := ?_ }
  · rw [ha.view]; exact ha
  · rw [ha.view]; exact View.begun_runs.1
  · rw [ha.view]; exact View.begun_runsIn (hf.request k hr)
  · rw [ha.view]; exact View.begun_fits hf hr hopen
  · rw [ha.view]; exact View.begun_poised hf (hs.settled b he) hr
  · rw [beginGrant_eq, updSec_secOf, hsec]
  · rw [ha.view]; exact View.begun_runs.2

/-- The berth times its operation. -/
theorem SoundBegun.timed (hs : SoundBegun g e x b k s) {n : Nat} : Sound g e (startInFlight b k.flight n s) := by
  have hf := hs.fits
  have hst := hs.state
  have hrun : ∀ {j}, (s.ledger.view b).runs = some j → k = j := fun hj => Option.some.inj (hs.runs.symm.trans hj)
  have hfl : k.flight ≠ .converterStart ∧ k.flight ≠ .deadWait ∧ k.flight ≠ .holdHandshake := by
    cases k <;> simp [OpKind.flight]
  refine hs.but.startInFlight.sound ⟨hf.lock, hf.request, fun j hj => ?_, fun hn => ?_, fun hn => ?_, fun hn => ?_,
    fun hn => by simp [hfl.1, hfl.2.1] at hn, fun hn => by simp [hfl.2.2] at hn, hf.starts, hf.queued, hf.waiting⟩
    fun he => ?_
  · rw [← hrun hj]; exact ⟨hs.asks, rfl⟩
  · rcases hn with hn | hn <;> (obtain rfl := hrun hn; exact hst)
  · obtain rfl := hrun hn; exact hst
  · obtain rfl := hrun hn; exact hst
  · obtain ⟨h1, h2, h3⟩ := hs.poised he
    refine ⟨fun hn => ?_, fun hn => ?_, h1, h2, h3⟩ <;> dsimp only at hn ⊢ <;> rw [hs.runs] <;>
      cases k <;> simp_all [OpKind.runsIn]

theorem ledger_sendOperation : (sendOperation x b k s).1.ledger = s.ledger := by
  unfold sendOperation
  dsimp only
  split <;> exact ledger_send

/-- A grant whose frame is queued leaves the ledger sound; one whose frame is not is to end (R87). -/
theorem sound_grantOperation (hs : Sound g e s) (hc : Chosen x b k s) :
    ((grantOperation x b k s).2 = true → Sound g e (grantOperation x b k s).1) ∧
    ((grantOperation x b k s).2 = false → SoundBegun g e x b k (grantOperation x b k s).1) := by
  have hb := (sound_beginGrant hs hc).of_ledger (ledger_sendOperation (x := x) (b := b) (k := k))
  unfold grantOperation
  split <;> rename_i hu <;> rw [hu] at hb
  · exact ⟨fun _ => hb.timed, fun hn => by simp at hn⟩
  · exact ⟨fun hn => by simp at hn, fun _ => hb⟩

theorem sound_choiceTurn (hs : Sound g e s) : ((choiceTurn x s).2 = none → Sound g e (choiceTurn x s).1) ∧
    ∀ b k, (choiceTurn x s).2 = some (b, k) → SoundBegun g e x b k (choiceTurn x s).1 := by
  obtain ⟨hc, hch⟩ := sound_choose (x := x) hs
  rcases hu : choose x s with ⟨t, - | ⟨b, k⟩⟩ <;> rw [hu] at hc hch
  · rw [choiceTurn_of_none hu]
    exact ⟨fun _ => hc, fun b k hn => by simp at hn⟩
  · obtain ⟨h1, h2⟩ := sound_grantOperation hc (hch b k rfl)
    rw [choiceTurn_of_some hu]
    cases hg : (grantOperation x b k t).2 with
    | true => exact ⟨fun _ => h1 hg, fun c j hn => by simp at hn⟩
    | false =>
      refine ⟨fun hn => by simp at hn, fun c j hn => ?_⟩
      obtain ⟨rfl, rfl⟩ : b = c ∧ k = j := by simpa using hn
      exact h2 hg

/-! ## The choices of an event (R85, R90) -/

theorem SoundBegun.finish (hs : SoundBegun g e x b k s) (hh : HooksSound g h) :
    Sound g e (finishOperation h x b k o s) :=
  hs.toSoundEnding.finishOperation hh (by rw [hs.runs]; simp) hs.sec

theorem sound_earlyLoop {n : Nat} (hs : Sound g e s) : Sound g e (earlyLoop x n s) := by
  induction n generalizing s with
  | zero => exact hs
  | succ n ih =>
    obtain ⟨h1, h2⟩ := sound_choiceTurn (x := x) hs
    unfold earlyLoop
    split <;> rename_i hu <;> rw [hu] at h1 h2
    · exact h1 rfl
    · exact ih ((h2 _ _ rfl).finish .quiet)

/-- The end of an operation and the choice that follows it leave the ledger sound (R90). -/
theorem sound_endThen {n : Nat} {more : State → State} (hm : ∀ {u}, Sound g e u → Sound g e (more u))
    (hs : ∀ {h}, HooksSound g h → Sound g e (finishOperation h x b k o s)) : Sound g e (endThen x n more b k o s) := by
  unfold endThen
  dsimp only
  split
  · exact hm (hs .quiet)
  · exact sound_earlyLoop (hs .noChoice)

theorem sound_choiceLoop {n : Nat} (hs : Sound g e s) : Sound g e (choiceLoop x n s) := by
  induction n generalizing s with
  | zero => exact hs
  | succ n ih =>
    obtain ⟨h1, h2⟩ := sound_choiceTurn (x := x) hs
    unfold choiceLoop
    split <;> rename_i hu <;> rw [hu] at h1 h2
    · exact h1 rfl
    · exact sound_endThen ih fun hh => (h2 _ _ rfl).finish hh

theorem sound_runChoice (hs : Sound g e s) : Sound g e (runChoice x s) := sound_choiceLoop hs

theorem HooksSound.live : HooksSound g Hooks.live where
  choice := fun _ hs => sound_runChoice hs
  early := fun _ hs => sound_earlyLoop hs
  passes := fun hs => sound_runPasses hs
  calm := closed_calmAt.live
  busyChoice := fun hb => (runChoice_of_done (choiceTurn_of_none (choose_of_busy (by rw [hb]; simp)))).1
  busyEarly := fun hb => (runChoice_of_done (choiceTurn_of_none (choose_of_busy (by rw [hb]; simp)))).2

/-- The end of an operation in flight leaves the ledger sound (R90). -/
theorem sound_endOperation (hs : Sound g e s) (hr : s.opOf b = some k) : Sound g e (endOperation b k o s) :=
  sound_endThen sound_runChoice fun hh =>
    (soundEnding_of_runs hs hr).finishOperation hh (by rw [view_runs, hr]; simp) rfl

end Sys2Proof.Machine
end

-- ==== Requests over a sound ledger ====
section
/-! PROOFS. The requests of the ship and of the control room keep the ledger sound (R4 to R12, R22, R67, R73). -/

namespace Sys2Proof.Machine

variable {g : Prop} {e : BerthId → Prop} {b c : BerthId} {v w : View} {s t : State} {x : SectionId} {h : Hooks} {n : Nat}

/-! ## Berths at rest -/

/-- Outside the states in which operations run, a berth runs none. -/
theorem View.Fits.runs_none (hf : v.Fits g) (h1 : v.state ≠ .closing) (h2 : v.state ≠ .opening) (h3 : ¬v.onRamp) :
    v.runs = none := by
  by_contra hn
  obtain ⟨k, hk⟩ := Option.ne_none_iff_exists'.mp hn
  cases k with
  | syncClose => exact h1 (hf.closing (.inl hk))
  | deadClose => exact h1 (hf.closing (.inr hk))
  | step => exact h3 (hf.stepping hk)
  | openOp => exact h2 (hf.opening hk)

/-- A berth of a sound ledger that neither asks, runs nor waits. -/
theorem Sound.rest (hs : Sound g e s) (h1 : s.request b = none) (h2 : s.opOf b = none)
    (h3 : (s.berth b).state ≠ .queued) : SoundRest g e b s :=
  ⟨hs, h1, h2, (hs.fits b).queued_eq_false h3⟩

/-! ## Joining and re-queue (R67, R73) -/

theorem leaveState_queue (hn : (s.berth b).state ≠ .queued) : ((leaveState b s).sec x).queue = (s.sec x).queue := by
  rw [leaveState_eq]
  split
  next hq => exact absurd hq hn
  · cases x <;> rfl
  · rfl

theorem enterState_quiet_queue {new : BerthState} (hn : (s.berth b).state ≠ .queued) :
    ((enterState .quiet b new s).sec x).queue = (s.sec x).queue := by
  have hm : ((clearInFlight b (reevaluate b (moveTo b new s))).sec x).queue = (s.sec x).queue := by
    rw [clearInFlight_sec, reevaluate_sec, moveTo, updBerth_sec, leaveState_queue hn]
  unfold enterState releaseLock dropLock
  dsimp only
  split
  · rfl
  · split
    · split
      · refine Eq.trans ?_ hm
        simp only [Hooks.quiet, updSec_sec]
        split
        next hx => rw [hx]
        next => rfl
      · exact hm
    · exact hm

/-- A berth with nothing left joins its section's queue. -/
theorem SoundAt.joinQueue (ha : SoundAt g e b v s) (hf : v.Fits g) (hr : v.Rests) (hg : g → v.grant = 0 ∧ v.bay = none)
    (hps : ¬e b → v.pause ≠ some .grantWait) (hne : v.state ≠ .queued)
    (hn : n ≤ (s.sec (s.secOf b)).queue.length) : Sound g e (joinQueue b n s) := by
  have hsec : (Machine.enterState .quiet b .queued s).secOf b = s.secOf b := enterState_quiet_secOf
  have hq := (ha.enterQuiet hf.placed hne).insert (n := n)
    (by rw [hsec, enterState_quiet_queue (by rw [ha.state]; exact hne)]; exact hn) rfl
  rw [hsec] at hq
  refine SoundAt.sound (hq.of_ledger (ledger_callPass.trans (ledger_updBerth rfl))) ⟨?_, ?_, ?_, ?_, ?_, ?_, ?_, ?_, ?_, ?_,
    fun hg' _ => hg hg'⟩ fun he => View.Poised.settled ⟨fun hp => absurd hp (hps he), fun hg' _ => hg hg', fun hg' => ?_⟩
      (by simp [View.enter]) (by simp [View.enter])
  · simp [View.enter, BerthState.mayLock]
  · simp [View.enter, hr.asks]
  · simp [View.enter, hr.runs]
  · simp [View.enter, hr.runs]
  · simp [View.enter, hr.runs]
  · simp [View.enter, hr.runs]
  · simp [View.enter]
  · simp [View.enter]
  · simp [View.enter]
  · simp [View.enter]
  · exact ha.faulty_of_bay (hg hg').2

theorem giveUp_queue : ((giveUp b s).sec x).queue = (s.sec x).queue := by
  rw [giveUp, releaseGrant_sec.2.1, endHold_sec, clearInFlight_sec, withdrawRequest_sec]
  rfl

theorem giveUp_secOf : (giveUp b s).secOf b = s.secOf b := by
  rw [giveUp, State.secOf, releaseGrant_berth]
  simp only [endHold_berth, clearInFlight, updBerth_berth_same]
  rw [State.berth, withdrawRequest_berths]
  rfl

/-- A berth in ADMITTED, whatever its bay, is queued again. -/
theorem SoundAt.requeue (ha : SoundAt g e b v s) (hf : v.Fits g) (hst : v.state = .admitted)
    (hps : ¬e b → v.pause ≠ some .grantWait) (hn : n ≤ (s.sec (s.secOf b)).queue.length) : Sound g e (requeue b n s) := by
  obtain ⟨hruns, -, hq⟩ := hf.admitted hst
  have hgive : SoundAt g e b v.givenUp (giveUp b s) := ha.givenUp
  exact hgive.joinQueue (hf.givenUp hruns) ⟨rfl, hruns, hq⟩ (fun _ => ⟨rfl, rfl⟩) hps (by simp [View.givenUp, hst])
    (by rw [giveUp_secOf, giveUp_queue]; exact hn)

theorem sound_requeue (hs : Sound g e s) (hst : (s.berth b).state = .admitted)
    (hn : n ≤ (s.sec (s.secOf b)).queue.length) : Sound g e (requeue b n s) :=
  (hs.at b).requeue (hs.fits b) hst
    (fun he => (hs.settled b he).no_grantWait (hs.fits b) (by rw [view_state, hst]; simp)) hn

theorem requeue_queue (hst : (s.berth b).state = .admitted) :
    ((requeue b n s).sec (s.secOf b)).queue = (s.sec (s.secOf b)).queue.insertIdx n b := by
  have hgive : ((giveUp b s).berth b).state ≠ .queued := by rw [giveUp_state, hst]; simp
  have hsec : (giveUp b s).secOf b = s.secOf b := giveUp_secOf
  show ((joinQueue b n (giveUp b s)).sec (s.secOf b)).queue = _
  rw [joinQueue, callPass_sec, updBerth_sec, hsec, updSec_sec_same]
  dsimp only
  rw [enterState_quiet_queue hgive, giveUp_queue]

/-- Re-queues of berths in ADMITTED of one section, each behind those before it (R73). -/
theorem sound_requeueAll {l : List BerthId} (hs : Sound g e s) (hl : l.Nodup)
    (hst : ∀ b ∈ l, s.secOf b = x ∧ (s.berth b).state = .admitted) : Sound g e (requeueAll l s) := by
  have all : ∀ (l : List BerthId) (n : Nat) {u : State}, Sound g e u → l.Nodup →
      (∀ b ∈ l, u.secOf b = x ∧ (u.berth b).state = .admitted) → n ≤ (u.sec x).queue.length →
      Sound g e ((l.zipIdx n).foldl (fun t b => requeue b.1 b.2 t) u) := by
    intro l
    induction l with
    | nil => exact fun _ _ hu _ _ _ => hu
    | cons b l ih =>
      intro n u hu hnd hall hn
      obtain ⟨⟨rfl, hb⟩, hall'⟩ := List.forall_mem_cons.mp hall
      obtain ⟨hbl, hnd'⟩ := List.nodup_cons.mp hnd
      refine ih (n + 1) (sound_requeue hu hb hn) hnd' (fun c hc => ?_) ?_
      · have hrec : (requeue b n u).berth c = u.berth c :=
          (Changes.othersKept b u).requeue rfl (fun _ _ => rfl) c fun hcb => hbl (hcb ▸ hc)
        rw [State.secOf, hrec]
        exact hall' c hc
      · rw [requeue_queue hb, List.length_insertIdx_of_le_length hn]
        omega
  exact all l 0 hs hl hst (Nat.zero_le _)

/-! ## Between events -/

/-- The ledger is sound, every berth settled. -/
abbrev AllSound (g : Prop) (s : State) : Prop := Sound g (fun _ => False) s

theorem AllSound.settled (hs : AllSound g s) : (s.ledger.view b).Settled g := Ledger.Sound.settled hs b id

/-- A berth without capacity has nothing, and rests unless it is queued. -/
theorem AllSound.idle (hs : AllSound g s) (hc : (s.berth b).state.holdsCapacity = false) :
    (g → (s.berth b).grant = 0 ∧ (s.berth b).bay = none) ∧
      ((s.berth b).state ≠ .queued → SoundRest g (fun _ => False) b s) := by
  obtain ⟨h1, h2, -, -⟩ := (hs.fits b).rests (show (s.ledger.view b).state.holdsCapacity = false from hc)
  exact ⟨fun hg => hs.settled.capacity hg hc, fun hq => hs.rest h1 h2 hq⟩

/-! ## Asking and giving up (R5 to R7) -/

theorem sound_askShore (hs : AllSound g s) : AllSound g (askShore b s).2 := by
  unfold askShore
  split
  · exact hs
  next hst =>
    have hst : (s.berth b).state = .proved := not_not.mp hst
    split
    · exact hs
    · split
      · exact hs
      · split
        · exact hs
        · obtain ⟨hg, hr⟩ := hs.idle (b := b) (by rw [hst]; rfl)
          have hrest := hr (by rw [hst]; simp)
          exact (hs.at b).joinQueue (hs.fits b) hrest.rests hg
            (fun _ => hs.settled.pause_of_asks hrest.rests.asks) (by rw [view_state, hst]; simp) le_rfl

/-- What is left of a berth in ADMITTED that has given its admission back, when the passes have run. -/
structure GivenBack (g : Prop) (e : BerthId → Prop) (b : BerthId) (w : View) (t : State) : Prop where
  at' : SoundAt g e b w t
  fits : w.Fits g
  rests : w.Rests
  state : w.state = .admitted
  empty : w.grant = 0 ∧ w.bay = none
  pause : ¬e b → w.pause ≠ some .grantWait

theorem GivenBack.of_ledger (hw : GivenBack g e b w s) (hl : t.ledger = s.ledger) : GivenBack g e b w t :=
  ⟨hw.at'.of_ledger hl, hw.fits, hw.rests, hw.state, hw.empty, hw.pause⟩

/-- A berth in ADMITTED gives its admission back, what it does to the hold between leaving the ledger as it is (R7, R16,
R30). -/
theorem sound_giveBack (hs : AllSound g s) (hst : (s.berth b).state = .admitted) {f : State → State}
    (hf : ∀ u, (f u).ledger = u.ledger) : ∃ w, GivenBack g (fun _ => False) b w
      (s |> withdrawRequest b |> clearInFlight b |> f |> releaseGrant b |> Hooks.live.passes) := by
  have hfit := hs.fits b
  obtain ⟨hruns, -, hq⟩ := hfit.admitted (v := s.ledger.view b) hst
  have hgive : SoundAt g (fun _ => False) b (s.ledger.view b).givenUp
      (s |> withdrawRequest b |> clearInFlight b |> f |> releaseGrant b) :=
    (((hs.at b).withdrawRequest.clearInFlight).of_ledger (hf _)).releaseGrant
  obtain ⟨l, st, q, hpass, hfit'⟩ := hgive.passes .live (hfit.givenUp hruns) ⟨rfl, hruns, hq⟩
  exact ⟨_, hpass, hfit', ⟨rfl, hruns, hq⟩, hst, ⟨rfl, rfl⟩,
    fun _ => hs.settled.no_grantWait hfit (by rw [view_state, hst]; simp)⟩

/-- From there it enters a state without capacity. -/
theorem GivenBack.enterState (hw : GivenBack g e b w s) (hh : HooksSound g h) {new : BerthState}
    (hc : new.holdsCapacity = false) (hq : new ≠ .queued) :
    SoundRest g e b (enterState h b new s) ∧ ((enterState h b new s).ledger.view b).state = new :=
  hw.at'.enterEmpty hh hw.fits hw.rests hw.empty hw.pause
    (by rw [hw.state]; rintro rfl; simp [BerthState.holdsCapacity] at hc) hc hq

theorem sound_withdraw (hs : AllSound g s) : AllSound g (withdraw b s).2 := by
  unfold withdraw
  split
  next hst => exact (sound_enterIdle hs (by rw [hst]; rfl) rfl (by simp)).1
  next hst =>
    obtain ⟨w, hw⟩ := sound_giveBack hs hst fun u => ledger_endHold (b := b) (s := u)
    exact (hw.enterState .live rfl (by simp)).1.sound
  all_goals exact hs

/-! ## The morning release (R8, R113) -/

theorem sound_endGensOffWait (hs : Sound g e s) (hr : s.opOf b = none) : Sound g e (endGensOffWait b s) ∧
    (endGensOffWait b s).opOf b = none ∧ (endGensOffWait b s).request b = s.request b ∧
    ((endGensOffWait b s).berth b).state = (s.berth b).state := by
  unfold endGensOffWait
  split
  · have hv := ((hs.at b).clearInFlight.of_ledger
      (ledger_noticeBerth (b := b) (k := .gensNotOff) (d := [2#8])))
    exact ⟨(sound_clearInFlight hs hr).of_ledger ledger_noticeBerth, hv.runs.trans hr, hv.asks, hv.state⟩
  · exact ⟨hs, hr, rfl, rfl⟩

theorem sound_morningRelease (hs : AllSound g s) (hst : (s.berth b).state = .onShore) :
    AllSound g (morningRelease .live b s).2 := by
  have hr : s.opOf b = none := (hs.fits b).runs_none (by rw [view_state, hst]; simp) (by rw [view_state, hst]; simp)
    (by rw [View.onRamp, view_state, hst]; simp)
  obtain ⟨h1, h2, h3, h4⟩ := sound_endGensOffWait (b := b) hs hr
  have hst' := h4.trans hst
  unfold morningRelease
  split
  · exact hs
  · split
    · exact hs
    next hreq =>
      split
      · have hf := h1.fits b
        have hset := AllSound.settled (b := b) h1
        have hfl : ((endGensOffWait b s).ledger.view b).flying ≠ some .holdHandshake := fun hn => by
          have := hf.shaking hn
          rw [view_state, hst'] at this
          simp at this
        have hps := hset.no_grantWait hf (by rw [view_state, hst']; simp)
        exact (h1.at b).enterRequest .live (hf.ask h2 (.inl hst') (.inl hfl)) fun _ =>
          ⟨hset.closing, hset.opening, fun hn => absurd hn hps, hset.capacity, hset.whole⟩
      · split
        · have hask : s.request b = none := by
            by_contra hn
            obtain ⟨k, hk⟩ := Option.ne_none_iff_exists'.mp hn
            have := (hs.fits b).request k hk
            cases k <;> simp_all [View.mayAsk, view_state]
          have hrest := Sound.rest h1 (h3.trans hask) h2 (by rw [hst']; simp)
          obtain ⟨k1, k2, -⟩ := hrest.enterState .live (new := .rampOut) (by rw [view_state, hst']; simp) rfl (by simp)
            (by simp)
          exact k1.startHandshake k2 fun hl => (k1.of_ledger hl).releaseFailed .live (by rw [hl]; exact .inr k2)
        · exact hs

theorem sound_releaseWanted (hs : AllSound g s) : AllSound g (releaseWanted b s).2 := by
  unfold releaseWanted
  split
  next hst => exact sound_morningRelease hs hst
  next => exact hs

theorem sound_release (hs : AllSound g s) : AllSound g (release b s).2 := by
  unfold release
  split
  next hst => exact sound_morningRelease hs hst
  next => exact sound_withdraw hs

/-! ## SERVICE (R9, R10) -/

theorem ledger_updBerth_congr {f f' : Berth → Berth} (hf : (f (s.berth b)).part = (f' (s.berth b)).part) :
    (updBerth b f s).ledger = (updBerth b f' s).ledger := by
  refine ledger_congr (fun c => ?_) (fun _ => rfl) (fun _ => ⟨rfl, rfl⟩) rfl
  rw [updBerth_berth, updBerth_berth]
  split
  · exact hf
  · rfl

/-- An adopted berth takes a bay in order, if any. -/
theorem SoundAt.adoptBay (ha : SoundAt g e b v s) (hv : g → v.bay = none) :
    ∃ o q, SoundAt g e b { v with bay := o, faulty := q } (adoptBay b s) ∧ (g → q = false) := by
  unfold Machine.adoptBay
  split
  · exact ⟨v.bay, v.faulty, ha, fun hg => ha.faulty_of_bay (hv hg)⟩
  next k hk =>
    have hfree : (s.bay k).state = .free := by
      have := List.find?_some hk
      simp only [Bool.and_eq_true, beq_iff_eq] at this
      exact this.1
    exact ⟨_, _, ha.claimBay (f := fun r => { r with state := .granted, berth := some b })
      (u := fun r => { r with bay := some k }) rfl hfree rfl rfl hv, fun _ => rfl⟩

theorem SoundAt.adopt (ha : SoundAt g e b v s) (hf : v.Fits g) (hst : v.state = .outOfService)
    (hcap : g → v.grant = 0 ∧ v.bay = none) : Sound g e (adopt b s) := by
  obtain ⟨h1, h2, h3, h4⟩ := hf.rests (by rw [hst]; rfl)
  have h5 := hf.queued_eq_false (by rw [hst]; simp)
  unfold Machine.adopt
  extract_lets vessel index profile grant x t
  have hgrant := ha.regrant (n := grant) (d := fun r => r.granted + grant)
    (f := fun r => { r with vessel := vessel, profile := index, grant := grant, cable := none }) rfl
    fun hg => by rw [(hcap hg).1]; rfl
  obtain ⟨o, q, hbay, hq⟩ := (hgrant.of_ledger (ledger_raiseOver (x := x))).adoptBay fun hg => (hcap hg).2
  have hramp := (hbay.updRamp (f := fun _ => Ramp.initial)).of_ledger (t := t) (ledger_updBerth_congr rfl)
  have hrests : View.Rests { v with
      stopped := true
      pause := none
      grant := grant
      bay := o
      faulty := q } := ⟨h1, h2, h5⟩
  obtain ⟨hrest, -, -⟩ := (hramp.of_ledger (ledger_noticeBerth (b := b) (k := .adopted)
    (d := [byte grant, bayByte (t.berth b).bay]))).enterRest (h := .live) (new := .onShore) .live
      ⟨by simp [h3], by simp [h5], by simp [h4]⟩ (by simp [hst]) hrests (hrests.enter (by simp))
      fun _ => View.Poised.settled ⟨fun hn => by simp [View.enter, Ramp.initial] at hn,
        fun _ hn => by simp [View.enter, BerthState.holdsCapacity] at hn, hq⟩ (by simp [View.enter]) (by simp [View.enter])
  exact hrest.sound

theorem sound_adopt (hs : AllSound g s) (hst : (s.berth b).state = .outOfService) : AllSound g (adopt b s) :=
  (hs.at b).adopt (hs.fits b) hst fun hg => hs.settled.capacity hg (by rw [view_state, hst]; rfl)

/-- A berth without capacity enters PLUGGED and proves its plug. -/
theorem sound_proveAgain (hs : Sound g e s) (hc : (s.berth b).state.holdsCapacity = false) :
    Sound g e (startProving b (enterState h b .plugged s)) := by
  obtain ⟨h1, h2⟩ := sound_enterIdle (h := h) hs hc (new := .plugged) rfl (by simp)
  exact sound_startProving (SoundPlugged.free ⟨h1, view_state.trans h2⟩)

theorem sound_service (hs : AllSound g s) : AllSound g (service b s).2 := by
  unfold service
  split
  · exact hs
  next hst =>
    have hst : (s.berth b).state = .outOfService := not_not.mp (not_or.mp hst).1
    have hc : (s.berth b).state.holdsCapacity = false := by rw [hst]; rfl
    split
    · dsimp only
      exact sound_adopt hs hst
    · split
      · have hl : (updBerth b (fun r => { r with vessel := none }) s).ledger = s.ledger := ledger_updBerth rfl
        exact sound_proveAgain (hs.of_ledger hl) (by rw [state_of_ledger hl]; exact hc)
      · exact (sound_enterIdle hs hc rfl (by simp)).1

/-! ## OUT_OF_SERVICE and ACK_TRIP (R12, R22) -/

/-- The dynamic fields of a berth that has neither grant nor bay are reset. -/
theorem SoundAt.resetDynamic (ha : SoundAt g e b v s) (hg : g → v.grant = 0 ∧ v.bay = none) :
    SoundAt g e b { v with
      state := .outOfService
      flying := none
      stopped := true
      pause := none
      grant := 0
      bay := none
      faulty := false } (updBerth b Berth.resetDynamic s) :=
  ha.berthReset (f := Berth.resetDynamic) rfl fun hgr =>
    ⟨(ha.grant.trans (hg hgr).1).symm, (ha.bay.trans (hg hgr).2).symm⟩

theorem sound_leaveService (hs : AllSound g s) (hc : (s.berth b).state.holdsCapacity = false) :
    AllSound g (leaveService b s) := by
  have hcap := fun hg => hs.settled.capacity hg (show (s.ledger.view b).state.holdsCapacity = false from hc)
  obtain ⟨h1, h2, h3, h4⟩ := (hs.fits b).rests (show (s.ledger.view b).state.holdsCapacity = false from hc)
  have hq := ((hs.at b).leaveQueue.of_ledger (t := refuseHeld .berthTripped b (unlinkCable b (leaveQueue b s)))
    (ledger_refuseHeld.trans ledger_unlinkCable)).resetDynamic hcap
  exact hq.sound (View.Rests.fits ⟨h1, h2, rfl⟩ h3 h4 (by simp) (by simp)) fun _ =>
    View.Poised.settled ⟨by simp, fun _ _ => ⟨rfl, rfl⟩, fun _ => rfl⟩ (by simp) (by simp)

theorem sound_outOfService (hs : AllSound g s) : AllSound g (outOfService b s).2 := by
  have leave : (s.berth b).state.holdsCapacity = false → AllSound g (leaveService b s) := sound_leaveService hs
  unfold outOfService
  split
  case h_8 hst =>
    split
    · exact leave (by rw [hst]; rfl)
    · exact hs
  case h_9 hst | h_10 hst | h_11 hst | h_12 hst => exact leave (by rw [hst]; rfl)
  all_goals exact hs

theorem sound_leaveTripped (hs : Sound g e s) (hc : (s.berth b).state.holdsCapacity = false) :
    Sound g e (leaveTripped b s) := by
  have hl : (unlinkCable b s).ledger = s.ledger := ledger_unlinkCable
  unfold leaveTripped
  dsimp only
  split
  · have hl' : (updBerth b (fun r => { r with profile := none, cable := none, provingPassed := false })
        (unlinkCable b s)).ledger = s.ledger := (ledger_updBerth rfl).trans hl
    exact sound_proveAgain (hs.of_ledger hl') (by rw [state_of_ledger hl']; exact hc)
  · exact (sound_enterIdle (hs.of_ledger hl) (by rw [state_of_ledger hl]; exact hc) rfl (by simp)).1

theorem sound_clearTrip (hs : Sound g e s) (hst : (s.berth b).state = .tripped) : Sound g e (clearTrip b s) := by
  have hl : (updBerth b (fun r => { r with tripCause := none, breakerFail := false }) s).ledger = s.ledger :=
    ledger_updBerth rfl
  have hc : (s.berth b).state.holdsCapacity = false := by rw [hst]; rfl
  have hs' := soundFree_of_idle (b := b) (hs.of_ledger hl) (by rw [state_of_ledger hl]; exact hc)
  refine (sound_leaveTripped (sound_clearInFlight hs'.1 hs'.2) ?_).of_ledger ledger_noticeBerth
  rw [clearInFlight, updBerth_berth_same]
  exact (congrArg _ (state_of_ledger hl)).trans hc

theorem sound_ackTrip (hs : AllSound g s) : AllSound g (ackTrip b s).2 := by
  unfold ackTrip
  split
  · exact hs
  next hst =>
    split
    · exact hs
    · split
      · exact hs
      · exact sound_clearTrip hs (not_not.mp hst)

end Sys2Proof.Machine
end

-- ==== Reports over a sound ledger ====
section
/-! PROOFS. The reports, and what they set going, keep the ledger sound (R14, R17 to R19, R36, R37, R66, R73, R76, R77, R79,
R80, R89, R94, R95, R107, R110, R111, R113, R115, R116). -/

namespace Sys2Proof.Machine

variable {g : Prop} {e : BerthId → Prop} {b c : BerthId} {v w : View} {s t : State} {x : SectionId} {h : Hooks} {n : Nat}
  {k : BayId}

/-! ## POSITION (R17 to R19, R36, R37) -/

/-- A berth that times anything but an operation runs none. -/
theorem opOf_none_of_flying (hs : Sound g e s) {i : InFlightKind} (hi : s.flying b = some i)
    (hk : ∀ k : OpKind, k.flight ≠ i) : s.opOf b = none := by
  by_contra hn
  obtain ⟨k, hr⟩ := Option.ne_none_iff_exists'.mp hn
  have hfl := ((hs.fits b).op k hr).2
  exact hk k (Option.some.inj (hfl.symm.trans hi))

theorem sound_tripOpen (hs : Sound g e s) (hst : (s.berth b).state = .tripped) : Sound g e (tripOpen b s) := by
  have hf := soundFree_of_idle hs (by rw [hst]; rfl : (s.berth b).state.holdsCapacity = false)
  obtain ⟨h1, h2⟩ := hf.of_ledger (ledger_sendTripOpen (b := b))
  exact sound_startInFlight h1 h2 (by simp [InFlightKind.loose])

theorem sound_unaskedPosition {p : Breaker} (hs : Sound g e s) : Sound g e (unaskedPosition b p s) := by
  unfold unaskedPosition
  split
  case h_1 | h_2 | h_3 | h_4 | h_5 | h_6 | h_7 | h_8 | h_10 | h_11 | h_12 => exact sound_trip hs .live
  case h_9 hst => exact sound_tripOpen hs hst
  all_goals exact hs

theorem sound_tripOpenFailed (hs : Sound g e s) (hr : s.opOf b = none) : Sound g e (tripOpenFailed b s) :=
  (sound_clearInFlight hs hr).of_ledger (ledger_noticeBerth.trans (ledger_updBerth rfl))

theorem sound_positionAtBerth {p : Breaker} (hs : Sound g e s) : Sound g e (positionAtBerth b p s) := by
  unfold positionAtBerth
  split
  next k hk =>
    split
    · exact sound_endOperation hs hk
    · exact sound_unaskedPosition hs
  next hr =>
    split
    · unfold tripOpenPosition
      split
      · exact sound_clearInFlight hs hr
      · exact sound_tripOpenFailed hs hr
      · exact sound_unaskedPosition hs
    · exact sound_unaskedPosition hs

theorem ledger_storePosition {i : EquipId} {p : Breaker} : (storePosition i p s).ledger = s.ledger :=
  ledger_congr (fun _ => rfl) (fun x => by cases x <;> rfl) (fun k => by cases k <;> exact ⟨rfl, rfl⟩) rfl

theorem sound_takePosition {f : Frame} {d : EquipEntry} (hs : Sound g e s) : Sound g e (takePosition f d s) := by
  unfold takePosition
  split
  · exact hs
  · split
    · exact hs
    · split
      · exact sound_positionAtBerth (hs.of_ledger ledger_storePosition)
      · exact hs.of_ledger ledger_storePosition
      · exact hs

/-! ## SYNC_RESULT and STEP_DONE (R89) -/

/-- The berth of an operation in flight is of the section. -/
theorem opOf_of_op (hs : Sound g e s) {k : OpKind} (ho : (s.sec x).op = some (b, k)) : s.secOf b = x ∧ s.opOf b = some k := by
  have hx : s.secOf b = x := by
    by_contra hn
    exact (hs.frame.own x b hn).2.1 (by simp [State.ledger, SectionRec.part, ho])
  refine ⟨hx, ?_⟩
  rw [← opFor_part, SecPart.opFor_eq_some, hx]
  exact ho

theorem sound_takeSyncResult {o : SyncOutcome} (hs : Sound g e s) : Sound g e (takeSyncResult x o s) := by
  have hs' : Sound g e (updSec x (fun r => { r with syncResult := some o }) s) := hs.of_ledger (ledger_updSec rfl)
  unfold takeSyncResult
  dsimp only
  split
  next ho => exact sound_endOperation hs' (opOf_of_op hs' ho).2
  next => exact hs'

theorem sound_takeStepDone {r : StepDoneReport} (hs : Sound g e s) : Sound g e (takeStepDone b r s) := by
  have hs' : Sound g e (observe b (fun o => { o with stepDone := some r }) s) := hs.of_ledger ledger_observe
  unfold takeStepDone
  dsimp only
  split
  next hk =>
    have hl : (updRamp b (fun c => { c with shoreSeen := some r.shoreLoad })
      (observe b (fun o => { o with stepDone := some r }) s)).ledger =
        (observe b (fun o => { o with stepDone := some r }) s).ledger := ledger_updBerth rfl
    exact sound_endOperation (hs'.of_ledger hl) (by rw [← view_runs, hl]; exact hk)
  next => exact hs'

/-! ## SHIP_STATE (R76, R77, R110, R111) -/

theorem sound_growGrant {load : Nat} (hs : Sound g e s) (hst : (s.berth b).state = .onShore)
    (hl : (s.berth b).grant < load) : Sound g e (growGrant b load s) := by
  have hf := hs.fits b
  have ha := (hs.at b).regrant (n := load) (f := fun r => { r with grant := load })
    (d := fun r => r.granted + (load - (s.berth b).grant)) rfl fun _ => by
      rw [view_grant]
      omega
  have hon : (s.ledger.view b).state = .onShore := hst
  refine SoundAt.sound (ha.of_ledger (ledger_noticeBerth.trans (ledger_updBerth rfl))) ⟨hf.lock, hf.request, hf.op,
    hf.closing, hf.opening, hf.stepping, hf.started, hf.shaking, hf.starts, hf.queued,
    fun _ hq => by simp [hon] at hq⟩ fun he => ?_
  obtain ⟨h1, h2, h3, -, h5⟩ := hs.settled b he
  exact ⟨h1, h2, h3, fun _ hn => by simp [hon, BerthState.holdsCapacity] at hn, h5⟩

theorem sound_compareLoad {load : Nat} (hs : Sound g e s) (hst : (s.berth b).state = .onShore) :
    Sound g e (compareLoad b load s) := by
  unfold compareLoad
  dsimp only
  split
  · exact hs.of_ledger (ledger_updBerth rfl)
  next hl =>
    split
    · exact sound_growGrant hs hst (not_le.mp hl)
    · unfold startOverdraw
      split
      · exact hs
      · exact hs.of_ledger (ledger_noticeBerth.trans (ledger_updBerth rfl))

/-- A berth in ADMITTED asks for its close. -/
theorem sound_askClose (hs : AllSound g s) (hst : (s.berth b).state = .admitted) {k : OpKind}
    (hk : View.mayAsk (s.ledger.view b) k) : AllSound g (enterRequest .live b k s) := by
  have hf := hs.fits b
  have hset := AllSound.settled (b := b) hs
  have hps := hset.no_grantWait hf (by rw [view_state, hst]; simp)
  exact (hs.at b).enterRequest .live (hf.ask (hf.admitted hst).1 hk (.inr hst)) fun _ =>
    ⟨hset.closing, hset.opening, fun hn => absurd hn hps, hset.capacity, hset.whole⟩

theorem sound_gensOffSeen {r : ShipStateReport} (hs : Sound g e s) : Sound g e (gensOffSeen b r s) := by
  unfold gensOffSeen
  split
  next hw =>
    exact (sound_clearInFlight hs (opOf_none_of_flying hs hw.1 fun k => by cases k <;> simp [OpKind.flight])).of_ledger
      ledger_noticeBerth
  next => exact hs

theorem sound_deadBusSeen {r : ShipStateReport} (hs : AllSound g s) : AllSound g (deadBusSeen b r s) := by
  unfold deadBusSeen
  split
  next hw =>
    have hst : (s.ledger.view b).state = .admitted := (hs.fits b).started (.inr hw.1)
    exact sound_askClose hs hst hst
  next => exact hs

theorem sound_takeShipState {r : ShipStateReport} (hs : AllSound g s) : AllSound g (takeShipState b r s) := by
  have hs' : AllSound g (updRamp b (fun c => { c with shoreSeen := some r.shoreLoad })
      (observe b (fun o => { o with shipState := some r }) s)) :=
    hs.of_ledger ((ledger_updBerth rfl).trans ledger_observe)
  unfold takeShipState
  dsimp only
  split
  next hst => exact sound_deadBusSeen (sound_gensOffSeen (sound_compareLoad hs' hst))
  next => exact sound_deadBusSeen (sound_gensOffSeen hs')

/-! ## HOLD_STATE (R107, R113, R115, R116) -/

theorem sound_holdInAdmitted {a : HoldAnswer} (hs : AllSound g s) (hst : (s.berth b).state = .admitted) :
    AllSound g (holdInAdmitted b a s) := by
  unfold holdInAdmitted
  split
  · have hl : (updBerth b (fun r => { r with
        holdGranted := true
        inFlight := r.inFlight.map fun i => { i with timer := s.timings.hold } }) s).ledger = s.ledger :=
      ledger_updBerth (by simp [Berth.part, Function.comp_def])
    have hst' := (state_of_ledger (b := b) hl).trans hst
    exact sound_askClose (hs.of_ledger hl) hst' hst'
  · exact sound_changeoverFailure hs .live hst
  · exact sound_changeoverFailure hs .live hst
  all_goals exact hs

/-- A handshake in RAMP_OUT that ends leaves the berth at rest there. -/
theorem sound_endHandshake (hs : Sound g e s) (hst : (s.berth b).state = .rampOut)
    (hfl : s.flying b = some .holdHandshake) : SoundRamp g e b (clearInFlight b s) := by
  have hr := opOf_none_of_flying hs hfl fun k => by cases k <;> simp [OpKind.flight]
  have hask : s.request b = none := by
    rcases (hs.fits b).shaking hfl with hn | hn
    · rw [view_state, hst] at hn; simp at hn
    · exact hn.2
  have hv := (hs.at b).clearInFlight.view
  have hq := (hs.fits b).queued_eq_false (by rw [view_state, hst]; simp)
  refine ⟨⟨sound_clearInFlight hs hr, ?_⟩, ?_, ?_⟩ <;> rw [hv]
  · exact ⟨hask, hr, hq⟩
  · exact .inr hst
  · simp

theorem sound_rampOutHoldFailed {k : ReleaseFailure} (hs : Sound g e s) (hst : (s.berth b).state = .rampOut)
    (hfl : s.flying b = some .holdHandshake) : Sound g e (rampOutHoldFailed b k s) := by
  have hr := sound_endHandshake hs hst hfl
  unfold rampOutHoldFailed
  dsimp only
  split
  · exact hr.abortRampOut .live hr.ramp
  · exact hr.releaseFailed .live hr.ramp

theorem sound_holdInRampOut {a : HoldAnswer} (hs : Sound g e s) (hst : (s.berth b).state = .rampOut)
    (hfl : s.flying b = some .holdHandshake) : Sound g e (holdInRampOut b a s) := by
  unfold holdInRampOut
  split
  · have hl : (updBerth b (fun r => { r with holdGranted := true }) s).ledger = s.ledger := ledger_updBerth rfl
    exact SoundRamp.startRamp (sound_endHandshake (hs.of_ledger hl) ((state_of_ledger hl).trans hst)
      (by rw [← view_flying, hl]; exact hfl)) .live
  · exact sound_rampOutHoldFailed hs hst hfl
  · exact hs

theorem ledger_clearHoldOn {a : HoldAnswer} : (clearHoldOn b a s).ledger = s.ledger := by
  unfold clearHoldOn
  split
  · exact ledger_updBerth rfl
  · rfl

theorem sound_holdInRamp {a : HoldAnswer} (hs : Sound g e s) (hst : (s.ledger.view b).onRamp)
    (hfl : s.flying b ≠ some .holdHandshake) : Sound g e (holdInRamp b a s) := by
  unfold holdInRamp
  dsimp only
  split
  · split
    · exact sound_resumeRamp hs .live hst hfl
    · exact hs
  · split
    · split
      · exact sound_withdrawHold hs .live
      · exact hs
    · split
      · exact hs.of_ledger ledger_clearHoldOn
      · exact hs

theorem sound_takeHoldState {a : HoldAnswer} (hs : AllSound g s) : AllSound g (takeHoldState b a s) := by
  have hs' : AllSound g (observe b (fun o => { o with holdState := some a }) s) := hs.of_ledger ledger_observe
  unfold takeHoldState
  generalize observe b (fun o => { o with holdState := some a }) s = t at hs' ⊢
  unfold holdAtBerth
  split
  next hst =>
    split
    · exact sound_holdInAdmitted hs' hst
    · exact hs'
  next =>
    unfold holdInClosing
    split
    · exact hs'.of_ledger (ledger_updBerth rfl)
    · exact hs'.of_ledger ledger_clearHoldOn
  next hst =>
    refine sound_holdInRamp hs' (.inl hst) fun hn => ?_
    have hsh := (hs'.fits b).shaking hn
    rw [view_state, hst] at hsh
    simp at hsh
  next hst =>
    split
    next hfl => exact sound_holdInRampOut hs' hst hfl
    next hfl => exact sound_holdInRamp hs' (.inr hst) hfl
  next => exact hs'.of_ledger ledger_clearHoldOn
  all_goals exact hs'

/-! ## VESSEL_ID (R14) -/

theorem sound_newVesselProved {i : Num32} (hs : Sound g e s) (hst : (s.berth b).state = .proved) :
    Sound g e (newVesselProved b i s) := by
  unfold newVesselProved
  split
  · exact hs.of_ledger (ledger_updBerth rfl)
  · have hl : (updBerth b (fun r => { r with vessel := some i, profile := none }) s).ledger = s.ledger := ledger_updBerth rfl
    exact (sound_enterIdle (hs.of_ledger hl) (by rw [state_of_ledger hl, hst]; rfl) rfl (by simp)).1.of_ledger
      ledger_noticeBerth

theorem sound_takeVesselId {i : Num32} (hs : Sound g e s) : Sound g e (takeVesselId b i s) := by
  have hs' : Sound g e (observe b (fun o => { o with vesselId := some i }) s) := hs.of_ledger ledger_observe
  unfold takeVesselId
  generalize observe b (fun o => { o with vesselId := some i }) s = t at hs' ⊢
  unfold vesselAtBerth
  dsimp only
  split
  next hst =>
    have hl : (updBerth b (fun r => { r with vessel := some i }) t).ledger = t.ledger := ledger_updBerth rfl
    split
    · exact sound_seekProfile ⟨hs'.of_ledger hl, by rw [hl]; exact hst⟩
    · exact hs'.of_ledger hl
  next hst =>
    split
    · exact hs'
    · exact sound_newVesselProved hs' hst
  next =>
    split
    · exact hs'.of_ledger (ledger_updBerth rfl)
    · exact hs'
  all_goals exact hs'

/-! ## CONVERTER_STATE (R66, R106) -/

theorem ledger_bayFaultedNotice {o : Option BerthId} : (bayFaultedNotice k o s).ledger = s.ledger := by
  unfold bayFaultedNotice
  split
  · exact ledger_noticeBerth
  · exact ledger_noticePlain

theorem View.Fits.faulty (hf : v.Fits g) {q : Bool} : View.Fits g { v with faulty := q } :=
  ⟨hf.lock, hf.request, hf.op, hf.closing, hf.opening, hf.stepping, hf.started, hf.shaking, hf.starts, hf.queued, hf.waiting⟩

theorem View.Settled.faulty (hs : v.Settled g) {q : Bool} (hq : g → q = false) : View.Settled g { v with faulty := q } :=
  ⟨hs.closing, hs.opening, hs.grantWait, hs.capacity, hq⟩

/-- A change of a bay that no berth has, and that no berth gets. -/
theorem sound_bayChanged {f : BayRec → BayRec} (hs : AllSound g s) (hk : g → (s.bay k).berth = none)
    (hf : g → (f (s.bay k)).berth = none) (hst : g → (f (s.bay k)).state ≠ .granted) : AllSound g (updBay k f s) := by
  have hnone : g → (s.ledger.view 0).bay ≠ some k := fun hg hn => by
    have hb : (s.bay k).berth = some 0 := (hs.frame.named hg k 0).mpr hn
    rw [hk hg] at hb
    simp at hb
  have ha := (hs.at 0).bayChanged (k := k) (f := f) (fun hg => by rw [hk hg, hf hg]) (fun hg hn => absurd hn (hst hg))
    (fun hg _ => hk hg) fun hg c _ => by rw [hk hg]; simp
  refine ha.sound (hs.fits 0).faulty fun _ => hs.settled.faulty fun hg => ?_
  rw [← (AllSound.settled (b := 0) hs).whole hg]
  exact faulty_change (k := k) (p := s.ledger.bay) (p' := (updBay k f s).ledger.bay)
    (fun j hj => by rw [ledger_updBay_bay, if_neg hj]) (hnone hg)

theorem ledger_report {r : Option ConverterReport} : (updBay k (fun t => { t with report := r }) s).ledger = s.ledger :=
  ledger_updBay rfl rfl

/-- A FAULTED bay is no berth's between events. -/
theorem berth_none_of_faulted (hs : AllSound g s) (hg : g) (hk : (s.bay k).state ≠ .granted) : (s.bay k).berth = none := by
  by_contra hn
  obtain ⟨b, hb⟩ := Option.ne_none_iff_exists'.mp hn
  have hbay : (s.ledger.view b).bay = some k := (hs.frame.named hg k b).mp hb
  have hw := (AllSound.settled (b := b) hs).whole hg
  have hfl : (s.ledger.view b).faulty = (s.ledger.view b).bay.any fun k => (s.ledger.bay k).1 != .granted := rfl
  rw [hfl, hbay] at hw
  simp [State.ledger] at hw
  exact hk hw

theorem sound_recoverBay (hs : AllSound g s) (hk : (s.bay k).state = .faulted) : AllSound g (recoverBay k s) :=
  (sound_bayChanged (f := fun r => { r with state := .free, berth := none }) hs
    (fun hg => berth_none_of_faulted hs hg (by simp [hk])) (fun _ => rfl) fun _ => by simp).of_ledger
    (ledger_callPass.trans ledger_callPass)

theorem sound_faultBay (hs : AllSound g s) (hk : g → (s.bay k).berth = none) : AllSound g (faultBay k s) :=
  (sound_bayChanged (f := fun r => { r with state := .faulted }) hs hk hk fun _ => by simp).of_ledger
    ledger_bayFaultedNotice

/-- What the fault of its bay leaves of the berth that has it. -/
theorem SoundAt.faultBay (ha : SoundAt g e b v s) (hk : g → (s.bay k).berth = some b) :
    ∃ q, SoundAt g e b { v with faulty := q } (faultBay k s) :=
  ⟨_, (ha.bayChanged (f := fun r => { r with state := .faulted }) (fun _ => rfl) (fun _ hn => by simp at hn)
    (fun _ hn => by simp at hn) fun hg c hc => by rw [hk hg]; simpa using hc.symm).of_ledger ledger_bayFaultedNotice⟩

theorem sound_holderFaulted (hs : AllSound g s) (hk : (s.bay k).berth = some b) :
    AllSound g (holderFaulted b (faultBay k s)) := by
  obtain ⟨q, ha⟩ := (hs.at b).faultBay fun _ => hk
  have hf := (hs.fits b).faulty (q := q)
  have hset := AllSound.settled (b := b) hs
  have hst : ((faultBay k s).berth b).state = (s.ledger.view b).state := ha.state
  unfold holderFaulted
  rw [hst]
  split
  next hadm =>
    exact ha.requeue hf hadm (fun _ => hset.no_grantWait (hs.fits b) (by rw [hadm]; simp)) (Nat.zero_le _)
  next hadm =>
    split
    next hc =>
      refine ha.trip .live hf (fun hn => ?_) fun _ _ hn => ?_ <;> dsimp only at hn
      · rw [hn] at hc; simp [BerthState.closingToOpening] at hc
      · cases hv : (s.ledger.view b).state <;> simp_all [BerthState.closingToOpening, BerthState.holdsCapacity]
    next hc =>
      refine ha.sound hf fun _ => hset.faulty fun hg => ?_
      have hbay : (s.ledger.view b).bay = some k := (hs.frame.named hg k b).mp hk
      have hcap : (s.ledger.view b).state.holdsCapacity = false := by
        cases hv : (s.ledger.view b).state <;> simp_all [BerthState.closingToOpening, BerthState.holdsCapacity]
      rw [(hset.capacity hg hcap).2] at hbay
      simp at hbay

theorem sound_converterRunning (hs : Sound g e s) : Sound g e (converterRunning b s) := by
  unfold converterRunning
  split
  next hfl =>
    have hst : (s.berth b).state = .admitted := (hs.fits b).started (.inl hfl)
    refine sound_startMethod (sound_clearInFlight hs ((hs.fits b).admitted hst).1) .live ?_
    rw [((hs.at b).clearInFlight).state]
    exact hst
  next => exact hs

theorem sound_converterAtBay {r : ConverterReport} (hs : AllSound g s) : AllSound g (converterAtBay k r s) := by
  unfold converterAtBay
  dsimp only
  split
  · split
    · split
      · exact hs
      · exact sound_converterRunning hs
    · exact hs
  next hk =>
    split
    · exact hs
    · exact sound_recoverBay hs hk
  next hk => exact sound_faultBay hs fun hg => hs.frame.free hg k hk
  next hk =>
    split
    next b hb => exact sound_holderFaulted hs hb
    next hb => exact sound_faultBay hs fun _ => hb
  all_goals exact hs

theorem sound_takeConverterState {f : Frame} {d : EquipEntry} (hs : AllSound g s) : AllSound g (takeConverterState f d s) := by
  unfold takeConverterState
  split
  · split
    · exact sound_converterAtBay (hs.of_ledger ledger_report)
    · exact hs
  · exact hs

/-! ## FEEDER_STATE (R79, R80) -/

theorem sound_trips {l : List BerthId} {cause : TripCause} (hs : Sound g e s) :
    Sound g e (l.foldl (fun u b => trip .quiet b cause none u) s) := by
  induction l generalizing s with
  | nil => exact hs
  | cons b l ih => exact ih (sound_trip hs .quiet)

theorem sound_feederLost (hs : Sound g e s) : Sound g e (feederLost x s) := by
  unfold feederLost
  extract_lets t busy u w
  have ht : Sound g e t := hs.of_ledger (ledger_noticeSection.trans (ledger_updSec rfl))
  have hu : Sound g e u := sound_trips ht
  have hw : Sound g e w := by
    refine sound_requeueAll (x := x) hu ((List.nodup_finRange 8).filter _) fun b hb => ?_
    simpa using (List.mem_filter.mp hb).2
  split
  · exact sound_runChoice hw
  · exact hw

theorem sound_takeFeederState {live : Bool} (hs : Sound g e s) : Sound g e (takeFeederState x live s) := by
  have ht : Sound g e (callPass x (updSec x (fun r => { r with feeder := .live }) s)) :=
    hs.of_ledger (ledger_callPass.trans (ledger_updSec rfl))
  unfold takeFeederState
  split
  · unfold feederLive
    dsimp only
    split
    · exact ht.of_ledger ledger_noticeSection
    · exact ht
    · exact hs
  · split
    · exact hs
    · exact sound_feederLost hs

/-! ## The local panel (R94, R95) -/

theorem sound_localClaim (hs : Sound g e s) : Sound g e (localClaim x s) := by
  refine hs.of_ledger (ledger_updSec ?_)
  unfold SectionRec.claim
  split <;> simp_all [SectionRec.part]

theorem sound_localRelease (hs : Sound g e s) : Sound g e (localRelease x s) := by
  unfold localRelease
  split
  next hp => exact sound_runChoice (hs.of_ledger (ledger_updSec (by simp [SectionRec.part, hp])))
  all_goals exact hs.of_ledger (ledger_updSec rfl)

end Sys2Proof.Machine
end

-- ==== Lines and expiries over a sound ledger ====
section
/-! PROOFS. What the lines and the timers do keeps the ledger sound (R13, R16, R24 to R33, R37, R45, R66, R69, R78, R89, R91,
R93, R99, R103, R106, R107, R110, R111, R113, R116, R118). -/

namespace Sys2Proof.Machine

variable {g : Prop} {e : BerthId → Prop} {b c : BerthId} {v w : View} {s t : State} {x : SectionId} {h : Hooks} {n : Nat}
  {k : BayId}

/-! ## Fault lines (R24, R28 to R33) -/

theorem ledger_lineEventActivation {l : FaultLine} {st : BerthState} : (lineEventActivation b l st s).ledger = s.ledger :=
  ledger_noticeBerth

theorem sound_activateFault {l : FaultLine} {effect : State → State}
    (he : ∀ {u}, AllSound g u → AllSound g (effect u)) (hs : AllSound g s) : AllSound g (activateFault b l effect s) := by
  unfold activateFault
  dsimp only
  split
  · exact hs
  · split
    · exact he (hs.of_ledger ((ledger_updBerth rfl).trans ledger_updLine))
    · exact hs.of_ledger ledger_updLine

theorem sound_estopEffect (hs : Sound g e s) : Sound g e (estopEffect b s) := by
  unfold estopEffect
  split
  case h_1 | h_2 => exact hs.of_ledger ledger_lineEventActivation
  case h_12 => exact hs
  all_goals exact sound_trip hs .live

/-- From an admission given back, or from a state without capacity, the berth is proved again. -/
theorem sound_pilotReturn (hs : AllSound g s)
    (hst : (s.berth b).state = .admitted ∨ (s.berth b).state.holdsCapacity = false) : AllSound g (pilotReturn b s) := by
  have hl : ∀ {u : State}, (updBerth b (fun r => { r with profile := none, cable := none, provingPassed := false }) u).ledger =
      u.ledger := ledger_updBerth rfl
  unfold pilotReturn
  dsimp only
  split
  next had =>
    obtain ⟨w, hw⟩ := sound_giveBack hs had fun u => ledger_endHold (b := b) (s := u)
    obtain ⟨h1, h2⟩ := (hw.of_ledger hl).enterState .live (new := .plugged) rfl (by simp)
    exact (sound_startProving (SoundPlugged.free ⟨h1.sound, h2⟩)).of_ledger ledger_lineEventActivation
  next had =>
    exact (sound_proveAgain (hs.of_ledger hl) (by rw [state_of_ledger hl]; exact hst.resolve_left had)).of_ledger
      ledger_lineEventActivation

theorem sound_pilotEffect (hs : AllSound g s) : AllSound g (pilotEffect b s) := by
  have back := sound_pilotReturn (b := b) hs
  unfold pilotEffect
  split
  case h_5 hst | h_6 hst => exact back (.inr (by rw [hst]; rfl))
  case h_7 hst => exact back (.inl hst)
  case h_1 | h_2 | h_3 | h_4 => exact hs
  all_goals exact sound_trip hs .live

theorem sound_strainEffect (hs : Sound g e s) : Sound g e (strainEffect b s) :=
  hs.of_ledger (ledger_lineEventActivation.trans ledger_updLine)

theorem sound_expireStrain (hs : Sound g e s) : Sound g e (expireStrain b s) := by
  have ht : Sound g e (updLine b (fun r => { r with strainTimer := none }) s) := hs.of_ledger ledger_updLine
  unfold expireStrain
  split
  · dsimp only
    split
    · exact sound_trip ht .live
    · exact ht.of_ledger ledger_noticeBerth
  · exact hs

/-! ## LATCH (R13, R16, R27) -/

theorem sound_activateLatch (hs : Sound g e s) : Sound g e (activateLatch b s) := by
  have hl : (stampLatch b s).ledger = s.ledger := (ledger_updBerth rfl).trans ledger_updLine
  unfold activateLatch
  split
  · exact hs
  · dsimp only
    split
    next hst =>
      have hl' : (updBerth b (fun r => { r with vessel := none, profile := none, cable := none }) (stampLatch b s)).ledger =
          (stampLatch b s).ledger := ledger_updBerth rfl
      exact sound_proveAgain ((hs.of_ledger hl).of_ledger hl') (by rw [state_of_ledger hl', hst]; rfl)
    next => exact hs.of_ledger hl

theorem ledger_unplugged {u : State} : (updBerth b (fun r => { r with
    provingPassed := false, provingStep := .idle, comparison := 0#5 }) (unlinkCable b u)).ledger = u.ledger :=
  (ledger_updBerth rfl).trans ledger_unlinkCable

theorem sound_unplug (hs : Sound g e s) (hc : (s.berth b).state.holdsCapacity = false) : Sound g e (unplug b s) := by
  have hf := soundFree_of_idle hs hc
  have hu : (clearInFlight b s |> unlinkCable b |> updBerth b (fun r => { r with
    provingPassed := false, provingStep := .idle, comparison := 0#5 })).ledger = (clearInFlight b s).ledger :=
      ledger_unplugged
  refine (sound_enterIdle ((sound_clearInFlight hf.1 hf.2).of_ledger hu) ?_ rfl (by simp)).1
  rw [state_of_ledger hu, ((hs.at b).clearInFlight).state]
  exact hc

theorem GivenBack.unplug (hw : GivenBack g e b w s) : Sound g e (unplug b s) := by
  have hf := hw.fits
  have hclear : GivenBack g e b { w with flying := none } (clearInFlight b s) :=
    ⟨hw.at'.clearInFlight, View.Fits.mk hf.lock hf.request (fun k hk => by simp [hw.rests.runs] at hk) hf.closing hf.opening
      hf.stepping (fun hn => by simp at hn) (fun hn => by simp at hn) hf.starts hf.queued hf.waiting,
      ⟨hw.rests.asks, hw.rests.runs, hw.rests.queued⟩, hw.state, hw.empty, hw.pause⟩
  exact ((hclear.of_ledger ledger_unplugged).enterState .live rfl (by simp)).1.sound

theorem sound_deactivateLatch (hs : AllSound g s) : AllSound g (deactivateLatch b s) := by
  unfold deactivateLatch
  split
  · exact hs
  · have ht : AllSound g (updLine b (fun r => { r with latch := { r.latch with level := .inactive } }) s) :=
      hs.of_ledger ledger_updLine
    dsimp only
    generalize updLine b (fun r => { r with latch := { r.latch with level := .inactive } }) s = u at ht ⊢
    unfold latchLostEffect
    split
    case h_1 | h_2 => exact ht
    case h_3 hst | h_4 hst | h_5 hst => exact sound_unplug ht (by rw [hst]; rfl)
    case h_6 hst =>
      obtain ⟨w, hw⟩ := sound_giveBack ht hst (f := updBerth b (fun r => { r with holdGranted := false }))
        fun u => ledger_updBerth rfl
      exact hw.unplug
    case h_12 => exact ht.of_ledger ledger_unlinkCable
    all_goals exact sound_trip ht .live

/-! ## The berth's in-flight record -/

theorem flying_of_due {i : InFlightKind} (hd : s.flyingDue b i = true) : s.flying b = some i := by
  obtain ⟨r, hr, hk, -⟩ := flyingDue_iff_exists.mp hd
  rw [State.flying, hr, ← hk]
  rfl

theorem sound_expireCoreTest (hs : Sound g e s) : Sound g e (expireCoreTest b s) := by
  unfold expireCoreTest
  split
  next hd =>
    have hr : s.opOf b = none := by
      rcases (Bool.or_eq_true _ _).mp hd with hd | hd <;>
        exact opOf_none_of_flying hs (flying_of_due hd) fun k => by cases k <;> simp [OpKind.flight]
    exact sound_failRun ⟨hs, hr⟩
  next => exact hs

theorem sound_expireTripOpen (hs : Sound g e s) : Sound g e (expireTripOpen b s) := by
  unfold expireTripOpen
  split
  next hd =>
    exact sound_tripOpenFailed hs (opOf_none_of_flying hs (flying_of_due hd) fun k => by cases k <;> simp [OpKind.flight])
  next => exact hs

theorem sound_expireOperation (hs : Sound g e s) : Sound g e (expireOperation b s) := by
  unfold expireOperation
  split
  next k hk =>
    split
    · exact sound_endOperation hs hk
    · exact hs
  next => exact hs

theorem sound_expireConverterStart (hs : AllSound g s) : AllSound g (expireConverterStart b s) := by
  unfold expireConverterStart
  split
  next hd =>
    have hst : (s.ledger.view b).state = .admitted := (hs.fits b).started (.inl (flying_of_due hd))
    split
    next k hk =>
      obtain ⟨q, ha⟩ := (hs.at b).faultBay fun hg => (hs.frame.named hg k b).mpr hk
      exact ha.requeue (hs.fits b).faulty hst
        (fun _ => hs.settled.no_grantWait (hs.fits b) (by rw [hst]; simp)) (Nat.zero_le _)
    next => exact sound_clearInFlight hs ((hs.fits b).admitted hst).1
  next => exact hs

theorem sound_expireHold (hs : AllSound g s) : AllSound g (expireHold b s) := by
  unfold expireHold
  split
  next hd =>
    have hfl := flying_of_due hd
    split
    next hst => exact sound_rampOutHoldFailed hs hst hfl
    next hst =>
      have hadm := ((hs.fits b).shaking hfl).resolve_right fun hn => hst hn.1
      exact sound_changeoverFailure hs .live hadm
  next => exact hs

theorem sound_expireDeadWait (hs : AllSound g s) : AllSound g (expireDeadWait b s) := by
  unfold expireDeadWait
  split
  next hd => exact sound_changeoverFailure hs .live ((hs.fits b).started (.inr (flying_of_due hd)))
  next => exact hs

theorem sound_expireGensOff (hs : Sound g e s) : Sound g e (expireGensOff b s) := by
  unfold expireGensOff
  split
  next hd =>
    exact (sound_clearInFlight hs (opOf_none_of_flying hs (flying_of_due hd) fun k => by
      cases k <;> simp [OpKind.flight])).of_ledger ledger_noticeBerth
  next => exact hs

/-! ## The ramp channel's pause-limit timer (R103, R116) -/

theorem pause_of_timer {r : PauseRole} (hp : (s.berth b).ramp.pauseTimer = some (r, n)) :
    (s.ledger.view b).pause = some r := view_pause.mpr ⟨n, hp⟩

/-- A berth whose step waits for a grant is in a ramp, with neither operation nor handshake. -/
theorem sound_expireGrantWait (hs : AllSound g s) : AllSound g (expireGrantWait b s) := by
  unfold expireGrantWait
  split
  next hp =>
    have hf := hs.fits b
    have hset := AllSound.settled (b := b) hs
    have hask := hset.grantWait (pause_of_timer hp)
    have hst : (s.ledger.view b).onRamp := hf.request .step hask
    have hr : (s.ledger.view b).runs = none := by
      by_contra hn
      obtain ⟨k, hk⟩ := Option.ne_none_iff_exists'.mp hn
      have := (hf.op k hk).1
      rw [hask] at this
      simp at this
    have hfl : (s.ledger.view b).flying ≠ some .holdHandshake := fun hn => by
      rcases hf.shaking hn with hn | hn
      · rcases hst with h | h <;> simp [hn] at h
      · rw [hask] at hn; simp at hn
    have hq := hf.queued_eq_false (by rcases hst with h | h <;> simp [h])
    have ha := ((hs.at b).updRamp (f := fun r => { r with pauseTimer := none })).withdrawRequest
    have hramp : SoundRamp g (fun _ => False) b
        (withdrawRequest b (updRamp b (fun r => { r with pauseTimer := none }) s)) := by
      refine ⟨⟨ha.sound ⟨hf.lock, fun k hk => by simp at hk, fun k hk => by simp [hr] at hk, hf.closing, hf.opening,
        hf.stepping, hf.started, fun hn => absurd hn hfl, hf.starts, hf.queued, hf.waiting⟩ fun _ =>
          ⟨hset.closing, hset.opening, fun hn => by simp at hn, hset.capacity, hset.whole⟩, ?_⟩, ?_, ?_⟩ <;> rw [ha.view]
      · exact ⟨rfl, hr, hq⟩
      · exact hst
      · exact hfl
    exact hramp.stepFailed .live
  next => exact hs

theorem sound_expirePause (hs : Sound g e s) : Sound g e (expirePause b s) := by
  unfold expirePause
  split
  next hp =>
    refine sound_abortRamp hs .live fun hst hn => ?_
    have hm := (hs.fits b).request .openOp hn
    rw [View.mayAsk, pause_of_timer hp] at hm
    rcases hst with h | h <;> simp [h] at hm
  next => exact hs

/-! ## Overdraw, and the section's timers (R78, R93, R99) -/

theorem sound_expireOverdraw (hs : Sound g e s) : Sound g e (expireOverdraw b s) := by
  unfold expireOverdraw
  split
  · split
    · exact hs.of_ledger ((ledger_updBerth rfl).trans (ledger_noticeBerth.trans ledger_send))
    · exact sound_trip hs .live
  · exact hs

theorem sound_expireSpacing (hs : Sound g e s) : Sound g e (expireSpacing x s) := by
  unfold expireSpacing
  split
  · exact sound_runChoice (hs.of_ledger (ledger_updSec rfl))
  · exact hs

theorem ledger_demote : (demote b s).ledger = s.ledger := by
  unfold demote
  split <;> exact ledger_updBerth rfl

theorem sound_expireLock (hs : Sound g e s) : Sound g e (expireLock x s) := by
  unfold expireLock
  split
  · split
    · exact sound_runChoice ((sound_dropLock hs).of_ledger (ledger_demote.trans ledger_noticeBerth))
    · exact hs
  · exact hs

/-! ## The start of a changeover (R69, R106) -/

theorem sound_startOldest (hs : AllSound g s) : AllSound g (startOldest s) := by
  unfold startOldest
  split
  · exact hs
  next b rest hq =>
    have hf := hs.fits b
    have hst : (s.ledger.view b).state = .admitted := hf.starts (view_starts.mpr (by simp [hq]))
    have hset := AllSound.settled (b := b) hs
    refine sound_startChangeover (((hs.at b).popStart hq).sound ⟨hf.lock, hf.request, hf.op, hf.closing, hf.opening,
      hf.stepping, hf.started, hf.shaking, fun hn => by simp at hn, hf.queued, hf.waiting⟩ fun _ =>
        ⟨hset.closing, hset.opening, hset.grantWait, hset.capacity, hset.whole⟩) .live hst

end Sys2Proof.Machine
end

-- ==== Every event over a sound ledger ====
section
/-! PROOFS. The tables' writes, the clock, power-on and RESTART keep the ledger sound too; so every event does, and what the
arbiters, the grants and the bays hold agrees with the berths after every step (R63 to R66, R81 to R99, R126, R148 to R152,
R164, R165). -/

namespace Sys2Proof.Machine

variable {g : Prop} {e : BerthId → Prop} {b c : BerthId} {v w : View} {s t : State} {x : SectionId} {h : Hooks} {n : Nat}
  {k : BayId}

/-! ## Writes (R126, R140, R161 to R163) -/

theorem ledger_forgetEntry {d : EquipEntry} : (forgetEntry d s).ledger = s.ledger := by
  unfold forgetEntry
  split
  · exact ledger_observe
  · exact ledger_observe
  · exact ledger_updSec rfl
  · exact ledger_report
  · rfl

theorem ledger_equipment {l : Vector (Option EquipEntry) 64} : ({ s with equipment := l } : State).ledger = s.ledger :=
  ledger_congr (fun _ => rfl) (fun x => by cases x <;> rfl) (fun k => by cases k <;> exact ⟨rfl, rfl⟩) rfl

theorem ledger_putEntry {n : Fin 64} {new : Option EquipEntry} : (putEntry n new s).ledger = s.ledger := by
  unfold putEntry
  split
  · exact ledger_equipment
  · split
    · split
      · exact ledger_equipment
      · exact ledger_forgetEntry.trans ledger_equipment
    · exact ledger_forgetEntry.trans ledger_equipment

theorem ledger_writeEquipment {n : Fin 64} {l : List Byte} : (writeEquipment n l s).2.ledger = s.ledger := by
  unfold writeEquipment
  split
  · rfl
  · dsimp only
    split
    · rfl
    · split
      · rfl
      · exact ledger_putEntry

theorem ledger_gate {l : Vector GateEntry 48} : ({ s with gate := l } : State).ledger = s.ledger :=
  ledger_congr (fun _ => rfl) (fun x => by cases x <;> rfl) (fun k => by cases k <;> exact ⟨rfl, rfl⟩) rfl

theorem ledger_writeGate {n : Fin 48} {l : List Byte} : (writeGate n l s).2.ledger = s.ledger := by
  unfold writeGate
  split
  · rfl
  · dsimp only
    exact (ledger_forBerths fun _ _ => ledger_reevaluate).trans ledger_gate

theorem ledger_writeCables {n : Fin 32} {l : List Byte} : (writeCables n l s).2.ledger = s.ledger := by
  unfold writeCables
  split
  · rfl
  · split
    · rfl
    · split
      · rfl
      · split
        · rfl
        · exact ledger_updCable

theorem ledger_writeTimings {n : Fin 1} {l : List Byte} : (writeTimings n l s).2.ledger = s.ledger := by
  unfold writeTimings
  dsimp only
  split
  · exact ledger_congr (fun _ => rfl) (fun x => by cases x <;> rfl) (fun k => by cases k <;> exact ⟨rfl, rfl⟩) rfl
  · rfl

theorem ledger_writeLines {l : List Byte} : (writeLines b l s).2.ledger = s.ledger := by
  unfold writeLines
  split
  · rfl
  · exact ledger_updLine

theorem ledger_writeDevice {n : Fin 1} {l : List Byte} : (writeDevice n l s).2.ledger = s.ledger := by
  unfold writeDevice
  dsimp only
  split
  · exact ledger_congr (fun _ => rfl) (fun x => by cases x <;> rfl) (fun k => by cases k <;> exact ⟨rfl, rfl⟩) rfl
  · rfl

theorem ledger_changeLimit : (changeLimit x n s).ledger = s.ledger := by
  unfold changeLimit
  split
  · rfl
  · exact ledger_callPass.trans (ledger_lowerOver.trans (ledger_raiseOver.trans (ledger_updSec rfl)))

theorem ledger_changeBypassLimit : (changeBypassLimit x n s).ledger = s.ledger := by
  unfold changeBypassLimit
  split
  · rfl
  · exact ledger_callPass.trans (ledger_updSec rfl)

theorem ledger_writeSections {n : Fin 2} {l : List Byte} : (writeSections n l s).2.ledger = s.ledger := by
  unfold writeSections
  dsimp only
  split
  · rfl
  · split
    · dsimp only
      exact ledger_changeBypassLimit.trans (ledger_changeLimit.trans (ledger_updSec rfl))
    · rfl

/-- Of a berth that rests without the lock no section holds anything. -/
theorem SoundAt.unheld (ha : SoundAt g e b v s) (hr : v.Rests) (hl : v.locks = false) (y : SectionId) :
    (s.ledger.sec y).requests b = none ∧ (s.ledger.sec y).op.map (·.1) ≠ some b ∧ (s.ledger.sec y).holder ≠ some b ∧
      b ∉ (s.ledger.sec y).queue := by
  by_cases hy : s.secOf b = y
  · subst hy
    have hlock : ¬s.holdsLock b = true := by rw [ha.locks, hl]; simp
    exact ⟨ha.asks.trans hr.asks, opOf_eq_none_iff.mp (ha.runs.trans hr.runs), fun hn => hlock (holdsLock_iff.mpr hn),
      fun hn => by simpa [hr.queued] using ha.queued.mpr hn⟩
  · exact ha.frame.own y b hy

/-- A berth that rests, without the lock and without a grant, is assigned to another section. -/
theorem SoundAt.assign (ha : SoundAt g e b v s) (hr : v.Rests) (hl : v.locks = false) (hg : g → v.grant = 0) :
    SoundAt g e b v (updBerth b (fun r => { r with sec := x }) s) := by
  have hun := ha.unheld hr hl
  have hberth : ∀ c, (updBerth b (fun r => { r with sec := x }) s).ledger.berth c =
      if c = b then { s.ledger.berth b with sec := x } else s.ledger.berth c := fun c => by
    simp only [State.ledger, updBerth_berth]
    split <;> rfl
  refine ha.change ⟨ha.frame.arbitrated, fun y c hc => ?_, ha.frame.queues, ha.frame.starts, fun hgr y => ?_,
    ha.frame.granted, ha.frame.free, fun hgr k c => ?_⟩ (fun c hc => ?_) ?_
  · rw [hberth] at hc
    by_cases hcb : c = b
    · rw [hcb]; exact hun y
    · rw [if_neg hcb] at hc; exact ha.frame.own y c hc
  · refine (ha.frame.sums hgr y).trans (congrArg List.sum (List.map_congr_left fun c _ => ?_))
    rw [hberth]
    by_cases hcb : c = b
    · have hzero : (s.ledger.berth b).grant = 0 := ha.grant.trans (hg hgr)
      rw [if_pos hcb, hcb, hzero]
      simp
    · rw [if_neg hcb]
  · refine (ha.frame.named hgr k c).trans ?_
    rw [hberth]
    by_cases hcb : c = b
    · rw [if_pos hcb, hcb]
    · rw [if_neg hcb]
  · exact Ledger.view_congr (by rw [hberth, if_neg hc]) rfl rfl rfl
  · obtain ⟨h1, h2, h3, h4⟩ := hun x
    have hold := ha.view
    obtain ⟨k1, k2, k3, k4⟩ := hun (s.ledger.berth b).sec
    rw [← hold]
    simp only [Ledger.view, hberth, if_true, View.mk.injEq]
    refine ⟨trivial, trivial, trivial, trivial, trivial, trivial, h1.trans k1.symm,
      (SecPart.opFor_eq_none.mpr h2).trans (SecPart.opFor_eq_none.mpr k2).symm, ?_, rfl, ?_, rfl⟩
    · exact (beq_eq_false_iff_ne.mpr h3).trans (beq_eq_false_iff_ne.mpr k3).symm
    · rw [Bool.eq_iff_iff, List.contains_iff_mem, List.contains_iff_mem]
      exact iff_of_false h4 k4

theorem sound_assigned (hs : AllSound g s) (hst : (s.berth b).state = .outOfService) :
    AllSound g (updBerth b (fun r => { r with sec := x }) s) := by
  have hc : (s.berth b).state.holdsCapacity = false := by rw [hst]; rfl
  obtain ⟨hg, hr⟩ := hs.idle hc
  exact ((hs.at b).assign (hr (by rw [hst]; simp)).rests ((hs.fits b).rests hc).2.2.1 fun h => (hg h).1).sound (hs.fits b)
    fun _ => hs.settled

theorem sound_writeBerths {l : List Byte} (hs : AllSound g s) : AllSound g (writeBerths b l s).2 := by
  unfold writeBerths
  split
  · exact hs
  · split
    next hst => exact sound_assigned hs hst
    next => exact hs

/-! ## PROFILES (R15, R61) -/

theorem sound_profileRemoved (hs : Sound g e s) : Sound g e (profileRemoved b s) := by
  have hl : (updBerth b (fun r => { r with profile := none }) s).ledger = s.ledger := ledger_updBerth rfl
  have lose : (s.berth b).state.holdsCapacity = false → Sound g e (loseProfile b s) := fun hc =>
    (sound_enterIdle (hs.of_ledger hl) (by rw [state_of_ledger hl]; exact hc) rfl (by simp)).1.of_ledger ledger_noticeBerth
  unfold profileRemoved
  split
  next hst => exact lose (by rw [hst]; rfl)
  next hst => exact lose (by rw [hst]; rfl)
  next =>
    split
    · exact hs.of_ledger (ledger_updBerth rfl)
    · exact hs
  all_goals exact hs

theorem sound_profileArrived {n : Fin 24} {old : Option Profile} {p : Profile} (hs : Sound g e s) :
    Sound g e (profileArrived n old p b s) := by
  unfold profileArrived
  dsimp only
  split
  next hst =>
    split
    · exact sound_seekProfile ⟨hs, hst⟩
    · exact hs
  next =>
    split
    · exact hs.of_ledger (ledger_updBerth rfl)
    · exact hs
  next =>
    split
    · exact hs.of_ledger ledger_callPass
    · exact hs
  all_goals exact hs

theorem sound_profileAtBerth {n : Fin 24} {old new : Option Profile} (hs : Sound g e s) :
    Sound g e (profileAtBerth n old new b s) := by
  unfold profileAtBerth
  extract_lets t
  have ht : Sound g e t := by
    show Sound g e (if _ then _ else _)
    split
    · exact sound_profileRemoved hs
    · exact hs
  split
  · exact sound_profileArrived ht
  · exact ht

theorem sound_forBerths {f : BerthId → State → State} (hf : ∀ {b u}, Sound g e u → Sound g e (f b u)) (hs : Sound g e s) :
    Sound g e (forBerths f s) := by
  unfold forBerths
  induction allBerths generalizing s with
  | nil => exact hs
  | cons a l ih => exact ih (hf hs)

theorem sound_writeProfiles {n : Fin 24} {l : List Byte} (hs : Sound g e s) : Sound g e (writeProfiles n l s).2 := by
  unfold writeProfiles
  split
  · exact hs
  next new _ =>
    have hl : ({ s with profiles := s.profiles.set n new } : State).ledger = s.ledger :=
      ledger_congr (fun _ => rfl) (fun x => by cases x <;> rfl) (fun k => by cases k <;> exact ⟨rfl, rfl⟩) rfl
    dsimp only
    split
    · exact hs
    · split
      · exact hs
      · split
        · exact hs
        · exact sound_forBerths sound_profileAtBerth (hs.of_ledger hl)

/-! ## The clock (R148 to R152) -/

theorem ledger_nightSummary : (nightSummary b s).ledger = s.ledger := by
  unfold nightSummary
  dsimp only
  split
  · exact ledger_noticeBerth.trans (ledger_updBerth rfl)
  · exact ledger_updBerth rfl

theorem ledger_clock {c : Clock} : ({ s with clock := c } : State).ledger = s.ledger :=
  ledger_congr (fun _ => rfl) (fun x => by cases x <;> rfl) (fun k => by cases k <;> exact ⟨rfl, rfl⟩) rfl

theorem ledger_housekeeping : (housekeeping s).ledger = s.ledger := by
  unfold housekeeping
  dsimp only
  exact ledger_cables.trans ((ledger_forBerths fun _ _ => ledger_updBerth rfl).trans
    (ledger_clock.trans (ledger_forBerths fun _ _ => ledger_nightSummary)))

theorem ledger_runBoundary : (runBoundary s).ledger = s.ledger := by
  unfold runBoundary
  split
  · exact ledger_housekeeping.trans ledger_clock
  · rfl

theorem ledger_setClockTo : (setClockTo n s).2.ledger = s.ledger := by
  unfold setClockTo
  split
  · dsimp only
    split
    · exact ledger_housekeeping.trans ledger_clock
    · exact ledger_clock
  · rfl

theorem ledger_tick : (tick s).ledger = s.ledger := by
  refine ledger_congr (fun c => ?_) (fun y => ?_) (fun k => by cases k <;> exact ⟨rfl, rfl⟩) rfl
  · have hb : (tick s).berth c = (s.berth c).tick := by simp [tick, State.berth]
    rw [hb]
    simp [Berth.part, Berth.tick, Ramp.tick, Function.comp_def]
  · have hy : (tick s).sec y = (s.sec y).tick := by cases y <;> rfl
    rw [hy]
    simp [SectionRec.part, SectionRec.tick, Function.comp_def]

theorem ledger_offerNotice : (offerNotice s).ledger = s.ledger := by
  unfold offerNotice
  split
  · split
    · exact ledger_congr (fun _ => rfl) (fun x => by cases x <;> rfl) (fun k => by cases k <;> exact ⟨rfl, rfl⟩) rfl
    · rfl
  · rfl

theorem ledger_expireHeld : (expireHeld b n s).ledger = s.ledger := by
  unfold expireHeld
  split
  · rfl
  · split
    · exact (ledger_of_sent sent_refuse).trans (ledger_updBerth rfl)
    · rfl

/-! ## Power-on and RESTART (R164, R165) -/

/-- A ledger in which nothing is held of any berth. -/
structure Ledger.Blank (l : Ledger) : Prop where
  berth : ∀ b, l.berth b = ⟨.outOfService, (l.berth b).sec, none, true, none, 0, none⟩
  sec : ∀ x, l.sec x = ⟨[], false, none, fun _ => none, none, 0⟩
  bay : ∀ k, l.bay k = (.free, none)
  starts : l.starts = []

/-- What is held of a berth that is out of service. -/
def View.blank : View := ⟨.outOfService, none, true, none, 0, none, none, none, false, false, false, false⟩

theorem Ledger.Blank.view {l : Ledger} (h : l.Blank) : l.view b = View.blank := by
  simp only [Ledger.view, h.sec, h.starts]
  rw [h.berth]
  rfl

theorem Ledger.Blank.sound {l : Ledger} (h : l.Blank) : l.Sound g e where
  frame := {
    arbitrated := fun x => by simp [h.sec]
    own := fun x b _ => by simp [h.sec]
    queues := fun x => by simp [h.sec]
    starts := by simp [h.starts]
    sums := fun _ x => by
      have hz : ∀ c, (l.berth c).grant = 0 := fun c => by rw [h.berth]
      rw [h.sec]
      simp [hz]
    granted := fun _ k hk => by simp [h.bay] at hk
    free := fun _ k _ => by rw [h.bay]
    named := fun _ k b => by rw [h.bay, h.berth]; simp }
  fits := fun b => by
    rw [h.view]
    exact View.Rests.fits ⟨rfl, rfl, rfl⟩ rfl rfl (by simp [View.blank]) (by simp [View.blank])
  settled := fun b _ => by
    rw [h.view]
    exact View.Poised.settled ⟨by simp [View.blank], fun _ _ => ⟨rfl, rfl⟩, fun _ => rfl⟩ (by simp [View.blank])
      (by simp [View.blank])

theorem initial_part : (Berth.initial x).part = ⟨.outOfService, x, none, true, none, 0, none⟩ := rfl

theorem section_initial_part {r : SectionRec} (h1 : r.queue = []) (h2 : r.arbiter = .partIdle) (h3 : r.op = none)
    (h4 : r.requests = Vector.replicate 8 none) (h5 : r.lock = none) (h6 : r.granted = 0) :
    r.part = ⟨[], false, none, fun _ => none, none, 0⟩ := by
  simp [SectionRec.part, h1, h2, h3, h4, h5, h6]

theorem blank_reset : State.reset.ledger.Blank where
  berth := fun b => by
    obtain ⟨y, hy⟩ := reset_berth b
    simp only [State.ledger, hy, initial_part]
  sec := fun x => by
    simp only [State.ledger, reset_sec]
    exact section_initial_part rfl rfl rfl rfl rfl rfl
  bay := fun k => by
    simp only [State.ledger, reset_bay]
    rfl
  starts := rfl

theorem sound_powerOn {found : Vector LineInputs 8} {l : List Instr} : AllSound g { State.powerOn found with pending := l } :=
  Sound.of_ledger blank_reset.sound
    (ledger_congr (fun _ => rfl) (fun x => by cases x <;> rfl) (fun k => by cases k <;> exact ⟨rfl, rfl⟩) rfl)

theorem blank_clearDynamic : (clearDynamic s).ledger.Blank where
  berth := fun b => by
    have hb : (clearDynamic s).berth b = (s.berth b).resetDynamic := by simp [clearDynamic, State.berth]
    simp only [State.ledger, hb]
    rfl
  sec := fun x => by
    have hx : (clearDynamic s).sec x = (s.sec x).restart := by cases x <;> rfl
    simp only [State.ledger, hx]
    exact section_initial_part rfl rfl rfl rfl rfl rfl
  bay := fun k => by
    have hk : (clearDynamic s).bay k = (s.bay k).restart := by cases k <;> rfl
    simp only [State.ledger, hk]
    rfl
  starts := rfl

theorem sound_restartPart {p : Port} {f : Frame} : AllSound g (restartPart p f s) := by
  have hn : ∀ {u : State}, ({ u with notices := [] } : State).ledger = u.ledger :=
    ledger_congr (fun _ => rfl) (fun x => by cases x <;> rfl) (fun k => by cases k <;> exact ⟨rfl, rfl⟩) rfl
  unfold restartPart
  dsimp only
  exact Sound.of_ledger blank_clearDynamic.sound
    (ledger_noticePlain.trans (hn.trans (ledger_sendReply.trans (ledger_forBerths fun _ _ => ledger_refuseHeld))))

/-! ## Every event -/

/-- Every event keeps the ledger sound. -/
theorem eventsKeep_sound (g : Prop) : EventsKeep (AllSound g) (AllSound g) where
  sent := fun h hs => hs.of_ledger (ledger_of_sent h)
  finish := fun hs => sound_runPasses hs
  idle := fun hs => hs
  powered := fun _ _ => sound_powerOn
  restarted := fun _ _ _ => sound_restartPart
  ticked := fun hs => hs.of_ledger ledger_tick
  boundary := fun hs => hs.of_ledger ledger_runBoundary
  offered := fun hs => hs.of_ledger ledger_offerNotice
  gated := fun _ _ _ _ hs => hs.of_ledger ledger_gateDecide
  faultCleared := fun _ _ hs => hs.of_ledger ledger_updLine
  heldExpired := fun _ _ hs => hs.of_ledger ledger_expireHeld
  askShore := fun _ hs => sound_askShore hs
  releaseWanted := fun _ hs => sound_releaseWanted hs
  withdraw := fun _ hs => sound_withdraw hs
  service := fun _ hs => sound_service hs
  outOfService := fun _ hs => sound_outOfService hs
  release := fun _ hs => sound_release hs
  ackTrip := fun _ hs => sound_ackTrip hs
  setClock := fun _ hs => hs.of_ledger ledger_setClockTo
  writeEquipment := fun _ _ hs => hs.of_ledger ledger_writeEquipment
  writeGate := fun _ _ hs => hs.of_ledger ledger_writeGate
  writeBerths := fun _ _ hs => sound_writeBerths hs
  writeSections := fun _ _ hs => hs.of_ledger ledger_writeSections
  writeProfiles := fun _ _ hs => sound_writeProfiles hs
  writeCables := fun _ _ hs => hs.of_ledger ledger_writeCables
  writeTimings := fun _ _ hs => hs.of_ledger ledger_writeTimings
  writeLines := fun _ _ hs => hs.of_ledger ledger_writeLines
  writeDevice := fun _ _ hs => hs.of_ledger ledger_writeDevice
  position := fun _ _ hs => sound_takePosition hs
  syncResult := fun _ _ hs => sound_takeSyncResult hs
  coreTest := fun _ _ hs => sound_takeCoreTest (hs.of_ledger ledger_observe)
  assignDone := fun _ _ hs => sound_takeAssignDone (hs.of_ledger ledger_observe)
  shipState := fun _ _ hs => sound_takeShipState hs
  stepDone := fun _ _ hs => sound_takeStepDone hs
  holdState := fun _ _ hs => sound_takeHoldState hs
  vesselId := fun _ _ hs => sound_takeVesselId hs
  converterState := fun _ _ hs => sound_takeConverterState hs
  feederState := fun _ _ hs => sound_takeFeederState hs
  localClaim := fun _ hs => sound_localClaim hs
  localRelease := fun _ hs => sound_localRelease hs
  estop := fun _ hs => sound_activateFault sound_estopEffect hs
  pilot := fun _ hs => sound_activateFault sound_pilotEffect hs
  strain := fun _ hs => sound_activateFault sound_strainEffect hs
  latched := fun _ hs => sound_activateLatch hs
  unlatched := fun _ hs => sound_deactivateLatch hs
  strainGrace := fun _ hs => sound_expireStrain hs
  tripOpen := fun _ hs => sound_expireTripOpen hs
  testTimeout := fun _ hs => sound_expireCoreTest hs
  operation := fun _ hs => sound_expireOperation hs
  spacing := fun _ hs => sound_expireSpacing hs
  lock := fun _ hs => sound_expireLock hs
  grantWait := fun _ hs => sound_expireGrantWait hs
  pause := fun _ hs => sound_expirePause hs
  converterStart := fun _ hs => sound_expireConverterStart hs
  oldest := fun hs => sound_startOldest hs
  hold := fun _ hs => sound_expireHold hs
  deadWait := fun _ hs => sound_expireDeadWait hs
  gensOff := fun _ hs => sound_expireGensOff hs
  overdraw := fun _ hs => sound_expireOverdraw hs

theorem sound_step (hs : AllSound g s) (h : step s = .next t) : AllSound g t :=
  (eventsKeep_sound g).of_step (fun _ hu => hu.of_ledger
    (ledger_congr (fun _ => rfl) (fun x => by cases x <;> rfl) (fun k => by cases k <;> exact ⟨rfl, rfl⟩) rfl)) hs h

/-- Settles O32: a state's arbiters are sound where its ledger is, and every event keeps the ledger sound. -/
theorem stepKeepsArbitersSound : Obligations.StepKeepsArbitersSound := fun _ _ hs h =>
  arbitersSound_of_sound (sound_step (g := False) (sound_of_invariants hs False.elim) h)

/-- Settles O40, by the same ledger with the grants and the bays looked at. -/
theorem stepKeepsGrantsAndBays : Obligations.StepKeepsGrantsAndBays := fun _ _ hs hg hb h =>
  agree_of_sound (sound_step (g := True) (sound_of_invariants hs fun _ => ⟨hg, hb⟩) h) trivial

end Sys2Proof.Machine
end
